-- ==== Sys2Proof/Word.lean ====
section
/-! DEFINITION. The plain types of the model: bytes, times and the numbers of doors, lines, originators, groups and slots. -/
namespace Sys2Proof

/-- A byte of the uplink or of a door line (11.1, 11.7). -/
abbrev Byte := BitVec 8

/-- A time or a duration, in ticks of 1/576000 s (log 3): a line character is 330 ticks, an uplink character 50. -/
abbrev Time := Nat

/-- Door numbers run 0–239 (0.5, R1). -/
abbrev DoorNo := Fin 240

/-- Line numbers 0–3 (0.5). -/
abbrev LineNo := Fin 4

/-- Originators 0–3 (R183). -/
abbrev OriginatorNo := Fin 4

/-- Group numbers 0–31 (R21). -/
abbrev GroupNo := Fin 32

/-- A request slot of an originator, 0 or 1 (10.3). -/
abbrev SlotNo := Fin 2

/-- A work-set entry number, 0–15 (R66). -/
abbrev EntryNo := Fin 16

/-- An exception slot, 0–15 (R107). -/
abbrev ExceptionNo := Fin 16

/-- A plan of a bank, 0–7 (6.6). -/
abbrev PlanNo := Fin 8

end Sys2Proof
end

