-- ==== Sys2Proof/Syntax.lean ====
section
/-! DEFINITION. The commands of the part: one constructor of `Instr` for each row of spec/opcode_table.json, with what the
outside supplies. A decision of the request handler (R189) has no operand of its own: its operands are the bytes of the frame
in the oldest WAITING slot, which State holds (log 2). -/
namespace Sys2Proof

/-- The readings of the supervised fire loop (7.1). -/
inductive FireInput where
  | normal
  | alarm
  | loopFault
  deriving DecidableEq, Repr

/-- The blocks whose order of acting on one event the spec does not fix (R14, R128, R142, R172, R176; log 6). -/
inductive Block where
  | lineController
  | watchTable
  | fireUnit
  | sweepEngine
  | pendingStart
  | schedule
  | exceptionTable
  deriving DecidableEq, Repr

/-- One 11-bit character received on a door line (R27): whether its start bit still held at its middle, its data and parity bits,
whether its stop bit was at mark, and the pause before it (R203): before the first character of a reply, the time since the end
of the frame sent. -/
structure LineChar where
  pause : Time
  startHeld : Bool
  data : Byte
  parity : Bool
  stopAtMark : Bool
  deriving DecidableEq, Repr

/-- What the line controller read back while it sent a frame (R28): every character as it was sent, or the characters it read,
whose pauses are not looked at. -/
inductive Readback where
  | asSent
  | chars (chars : List LineChar)
  deriving DecidableEq, Repr

/-- The commands. Each is one whole step of the part (95). `order` is the order in which blocks act where the spec fixes
none (log 6); blocks it does not name follow in the model's own order. -/
inductive Instr where
  -- power, reset and the uplink
  | powerUp
  | resetInputAsserted
  | resetInputReleased
  | frameAssembled (bytes : List Byte)
  | unknownRequest
  | uplinkFrameSent
  -- requests decided by the handler
  | loadDoor
  | withdrawDoor
  | restoreDoor
  | loadPlanStep
  | clearStagedPlan
  | commitPlans
  | loadScheduleEntry
  | setOriginator
  | setClock
  | startSweep
  | continueSweep
  | abandonSweep
  | abortSweep
  | createException
  | extendException
  | endException
  | armWatch
  | disarmWatch
  | fireRestore
  | clearLineFault
  | quietLine (order : List Block)
  | resumeLine
  | readDoor
  | readGroup
  | readLine
  | readSweepReport
  | readCatchUpList
  | readException
  | readPlan
  | readSchedule
  | readStatus
  | sense
  | restartPart
  -- door commands decided by the handler
  | throwBolt
  | retractBolt
  | pulse
  | holderEngage
  | holderRelease
  | pollNow
  -- door lines
  | lineFrameSent (line : LineNo) (readback : Readback)
  | lineReplyReceived (line : LineNo) (chars : List LineChar) (order : List Block)
  | replyWindowClosed (line : LineNo) (order : List Block)
  | receiverMark2ms (line : LineNo) (order : List Block)
  | fireBroadcastSent (line : LineNo) (readback : Readback) (order : List Block)
  | overloadReport (line : LineNo) (order : List Block)
  | confirmPollDue (line : LineNo)
  | motionDeadline (door : DoorNo)
  | probeTimerExpiry (line : LineNo)
  -- fire
  | fireInputChange (reading : FireInput)
  | filteredInputChange (order : List Block)
  | repeatTimerExpiry
  | incompleteTimerExpiry
  -- time
  | clockAdvance (order : List Block)
  | closeWaitDeadline (door : DoorNo)
  | suspendTimerExpiry
  | uplinkCharacterReceived (byte : Byte) (stopAtMark : Bool) (pause : Time)
  | powerFails
  | timebaseSecond
  deriving DecidableEq, Repr

end Sys2Proof
end

