-- ==== Sys2Proof/Config.lean ====
section
/-! DEFINITION. The fixed numbers of the part. The part has no free value: what the spec leaves open stands in the operands
of the commands (log 6) or in the log. -/
namespace Sys2Proof.Config

/-- Ticks of the model's time in one millisecond (log 3). -/
def msTicks : Nat := 576

/-- Ticks in one second. -/
def secondTicks : Nat := 576000

/-- Ticks in a tenth of a second, the step of the bolt time (1.1). -/
def tenthTicks : Nat := 57600

/-- One 11-bit character at 19,200 bit/s (R27). -/
def lineCharTicks : Nat := 330

/-- One 10-bit character at 115,200 bit/s (10.1). -/
def uplinkCharTicks : Nat := 50

/-- The reply window, 20 ms (R30). -/
def replyWindow : Nat := 20 * msTicks

/-- The longest pause inside a reply, and the wait for mark after a character failure, 2 ms (R27, R29, R203). -/
def lineGap : Nat := 2 * msTicks

/-- The uplink's inter-byte gap, 5 ms (R203). -/
def uplinkGap : Nat := 5 * msTicks

/-- A confirm poll is due when the last poll is more than 200 ms past (R42). -/
def confirmInterval : Nat := 200 * msTicks

/-- The probe timer, 30 s (R49). -/
def probeInterval : Nat := 30 * secondTicks

/-- The suspend timer, 900 s (R88). -/
def suspendInterval : Nat := 900 * secondTicks

/-- The fire input's filter, 0.5 s (R140). -/
def filterTime : Nat := 500 * msTicks

/-- The repeat timer, 10 s (R144). -/
def repeatInterval : Nat := 10 * secondTicks

/-- The incomplete timer, 30 s (R148). -/
def incompleteInterval : Nat := 30 * secondTicks

/-- Places of a transmit queue (R34) and of a motion list (R43). -/
def queuePlaces : Nat := 8

/-- Minutes of a week (0.5). -/
def weekMinutes : Nat := 10080

/-- Entries of a failure list (R101). -/
def failurePlaces : Nat := 48

/-- How often the sweep engine's small actions are repeated inside one command: more than any command can need (log 13). -/
def engineFuel : Nat := 16384

end Sys2Proof.Config
end

