-- ==== Sys2Proof/Machine/State.lean ====
section
/-! DEFINITION. Everything the part holds (INVENTORY.md '## State'), as plain data, and the machine right after power-up. -/
namespace Sys2Proof.Machine

/-! ## The door table (chapter 1) -/

/-- Fire action of a door (1.1). -/
inductive FireAction where
  | free
  | close
  | none
  deriving DecidableEq, Repr

/-- The report mask of a door (1.1). -/
structure ReportMask where
  bolt : Bool
  position : Bool
  holder : Bool
  exit : Bool
  deriving DecidableEq, Repr

/-- The configuration of a door record (1.1). `boltTime` is in tenths of a second, `closeWait` in seconds. -/
structure DoorConfig where
  configured : Bool
  line : LineNo
  node : Nat
  group : GroupNo
  fireAction : FireAction
  holderFitted : Bool
  holdAtRelease : Bool
  nightPass : Bool
  mask : ReportMask
  boltTime : Nat
  closeWait : Nat
  withdrawn : Bool
  deriving DecidableEq, Repr

/-- The settled state of an image (R8). -/
inductive Settled where
  | absent
  | current
  | suspect
  deriving DecidableEq, Repr

/-- The four image states shown (1.2), derived by R8. -/
inductive ImageState where
  | absent
  | current
  | pending
  | suspect
  deriving DecidableEq, Repr

/-- The bolt of an image (1.2). -/
inductive Bolt where
  | unknown
  | thrown
  | retracted
  | moving
  | jammed
  deriving DecidableEq, Repr

/-- The leaf's position (1.2). -/
inductive Position where
  | unknown
  | closed
  | opened
  deriving DecidableEq, Repr

/-- The hold-open magnet (1.2). -/
inductive Holder where
  | none
  | holding
  | released
  | unknown
  deriving DecidableEq, Repr

/-- The outcomes of a sweep (3.9). -/
inductive SweepOutcome where
  | secured
  | released
  | heldOpen
  | boltFault
  | noReply
  | lineDown
  | withdrawn
  | excepted
  | aborted
  | fire
  | notReached
  deriving DecidableEq, Repr

/-- The stored fields of a door image (1.2, R7, R8). The image state and the in catch-up field are computed from the
lines and the catch-up list (log 11). -/
structure DoorImage where
  settled : Settled
  bolt : Bolt
  position : Position
  holder : Holder
  pulseActive : Bool
  silence : Nat
  lastOutcome : Option SweepOutcome
  claim : Option ExceptionNo
  deriving DecidableEq, Repr

/-- A door record: its configuration and its image (R1). -/
structure DoorRecord where
  config : DoorConfig
  image : DoorImage
  deriving DecidableEq, Repr

/-- The last step result of a group (1.5). -/
inductive StepResult where
  | none
  | clean
  | partly
  deriving DecidableEq, Repr

/-- A group record (1.5, R21). -/
structure GroupRecord where
  night : Bool
  lastResult : StepResult
  resultSweep : Option Nat
  deriving DecidableEq, Repr

/-! ## Door lines (chapter 2) -/

/-- Line states (2.7). -/
inductive LineState where
  | active
  | quiet
  | faulted
  deriving DecidableEq, Repr

/-- The kind and argument of a line request (2.4): what its frame asks of the node. -/
inductive LineCmd where
  | pollNow
  | driveThrow
  | driveRetract
  | drivePulse (seconds : Nat)
  | holderEngage
  | holderRelease
  deriving DecidableEq, Repr

/-- Where a request's result goes (2.4). -/
inductive Source where
  | entry (n : EntryNo)
  | slot (o : OriginatorNo) (i : SlotNo)
  deriving DecidableEq, Repr

/-- A line request (2.4). `source` is none once its source has withdrawn (R36); `inFlight` marks the request whose
transaction is on the line (R31); `purged` that the fire purge has reached it in flight (R37). -/
structure LineRequest where
  cmd : LineCmd
  door : DoorNo
  source : Option Source
  inFlight : Bool
  purged : Bool
  deriving DecidableEq, Repr

/-- The direction of a motion (2.6). -/
inductive Direction where
  | throwing
  | retracting
  deriving DecidableEq, Repr

/-- A motion-list entry (2.6); `wait` marks a wait entry (R44). -/
structure MotionEntry where
  door : DoorNo
  direction : Direction
  deadline : Time
  source : Option Source
  wait : Bool
  lastPoll : Time
  deriving DecidableEq, Repr

/-- The kinds of line fault (2.8). -/
inductive FaultKind where
  | start
  | parity
  | stop
  | check
  | stray
  | conflict
  | overload
  deriving DecidableEq, Repr

/-- The functions of frames sent (2.2). -/
inductive LineFunction where
  | poll
  | drive
  | holder
  | fireBroadcast
  deriving DecidableEq, Repr

/-- Why a transaction was begun (R31, R39, R49). -/
inductive TransactionKind where
  | queued
  | routine
  | confirm
  | probe
  deriving DecidableEq, Repr

/-- Where a transaction's present send stands (R30): its frame going out; its reply window open until `closes`; or a
character failure in the reply at `failedAt`, the line at mark since `markSince`, waiting for 2 ms of mark or the window's close
(R27). -/
inductive SendPhase where
  | sending
  | window (closes : Time)
  | charFailed (kind : FaultKind) (failedAt markSince closes : Time)
  deriving DecidableEq, Repr

/-- The transaction on the wire (2.3). `door` is none for a probe to a node no door has (R49). `detached` marks a poll whose
result is no longer applied to the door (R3, R4); `cut` a transaction cut off while its frame was on the wire (R47). -/
structure Transaction where
  kind : TransactionKind
  cmd : LineCmd
  door : Option DoorNo
  node : Nat
  began : Time
  phase : SendPhase
  secondSend : Bool
  conflicted : Bool
  anyConflict : Bool
  detached : Bool
  cut : Bool
  deriving DecidableEq, Repr

/-- The two maps of a fire broadcast (R143, 11.7): node n is bit n − 1. -/
structure FireMaps where
  retract : BitVec 64
  holder : BitVec 64
  deriving DecidableEq, Repr

/-- A pending fire broadcast (R33). -/
structure Broadcast where
  maps : FireMaps
  sends : Nat
  deriving DecidableEq, Repr

/-- What is on the line's wire. `present` says that the send carries the broadcast that is still pending, not one replaced or
withdrawn since (R33, R152, log 14). -/
inductive Wire where
  | free
  | transaction (t : Transaction)
  | broadcast (maps : FireMaps) (began : Time) (present : Bool)
  deriving DecidableEq, Repr

/-- A locked fault capture record (2.8); `minute` none reads UNSET. -/
structure FaultRecord where
  kind : FaultKind
  node : Option Nat
  function : Option LineFunction
  minute : Option Nat
  again : Bool
  deriving DecidableEq, Repr

/-- A door line with its controller (chapter 2). -/
structure Line where
  state : LineState
  queue : List LineRequest
  held : List LineRequest
  wire : Wire
  motions : List MotionEntry
  cursor : Nat
  queuedSends : Nat
  conflicts : Nat
  broadcast : Option Broadcast
  probeTimer : Option Time
  probeDue : Bool
  probeWaiters : List (OriginatorNo × SlotNo)
  fault : Option FaultRecord
  deriving DecidableEq, Repr

/-! ## Plans, sweeps and reports (chapters 3, 4 and 6) -/

/-- SECURE or RELEASE (3.1). -/
inductive Action where
  | secure
  | release
  deriving DecidableEq, Repr

/-- A plan step (3.1); `group` 32 is ALL. -/
structure PlanStep where
  group : Fin 33
  action : Action
  strict : Bool
  retries : Nat
  overlap : Bool
  deriving DecidableEq, Repr

/-- A plan: 0–24 steps (6.6). -/
abbrev Plan := List PlanStep

/-- The engine states (3.2). -/
inductive EngineState where
  | idle
  | running
  | suspended
  | draining
  deriving DecidableEq, Repr

/-- The state of an engine with a sweep in progress (R58). -/
inductive SweepPhase where
  | running
  | suspended
  | draining
  deriving DecidableEq, Repr

/-- The kind of sweep with what only a plan sweep has (3.2). -/
inductive SweepKind where
  | plan (plan : PlanNo) (number : Nat) (length : Nat)
  | catchUp
  deriving DecidableEq, Repr

/-- A step record (R59). `unclean` holds one note for each unclean outcome, the group noted with the door it was noted for, so that a
redo takes back its own door's note (R23, R93). -/
structure StepRecord where
  index : Nat
  admissionDone : Bool
  handled : Nat
  ended : Nat
  unclean : List (DoorNo × GroupNo)
  deriving DecidableEq, Repr

/-- Why the engine is DRAINING (chapter 4). -/
inductive DrainReason where
  | abandoned
  | aborted
  deriving DecidableEq, Repr

/-- The sweep context (3.2, chapter 4). `begun` is the number of steps begun (R62). -/
structure SweepContext where
  kind : SweepKind
  phase : SweepPhase
  records : List StepRecord
  begun : Nat
  cursorStep : Option Nat
  cursorPos : Option DoorNo
  yielding : Bool
  suspension : Option (DoorNo × Nat)
  suspendTimer : Option Time
  redo : Option (DoorNo × Nat)
  drain : Option DrainReason
  deriving DecidableEq, Repr

/-- The stages of an entry (3.5). -/
inductive Stage where
  | check
  | close
  | throwing
  | confirm
  | retract
  | engage
  deriving DecidableEq, Repr

/-- What an entry is waiting on from its line (3.5): a request, a motion of which it is the source, or such a motion carried
back to CLOSE from CONFIRM, whose end is not judged (R69, R72). -/
inductive Outstanding where
  | nothing
  | request
  | motion
  | carriedMotion
  deriving DecidableEq, Repr

/-- A work-set entry (3.5). -/
structure WorkEntry where
  door : DoorNo
  step : Option Nat
  action : Action
  retries : Nat
  stage : Stage
  attempt : Nat
  deadline : Option Time
  outstanding : Outstanding
  finalRetract : Bool
  aborting : Bool
  deriving DecidableEq, Repr

/-- The pending start (6.3). -/
structure PendingStart where
  plan : PlanNo
  entry : Fin 16
  minute : Nat
  deriving DecidableEq, Repr

/-- Final statuses (4.4). -/
inductive FinalStatus where
  | inProgress
  | complete
  | abandoned
  | aborted
  | fire
  | interrupted
  deriving DecidableEq, Repr

/-- An entry of a failure list (4.4). -/
structure Failure where
  door : DoorNo
  outcome : SweepOutcome
  step : Option Nat
  attempt : Nat
  deriving DecidableEq, Repr

/-- A filled sweep report (4.4). `plan` none is CATCH-UP; a minute none reads UNSET; `endMinute` none is absent. `counts`
holds the eleven counts in the order of the outcome codes (R200). -/
structure SweepReport where
  number : Option Nat
  plan : Option PlanNo
  startMinute : Option Nat
  endMinute : Option (Option Nat)
  status : FinalStatus
  counts : Vector Nat 11
  failures : List Failure
  overflow : Nat
  suspension : Option (DoorNo × Nat)
  deriving DecidableEq, Repr

/-- The sweep engine's state (chapter 3). A context of none is IDLE (R59). -/
structure Engine where
  ctx : Option SweepContext
  workSet : Vector (Option WorkEntry) 16
  counter : Nat
  pendingStart : Option PendingStart
  planReport : Option SweepReport
  catchUpReport : Option SweepReport
  deriving DecidableEq, Repr

/-- WEEKLY or ONCE (6.2). -/
inductive Repetition where
  | weekly
  | once
  deriving DecidableEq, Repr

/-- A schedule entry (6.2). -/
structure ScheduleEntry where
  enabled : Bool
  minute : Nat
  plan : PlanNo
  repetition : Repetition
  deriving DecidableEq, Repr

/-- The day clock (6.1). -/
structure DayClock where
  set : Bool
  minute : Nat
  second : Nat
  deriving DecidableEq, Repr

/-- The plan banks (6.6). -/
structure PlanBanks where
  staged : Vector Plan 8
  active : Vector Plan 8
  commitPending : Bool
  deriving DecidableEq, Repr

/-! ## Exceptions (chapter 5), fire (chapter 7), watches and notices (chapter 9) -/

/-- How the doors of an exception were named (5.1). -/
inductive DoorSet where
  | group (g : GroupNo)
  | list (doors : List DoorNo)
  deriving DecidableEq, Repr

/-- An ACTIVE exception slot (5.1). -/
structure ExceptionRecord where
  owner : OriginatorNo
  expiry : Nat
  doors : DoorSet
  created : Nat
  deriving DecidableEq, Repr

/-- Why an exception ended (R115). -/
inductive ExceptionCause where
  | expired
  | clockSet
  | ended
  deriving DecidableEq, Repr

/-- The fire release unit (chapter 7). -/
structure FireUnit where
  raw : FireInput
  filtered : FireInput
  candidate : Option (FireInput × Time)
  latch : Bool
  latchTime : Option Time
  releasePending : List DoorNo
  confirmed : Nat
  removed : Nat
  repeatTimer : Option Time
  incompleteTimer : Option Time
  deriving DecidableEq, Repr

/-- What a watch is on (9.1). -/
inductive WatchTarget where
  | door (d : DoorNo)
  | group (g : GroupNo)
  deriving DecidableEq, Repr

/-- What a watch waits for (R171). -/
inductive WatchCondition where
  | change
  | opens
  | secures
  deriving DecidableEq, Repr

/-- An ARMED watch slot (9.1). -/
structure Watch where
  owner : OriginatorNo
  target : WatchTarget
  condition : WatchCondition
  deriving DecidableEq, Repr

/-- Why a watch fired (R172, R173). -/
inductive WatchReason where
  | condition
  | silent
  | fire
  deriving DecidableEq, Repr

/-- The short image carried in notices (11.3). -/
structure ShortImage where
  state : ImageState
  bolt : Bolt
  position : Position
  holder : Holder
  pulseActive : Bool
  silence : Nat
  deriving DecidableEq, Repr

/-- Why a start was dropped (R129). -/
inductive DropReason where
  | fire
  | emptyPlan
  deriving DecidableEq, Repr

/-- Restart causes (R194). -/
inductive RestartCause where
  | power
  | resetInput
  | requested
  deriving DecidableEq, Repr

/-- The notices of 9.2 with what each carries. A sweep number or plan of none is a catch-up sweep's. -/
inductive Notice where
  | fireAlarm (filtered : FireInput) (latchBefore : Bool) (count : Nat)
  | fireLoopFault (filtered : FireInput) (latchBefore : Bool) (count : Nat)
  | fireReleaseIncomplete (count : Nat) (perLine : Vector Nat 4)
  | forcedDoor (door : DoorNo) (group : GroupNo) (image : ShortImage)
  | tamper (door : DoorNo) (image : ShortImage)
  | lineFault (line : LineNo) (fault : FaultRecord)
  | doorSilent (door : DoorNo) (line : LineNo)
  | nodeRestarted (door : DoorNo) (line : LineNo) (node : Nat) (image : ShortImage)
  | sweepSuspended (number : Nat) (step : Nat) (door : DoorNo) (outcome : SweepOutcome)
  | suspendTimedOut (number : Nat) (door : DoorNo) (step : Nat)
  | startDisplaced (old new : PendingStart)
  | startDropped (reason : DropReason) (start : PendingStart)
  | doorChange (door : DoorNo) (line : LineNo) (boltChange : Option (Bolt × Bolt)) (positionChange : Option (Position × Position))
      (holderChange : Option (Holder × Holder)) (exit forced : Bool) (image : ShortImage)
  | sweepStarted (number : Option Nat) (plan : Option PlanNo) (start : Option Nat)
  | sweepEnded (number : Option Nat) (plan : Option PlanNo) (status : FinalStatus)
  | exceptionEnded (slot : ExceptionNo) (owner : OriginatorNo) (expiry : Nat) (cause : ExceptionCause) (released appended : Nat)
  | watchFired (owner : OriginatorNo) (slot : Fin 8) (target : WatchTarget) (condition : WatchCondition) (reason : WatchReason)
      (matched : Option (DoorNo × ShortImage))
  | fireReleaseConfirmed (confirmed removed seconds : Nat)
  | fireRestored (unconfirmed appended : Nat)
  | partStarted (cause : RestartCause) (requested : Bool)
  deriving DecidableEq, Repr

/-- The three notice queues and their overflow flags (9.2). -/
structure NoticeQueues where
  urgent : List Notice
  fault : List Notice
  state : List Notice
  urgentOverflow : Bool
  faultOverflow : Bool
  stateOverflow : Bool
  deriving DecidableEq, Repr

/-! ## The uplink and the request handler (chapter 10) -/

/-- The authority levels (R183). -/
inductive Authority where
  | view
  | operate
  | administer
  deriving DecidableEq, Repr

/-- An originator record (10.2). -/
structure OriginatorRecord where
  enabled : Bool
  authority : Authority
  deriving DecidableEq, Repr

/-- An assembled inbound frame, from its kind byte to its last parameter byte (11.1). -/
structure Frame where
  kind : Byte
  originator : Byte
  tag : Byte
  code : Byte
  door : Byte
  params : List Byte
  deriving DecidableEq, Repr

/-- The completion codes (10.5). -/
inductive Completion where
  | ok
  | commitPending
  | busy
  | malformed
  | unknownRequest
  | authority
  | range
  | notConfigured
  | withdrawn
  | conflict
  | inSweep
  | lineDown
  | fireHold
  | nightPolicy
  | claimed
  | clockUnset
  | noSlot
  | state
  | pendingCommit
  | noReply
  | boltTimeout
  | jammed
  | refused
  | none
  deriving DecidableEq, Repr

/-- A built response (R191): the frame it answers, its completion code and its results. -/
structure Response where
  originator : OriginatorNo
  tag : Byte
  code : Byte
  door : Byte
  completion : Completion
  results : List Byte
  deriving DecidableEq, Repr

/-- The progress of a taken door command (8.3); ANSWERED is the slot's own state. -/
inductive Progress where
  | held
  | queued
  | onLine
  | inMotion
  deriving DecidableEq, Repr

/-- A request slot (10.3, R187). In progress with no progress of a command is a RESUME LINE waiting for its probe. -/
inductive Slot where
  | empty
  | waiting (frame : Frame) (arrival : Time)
  | inProgress (frame : Frame) (arrival : Time) (progress : Option Progress)
  | answered (frame : Frame) (arrival : Time) (response : Response)
  deriving DecidableEq, Repr

/-- A filled sense record (4.5). `door` none is door valid no; `detail` none is none. -/
structure SenseRecord where
  completion : Completion
  request : Byte
  door : Option DoorNo
  detail : Option Nat
  deriving DecidableEq, Repr

/-- The place of a response that waits to be sent (R178). -/
inductive ResponsePlace where
  | slot (o : OriginatorNo) (i : SlotNo)
  | holder (o : OriginatorNo)
  deriving DecidableEq, Repr

/-- The frame being sent on the uplink (R178) and when its sending began; a notice carries its overflow mark (R177). -/
inductive Outbound where
  | notice (n : Notice) (overflowMark : Bool) (began : Time)
  | response (place : ResponsePlace) (r : Response) (began : Time)
  deriving DecidableEq, Repr

/-- The receive assembler (10.1): HUNTING, or ASSEMBLING with the bytes collected after the start byte. -/
inductive Assembler where
  | hunting
  | assembling (collected : List Byte)
  deriving DecidableEq, Repr

/-- The uplink port and the request handler (chapter 10). -/
structure Uplink where
  assembler : Assembler
  lastByte : Time
  originators : Vector OriginatorRecord 4
  slots : Vector Slot 8
  refusals : Vector (Option Response) 4
  senses : Vector (Option SenseRecord) 4
  waiting : List ResponsePlace
  sending : Option Outbound
  restartPending : Bool
  restartCause : RestartCause
  requestedFlag : Bool
  deriving DecidableEq, Repr

/-! ## The part and the machine's state -/

/-- Everything the part holds, beside the queue of commands. -/
structure Part where
  powered : Bool
  resetAsserted : Bool
  now : Time
  doors : Vector DoorRecord 240
  groups : Vector GroupRecord 32
  lines : Vector Line 4
  engine : Engine
  exceptions : Vector (Option ExceptionRecord) 16
  catchUp : List DoorNo
  clock : DayClock
  secondBegan : Time
  schedule : Vector ScheduleEntry 16
  banks : PlanBanks
  fire : FireUnit
  watches : Vector (Option Watch) 8
  notices : NoticeQueues
  uplink : Uplink
  deriving DecidableEq, Repr

/-- The state: the part, and the commands that wait, first in, first out. -/
structure State where
  part : Part
  pending : List Instr
  deriving DecidableEq, Repr

/-- Faults: none. Every refusal of the spec is a completion code in a response, and every line fault a record and a notice,
so no command stops the machine. -/
inductive Fault where
  deriving DecidableEq, Repr

/-- Refusals. -/
inductive Refusal where
  /-- A command whose meaning is not written yet: raised by no arm, since every command has its meaning; safe. -/
  | notModelled (mnemonic : String)
  deriving DecidableEq, Repr

/-! ## Reset -/

/-- A door record never loaded (R1, R25). -/
def DoorRecord.blank : DoorRecord where
  config :=
    { configured := false, line := 0, node := 1, group := 0, fireAction := .none, holderFitted := false,
      holdAtRelease := false, nightPass := false, mask := ⟨false, false, false, false⟩, boltTime := 10, closeWait := 60,
      withdrawn := false }
  image :=
    { settled := .absent, bolt := .unknown, position := .unknown, holder := .none, pulseActive := false, silence := 0,
      lastOutcome := none, claim := none }

/-- A group record after power-up (R25). -/
def GroupRecord.blank : GroupRecord := { night := false, lastResult := .none, resultSweep := none }

/-- A line after power-up (R55). -/
def Line.blank : Line where
  state := .active
  queue := []
  held := []
  wire := .free
  motions := []
  cursor := 0
  queuedSends := 0
  conflicts := 0
  broadcast := none
  probeTimer := none
  probeDue := false
  probeWaiters := []
  fault := none

/-- The sweep engine after power-up (R85, R104). -/
def Engine.blank : Engine where
  ctx := none
  workSet := Vector.replicate 16 none
  counter := 0
  pendingStart := none
  planReport := none
  catchUpReport := none

/-- The originator table after power-up (R185). -/
def OriginatorRecord.table : Vector OriginatorRecord 4 :=
  #v[⟨true, .administer⟩, ⟨false, .view⟩, ⟨false, .view⟩, ⟨false, .view⟩]

/-- The uplink and the handler after a power-up restart, the transmitter free (R181, R185, R194, R195). -/
def Uplink.blank (lastByte : Time) (cause : RestartCause) (flag : Bool) : Uplink where
  assembler := .hunting
  lastByte := lastByte
  originators := OriginatorRecord.table
  slots := Vector.replicate 8 .empty
  refusals := Vector.replicate 4 none
  senses := Vector.replicate 4 none
  waiting := []
  sending := none
  restartPending := false
  restartCause := cause
  requestedFlag := flag

/-- The fire release unit after power-up, with the raw input as it is read (R153); a raw input that differs from NORMAL is
timed from the restart (log 10). -/
def FireUnit.blank (raw : FireInput) (now : Time) : FireUnit where
  raw := raw
  filtered := .normal
  candidate := if raw = .normal then none else some (raw, now)
  latch := false
  latchTime := none
  releasePending := []
  confirmed := 0
  removed := 0
  repeatTimer := none
  incompleteTimer := none

/-- Notice queues with nothing in them (R180). -/
def NoticeQueues.blank : NoticeQueues := ⟨[], [], [], false, false, false⟩

/-- The part as a power-up or the reset input leaves it, its transmitter free and no notice queued yet. -/
def Part.blank (reset : Bool) (now : Time) (raw : FireInput) (cause : RestartCause) (flag : Bool) : Part where
  powered := true
  resetAsserted := reset
  now := now
  doors := Vector.replicate 240 DoorRecord.blank
  groups := Vector.replicate 32 GroupRecord.blank
  lines := Vector.replicate 4 Line.blank
  engine := Engine.blank
  exceptions := Vector.replicate 16 none
  catchUp := []
  clock := ⟨false, 0, 0⟩
  secondBegan := now
  schedule := Vector.replicate 16 ⟨false, 0, 0, .weekly⟩
  banks := ⟨Vector.replicate 8 [], Vector.replicate 8 [], false⟩
  fire := FireUnit.blank raw now
  watches := Vector.replicate 8 none
  notices := NoticeQueues.blank
  uplink := Uplink.blank now cause flag

/-- The machine right after power-up (R195): PART STARTED, queued by R180, is the first frame the transmitter sends (R178).
The raw fire input, the pins and the times are the model's choice (log 7). -/
def State.reset : State where
  part :=
    let p := Part.blank false 0 .normal .power false
    { p with uplink := { p.uplink with sending := some (.notice (.partStarted .power false) false 0) } }
  pending := []

end Sys2Proof.Machine
end

