-- ==== Sys2Proof/Machine/Flags.lean ====
section
/-! DEFINITION. The values fields take on the wire (11.3 to 11.7), the byte order of wide fields (R199), the two CRCs (R202),
and the flags computed from a value: parity, unclean outcomes, failures, authority. -/
namespace Sys2Proof.Machine

/-! ## Bytes -/

/-- A one-byte field. -/
def byte (n : Nat) : Byte := BitVec.ofNat 8 n

/-- A two-byte field, most significant byte first (R199). -/
def be16 (n : Nat) : List Byte := [byte (n / 256), byte n]

/-- A 64-bit map, most significant byte first (11.7). -/
def be64 (m : BitVec 64) : List Byte :=
  [7, 6, 5, 4, 3, 2, 1, 0].map fun k => (m >>> (8 * k)).setWidth 8

/-- A one-byte field that may be none (R199). -/
def optByte : Option Nat → Byte
  | none => 0xFF#8
  | some n => byte n

/-- A yes-no or clear-set field (11.4). -/
def boolByte (b : Bool) : Byte := if b then 1#8 else 0#8

/-- A minute field, 0xFFFF for UNSET (R199). -/
def minuteField : Option Nat → List Byte
  | none => [0xFF#8, 0xFF#8]
  | some m => be16 m

/-- An end minute, 0xFFFE when absent (R199). -/
def endMinuteField : Option (Option Nat) → List Byte
  | none => [0xFF#8, 0xFE#8]
  | some m => minuteField m

/-- A sweep number, 0 for none (R199). -/
def sweepField : Option Nat → List Byte
  | none => be16 0
  | some n => be16 n

/-! ## CRCs (R202) -/

/-- One bit of the CRC-16, generator x¹⁶ + x¹² + x⁵ + 1. -/
def crc16Bit (c : BitVec 16) : BitVec 16 := if c.msb then (c <<< 1) ^^^ 0x1021#16 else c <<< 1

/-- One bit of the CRC-8, generator x⁸ + x² + x + 1. -/
def crc8Bit (c : BitVec 8) : BitVec 8 := if c.msb then (c <<< 1) ^^^ 0x07#8 else c <<< 1

/-- One byte of the CRC-16, most significant bit first. -/
def crc16Byte (c : BitVec 16) (b : Byte) : BitVec 16 :=
  Nat.repeat crc16Bit 8 (c ^^^ (b.setWidth 16 <<< 8))

/-- One byte of the CRC-8. -/
def crc8Byte (c : BitVec 8) (b : Byte) : BitVec 8 := Nat.repeat crc8Bit 8 (c ^^^ b)

/-- The uplink's CRC-16, initial value 0xFFFF (R202). -/
def crc16 (bytes : List Byte) : BitVec 16 := bytes.foldl crc16Byte 0xFFFF#16

/-- The door lines' CRC-8, initial value 0 (R202). -/
def crc8 (bytes : List Byte) : BitVec 8 := bytes.foldl crc8Byte 0#8

/-- The number of ones in a byte. -/
def ones (b : Byte) : Nat := ((List.range 8).filter fun k => b.getLsbD k).length

/-- The PARITY check of R27: the nine data and parity bits hold an even number of ones. -/
def parityHolds (data : Byte) (parity : Bool) : Bool := (ones data + parity.toNat) % 2 = 0

/-- A character as a node sends it, with no pause before it (R27, R203). -/
def sentChar (b : Byte) : LineChar :=
  { pause := 0, startHeld := true, data := b, parity := ones b % 2 = 1, stopAtMark := true }

/-! ## Codes (11.3, 11.4, 11.5, 11.7) -/

/-- Fire action (11.3). -/
def FireAction.code : FireAction → Nat
  | .none => 0
  | .free => 1
  | .close => 2

/-- Image state (11.3). -/
def ImageState.code : ImageState → Nat
  | .absent => 0
  | .current => 1
  | .pending => 2
  | .suspect => 3

/-- Bolt (11.3). -/
def Bolt.code : Bolt → Nat
  | .unknown => 0
  | .thrown => 1
  | .retracted => 2
  | .moving => 3
  | .jammed => 4

/-- Position (11.3). -/
def Position.code : Position → Nat
  | .unknown => 0
  | .closed => 1
  | .opened => 2

/-- Holder (11.3). -/
def Holder.code : Holder → Nat
  | .none => 0
  | .holding => 1
  | .released => 2
  | .unknown => 3

/-- Outcome (11.4). -/
def SweepOutcome.code : SweepOutcome → Nat
  | .secured => 1
  | .released => 2
  | .heldOpen => 3
  | .boltFault => 4
  | .noReply => 5
  | .lineDown => 6
  | .withdrawn => 7
  | .excepted => 8
  | .aborted => 9
  | .fire => 10
  | .notReached => 11

/-- Last outcome, NONE 0 (11.4). -/
def lastOutcomeCode : Option SweepOutcome → Nat
  | none => 0
  | some o => o.code

/-- The place of an outcome's count in a report (R200). -/
def SweepOutcome.place : SweepOutcome → Fin 11
  | .secured => 0
  | .released => 1
  | .heldOpen => 2
  | .boltFault => 3
  | .noReply => 4
  | .lineDown => 5
  | .withdrawn => 6
  | .excepted => 7
  | .aborted => 8
  | .fire => 9
  | .notReached => 10

/-- Final status (11.4). -/
def FinalStatus.code : FinalStatus → Nat
  | .inProgress => 0
  | .complete => 1
  | .abandoned => 2
  | .aborted => 3
  | .fire => 4
  | .interrupted => 5

/-- Engine state (11.4). -/
def EngineState.code : EngineState → Nat
  | .idle => 0
  | .running => 1
  | .suspended => 2
  | .draining => 3

/-- Action (11.4). -/
def Action.code : Action → Nat
  | .secure => 1
  | .release => 2

/-- Repeat (11.4). -/
def Repetition.code : Repetition → Nat
  | .weekly => 1
  | .once => 2

/-- Authority (11.4). -/
def Authority.code : Authority → Nat
  | .view => 1
  | .operate => 2
  | .administer => 3

/-- Target kind and target (11.4, 9.1). -/
def WatchTarget.bytes : WatchTarget → List Byte
  | .door d => [1#8, byte d]
  | .group g => [2#8, byte g]

/-- Condition (11.4). -/
def WatchCondition.code : WatchCondition → Nat
  | .change => 1
  | .opens => 2
  | .secures => 3

/-- Watch reason (11.4). -/
def WatchReason.code : WatchReason → Nat
  | .condition => 1
  | .silent => 2
  | .fire => 3

/-- Exception cause (11.4). -/
def ExceptionCause.code : ExceptionCause → Nat
  | .expired => 1
  | .clockSet => 2
  | .ended => 3

/-- Drop reason (11.4). -/
def DropReason.code : DropReason → Nat
  | .fire => 1
  | .emptyPlan => 2

/-- Line state (11.4). -/
def LineState.code : LineState → Nat
  | .active => 0
  | .quiet => 1
  | .faulted => 2

/-- Fault kind (11.4). -/
def FaultKind.code : FaultKind → Nat
  | .start => 1
  | .parity => 2
  | .stop => 3
  | .check => 4
  | .stray => 5
  | .conflict => 6
  | .overload => 7

/-- Fire input (11.4). -/
def fireInputCode : FireInput → Nat
  | .normal => 0
  | .alarm => 1
  | .loopFault => 2

/-- Restart cause (11.4). -/
def RestartCause.code : RestartCause → Nat
  | .power => 1
  | .resetInput => 2
  | .requested => 3

/-- Last step result (11.4). -/
def StepResult.code : StepResult → Nat
  | .none => 0
  | .clean => 1
  | .partly => 2

/-- Line function (11.7). -/
def LineFunction.code : LineFunction → Nat
  | .poll => 0x01
  | .drive => 0x02
  | .holder => 0x03
  | .fireBroadcast => 0x0F

/-- Direction (R200). -/
def Direction.code : Direction → Nat
  | .throwing => 1
  | .retracting => 2

/-- Completion codes (11.5). -/
def Completion.code : Completion → Nat
  | .ok => 0x00
  | .commitPending => 0x01
  | .busy => 0x10
  | .malformed => 0x11
  | .unknownRequest => 0x12
  | .authority => 0x13
  | .range => 0x14
  | .notConfigured => 0x20
  | .withdrawn => 0x21
  | .conflict => 0x22
  | .inSweep => 0x23
  | .lineDown => 0x24
  | .fireHold => 0x25
  | .nightPolicy => 0x26
  | .claimed => 0x27
  | .clockUnset => 0x28
  | .noSlot => 0x29
  | .state => 0x2A
  | .pendingCommit => 0x2B
  | .noReply => 0x30
  | .boltTimeout => 0x31
  | .jammed => 0x32
  | .refused => 0x33
  | .none => 0x3F

/-! ## Flags of values -/

/-- An unclean outcome is any other than SECURED, RELEASED, WITHDRAWN or EXCEPTED (R59). -/
def SweepOutcome.unclean : SweepOutcome → Bool
  | .secured => false
  | .released => false
  | .withdrawn => false
  | .excepted => false
  | .heldOpen => true
  | .boltFault => true
  | .noReply => true
  | .lineDown => true
  | .aborted => true
  | .fire => true
  | .notReached => true

/-- A failure is entered in the failure list (R101). -/
def SweepOutcome.failure : SweepOutcome → Bool
  | .heldOpen => true
  | .boltFault => true
  | .noReply => true
  | .lineDown => true
  | .aborted => true
  | .fire => true
  | .secured => false
  | .released => false
  | .withdrawn => false
  | .excepted => false
  | .notReached => false

/-- Whether the catch-up test acts on a last outcome (R19, condition 6). -/
def qualifies : Option SweepOutcome → Bool
  | some .heldOpen => true
  | some .noReply => true
  | some .lineDown => true
  | _ => false

/-- Whether a record passes the authority check of a level (R183). -/
def OriginatorRecord.holds (r : OriginatorRecord) (level : Authority) : Bool :=
  r.enabled && level.code ≤ r.authority.code

/-- Raise a count by one, up to a ceiling. -/
def raiseTo (ceiling n : Nat) : Nat := min ceiling (n + 1)

/-- The forward distance from one minute to another (R114). -/
def forwardDistance (a b : Nat) : Nat := if a ≤ b then b - a else b + Config.weekMinutes - a

/-- The order in which blocks act: those `order` names first, in its order, then the rest of `own` in the model's order
(log 6; log 46 where one command holds two events). -/
def arrange (own order : List Block) : List Block :=
  (order.filter own.contains).eraseDups ++ own.filter fun b => !order.contains b

end Sys2Proof.Machine
end

