-- ==== Sys2Proof/Machine/Operands.lean ====
section
/-! DEFINITION. The operand forms: the uplink frame with its request and door command codes, form and ranges (R190, R198,
11.2, 11.3), the line frames sent (11.7) and the judging of a reply (R29, R201), and the bytes of outbound frames (11.5,
R197, R199, R200). -/
namespace Sys2Proof.Machine

/-! ## Request and door command codes (11.2) -/

/-- The known codes of 11.2. -/
inductive Code where
  | loadDoor
  | withdrawDoor
  | restoreDoor
  | loadPlanStep
  | clearStagedPlan
  | commitPlans
  | loadScheduleEntry
  | setOriginator
  | setClock
  | startSweep
  | continueSweep
  | abandonSweep
  | abortSweep
  | createException
  | extendException
  | endException
  | armWatch
  | disarmWatch
  | fireRestore
  | clearLineFault
  | quietLine
  | resumeLine
  | readDoor
  | readGroup
  | readLine
  | readSweepReport
  | readCatchUpList
  | readException
  | readPlan
  | readSchedule
  | readStatus
  | sense
  | restartPart
  | throwBolt
  | retractBolt
  | pulse
  | holderEngage
  | holderRelease
  | pollNow
  deriving DecidableEq, Repr

/-- The code byte (11.2). -/
def Code.value : Code → Byte
  | .loadDoor => 0x10#8
  | .withdrawDoor => 0x11#8
  | .restoreDoor => 0x12#8
  | .loadPlanStep => 0x13#8
  | .clearStagedPlan => 0x14#8
  | .commitPlans => 0x15#8
  | .loadScheduleEntry => 0x16#8
  | .setOriginator => 0x17#8
  | .setClock => 0x18#8
  | .startSweep => 0x20#8
  | .continueSweep => 0x21#8
  | .abandonSweep => 0x22#8
  | .abortSweep => 0x23#8
  | .createException => 0x24#8
  | .extendException => 0x25#8
  | .endException => 0x26#8
  | .armWatch => 0x27#8
  | .disarmWatch => 0x28#8
  | .fireRestore => 0x29#8
  | .clearLineFault => 0x2A#8
  | .quietLine => 0x2B#8
  | .resumeLine => 0x2C#8
  | .readDoor => 0x30#8
  | .readGroup => 0x31#8
  | .readLine => 0x32#8
  | .readSweepReport => 0x33#8
  | .readCatchUpList => 0x34#8
  | .readException => 0x35#8
  | .readPlan => 0x36#8
  | .readSchedule => 0x37#8
  | .readStatus => 0x38#8
  | .sense => 0x39#8
  | .restartPart => 0x3F#8
  | .throwBolt => 0x40#8
  | .retractBolt => 0x41#8
  | .pulse => 0x42#8
  | .holderEngage => 0x43#8
  | .holderRelease => 0x44#8
  | .pollNow => 0x45#8

/-- The kind byte of a REQUEST (11.1). -/
def requestKind : Byte := 0x01#8

/-- The kind byte of a DOOR COMMAND (11.1). -/
def doorCommandKind : Byte := 0x02#8

/-- The code a byte names in a REQUEST frame (11.2). -/
def requestCode (b : Byte) : Option Code :=
  [Code.loadDoor, .withdrawDoor, .restoreDoor, .loadPlanStep, .clearStagedPlan, .commitPlans, .loadScheduleEntry,
    .setOriginator, .setClock, .startSweep, .continueSweep, .abandonSweep, .abortSweep, .createException, .extendException,
    .endException, .armWatch, .disarmWatch, .fireRestore, .clearLineFault, .quietLine, .resumeLine, .readDoor, .readGroup,
    .readLine, .readSweepReport, .readCatchUpList, .readException, .readPlan, .readSchedule, .readStatus, .sense,
    .restartPart].find? fun c => c.value = b

/-- The code a byte names in a DOOR COMMAND frame (11.2). -/
def doorCommandCode (b : Byte) : Option Code :=
  [Code.throwBolt, .retractBolt, .pulse, .holderEngage, .holderRelease, .pollNow].find? fun c => c.value = b

/-- The code a frame carries, where it is known for the frame's kind (R190, check 2). -/
def Frame.known (f : Frame) : Option Code :=
  if f.kind = requestKind then requestCode f.code
  else if f.kind = doorCommandKind then doorCommandCode f.code
  else none

/-- The authority a code requires (10.4). -/
def Code.authority : Code → Authority
  | .loadDoor => .administer
  | .withdrawDoor => .administer
  | .restoreDoor => .administer
  | .loadPlanStep => .administer
  | .clearStagedPlan => .administer
  | .commitPlans => .administer
  | .loadScheduleEntry => .administer
  | .setOriginator => .administer
  | .setClock => .administer
  | .startSweep => .operate
  | .continueSweep => .operate
  | .abandonSweep => .operate
  | .abortSweep => .operate
  | .createException => .operate
  | .extendException => .operate
  | .endException => .operate
  | .armWatch => .operate
  | .disarmWatch => .operate
  | .fireRestore => .administer
  | .clearLineFault => .administer
  | .quietLine => .administer
  | .resumeLine => .administer
  | .readDoor => .view
  | .readGroup => .view
  | .readLine => .view
  | .readSweepReport => .view
  | .readCatchUpList => .view
  | .readException => .view
  | .readPlan => .view
  | .readSchedule => .view
  | .readStatus => .view
  | .sense => .view
  | .restartPart => .administer
  | .throwBolt => .operate
  | .retractBolt => .operate
  | .pulse => .operate
  | .holderEngage => .operate
  | .holderRelease => .operate
  | .pollNow => .view

/-- Whether the code names a door in its door byte (R198). -/
def Code.namesDoor : Code → Bool
  | .loadDoor => true
  | .withdrawDoor => true
  | .restoreDoor => true
  | .readDoor => true
  | .throwBolt => true
  | .retractBolt => true
  | .pulse => true
  | .holderEngage => true
  | .holderRelease => true
  | .pollNow => true
  | _ => false

/-- Parameter byte `k` as a number, 0 beyond the end. -/
def Frame.param (f : Frame) (k : Nat) : Nat := (f.params.getD k 0#8).toNat

/-- The two-byte parameter that begins at byte `k` (R199). -/
def Frame.param16 (f : Frame) (k : Nat) : Nat := f.param k * 256 + f.param (k + 1)

/-- The number of parameter bytes a code carries (11.2); for CREATE EXCEPTION by the set kind, and none for one that is
neither GROUP nor LIST (R198). -/
def Code.paramLength (c : Code) (f : Frame) : Option Nat :=
  match c with
  | .loadDoor => some 10
  | .loadPlanStep => some 7
  | .clearStagedPlan => some 1
  | .loadScheduleEntry => some 6
  | .setOriginator => some 3
  | .setClock => some 3
  | .startSweep => some 1
  | .continueSweep => some 1
  | .createException =>
    if f.param 2 = 1 then some 4 else if f.param 2 = 2 then some (4 + f.param 3) else none
  | .extendException => some 3
  | .endException => some 1
  | .armWatch => some 3
  | .disarmWatch => some 1
  | .clearLineFault => some 1
  | .quietLine => some 1
  | .resumeLine => some 1
  | .readGroup => some 1
  | .readLine => some 1
  | .readSweepReport => some 2
  | .readCatchUpList => some 1
  | .readException => some 1
  | .readPlan => some 2
  | .readSchedule => some 1
  | .pulse => some 1
  | .withdrawDoor => some 0
  | .restoreDoor => some 0
  | .commitPlans => some 0
  | .abandonSweep => some 0
  | .abortSweep => some 0
  | .fireRestore => some 0
  | .readDoor => some 0
  | .readStatus => some 0
  | .sense => some 0
  | .restartPart => some 0
  | .throwBolt => some 0
  | .retractBolt => some 0
  | .holderEngage => some 0
  | .holderRelease => some 0
  | .pollNow => some 0

/-- The bits the layout marks reserved are 0: only LOAD DOOR's flags and report mask have any (11.3). -/
def Code.reservedClear (c : Code) (f : Frame) : Bool :=
  match c with
  | .loadDoor => f.param 5 < 8 && f.param 6 < 16
  | _ => true

/-- The form check of a known code's parameters (R190, check 1; R198). -/
def Code.formHolds (c : Code) (f : Frame) : Bool := c.paramLength f = some f.params.length && c.reservedClear f

/-- Whether a frame is one that names a door (R198): a DOOR COMMAND, or a frame whose code is a door command's or one of the four
requests' that name a door (log 21). -/
def Frame.namesDoor (f : Frame) : Bool :=
  f.kind = doorCommandKind || (doorCommandCode f.code).isSome || (requestCode f.code).any (·.namesDoor)

/-- The form check of a frame's header (R190, check 1; R198): its kind, and the door byte 0xFF where it names no door. -/
def Frame.headerHolds (f : Frame) : Bool :=
  (f.kind = requestKind || f.kind = doorCommandKind) && (f.namesDoor || f.door = 0xFF#8)

/-- Checks 1 and 2 of R190: the code, or the completion code that names the failure. The parameters of an unknown code are not
judged. -/
def Frame.verdict (f : Frame) : Except Completion Code :=
  if f.headerHolds then
    match f.known with
    | none => .error .unknownRequest
    | some c => if c.formHolds f then .ok c else .error .malformed
  else .error .malformed

/-- Check 4 of R190: the parameters and the door byte lie in the ranges the owning rule gives. -/
def Code.inRange (c : Code) (f : Frame) : Bool :=
  (!c.namesDoor || f.door.toNat < 240) &&
  match c with
  | .loadDoor =>
    f.param 0 ≤ 1 && f.param 1 ≤ 3 && (1 ≤ f.param 2 && f.param 2 ≤ 60) && f.param 3 ≤ 31 && f.param 4 ≤ 2 &&
      (2 ≤ f.param 7 && f.param 7 ≤ 50) && (5 ≤ f.param16 8 && f.param16 8 ≤ 600)
  | .loadPlanStep =>
    f.param 0 ≤ 7 && f.param 1 ≤ 23 && f.param 2 ≤ 32 && (1 ≤ f.param 3 && f.param 3 ≤ 2) && f.param 4 ≤ 1 &&
      f.param 5 ≤ 3 && f.param 6 ≤ 1
  | .clearStagedPlan => f.param 0 ≤ 7
  | .loadScheduleEntry =>
    f.param 0 ≤ 15 && f.param 1 ≤ 1 && f.param16 2 < 10080 && f.param 4 ≤ 7 && (1 ≤ f.param 5 && f.param 5 ≤ 2)
  | .setOriginator => f.param 0 ≤ 3 && f.param 1 ≤ 1 && (1 ≤ f.param 2 && f.param 2 ≤ 3)
  | .setClock => f.param16 0 < 10080 && f.param 2 ≤ 59
  | .startSweep => f.param 0 ≤ 7
  | .continueSweep => 1 ≤ f.param 0 && f.param 0 ≤ 2
  | .createException =>
    f.param16 0 < 10080 &&
      if f.param 2 = 1 then decide (f.param 3 ≤ 31)
      else (1 ≤ f.param 3 && f.param 3 ≤ 12) && (f.params.drop 4).all fun b => b.toNat < 240
  | .extendException => f.param 0 ≤ 15 && f.param16 1 < 10080
  | .endException => f.param 0 ≤ 15
  | .armWatch =>
    (f.param 0 = 1 && f.param 1 < 240 || f.param 0 = 2 && f.param 1 ≤ 31) && (1 ≤ f.param 2 && f.param 2 ≤ 3)
  | .disarmWatch => f.param 0 ≤ 7
  | .clearLineFault => f.param 0 ≤ 3
  | .quietLine => f.param 0 ≤ 3
  | .resumeLine => f.param 0 ≤ 3
  | .readGroup => f.param 0 ≤ 31
  | .readLine => f.param 0 ≤ 3
  | .readSweepReport => f.param 0 ≤ 1 && f.param 1 ≤ 5
  | .readCatchUpList => f.param 0 ≤ 14
  | .readException => f.param 0 ≤ 15
  | .readPlan => f.param 0 ≤ 1 && f.param 1 ≤ 7
  | .readSchedule => f.param 0 ≤ 15
  | .pulse => 1 ≤ f.param 0 && f.param 0 ≤ 30
  | _ => true

/-- The door a frame names; only read once the range check has passed. -/
def Frame.doorNo (f : Frame) : DoorNo := Fin.ofNat 240 f.door.toNat

/-- The line named by parameter `k`. -/
def Frame.lineNo (f : Frame) (k : Nat) : LineNo := Fin.ofNat 4 (f.param k)

/-- Bit `k` of parameter byte `n`. -/
def Frame.flag (f : Frame) (n k : Nat) : Bool := (f.params.getD n 0#8).getLsbD k

/-- A fire action's value (11.3). -/
def fireActionOf : Nat → FireAction
  | 1 => .free
  | 2 => .close
  | _ => .none

/-- An authority's value (11.4). -/
def authorityOf : Nat → Authority
  | 1 => .view
  | 2 => .operate
  | _ => .administer

/-- A report mask's byte (11.3). -/
def Frame.reportMask (f : Frame) (n : Nat) : ReportMask :=
  { bolt := f.flag n 0, position := f.flag n 1, holder := f.flag n 2, exit := f.flag n 3 }

/-- The configuration LOAD DOOR carries (11.3), the withdrawn field kept (R2). -/
def Frame.doorConfig (f : Frame) (withdrawn : Bool) : DoorConfig where
  configured := f.param 0 = 1
  line := f.lineNo 1
  node := f.param 2
  group := Fin.ofNat 32 (f.param 3)
  fireAction := fireActionOf (f.param 4)
  holderFitted := f.flag 5 0
  holdAtRelease := f.flag 5 1
  nightPass := f.flag 5 2
  mask := f.reportMask 6
  boltTime := f.param 7
  closeWait := f.param16 8
  withdrawn := withdrawn

/-- The plan step LOAD PLAN STEP carries (11.2). -/
def Frame.planStep (f : Frame) : PlanStep where
  group := Fin.ofNat 33 (f.param 2)
  action := if f.param 3 = 1 then .secure else .release
  strict := f.param 4 = 1
  retries := f.param 5
  overlap := f.param 6 = 1

/-- The entry LOAD SCHEDULE ENTRY carries (11.2). -/
def Frame.scheduleEntry (f : Frame) : ScheduleEntry where
  enabled := f.param 1 = 1
  minute := f.param16 2
  plan := Fin.ofNat 8 (f.param 4)
  repetition := if f.param 5 = 1 then .weekly else .once

/-- The door set CREATE EXCEPTION carries (11.2). -/
def Frame.doorSet (f : Frame) : DoorSet :=
  if f.param 2 = 1 then .group (Fin.ofNat 32 (f.param 3))
  else .list ((f.params.drop 4).map fun b => Fin.ofNat 240 b.toNat)

/-- The target ARM WATCH carries (11.2). -/
def Frame.watchTarget (f : Frame) : WatchTarget :=
  if f.param 0 = 1 then .door (Fin.ofNat 240 (f.param 1)) else .group (Fin.ofNat 32 (f.param 1))

/-- The condition ARM WATCH carries (11.2). -/
def Frame.watchCondition (f : Frame) : WatchCondition :=
  match f.param 2 with
  | 1 => .change
  | 2 => .opens
  | _ => .secures

/-- The line request a door command asks for (8.1). -/
def Code.lineCmd (c : Code) (f : Frame) : LineCmd :=
  match c with
  | .throwBolt => .driveThrow
  | .retractBolt => .driveRetract
  | .pulse => .drivePulse (f.param 0)
  | .holderEngage => .holderEngage
  | .holderRelease => .holderRelease
  | _ => .pollNow

/-- The frame held by bytes taken whole off the uplink, where its length and CRC hold (11.1, R181, R202). -/
def frameOfBytes : List Byte → Option Frame
  | start :: len :: rest =>
    let body := rest.take len.toNat
    if start = 0xC3#8 ∧ 5 ≤ len.toNat ∧ len.toNat ≤ 240 ∧ rest.length = len.toNat + 2 ∧
        rest.drop len.toNat = be16 (crc16 (len :: body)).toNat then
      match body with
      | kind :: originator :: tag :: code :: door :: params => some ⟨kind, originator, tag, code, door, params⟩
      | _ => none
    else none
  | _ => none

/-! ## Line frames sent (11.7) -/

/-- The function of a request's frame (2.2). -/
def LineCmd.function : LineCmd → LineFunction
  | .pollNow => .poll
  | .driveThrow => .drive
  | .driveRetract => .drive
  | .drivePulse _ => .drive
  | .holderEngage => .holder
  | .holderRelease => .holder

/-- The data bytes of a request's frame (11.7). -/
def LineCmd.data : LineCmd → List Byte
  | .pollNow => []
  | .driveThrow => [1#8, 0#8]
  | .driveRetract => [2#8, 0#8]
  | .drivePulse n => [3#8, byte n]
  | .holderEngage => [1#8]
  | .holderRelease => [2#8]

/-- The two argument bytes READ LINE shows for a request (R200). -/
def LineCmd.argument : LineCmd → List Byte
  | .pollNow => [0#8, 0#8]
  | .driveThrow => [1#8, 0#8]
  | .driveRetract => [2#8, 0#8]
  | .drivePulse n => [3#8, byte n]
  | .holderEngage => [1#8, 0#8]
  | .holderRelease => [2#8, 0#8]

/-- A DRIVE or HOLDER makes an outstanding item; a POLL NOW does not (R9). -/
def LineCmd.isItem : LineCmd → Bool
  | .pollNow => false
  | .driveThrow => true
  | .driveRetract => true
  | .drivePulse _ => true
  | .holderEngage => true
  | .holderRelease => true

/-- A DRIVE, which the motion list's places limit (R40). -/
def LineCmd.isDrive (c : LineCmd) : Bool := c.function = .drive

/-- The direction of a DRIVE's motion (2.6). -/
def LineCmd.direction : LineCmd → Direction
  | .driveThrow => .throwing
  | _ => .retracting

/-- A line frame's bytes, the CRC-8 last (11.7). -/
def lineFrame (address : Nat) (fn : LineFunction) (data : List Byte) : List Byte :=
  let body := byte address :: byte fn.code :: byte data.length :: data
  body ++ [crc8 body]

/-- The bytes of a transaction's frame. -/
def Transaction.frame (t : Transaction) : List Byte := lineFrame t.node t.cmd.function t.cmd.data

/-- The bytes of a fire broadcast (11.7). -/
def FireMaps.frame (m : FireMaps) : List Byte := lineFrame 0 .fireBroadcast (be64 m.retract ++ be64 m.holder)

/-- A send is conflicted when a character read back differs in any of its bits from the character sent (R27, R28). -/
def readbackConflicts (frame : List Byte) : Readback → Bool
  | .asSent => false
  | .chars chars => chars.map (fun c => { c with pause := 0 }) ≠ frame.map sentChar

/-! ## Replies (R29, R201, 11.7) -/

/-- The fields of a STATE reply (2.2). -/
structure StateReply where
  bolt : Bolt
  position : Position
  holding : Bool
  exit : Bool
  forced : Bool
  tamper : Bool
  pulse : Bool
  restarted : Bool
  moving : Bool
  deriving DecidableEq, Repr

/-- A valid reply (2.2); `refuse true` is REFUSE MOVING, `refuse false` REFUSE NODE_FAULT. -/
inductive Reply where
  | state (r : StateReply)
  | accept
  | refuse (moving : Bool)
  deriving DecidableEq, Repr

/-- What the receiver makes of a reply: valid, failed whole (CHECK or STRAY), or ended by a character failure. -/
inductive Judgement where
  | valid (r : Reply)
  | failed (kind : FaultKind)
  | charFailed (kind : FaultKind)
  deriving DecidableEq, Repr

/-- The first check of R27 a character fails. -/
def charFailure (c : LineChar) : Option FaultKind :=
  if !c.startHeld then some .start
  else if !parityHolds c.data c.parity then some .parity
  else if !c.stopAtMark then some .stop
  else none

/-- The data bytes of a STATE reply, where every value is one 11.7 defines. -/
def stateReplyOf (bolt position holder flags : Byte) : Option StateReply :=
  let boltOf : Option Bolt :=
    match bolt.toNat with
    | 0 => some .unknown
    | 1 => some .thrown
    | 2 => some .retracted
    | 4 => some .jammed
    | _ => none
  let positionOf : Option Position :=
    match position.toNat with
    | 0 => some .unknown
    | 1 => some .closed
    | 2 => some .opened
    | _ => none
  match boltOf, positionOf with
  | some b, some p =>
    if (holder = 1#8 ∨ holder = 2#8) ∧ flags.toNat < 64 then
      some
        { bolt := b, position := p, holding := holder = 1#8, exit := flags.getLsbD 0, forced := flags.getLsbD 1,
          tamper := flags.getLsbD 2, pulse := flags.getLsbD 3, restarted := flags.getLsbD 4, moving := flags.getLsbD 5 }
    else none
  | _, _ => none

/-- The reply a function byte and its data make, where the layout of 11.7 holds (R29, condition 7; R201). -/
def replyOf (fn : Byte) (data : List Byte) : Option Reply :=
  match fn.toNat, data with
  | 0x11, [bolt, position, holder, flags] => (stateReplyOf bolt position holder flags).map .state
  | 0x12, [] => some .accept
  | 0x13, [r] => if r = 1#8 then some (.refuse true) else if r = 2#8 then some (.refuse false) else none
  | _, _ => none

/-- Whether a function byte is a reply the sent function expects (2.2; R29, condition 6). -/
def replyExpected (sent : LineFunction) (fn : Byte) : Bool :=
  match sent with
  | .poll => fn = 0x11#8
  | .drive => fn = 0x12#8 || fn = 0x13#8
  | .holder => fn = 0x12#8 || fn = 0x13#8
  | .fireBroadcast => false

/-- Conditions 2 to 7 of R29 on the characters of a reply none of which failed a check of R27. -/
def judgeBytes (node : Nat) (sent : LineFunction) (chars : List LineChar) : Judgement :=
  match chars.map (·.data) with
  | address :: fn :: len :: rest =>
    let data := rest.take len.toNat
    if len.toNat ≤ 17 ∧ rest.length = len.toNat + 1 ∧ rest.drop len.toNat = [crc8 (address :: fn :: len :: data)] ∧
        (chars.drop 1).all fun c => c.pause ≤ Config.lineGap then
      if address.toNat = node ∧ replyExpected sent fn then
        match replyOf fn data with
        | some r => .valid r
        | none => .failed .check
      else .failed .stray
    else .failed .check
  | _ => .failed .check

/-- The judging of a reply (R29): the first character that fails a check ends it (R27). -/
def judgeReply (node : Nat) (sent : LineFunction) (chars : List LineChar) : Judgement :=
  match chars.findSome? charFailure with
  | some k => .charFailed k
  | none => judgeBytes node sent chars

/-- The characters of a reply the receiver takes: all, or those up to the first that fails a check (R27). -/
def charsTaken : List LineChar → List LineChar
  | [] => []
  | c :: cs => if (charFailure c).isSome then [c] else c :: charsTaken cs

/-- The characters of a reply that follow the first that fails a check: the receiver discards them (R27). -/
def charsDropped (chars : List LineChar) : List LineChar := chars.drop (charsTaken chars).length

/-- Since when the line has been at mark, after characters that follow a moment from which it was: each that comes within 2 ms of mark
is discarded and puts the mark off to its own end, and one that comes later is no part of the send (R27, log 47). -/
def markSince (t : Time) : List LineChar → Time
  | [] => t
  | c :: cs => if c.pause < Config.lineGap then markSince (t + c.pause + Config.lineCharTicks) cs else t

/-- How long the characters taken last, with the pauses before them. -/
def charsTicks (chars : List LineChar) : Nat := (chars.map fun c => c.pause + Config.lineCharTicks).sum

/-! ## Outbound frames (11.1, 11.5, R197, R199, R200) -/

/-- The bytes of an outbound frame, start byte to CRC (11.1). -/
def uplinkFrame (kind originator tag code door : Byte) (params : List Byte) : List Byte :=
  let body := byte (5 + params.length) :: kind :: originator :: tag :: code :: door :: params
  0xC3#8 :: body ++ be16 (crc16 body).toNat

/-- The short image, bytes 10 to 15 of 11.3. -/
def ShortImage.bytes (m : ShortImage) : List Byte :=
  [byte m.state.code, byte m.bolt.code, byte m.position.code, byte m.holder.code, boolByte m.pulseActive, byte m.silence]

/-- A fault record's fields after its state byte (R200). -/
def FaultRecord.bytes (r : FaultRecord) : List Byte :=
  [byte r.kind.code, optByte r.node, optByte (r.function.map (·.code))] ++ minuteField r.minute ++ [boolByte r.again]

/-- The levels of notices (R197). -/
inductive Level where
  | urgent
  | fault
  | state
  deriving DecidableEq, Repr

/-- A notice's level (9.2). -/
def Notice.level : Notice → Level
  | .fireAlarm .. => .urgent
  | .fireLoopFault .. => .urgent
  | .fireReleaseIncomplete .. => .urgent
  | .forcedDoor .. => .urgent
  | .tamper .. => .urgent
  | .lineFault .. => .fault
  | .doorSilent .. => .fault
  | .nodeRestarted .. => .fault
  | .sweepSuspended .. => .fault
  | .suspendTimedOut .. => .fault
  | .startDisplaced .. => .fault
  | .startDropped .. => .fault
  | .doorChange .. => .state
  | .sweepStarted .. => .state
  | .sweepEnded .. => .state
  | .exceptionEnded .. => .state
  | .watchFired .. => .state
  | .fireReleaseConfirmed .. => .state
  | .fireRestored .. => .state
  | .partStarted .. => .state

/-- A notice's kind code (11.5). -/
def Notice.code : Notice → Nat
  | .fireAlarm .. => 0x01
  | .fireLoopFault .. => 0x02
  | .fireReleaseIncomplete .. => 0x03
  | .forcedDoor .. => 0x04
  | .tamper .. => 0x05
  | .lineFault .. => 0x11
  | .doorSilent .. => 0x12
  | .nodeRestarted .. => 0x13
  | .sweepSuspended .. => 0x14
  | .suspendTimedOut .. => 0x15
  | .startDisplaced .. => 0x16
  | .startDropped .. => 0x17
  | .doorChange .. => 0x21
  | .sweepStarted .. => 0x22
  | .sweepEnded .. => 0x23
  | .exceptionEnded .. => 0x24
  | .watchFired .. => 0x25
  | .fireReleaseConfirmed .. => 0x26
  | .fireRestored .. => 0x27
  | .partStarted .. => 0x28

/-- A notice's addressee: the owner of the watch for WATCH FIRED, all originators otherwise (R176). -/
def Notice.addressee : Notice → Option OriginatorNo
  | .watchFired owner .. => some owner
  | _ => none

/-- The door byte of a notice (11.5). -/
def Notice.doorByte : Notice → Byte
  | .forcedDoor d .. => byte d
  | .tamper d .. => byte d
  | .doorSilent d .. => byte d
  | .nodeRestarted d .. => byte d
  | .sweepSuspended _ _ d _ => byte d
  | .suspendTimedOut _ d _ => byte d
  | .doorChange d .. => byte d
  | .watchFired _ _ _ _ _ (some (d, _)) => byte d
  | _ => 0xFF#8

/-- A pending start's fields in START DISPLACED (11.5). -/
def PendingStart.bytes (s : PendingStart) : List Byte := [byte s.plan, byte s.entry] ++ be16 s.minute

/-- The old value of a field in DOOR CHANGE, 0xFF where it is not a reason (11.5). -/
def oldByte {α : Type} (code : α → Nat) : Option (α × α) → Byte
  | none => 0xFF#8
  | some (old, _) => byte (code old)

/-- The parameters of a notice (11.5). -/
def Notice.params : Notice → List Byte
  | .fireAlarm f b n => [byte (fireInputCode f), boolByte b, byte n]
  | .fireLoopFault f b n => [byte (fireInputCode f), boolByte b, byte n]
  | .fireReleaseIncomplete n per => byte n :: per.toList.map byte
  | .forcedDoor _ g m => byte g :: m.bytes
  | .tamper _ m => m.bytes
  | .lineFault l r => byte l :: r.bytes
  | .doorSilent _ l => [byte l]
  | .nodeRestarted _ l n m => byte l :: byte n :: m.bytes
  | .sweepSuspended n k _ o => be16 n ++ [byte k, byte o.code]
  | .suspendTimedOut n _ k => be16 n ++ [byte k]
  | .startDisplaced a b => a.bytes ++ b.bytes
  | .startDropped r s => [byte r.code, byte s.entry, byte s.plan] ++ be16 s.minute
  | .doorChange _ l bc pc hc exit forced m =>
    [byte l, byte (bc.isSome.toNat + 2 * pc.isSome.toNat + 4 * hc.isSome.toNat + 8 * exit.toNat + 16 * forced.toNat),
      oldByte Bolt.code bc, oldByte Position.code pc, oldByte Holder.code hc] ++ m.bytes
  | .sweepStarted n p m => sweepField n ++ [optByte (p.map (·.val))] ++ minuteField m
  | .sweepEnded n p st => sweepField n ++ [optByte (p.map (·.val)), byte st.code]
  | .exceptionEnded k o e c r a => [byte k, byte o] ++ be16 e ++ [byte c.code, byte r, byte a]
  | .watchFired _ k t c r m =>
    byte k :: t.bytes ++ [byte c.code, byte r.code] ++
      match m with
      | some (_, image) => image.bytes
      | none => List.replicate 6 0xFF#8
  | .fireReleaseConfirmed c r s => [byte c, byte r] ++ be16 s
  | .fireRestored u a => [byte u, byte a]
  | .partStarted c f => [byte c.code, boolByte f]

/-- The tag byte of a notice: its level, with 0x80 for the overflow mark (R197). -/
def Notice.tag (n : Notice) (mark : Bool) : Byte :=
  byte ((match n.level with | .urgent => 1 | .fault => 2 | .state => 3) + 0x80 * mark.toNat)

/-- A notice's frame (11.1, R197). -/
def Notice.frame (n : Notice) (mark : Bool) : List Byte :=
  uplinkFrame 0x82#8 (optByte (n.addressee.map (·.val))) (n.tag mark) (byte n.code) n.doorByte n.params

/-- A response's frame (R191, R197). -/
def Response.frame (r : Response) : List Byte :=
  uplinkFrame 0x81#8 (byte r.originator) r.tag r.code r.door (byte r.completion.code :: r.results)

/-- The bytes of a frame being sent on the uplink. -/
def Outbound.frame : Outbound → List Byte
  | .notice n mark _ => n.frame mark
  | .response _ r _ => r.frame

/-- When the sending of a frame began. -/
def Outbound.began : Outbound → Time
  | .notice _ _ t => t
  | .response _ _ t => t

end Sys2Proof.Machine
end

