-- ==== Sys2Proof/Machine/Ops.lean ====
section
/-! DEFINITION. The shared operations over the part: reading and writing its tables, the notice queues, the images, the catch-up
list, the responses and sense records, the line queues. Every meaning goes through these. -/
namespace Sys2Proof.Machine

/-! ## Reading and writing tables -/

/-- The doors in ascending order. -/
def allDoors : List DoorNo := List.finRange 240

/-- The record of a door (R1). -/
def Part.door (p : Part) (d : DoorNo) : DoorRecord := p.doors[d]

/-- The configuration of a door. -/
def Part.config (p : Part) (d : DoorNo) : DoorConfig := (p.door d).config

/-- The stored image of a door. -/
def Part.image (p : Part) (d : DoorNo) : DoorImage := (p.door d).image

/-- Write a door record. -/
def Part.setDoor (p : Part) (d : DoorNo) (r : DoorRecord) : Part := { p with doors := p.doors.set d r }

/-- Write a door's image. -/
def Part.setImage (p : Part) (d : DoorNo) (m : DoorImage) : Part := p.setDoor d { p.door d with image := m }

/-- Write a door's configuration. -/
def Part.setConfig (p : Part) (d : DoorNo) (c : DoorConfig) : Part := p.setDoor d { p.door d with config := c }

/-- A group record (R21). -/
def Part.group (p : Part) (g : GroupNo) : GroupRecord := p.groups[g]

/-- Write a group record. -/
def Part.setGroup (p : Part) (g : GroupNo) (r : GroupRecord) : Part := { p with groups := p.groups.set g r }

/-- A door line. -/
def Part.line (p : Part) (l : LineNo) : Line := p.lines[l]

/-- Write a door line. -/
def Part.setLine (p : Part) (l : LineNo) (x : Line) : Part := { p with lines := p.lines.set l x }

/-- The line a door's record names. -/
def Part.lineOf (p : Part) (d : DoorNo) : LineNo := (p.config d).line

/-- A work-set entry. -/
def Part.entry (p : Part) (n : EntryNo) : Option WorkEntry := p.engine.workSet[n]

/-- Write a work-set entry. -/
def Part.setEntry (p : Part) (n : EntryNo) (e : Option WorkEntry) : Part :=
  { p with engine := { p.engine with workSet := p.engine.workSet.set n e } }

/-- Write the sweep context. -/
def Part.setCtx (p : Part) (c : Option SweepContext) : Part := { p with engine := { p.engine with ctx := c } }

/-- The place of a request slot in the table of eight. -/
def slotPlace (o : OriginatorNo) (i : SlotNo) : Fin 8 := ⟨2 * o.val + i.val, by omega⟩

/-- A request slot (10.3). -/
def Part.slot (p : Part) (o : OriginatorNo) (i : SlotNo) : Slot := p.uplink.slots[slotPlace o i]

/-- Write a request slot. -/
def Part.setSlot (p : Part) (o : OriginatorNo) (i : SlotNo) (x : Slot) : Part :=
  { p with uplink := { p.uplink with slots := p.uplink.slots.set (slotPlace o i) x } }

/-- Write a sense record (R105). -/
def Part.setSense (p : Part) (o : OriginatorNo) (x : Option SenseRecord) : Part :=
  { p with uplink := { p.uplink with senses := p.uplink.senses.set o x } }

/-- The record of an originator (R183). -/
def Part.originator (p : Part) (o : OriginatorNo) : OriginatorRecord := p.uplink.originators[o]

/-- Whether an originator passes the check of a level as its record stands (R183). -/
def Part.holds (p : Part) (o : OriginatorNo) (level : Authority) : Bool := (p.originator o).holds level

/-- Move the model's time on to a moment, where it is not there yet (log 3, log 4). -/
def Part.reach (p : Part) (t : Time) : Part := { p with now := max p.now t }

/-- The part works: it has power and is not held in reset (R195). -/
def Part.working (p : Part) : Bool := p.powered && !p.resetAsserted

/-- The clock's minute as other blocks read it, none for UNSET (R125). -/
def Part.minute (p : Part) : Option Nat := if p.clock.set then some p.clock.minute else none

/-- The engine state (3.2). -/
def Part.engineState (p : Part) : EngineState :=
  match p.engine.ctx with
  | none => .idle
  | some c =>
    match c.phase with
    | .running => .running
    | .suspended => .suspended
    | .draining => .draining

/-! ## Membership and the work set -/

/-- The entry numbers in ascending order. -/
def entryNumbers : List EntryNo := List.finRange 16

/-- The entry that holds a door, with its number (R66). -/
def Part.entryOf (p : Part) (d : DoorNo) : Option (EntryNo × WorkEntry) :=
  entryNumbers.findSome? fun n => (p.entry n).bind fun e => if e.door = d then some (n, e) else none

/-- Whether a door is in the work set (R66). -/
def Part.inWorkSet (p : Part) (d : DoorNo) : Bool := (p.entryOf d).isSome

/-- Whether no entry is at work. -/
def Part.workSetEmpty (p : Part) : Bool := p.engine.workSet.toList.all (·.isNone)

/-- The members of a group: its configured doors, ascending (R21). -/
def Part.groupMembers (p : Part) (g : GroupNo) : List DoorNo :=
  allDoors.filter fun d => (p.config d).configured && (p.config d).group = g

/-- Whether a door is a member of a plan step (R57). -/
def Part.isMember (p : Part) (s : PlanStep) (d : DoorNo) : Bool :=
  (p.config d).configured && (s.group.val = 32 || s.group.val = (p.config d).group.val)

/-- The groups a plan step covers (R23). -/
def PlanStep.groups (s : PlanStep) : List GroupNo :=
  (List.finRange 32).filter fun g => s.group.val = 32 || s.group.val = g.val

/-- Whether a door is in the catch-up list: its in catch-up field (R7, R119). -/
def Part.inCatchUp (p : Part) (d : DoorNo) : Bool := p.catchUp.contains d

/-- The doors a slot claims (R107). -/
def Part.claimedBy (p : Part) (x : ExceptionNo) : List DoorNo := allDoors.filter fun d => (p.image d).claim = some x

/-! ## The image state (R8, R9) -/

/-- Whether a door has an outstanding item on its line (R9): a queued or in-flight DRIVE or HOLDER, or a motion entry. -/
def Part.hasItem (p : Part) (d : DoorNo) : Bool :=
  let x := p.line (p.lineOf d)
  (x.queue.any fun r => r.door = d && r.cmd.isItem) || x.motions.any fun m => m.door = d

/-- The image state shown (R8). -/
def Part.imageState (p : Part) (d : DoorNo) : ImageState :=
  if p.hasItem d then .pending
  else
    match (p.image d).settled with
    | .absent => .absent
    | .current => .current
    | .suspect => .suspect

/-- The short image of a door as it stands (11.3). -/
def Part.shortImage (p : Part) (d : DoorNo) : ShortImage where
  state := p.imageState d
  bolt := (p.image d).bolt
  position := (p.image d).position
  holder := (p.image d).holder
  pulseActive := (p.image d).pulseActive
  silence := (p.image d).silence

/-- The full image, bytes 10 to 18 of 11.3. -/
def Part.imageBytes (p : Part) (d : DoorNo) : List Byte :=
  (p.shortImage d).bytes ++
    [byte (lastOutcomeCode (p.image d).lastOutcome), optByte ((p.image d).claim.map (·.val)), boolByte (p.inCatchUp d)]

/-- The image as LOAD DOOR, WITHDRAW DOOR and restarts leave it (R3, R4, R26): ABSENT, with last outcome and claim kept. -/
def DoorImage.cleared (m : DoorImage) (holderFitted : Bool) : DoorImage :=
  { m with
    settled := .absent
    bolt := .unknown
    position := .unknown
    holder := if holderFitted then .unknown else .none
    pulseActive := false
    silence := 0 }

/-! ## Notices (R176, R177) -/

/-- Queue a notice at the tail of its level's queue; a full queue loses it and sets its overflow flag (R177). -/
def NoticeQueues.raise (q : NoticeQueues) (n : Notice) : NoticeQueues :=
  match n.level with
  | .urgent => if q.urgent.length < 8 then { q with urgent := q.urgent ++ [n] } else { q with urgentOverflow := true }
  | .fault => if q.fault.length < 8 then { q with fault := q.fault ++ [n] } else { q with faultOverflow := true }
  | .state => if q.state.length < 32 then { q with state := q.state ++ [n] } else { q with stateOverflow := true }

/-- Raise a notice. -/
def Part.raise (p : Part) (n : Notice) : Part := { p with notices := p.notices.raise n }

/-! ## Responses and sense records (R105, R191) -/

/-- A frame that SENSE answers, whose response writes no sense record (R105, log 20). -/
def Frame.isSense (f : Frame) : Bool := f.kind = requestKind && f.code = Code.sense.value

/-- The door a frame named, for the sense record (R105, log 20). -/
def Frame.namedDoor (f : Frame) : Option DoorNo := if h : f.door.toNat < 240 then some ⟨f.door.toNat, h⟩ else none

/-- Write the sense record a response calls for (R105): none for OK, COMMIT_PENDING and a response to SENSE. -/
def Part.noteSense (p : Part) (o : OriginatorNo) (f : Frame) (c : Completion) (detail : Option Nat) : Part :=
  if c = .ok ∨ c = .commitPending ∨ f.isSense then p
  else p.setSense o (some { completion := c, request := f.code, door := f.namedDoor, detail := detail })

/-- The response to a frame (R191, R197). -/
def Frame.respond (f : Frame) (o : OriginatorNo) (c : Completion) (results : List Byte) : Response :=
  { originator := o, tag := f.tag, code := f.code, door := f.door, completion := c, results := results }

/-- Build the response of an occupied slot (R187, R191): the slot goes ANSWERED, the response waits to be sent, and the sense
record is written. -/
def Part.answer (p : Part) (o : OriginatorNo) (i : SlotNo) (c : Completion) (results : List Byte) (detail : Option Nat) : Part :=
  match p.slot o i with
  | .waiting f t | .inProgress f t _ =>
    let q := (p.setSlot o i (.answered f t (f.respond o c results))).noteSense o f c detail
    { q with uplink := { q.uplink with waiting := q.uplink.waiting ++ [.slot o i] } }
  | .empty => p
  | .answered _ _ _ => p

/-- Answer OK with results. -/
def Part.answerOk (p : Part) (o : OriginatorNo) (i : SlotNo) (results : List Byte) : Part := p.answer o i .ok results none

/-- Refuse a frame with a code whose sense detail is the request slot (R105). -/
def Part.refuse (p : Part) (o : OriginatorNo) (i : SlotNo) (c : Completion) : Part := p.answer o i c [] (some i.val)

/-- The step index of the entry that holds a door, the detail of IN_SWEEP (R105). -/
def Part.sweepDetail (p : Part) (d : DoorNo) : Option Nat := (p.entryOf d).bind fun ne => ne.2.step

/-- The sense detail of a taken door command's completion (R105, R165). -/
def Part.commandDetail (p : Part) (d : DoorNo) (i : SlotNo) (c : Completion) : Option Nat :=
  match c with
  | .lineDown | .noReply | .boltTimeout | .jammed | .refused => some (p.lineOf d).val
  | _ => some i.val

/-- Complete a taken door command (R160, R165): its response carries the full image. -/
def Part.completeCommand (p : Part) (o : OriginatorNo) (i : SlotNo) (c : Completion) : Part :=
  match p.slot o i with
  | .inProgress f _ (some _) => p.answer o i c (p.imageBytes f.doorNo) (p.commandDetail f.doorNo i c)
  | _ => p

/-- Move the progress of a taken door command (R160). -/
def Part.setProgress (p : Part) (s : Option Source) (g : Progress) : Part :=
  match s with
  | some (.slot o i) =>
    match p.slot o i with
    | .inProgress f t (some _) => p.setSlot o i (.inProgress f t (some g))
    | _ => p
  | _ => p

/-- Whether a slot holds a door command for the door that has not completed (R2, R4, R187). -/
def Slot.commands (x : Slot) (d : DoorNo) : Bool :=
  match x with
  | .inProgress f _ (some _) => f.doorNo = d
  | _ => false

/-- Whether a request slot holds a door command for the door that has not completed (R2, R4). -/
def Part.commandOutstanding (p : Part) (d : DoorNo) : Bool := p.uplink.slots.toList.any fun x => x.commands d

/-! ## The transmit queue (R34 to R36) -/

/-- Place held submissions in freed places, oldest first (R35). -/
def Part.placeHeld (p : Part) (l : LineNo) : Part :=
  let x := p.line l
  let moved := x.held.take (Config.queuePlaces - x.queue.length)
  let q := p.setLine l { x with queue := x.queue ++ moved, held := x.held.drop (Config.queuePlaces - x.queue.length) }
  moved.foldl (fun q r => q.setProgress r.source .queued) q

/-- Submit a request to the line of its door (R34): placed, held, or refused with LINE_DOWN (the Bool is false). -/
def Part.submit (p : Part) (cmd : LineCmd) (d : DoorNo) (s : Source) : Part × Bool :=
  let l := p.lineOf d
  let x := p.line l
  let r : LineRequest := { cmd := cmd, door := d, source := some s, inFlight := false, purged := false }
  if x.state ≠ .active then (p, false)
  else if x.queue.length < Config.queuePlaces then
    ((p.setLine l { x with queue := x.queue ++ [r] }).setProgress (some s) .queued, true)
  else ((p.setLine l { x with held := x.held ++ [r] }).setProgress (some s) .held, true)

/-- Withdraw a source from what it has on a line (R36, R67): held and queued requests go, one in flight and a motion entry lose
their source; freed places are filled. -/
def Part.withdraw (p : Part) (l : LineNo) (s : Source) : Part :=
  let x := p.line l
  let strip (r : LineRequest) : LineRequest := if r.source = some s then { r with source := none } else r
  (p.setLine l
    { x with
      held := x.held.filter fun r => r.source ≠ some s
      queue := (x.queue.filter fun r => r.source ≠ some s || r.inFlight).map strip
      motions := x.motions.map fun m => if m.source = some s then { m with source := none } else m }).placeHeld l

/-- Whether a source's request is in flight on a line (R96). -/
def Line.inFlightOf (x : Line) (s : Source) : Bool := x.queue.any fun r => r.source = some s && r.inFlight

/-! ## Fire broadcasts (R33, R143) -/

/-- A map of node addresses (11.7): node n is bit n − 1. -/
def nodeMap (nodes : List Nat) : BitVec 64 := nodes.foldl (fun m n => m ||| (1#64 <<< (n - 1))) 0#64

/-- The two maps of a line as its records stand (R143). -/
def Part.fireMaps (p : Part) (l : LineNo) : FireMaps where
  retract :=
    nodeMap ((allDoors.filter fun d => (p.config d).configured && (p.config d).line = l && (p.config d).fireAction = .free).map
      fun d => (p.config d).node)
  holder :=
    nodeMap ((allDoors.filter fun d => (p.config d).configured && (p.config d).line = l &&
      ((p.config d).fireAction = .close || (p.config d).fireAction = .free && (p.config d).holderFitted)).map
      fun d => (p.config d).node)

/-- A send on the wire no longer carries the pending broadcast (R33, R152, log 14). -/
def Wire.outdated : Wire → Wire
  | .broadcast m t _ => .broadcast m t false
  | w => w

/-- Make a fire broadcast pending on a line (R33, R143): new maps and three sends, whatever was pending. -/
def Part.makeBroadcast (p : Part) (l : LineNo) : Part :=
  let x := p.line l
  p.setLine l { x with broadcast := some { maps := p.fireMaps l, sends := 3 }, wire := x.wire.outdated }

/-- Make a fire broadcast pending on every line (R142, R144). -/
def Part.makeBroadcasts (p : Part) : Part := (List.finRange 4).foldl Part.makeBroadcast p

/-! ## The catch-up list (R119 to R121) -/

/-- The append conditions of R120. -/
def Part.mayAppend (p : Part) (d : DoorNo) : Bool :=
  (p.config d).configured && !(p.config d).withdrawn && (p.image d).claim.isNone && (p.group (p.config d).group).night &&
    !p.inWorkSet d && !p.inCatchUp d

/-- Append a door at the tail of the catch-up list (R120). -/
def Part.appendCatchUp (p : Part) (d : DoorNo) : Part := { p with catchUp := p.catchUp ++ [d] }

/-- Remove a door from the catch-up list, wherever it stands (R121). -/
def Part.removeCatchUp (p : Part) (d : DoorNo) : Part := { p with catchUp := p.catchUp.filter fun x => x ≠ d }

/-- Offer doors to the catch-up list under the append conditions, in the order given (R115, R120, R152). -/
def Part.offerDoors (p : Part) (ds : List DoorNo) : Part :=
  ds.foldl (fun q d => if q.mayAppend d then q.appendCatchUp d else q) p

/-! ## Fault capture (R52) -/

/-- Offer a fault to a line's capture record: an empty record locks and LINE FAULT is queued, a locked one notes again. -/
def Part.offerFault (p : Part) (l : LineNo) (kind : FaultKind) (node : Option Nat) (fn : Option LineFunction) : Part :=
  let x := p.line l
  match x.fault with
  | some r => p.setLine l { x with fault := some { r with again := true } }
  | none =>
    let r : FaultRecord := { kind := kind, node := node, function := fn, minute := p.minute, again := false }
    (p.setLine l { x with fault := some r }).raise (.lineFault l r)

/-! ## The release-pending set (R146, R147, R149) -/

/-- The whole seconds since the latch set, up to 65535 (R149). -/
def Part.latchSeconds (p : Part) : Nat := min 65535 ((p.now - p.fire.latchTime.getD p.now) / Config.secondTicks)

/-- Queue FIRE RELEASE CONFIRMED if the set is empty (R149). -/
def Part.confirmIfEmpty (p : Part) : Part :=
  if p.fire.releasePending = [] then p.raise (.fireReleaseConfirmed p.fire.confirmed p.fire.removed p.latchSeconds) else p

/-- A door leaves the set by a reply (R146). -/
def Part.confirmRelease (p : Part) (d : DoorNo) : Part :=
  if p.fire.latch ∧ d ∈ p.fire.releasePending then
    { p with
      fire :=
        { p.fire with
          releasePending := p.fire.releasePending.filter fun x => x ≠ d
          confirmed := raiseTo 255 p.fire.confirmed } }.confirmIfEmpty
  else p

/-- A door leaves the set by reconfiguration (R147). -/
def Part.removeRelease (p : Part) (d : DoorNo) : Part :=
  if p.fire.latch ∧ d ∈ p.fire.releasePending then
    { p with
      fire :=
        { p.fire with
          releasePending := p.fire.releasePending.filter fun x => x ≠ d
          removed := raiseTo 255 p.fire.removed } }.confirmIfEmpty
  else p

/-- A door joins the set (R147). -/
def Part.joinRelease (p : Part) (d : DoorNo) : Part :=
  if p.fire.latch ∧ d ∉ p.fire.releasePending then
    { p with fire := { p.fire with releasePending := p.fire.releasePending ++ [d] } }
  else p

/-- Keep the set in step with a door's record after LOAD DOOR or RESTORE DOOR, and make a broadcast pending on its line, while
the latch is set (R147). -/
def Part.fireReconfigured (p : Part) (d : DoorNo) : Part :=
  if p.fire.latch then
    let c := p.config d
    let q :=
      if !c.configured || c.fireAction ≠ .free then p.removeRelease d
      else if !c.withdrawn then p.joinRelease d
      else p
    q.makeBroadcast c.line
  else p

/-! ## Watches (R171, R172) -/

/-- What a line controller hands over for a door (R14): a valid STATE reply, with the image before it and its settled state, or
the settled state entering SUSPECT. -/
inductive DoorEvent where
  | reply (old : DoorImage)
  | silent
  deriving DecidableEq, Repr

/-- Bolt thrown on a closed leaf. -/
def DoorImage.isSecure (m : DoorImage) : Bool := m.bolt = .thrown && m.position = .closed

/-- Whether a door change matches a condition (R171). -/
def WatchCondition.matches (c : WatchCondition) (ev : DoorEvent) (new : DoorImage) : Bool :=
  match ev, c with
  | .silent, .change => true
  | .silent, .opens => false
  | .silent, .secures => false
  | .reply old, .change =>
    old.settled ≠ .absent && (old.bolt ≠ new.bolt || old.position ≠ new.position || old.holder ≠ new.holder)
  | .reply old, .opens => old.settled ≠ .absent && old.position = .closed && new.position = .opened
  | .reply old, .secures => new.isSecure && !old.isSecure

/-- Whether a watch is on the door or on the group its record names now (R172). -/
def Part.watches? (p : Part) (w : Watch) (d : DoorNo) : Bool :=
  match w.target with
  | .door x => x = d
  | .group g => g = (p.config d).group

/-- Test one watch slot against a door change (R172). -/
def Part.testWatch (p : Part) (d : DoorNo) (ev : DoorEvent) (shown : ShortImage) (k : Fin 8) : Part :=
  match p.watches[k] with
  | none => p
  | some w =>
    if p.watches? w d && w.condition.matches ev (p.image d) then
      let reason : WatchReason := match ev with | .reply _ => .condition | .silent => .silent
      { p with watches := p.watches.set k none }.raise (.watchFired w.owner k w.target w.condition reason (some (d, shown)))
    else p

/-- The watch table's part in a door change: every slot in ascending order (R172). -/
def Part.testWatches (p : Part) (d : DoorNo) (ev : DoorEvent) (shown : ShortImage) : Part :=
  (List.finRange 8).foldl (fun q k => q.testWatch d ev shown k) p

/-- The setting of the fire latch fires one watch (R173). -/
def Part.fireWatch (p : Part) (k : Fin 8) : Part :=
  match p.watches[k] with
  | none => p
  | some w => { p with watches := p.watches.set k none }.raise (.watchFired w.owner k w.target w.condition .fire none)

/-- The setting of the fire latch fires every watch, in ascending slot order (R173). -/
def Part.fireWatches (p : Part) : Part := (List.finRange 8).foldl Part.fireWatch p

/-! ## Acting in an order (log 6) -/

/-- Let blocks act one after another. -/
def Part.inOrder (p : Part) (blocks : List Block) (act : Block → Part → Part) : Part := blocks.foldl (fun q b => act b q) p

end Sys2Proof.Machine
end

