-- ==== Sys2Proof/Machine/Engine.lean ====
section
/-! DEFINITION. The sweep engine (chapters 3 and 4): outcomes and reports, the stages of a work-set entry, steps and the cursor,
sweep starts and ends, and the return to IDLE (R131). -/
namespace Sys2Proof.Machine

/-! ## Reports and outcomes -/

/-- Record an outcome in a report (R101). -/
def SweepReport.record (r : SweepReport) (d : DoorNo) (o : SweepOutcome) (step : Option Nat) (attempt : Nat) : SweepReport :=
  let q := { r with counts := r.counts.set o.place (raiseTo 65535 r.counts[o.place]) }
  if o.failure then
    if r.failures.length < Config.failurePlaces then
      { q with failures := r.failures ++ [{ door := d, outcome := o, step := step, attempt := attempt }] }
    else { q with overflow := raiseTo 255 r.overflow }
  else q

/-- A report cleared and opened at a sweep's start (R100). -/
def SweepReport.opened (number : Option Nat) (plan : Option PlanNo) (minute : Option Nat) : SweepReport where
  number := number
  plan := plan
  startMinute := minute
  endMinute := none
  status := .inProgress
  counts := Vector.replicate 11 0
  failures := []
  overflow := 0
  suspension := none

/-- Change the report of a sweep's kind. -/
def Part.editReport (p : Part) (k : SweepKind) (f : SweepReport → SweepReport) : Part :=
  match k with
  | .plan _ _ _ => { p with engine := { p.engine with planReport := p.engine.planReport.map f } }
  | .catchUp => { p with engine := { p.engine with catchUpReport := p.engine.catchUpReport.map f } }

/-- Change the sweep context, where there is one. -/
def Part.editCtx (p : Part) (f : SweepContext → SweepContext) : Part := p.setCtx (p.engine.ctx.map f)

/-- Change the record of a begun step. -/
def SweepContext.editRecord (c : SweepContext) (k : Nat) (f : StepRecord → StepRecord) : SweepContext :=
  { c with records := c.records.map fun r => if r.index = k then f r else r }

/-- The step of a plan as the active bank holds it (R57). -/
def Part.activeStep (p : Part) (plan : PlanNo) (k : Nat) : Option PlanStep := p.banks.active[plan][k]?

/-- The suspension test (R88) on an outcome of a step of a plan sweep. -/
def Part.suspendTest (p : Part) (c : SweepContext) (plan : PlanNo) (number : Nat) (d : DoorNo) (o : SweepOutcome) (k : Nat) :
    Part :=
  if c.phase = .running ∧ o.unclean ∧ ((p.activeStep plan k).any fun s => s.strict) then
    ((p.editCtx fun c =>
      { c with phase := .suspended, suspension := some (d, k), suspendTimer := some (p.now + Config.suspendInterval) }).editReport
      c.kind fun r => { r with suspension := some (d, k) }).raise (.sweepSuspended number k d o)
  else p

/-- Record a door's outcome (R78): in its image, in the report and, for a plan sweep, in its step's record, with the suspension
test. The entry is freed by `endEntry`; the admission attempt is `engineRun`'s. -/
def Part.record (p : Part) (d : DoorNo) (o : SweepOutcome) (step : Option Nat) (attempt : Nat) : Part :=
  match p.engine.ctx with
  | none => p
  | some c =>
    let q := (p.setImage d { p.image d with lastOutcome := some o }).editReport c.kind fun r => r.record d o step attempt
    match c.kind, step with
    | .plan plan number _, some k =>
      (q.editCtx fun c =>
        c.editRecord k fun r =>
          { r with ended := r.ended + 1, unclean := if o.unclean then (d, (p.config d).group) :: r.unclean else r.unclean }).suspendTest
        c plan number d o k
    | _, _ => q

/-- Whether a step record is complete and nothing holds it (R79, R89, R93). -/
def SweepContext.completes (c : SweepContext) (r : StepRecord) : Bool :=
  r.admissionDone && r.ended = r.handled && !(c.suspension.any fun x => x.2 = r.index) && !(c.redo.any fun x => x.2 = r.index)

/-- Write a step's group results from its record (R23, R79). -/
def Part.writeResults (p : Part) (s : PlanStep) (number : Nat) (r : StepRecord) : Part :=
  s.groups.foldl
    (fun q g =>
      q.setGroup g
        { q.group g with
          lastResult := if r.unclean.any fun x => x.2 = g then .partly else .clean
          resultSweep := some number }) p

/-- A step completes (R79). -/
def Part.completeStep (p : Part) (plan : PlanNo) (number : Nat) (r : StepRecord) : Part :=
  let q :=
    match p.activeStep plan r.index with
    | some s => p.writeResults s number r
    | none => p
  q.editCtx fun c => { c with records := c.records.filter fun x => x.index ≠ r.index }

/-- The completion test of R79: every step whose record is complete completes, in step order. Made at each outcome, so that steps
complete in the order in which their last doors end. -/
def Part.completeSteps (p : Part) : Part :=
  match p.engine.ctx with
  | none => p
  | some c =>
    match c.kind with
    | .catchUp => p
    | .plan plan number _ => (c.records.filter c.completes).foldl (fun q r => q.completeStep plan number r) p

/-- End an entry's work with an outcome (R78): record it, withdraw from what is outstanding (R67), free the entry, test its step for
completion (R79). -/
def Part.endEntry (p : Part) (n : EntryNo) (o : SweepOutcome) : Part :=
  match p.entry n with
  | none => p
  | some e =>
    let q := p.record e.door o e.step e.attempt
    ((q.withdraw (q.lineOf e.door) (.entry n)).setEntry n none).completeSteps

/-! ## The stages of an entry (3.5 to 3.7) -/

/-- What a stage leads to: the part, and the outcome the entry is then given, if any. -/
abbrev StageResult := Part × Option SweepOutcome

/-- An entry submits a request (R67); a refusal with LINE_DOWN gives outcome LINE_DOWN. -/
def Part.entrySubmit (p : Part) (n : EntryNo) (e : WorkEntry) (cmd : LineCmd) : StageResult :=
  let r := (p.setEntry n (some { e with outstanding := .request, deadline := none })).submit cmd e.door (.entry n)
  (r.1, if r.2 then none else some .lineDown)

/-- Entering THROW (R71). -/
def Part.enterThrow (p : Part) (n : EntryNo) (e : WorkEntry) : StageResult :=
  p.entrySubmit n { e with stage := .throwing } .driveThrow

/-- Entering RETRACT (R74). -/
def Part.enterRetract (p : Part) (n : EntryNo) (e : WorkEntry) : StageResult :=
  p.entrySubmit n { e with stage := .retract } .driveRetract

/-- The close evaluation (R69, R70; log 23). A waiting entry keeps its deadline; one that begins to wait sets a fresh one. -/
def Part.closeEvaluation (p : Part) (n : EntryNo) (e : WorkEntry) : StageResult :=
  let m := p.image e.door
  let here := { e with stage := .close }
  if e.outstanding = .motion ∨ e.outstanding = .carriedMotion then
    (p.setEntry n (some { here with outstanding := .carriedMotion, deadline := none }), none)
  else if m.bolt = .thrown ∧ m.position ≠ .closed then p.entrySubmit n here .driveRetract
  else if m.holder = .holding then p.entrySubmit n here .holderRelease
  else if m.position = .closed then p.enterThrow n here
  else
    let wait := e.deadline.getD (p.now + (p.config e.door).closeWait * Config.secondTicks)
    (p.setEntry n (some { here with outstanding := .nothing, deadline := some wait }), none)

/-- What follows CHECK: CLOSE for SECURE, RETRACT for RELEASE (R68). -/
def Part.afterCheck (p : Part) (n : EntryNo) (e : WorkEntry) : StageResult :=
  match e.action with
  | .secure => p.closeEvaluation n { e with outstanding := .nothing }
  | .release => p.enterRetract n { e with outstanding := .nothing }

/-- CHECK (R68). -/
def Part.check (p : Part) (n : EntryNo) (e : WorkEntry) : StageResult :=
  match (p.image e.door).settled with
  | .current => p.afterCheck n e
  | .absent => p.entrySubmit n e .pollNow
  | .suspect => p.entrySubmit n e .pollNow

/-- Admit a door into the work set (R64, R66, R122) and begin CHECK. -/
def Part.enlist (p : Part) (n : EntryNo) (d : DoorNo) (step : Option Nat) (action : Action) (retries : Nat) : Part :=
  let e : WorkEntry :=
    { door := d, step := step, action := action, retries := retries, stage := .check, attempt := 0, deadline := none,
      outstanding := .nothing, finalRetract := false, aborting := false }
  let r := ((p.removeCatchUp d).setEntry n (some e)).check n e
  match r.2 with
  | some o => r.1.endEntry n o
  | none => r.1

/-- What reaches an entry from its line (R14, R67). -/
inductive EntryEvent where
  /-- The STATE result of its own POLL NOW. -/
  | polled
  /-- A valid STATE reply for its door that is neither that nor the end of its own motion. -/
  | reply
  | acceptDrive
  | acceptHolder
  /-- REFUSE MOVING to its DRIVE, which goes back to the queue (R44). -/
  | refuseMoving
  /-- A refusal that ends its request. -/
  | refused
  | noReply
  /-- The end of its motion: the reply's bolt and position, or none for BOLT_TIMEOUT. -/
  | motionEnd (bolt : Option (Bolt × Position))
  /-- Its door's image enters SUSPECT through silence (R13). -/
  | silent
  deriving DecidableEq, Repr

/-- The entry waits for its leaf (R70). -/
def WorkEntry.waiting (e : WorkEntry) : Bool := e.stage = .close && e.outstanding = .nothing && e.deadline.isSome

/-- The end of a motion in CONFIRM of a SECURE entry (R72). -/
def Part.judgeThrow (p : Part) (n : EntryNo) (e : WorkEntry) (bolt : Option (Bolt × Position)) : StageResult :=
  let rest := { e with outstanding := .nothing }
  let again := { rest with attempt := e.attempt + 1 }
  match bolt with
  | some (.thrown, .closed) => (p, some .secured)
  | some (.thrown, _) =>
    if e.attempt < e.retries then p.closeEvaluation n again
    else p.entrySubmit n { rest with finalRetract := true } .driveRetract
  | _ => if e.attempt < e.retries then p.enterThrow n again else (p, some .boltFault)

/-- The end of a motion in CONFIRM of a RELEASE entry (R75, R76). -/
def Part.judgeRelease (p : Part) (n : EntryNo) (e : WorkEntry) (bolt : Option (Bolt × Position)) : StageResult :=
  let rest := { e with outstanding := .nothing }
  match bolt with
  | some (.retracted, _) =>
    if (p.config e.door).holderFitted ∧ (p.config e.door).holdAtRelease then
      p.entrySubmit n { rest with stage := .engage } .holderEngage
    else (p, some .released)
  | _ =>
    if e.attempt < e.retries then p.enterRetract n { rest with attempt := e.attempt + 1 } else (p, some .boltFault)

/-- The end of an entry's motion, by its stage (R69, R72, R75). -/
def Part.judgeMotion (p : Part) (n : EntryNo) (e : WorkEntry) (bolt : Option (Bolt × Position)) : StageResult :=
  let rest := { e with outstanding := .nothing }
  if e.finalRetract then (p, some .heldOpen)
  else if e.stage = .close then
    if e.outstanding = .carriedMotion ∨ (bolt.map (·.1)) = some .retracted then p.closeEvaluation n rest
    else (p, some .boltFault)
  else
    match e.action with
    | .secure => p.judgeThrow n e bolt
    | .release => p.judgeRelease n e bolt

/-- A STATE reply handed to an entry (R70, R71, R72, R74, R75). -/
def Part.judgeReplyFor (p : Part) (n : EntryNo) (e : WorkEntry) : StageResult :=
  if e.waiting then p.closeEvaluation n e
  else if (p.image e.door).position = .closed then (p, none)
  else if e.stage = .throwing then
    if (p.line (p.lineOf e.door)).inFlightOf (.entry n) then (p, none)
    else (p.withdraw (p.lineOf e.door) (.entry n)).closeEvaluation n { e with outstanding := .nothing }
  else if e.stage = .confirm ∧ e.action = .secure ∧ !e.finalRetract then p.closeEvaluation n e
  else (p, none)

/-- The outcome a refusal or a NO_REPLY that ends its request gives an entry (R68, R69, R71, R72, R74, R76). -/
def WorkEntry.failedWith (e : WorkEntry) (o : SweepOutcome) : SweepOutcome :=
  if e.finalRetract then .heldOpen else if e.stage = .engage then .released else o

/-- An entry acts on an event (3.5 to 3.7; R97 for an aborting entry). -/
def Part.entryActs (p : Part) (n : EntryNo) (e : WorkEntry) (ev : EntryEvent) : StageResult :=
  if e.aborting then
    match ev with
    | .reply => (p, none)
    | .silent => (p, none)
    | _ => (p, some .aborted)
  else
    match ev with
    | .polled => p.afterCheck n e
    | .reply => p.judgeReplyFor n e
    | .acceptDrive =>
      let stage := if e.stage = .close then .close else .confirm
      (p.setEntry n (some { e with outstanding := .motion, stage := stage }), none)
    | .acceptHolder =>
      if e.stage = .engage then (p, some .released) else p.closeEvaluation n { e with outstanding := .nothing }
    | .refuseMoving => (p, none)
    | .refused => (p, some (e.failedWith .boltFault))
    | .noReply => (p, some (e.failedWith .noReply))
    | .motionEnd b => p.judgeMotion n e b
    | .silent => (p, if e.waiting then some .noReply else none)

/-- Hand an event to an entry and end it if it is then given an outcome; the Bool says whether it was. -/
def Part.handEntry (p : Part) (n : EntryNo) (ev : EntryEvent) : Part × Bool :=
  match p.entry n with
  | none => (p, false)
  | some e =>
    let r := p.entryActs n e ev
    match r.2 with
    | some o => (r.1.endEntry n o, true)
    | none => (r.1, false)

/-! ## Sweep starts (R61, R82) -/

/-- Make a sweep's context (R59, R87). -/
def SweepContext.start (k : SweepKind) : SweepContext where
  kind := k
  phase := .running
  records := []
  begun := 0
  cursorStep := none
  cursorPos := none
  yielding := false
  suspension := none
  suspendTimer := none
  redo := none
  drain := none

/-- The number that follows a sweep number (R61). -/
def nextSweepNumber (n : Nat) : Nat := if n = 65535 then 1 else n + 1

/-- Start a plan sweep (R61); its steps are then `engineRun`'s. -/
def Part.startPlan (p : Part) (plan : PlanNo) : Part :=
  let number := nextSweepNumber p.engine.counter
  { p with
    engine :=
      { p.engine with
        counter := number
        ctx := some (.start (.plan plan number p.banks.active[plan].length))
        planReport := some (.opened (some number) (some plan) p.minute) } }.raise (.sweepStarted (some number) (some plan) p.minute)

/-- The start conditions of a catch-up sweep (R82). -/
def Part.catchUpMayStart (p : Part) : Bool :=
  p.engine.ctx.isNone && !p.fire.latch && p.engine.pendingStart.isNone && !p.catchUp.isEmpty

/-- Start a catch-up sweep if its conditions hold (R82). -/
def Part.tryCatchUp (p : Part) : Part :=
  if p.catchUpMayStart then
    { p with
      engine :=
        { p.engine with
          ctx := some (.start .catchUp)
          catchUpReport := some (.opened none none p.minute) } }.raise (.sweepStarted none none p.minute)
  else p

/-! ## The return to IDLE (R131) -/

/-- Carry out a pending commit (R136). -/
def Part.takeCommit (p : Part) : Part :=
  if p.banks.commitPending then { p with banks := { p.banks with active := p.banks.staged, commitPending := false } } else p

/-- Take up the pending start (R131, item 2). -/
def Part.takePendingStart (p : Part) : Part :=
  match p.engine.pendingStart with
  | none => p
  | some s =>
    let q := { p with engine := { p.engine with pendingStart := none } }
    if p.fire.latch then q.raise (.startDropped .fire s)
    else if p.banks.active[s.plan].isEmpty then q.raise (.startDropped .emptyPlan s)
    else q.startPlan s.plan

/-- The engine returns to IDLE, its context already discarded (R131). -/
def Part.returnToIdle (p : Part) : Part := p.takeCommit.takePendingStart.tryCatchUp

/-! ## Steps, the cursor and the ends of sweeps -/

/-- Set or clear the night flags of groups (R22). -/
def Part.setNight (p : Part) (gs : List GroupNo) (b : Bool) : Part :=
  gs.foldl (fun q g => q.setGroup g { q.group g with night := b }) p

/-- The lowest member of a step above a cursor position (R63). -/
def Part.nextMember (p : Part) (s : PlanStep) (pos : Option DoorNo) : Option DoorNo :=
  allDoors.find? fun d => (pos.all fun x => x < d) && p.isMember s d

/-- The members of a step above a cursor position. -/
def Part.membersAbove (p : Part) (s : PlanStep) (pos : Option DoorNo) : List DoorNo :=
  allDoors.filter fun d => (pos.all fun x => x < d) && p.isMember s d

/-- A step begins (R62): it becomes the cursor step, but for a step with no members, whose admission is done at once. -/
def Part.beginStep (p : Part) (k : Nat) (s : PlanStep) : Part :=
  let memberless := (p.nextMember s none).isNone
  let q :=
    p.editCtx fun c =>
      { c with
        records := c.records ++ [{ index := k, admissionDone := memberless, handled := 0, ended := 0, unclean := [] }]
        begun := k + 1
        cursorStep := if memberless then none else some k
        cursorPos := none }
  match s.action with
  | .release =>
    let r := q.setNight s.groups false
    { r with catchUp := r.catchUp.filter fun d => !s.groups.contains (r.config d).group }
  | .secure => if memberless then q.setNight s.groups true else q

/-- What the tests of R64 make of a door. -/
inductive Handling where
  | outcome (o : SweepOutcome)
  | wait
  | enlist (n : EntryNo)
  deriving DecidableEq, Repr

/-- The lowest free entry number (R66). -/
def Part.freeEntry (p : Part) : Option EntryNo := entryNumbers.find? fun n => (p.entry n).isNone

/-- The tests of R64, in order. -/
def Part.handling (p : Part) (action : Action) (d : DoorNo) : Handling :=
  if (p.config d).withdrawn then .outcome .withdrawn
  else if action = .secure ∧ (p.image d).claim ≠ none then .outcome .excepted
  else if (p.line (p.lineOf d)).state ≠ .active then .outcome .lineDown
  else if p.inWorkSet d then .wait
  else
    match p.freeEntry with
    | none => .wait
    | some n => .enlist n

/-- Give a door the result of its handling by a step. -/
def Part.handled (p : Part) (h : Handling) (d : DoorNo) (k : Nat) (s : PlanStep) : Part :=
  match h with
  | .outcome o => p.record d o (some k) 0
  | .wait => p
  | .enlist n => p.enlist n d (some k) s.action s.retries

/-- The cursor counts the door it handles (R59, R63), and a SECURE step's first door sets the night flags (R22). -/
def Part.countHandled (p : Part) (c : SweepContext) (k : Nat) (s : PlanStep) (d : DoorNo) : Part :=
  let first := c.records.any fun r => r.index = k && r.handled = 0
  let q := if s.action = .secure ∧ first then p.setNight s.groups true else p
  q.editCtx fun c => { c.editRecord k fun r => { r with handled := r.handled + 1 } with cursorPos := some d }

/-- One move of the step cursor (R63, R64); none where there is no cursor step or the cursor waits. A cursor that waited searches anew
(log 48). -/
def Part.cursorMove (p : Part) (c : SweepContext) (plan : PlanNo) : Option Part := do
  let k ← c.cursorStep
  let s ← p.activeStep plan k
  match p.nextMember s c.cursorPos with
  | none =>
    some (p.editCtx fun c =>
      { c.editRecord k fun r => { r with admissionDone := true } with cursorStep := none, cursorPos := none })
  | some d =>
    match p.handling s.action d with
    | .wait => none
    | h => some ((p.countHandled c k s d).handled h d k s)

/-- Undo the redo door's earlier outcome in its step record (R93) and forget the redo. The note taken back is the one the earlier
outcome made, whatever group the door is in now (R23, log 34). -/
def Part.reopenRedo (p : Part) (d : DoorNo) (k : Nat) : Part :=
  p.editCtx fun c =>
    { c.editRecord k fun r => { r with ended := r.ended - 1, unclean := r.unclean.filter fun x => x.1 ≠ d } with redo := none }

/-- The redo door is handled (R92); none where the redo waits. -/
def Part.redoMove (p : Part) (plan : PlanNo) (d : DoorNo) (k : Nat) : Option Part := do
  let s ← p.activeStep plan k
  if p.isMember s d then
    match p.handling s.action d with
    | .wait => none
    | h => some ((p.reopenRedo d k).handled h d k s)
  else some (p.editCtx fun c => { c with redo := none })

/-- Whether the next step's turn to begin has come (R62). -/
def Part.stepDue (p : Part) (c : SweepContext) (plan : PlanNo) : Bool :=
  match c.begun with
  | 0 => true
  | k + 1 =>
    match c.records.find? fun r => r.index = k with
    | none => true
    | some r => r.admissionDone && ((p.activeStep plan k).any fun s => s.overlap)

/-- The doors a begun step has not handled: those above the cursor (R98). -/
def Part.unhandled (p : Part) (c : SweepContext) (plan : PlanNo) (r : StepRecord) : List DoorNo :=
  if r.admissionDone then []
  else
    match p.activeStep plan r.index with
    | some s => p.membersAbove s c.cursorPos
    | none => []

/-- How many doors a plan sweep's end counts NOT_REACHED (R98). -/
def Part.notReached (p : Part) (c : SweepContext) (plan : PlanNo) (length : Nat) : Nat :=
  (c.records.map fun r => (p.unhandled c plan r).length).sum +
    ((List.range length).map fun k =>
      if k < c.begun then 0
      else
        match p.activeStep plan k with
        | some s => (p.membersAbove s none).length
        | none => 0).sum

/-- Write the group results of a step that its sweep's end cuts short (R23, R98). -/
def Part.cutStep (p : Part) (c : SweepContext) (plan : PlanNo) (number : Nat) (r : StepRecord) : Part :=
  match p.activeStep plan r.index with
  | some s =>
    p.writeResults s number { r with unclean := r.unclean ++ (p.unhandled c plan r).map fun d => (d, (p.config d).group) }
  | none => p

/-- Write a report's final status and end minute, once (R102). -/
def SweepReport.closed (r : SweepReport) (status : FinalStatus) (minute : Option Nat) : SweepReport :=
  { r with status := status, endMinute := some minute }

/-- Count doors NOT_REACHED (R101). -/
def SweepReport.addNotReached (r : SweepReport) (n : Nat) : SweepReport :=
  { r with counts := r.counts.set SweepOutcome.notReached.place (min 65535 (r.counts[SweepOutcome.notReached.place] + n)) }

/-- A sweep ends (R80, R81, R84, R98, R99): the doors not reached and the cut steps of a plan sweep, which write their results in step
order (log 55), the report, the notice; the context is discarded and the engine returns to IDLE. -/
def Part.endSweep (p : Part) (c : SweepContext) (status : FinalStatus) : Part :=
  match c.kind with
  | .plan plan number length =>
    let n := p.notReached c plan length
    let q := c.records.foldl (fun q r => q.cutStep c plan number r) p
    (((q.editReport c.kind fun r => (r.addNotReached n).closed status p.minute).raise
      (.sweepEnded (some number) (some plan) status)).setCtx none).returnToIdle
  | .catchUp =>
    (((p.editReport c.kind fun r => r.closed status p.minute).raise (.sweepEnded none none status)).setCtx none).returnToIdle

/-- The final status a drain writes (R98). -/
def DrainReason.status : DrainReason → FinalStatus
  | .abandoned => .abandoned
  | .aborted => .aborted

/-- One small action of a plan sweep: a step that completes, the end of a drain, then in RUNNING a step that begins, the redo door,
the cursor, the sweep's completion (with no step record left, the work set is empty in every run). None where nothing is to be
done. After a redo that is dropped the same attempt completes the step it held and goes on (log 49). -/
def Part.planAction (p : Part) (c : SweepContext) (plan : PlanNo) (number length : Nat) : Option Part :=
  match c.records.find? c.completes with
  | some r => some (p.completeStep plan number r)
  | none =>
    match c.phase with
    | .suspended => none
    | .draining =>
      if p.workSetEmpty then some (p.endSweep c ((c.drain.map (·.status)).getD .aborted)) else none
    | .running =>
      if c.begun < length ∧ p.stepDue c plan then (p.activeStep plan c.begun).map fun s => p.beginStep c.begun s
      else
        match c.redo with
        | some (d, k) => p.redoMove plan d k
        | none =>
          if c.begun = length ∧ c.records = [] ∧ p.workSetEmpty then some (p.endSweep c .complete) else p.cursorMove c plan

/-- One small action of a catch-up sweep (R83, R84, R99). -/
def Part.catchUpAction (p : Part) (c : SweepContext) : Option Part :=
  if c.phase = .draining then
    if p.workSetEmpty then some (p.endSweep c ((c.drain.map (·.status)).getD .aborted)) else none
  else if p.workSetEmpty ∧ (p.catchUp = [] ∨ c.yielding) then some (p.endSweep c .complete)
  else if c.yielding then none
  else
    match p.catchUp with
    | [] => none
    | d :: _ =>
      if (p.line (p.lineOf d)).state ≠ .active then some ((p.removeCatchUp d).record d .lineDown none 0)
      else p.freeEntry.map fun n => p.enlist n d none .secure 2

/-- One small action of the engine. -/
def Part.engineAction (p : Part) : Option Part :=
  match p.engine.ctx with
  | none => none
  | some c =>
    match c.kind with
    | .plan plan number length => p.planAction c plan number length
    | .catchUp => p.catchUpAction c

/-- Repeat the engine's small actions. -/
def Part.engineLoop : Nat → Part → Part
  | 0, p => p
  | k + 1, p =>
    match p.engineAction with
    | none => p
    | some q => q.engineLoop k

/-- The engine's completion tests and admission attempt (R65, R78, R79, R80, R84, R98), until nothing is left to do (log 13). -/
def Part.engineRun (p : Part) : Part := p.engineLoop Config.engineFuel

/-! ## Events that reach the engine -/

/-- Hand a line event to an entry (R14, R67). -/
def Part.entryEvent (p : Part) (n : EntryNo) (ev : EntryEvent) : Part :=
  let r := p.handEntry n ev
  if r.2 then r.1.engineRun else r.1

/-- End several entries together, in ascending entry number, each outcome followed by the completion test, then let the engine go
on (log 12). -/
def Part.endEntries (p : Part) (ends : List (EntryNo × SweepOutcome)) : Part :=
  if ends = [] then p else (ends.foldl (fun q x => q.endEntry x.1 x.2) p).engineRun

/-- The entries that a test picks, with the outcome it gives. -/
def Part.entriesWith (p : Part) (f : EntryNo → WorkEntry → Option SweepOutcome) : List (EntryNo × SweepOutcome) :=
  entryNumbers.filterMap fun n => (p.entry n).bind fun e => (f n e).map fun o => (n, o)

/-- A line goes down under a sweep (R77, R97). -/
def Part.lineDownEntries (p : Part) (l : LineNo) : Part :=
  p.endEntries (p.entriesWith fun _ e => if p.lineOf e.door = l then some (if e.aborting then .aborted else .lineDown) else none)

/-- An exception claims doors in the work set of a SECURE step (R110). -/
def Part.claimEntries (p : Part) (ds : List DoorNo) : Part :=
  p.endEntries (p.entriesWith fun _ e => if e.action = .secure ∧ e.door ∈ ds then some .excepted else none)

/-- The fire latch ends a sweep in progress (R81; log 12, log 25). -/
def Part.fireEndsSweep (p : Part) : Part :=
  match p.engine.ctx with
  | none => p
  | some _ =>
    let q := (p.editCtx fun c => { c with phase := .draining, suspension := none, suspendTimer := none, redo := none }).completeSteps
    let r := (q.entriesWith fun _ _ => some .fire).foldl (fun q x => q.endEntry x.1 x.2) q
    match r.engine.ctx with
    | some c => (r.endSweep c .fire).engineRun
    | none => r

/-- The engine is offered the catch-up list after appends (R82, R120): an IDLE one tests the start conditions, a catch-up sweep that
is RUNNING and not yielding admits. -/
def Part.offerCatchUp (p : Part) : Part :=
  match p.engine.ctx with
  | none => p.tryCatchUp.engineRun
  | some c => if c.kind = .catchUp ∧ c.phase = .running ∧ c.yielding = false then p.engineRun else p

/-- The engine is offered the list after an action that found `n` doors in it, where the action has appended any (R120). -/
def Part.offerIfGrown (p : Part) (n : Nat) : Part := if n < p.catchUp.length then p.offerCatchUp else p

/-- Continue a suspended sweep (R90); REDO makes the suspension door the redo door, in place of one that still waits, which SKIP drops
(log 41). -/
def Part.continueSweep (p : Part) (redo : Bool) : Part :=
  (p.editCtx fun c =>
    { c with
      phase := .running
      suspendTimer := none
      redo := if redo then c.suspension else none
      suspension := none }).engineRun

/-- Go DRAINING (R95, R96). -/
def SweepContext.drained (c : SweepContext) (why : DrainReason) : SweepContext :=
  { c with phase := .draining, suspendTimer := none, suspension := none, redo := none, drain := some why }

/-- Whether what an entry has outstanding lets ABORT SWEEP end it at once (R96). -/
def Part.abortsAtOnce (p : Part) (n : EntryNo) (e : WorkEntry) : Bool :=
  match e.outstanding with
  | .nothing => true
  | .request => !(p.line (p.lineOf e.door)).inFlightOf (.entry n)
  | .motion => false
  | .carriedMotion => false

/-- Mark the entries that ABORT SWEEP does not end at once (R96). -/
def Part.markAborting (p : Part) : Part :=
  { p with
    engine :=
      { p.engine with
        workSet :=
          Vector.ofFn fun n => (p.engine.workSet[n]).map fun e => if p.abortsAtOnce n e then e else { e with aborting := true } } }

/-- ABORT SWEEP's action (R96); a step that only a suspension or a redo held completes before the entries end (R89; log 12). -/
def Part.abortSweep (p : Part) : Part :=
  let q := (p.editCtx fun c => c.drained .aborted).markAborting.completeSteps
  ((q.entriesWith fun n e => if q.abortsAtOnce n e then some .aborted else none).foldl (fun q x => q.endEntry x.1 x.2)
    q).engineRun

end Sys2Proof.Machine
end

