-- ==== Sys2Proof/Machine/Lines.lean ====
section
/-! DEFINITION. The line controllers (chapter 2): the arbiter, the end of a send and of a transaction with what it does to the door
image (1.2 to 1.4), the end of a motion, and the changes of line state. -/
namespace Sys2Proof.Machine

/-! ## The arbiter (2.5) -/

/-- The configured, non-withdrawn doors of a line. -/
def Part.pollable (p : Part) (l : LineNo) : List DoorNo :=
  allDoors.filter fun d => (p.config d).configured && !(p.config d).withdrawn && (p.config d).line = l

/-- The door of the lowest node among some doors. -/
def Part.lowestNode (p : Part) (ds : List DoorNo) : Option DoorNo :=
  ds.foldl
    (fun best d =>
      match best with
      | none => some d
      | some b => if (p.config d).node < (p.config b).node then some d else some b) none

/-- The door of the next routine poll (R41). -/
def Part.nextRoutine (p : Part) (l : LineNo) : Option DoorNo :=
  let ds := p.pollable l
  let above := ds.filter fun d => (p.line l).cursor < (p.config d).node
  if above = [] then p.lowestNode ds else p.lowestNode above

/-- The motion entry whose last-poll time is oldest (R39, R42; log 33). -/
def oldestMotion (ms : List MotionEntry) : Option MotionEntry :=
  ms.foldl
    (fun best m =>
      match best with
      | none => some m
      | some b => if m.lastPoll < b.lastPoll then some m else some b) none

/-- The motion whose confirm poll is due (R42). -/
def Part.confirmDue (p : Part) (l : LineNo) : Option MotionEntry :=
  (oldestMotion (p.line l).motions).bind fun m => if m.lastPoll + Config.confirmInterval < p.now then some m else none

/-- Whether a queued request is sendable (R40). -/
def Line.sendable (x : Line) (r : LineRequest) : Bool :=
  !(r.cmd.isItem && x.motions.any fun m => m.door = r.door) && !(r.cmd.isDrive && 8 ≤ x.motions.length)

/-- Put a transaction's first send on the wire (R30); the node is the door's as its record gives it now. -/
def Part.begin (p : Part) (l : LineNo) (kind : TransactionKind) (cmd : LineCmd) (door : Option DoorNo) (node : Nat) : Part :=
  p.setLine l
    { p.line l with
      wire :=
        .transaction
          { kind := kind, cmd := cmd, door := door, node := node, began := p.now, phase := .sending, secondSend := false,
            conflicted := false, anyConflict := false, detached := false, cut := false } }

/-- Begin a routine poll of a door (R39, R41). -/
def Part.beginRoutine (p : Part) (l : LineNo) (d : DoorNo) : Part :=
  (p.setLine l { p.line l with cursor := (p.config d).node, queuedSends := 0 }).begin l .routine .pollNow (some d) (p.config d).node

/-- Mark the request in flight that is the first sendable one of the queue. -/
def markInFlight (ok : LineRequest → Bool) : List LineRequest → List LineRequest
  | [] => []
  | r :: rs => if ok r then { r with inFlight := true } :: rs else r :: markInFlight ok rs

/-- Begin the transaction of the oldest sendable request (R39, R160). -/
def Part.beginQueued (p : Part) (l : LineNo) (r : LineRequest) : Part :=
  let x := p.line l
  ((p.setLine l { x with queue := markInFlight x.sendable x.queue, queuedSends := raiseTo 3 x.queuedSends }).setProgress r.source
    .onLine).begin l .queued r.cmd (some r.door) (p.config r.door).node

/-- Complete a RESUME LINE that waits for its probe to be sent (R50, R187). -/
def Part.answerResume (p : Part) (x : OriginatorNo × SlotNo) : Part :=
  match p.slot x.1 x.2 with
  | .inProgress _ _ none => p.answerOk x.1 x.2 []
  | _ => p

/-- Complete every RESUME LINE that waits for the probe of a line to be sent (R50). -/
def Part.answerProbe (p : Part) (l : LineNo) : Part :=
  (p.line l).probeWaiters.foldl Part.answerResume (p.setLine l { p.line l with probeWaiters := [] })

/-- Begin a probe (R49). -/
def Part.beginProbe (p : Part) (l : LineNo) : Part :=
  let q := p.setLine l { p.line l with probeDue := false, probeTimer := none }
  (match p.lowestNode (p.pollable l) with
    | some d => q.begin l .probe .pollNow (some d) (p.config d).node
    | none => q.begin l .probe .pollNow none 1).answerProbe l

/-- The arbiter's choice between queued requests and routine polls (R39, items 3 and 4). -/
def Part.chooseQueued (p : Part) (l : LineNo) : Part :=
  let x := p.line l
  match x.queue.find? x.sendable, p.nextRoutine l with
  | some r, none => p.beginQueued l r
  | some r, some d => if x.queuedSends = 3 then p.beginRoutine l d else p.beginQueued l r
  | none, some d => p.beginRoutine l d
  | none, none => p

/-- The line arbiter's choice (R39), made where the line is free. -/
def Part.lineChoice (p : Part) (l : LineNo) : Part :=
  let x := p.line l
  if x.wire ≠ .free then p
  else
    match x.state, x.broadcast with
    | .active, some b => p.setLine l { x with wire := .broadcast b.maps p.now true }
    | .quiet, some b => p.setLine l { x with wire := .broadcast b.maps p.now true }
    | .quiet, none => p
    | .active, none =>
      match p.confirmDue l with
      | some m => p.begin l .confirm .pollNow (some m.door) (p.config m.door).node
      | none => p.chooseQueued l
    | .faulted, _ => if x.probeDue then p.beginProbe l else p

/-! ## Line states (2.7) -/

/-- A line returns to ACTIVE (R51). -/
def Part.returnActive (p : Part) (l : LineNo) : Part :=
  p.setLine l
    { p.line l with
      state := .active, probeTimer := none, probeDue := false, conflicts := 0, queuedSends := 0, cursor := 0 }

/-- What stays on the wire when a line goes down (R28, R33, R47): a frame being sent is completed, unless an overload prevents it. A
character failure seen in a reply goes with its send, offered to no record (log 38). -/
def Wire.downed (w : Wire) (overload : Bool) : Wire :=
  match w with
  | .free => .free
  | .transaction t => if t.phase = .sending ∧ !overload then .transaction { t with cut := true } else .free
  | .broadcast m t b => if overload then .free else .broadcast m t b

/-- The sources of everything a line holds. -/
def Line.sources (x : Line) : List Source :=
  (x.queue.filterMap (·.source)) ++ (x.held.filterMap (·.source)) ++ x.motions.filterMap (·.source)

/-- Complete the door commands among some sources, in the order given; of two of one originator the later one's completion stays in the
sense record (log 51). -/
def Part.completeSlots (p : Part) (ss : List Source) (c : Completion) : Part :=
  ss.foldl
    (fun q s =>
      match s with
      | .slot o i => q.completeCommand o i c
      | .entry _ => q) p

/-- A door's settled state becomes SUSPECT. -/
def Part.suspect (p : Part) (d : DoorNo) : Part := p.setImage d { p.image d with settled := .suspect }

/-- A line leaves ACTIVE (R47). The LINE_DOWN responses show the images as the line's going down has left them (log 43); the doors
whose images enter SUSPECT are handed to the watch table in ascending number (log 44). -/
def Part.goDown (p : Part) (l : LineNo) (state : LineState) (overload : Bool) (order : List Block) : Part :=
  let x := p.line l
  let entering := (p.pollable l).filter fun d => (p.image d).settled ≠ .suspect
  let q :=
    (p.pollable l).foldl Part.suspect
      (p.setLine l
        { x with
          state := state
          queue := []
          held := []
          motions := []
          wire := x.wire.downed overload
          queuedSends := 0
          conflicts := 0
          probeTimer := if state = .faulted then some (p.now + Config.probeInterval) else none
          probeDue := false })
  (q.completeSlots x.sources .lineDown).inOrder (arrange [.watchTable, .sweepEngine] order) fun b q =>
    match b with
    | .watchTable => entering.foldl (fun q d => q.testWatches d .silent (q.shortImage d)) q
    | .sweepEngine => q.lineDownEntries l
    | _ => q

/-- Count a transaction or a broadcast send on an ACTIVE line (R32): the third conflicted one sends the line FAULTED. -/
def Part.countConflict (p : Part) (l : LineNo) (conflicted : Bool) (order : List Block) : Part :=
  let x := p.line l
  if x.state ≠ .active then p
  else
    let n := if conflicted then raiseTo 3 x.conflicts else 0
    let q := p.setLine l { x with conflicts := n }
    if n = 3 then q.goDown l .faulted false order else q

/-! ## Applying a result to the door image (1.2) -/

/-- A valid reply's first effect (R11, R13). -/
def Part.heard (p : Part) (d : DoorNo) : Part := p.setImage d { p.image d with settled := .current, silence := 0 }

/-- The image a STATE reply writes (R12). -/
def DoorImage.written (m : DoorImage) (r : StateReply) (holderFitted : Bool) : DoorImage :=
  { m with
    bolt := if r.moving then .moving else r.bolt
    position := r.position
    holder := if holderFitted then (if r.holding then .holding else .released) else .none
    pulseActive := r.pulse }

/-- Whether a STATE reply ends a motion entry (R45). -/
def StateReply.atRest (r : StateReply) : Bool :=
  !r.moving && (r.bolt = .thrown || r.bolt = .retracted || r.bolt = .jammed)

/-- The motion entry of a door. -/
def Line.motionOf (x : Line) (d : DoorNo) : Option MotionEntry := x.motions.find? fun m => m.door = d

/-- Remove a door's motion entry. -/
def Part.dropMotion (p : Part) (l : LineNo) (d : DoorNo) : Part :=
  p.setLine l { p.line l with motions := (p.line l).motions.filter fun m => m.door ≠ d }

/-- Write the last-poll time of a door's motion entry (R42). -/
def Part.stampPoll (p : Part) (l : LineNo) (d : DoorNo) : Part :=
  p.setLine l
    { p.line l with motions := (p.line l).motions.map fun m => if m.door = d then { m with lastPoll := p.now } else m }

/-- Add a motion entry at the tail of the list (R43, R44). -/
def Part.addMotion (p : Part) (l : LineNo) (d : DoorNo) (dir : Direction) (s : Option Source) (wait : Bool) : Part :=
  p.setLine l
    { p.line l with
      motions :=
        (p.line l).motions ++
          [{ door := d, direction := dir, deadline := p.now + (p.config d).boltTime * Config.tenthTicks, source := s, wait := wait,
             lastPoll := p.now }] }

/-- The request whose transaction is on the line. -/
def Line.flying (x : Line) : Option LineRequest := x.queue.find? fun r => r.inFlight

/-- The request of an ending transaction leaves the queue (R31). -/
def Part.dropFlying (p : Part) (l : LineNo) : Part :=
  p.setLine l { p.line l with queue := (p.line l).queue.filter fun r => !r.inFlight }

/-- A DRIVE goes back to its place in the queue (R44). -/
def Part.requeueFlying (p : Part) (l : LineNo) : Part :=
  p.setLine l { p.line l with queue := (p.line l).queue.map fun r => { r with inFlight := false } }

/-- Return a completion code to a source that is an originator slot. -/
def Part.returnSlot (p : Part) (s : Option Source) (c : Completion) : Part :=
  match s with
  | some (.slot o i) => p.completeCommand o i c
  | _ => p

/-- Hand an event to a source that is a work-set entry. -/
def Part.returnEntry (p : Part) (s : Option Source) (ev : EntryEvent) : Part :=
  match s with
  | some (.entry n) => p.entryEvent n ev
  | _ => p

/-- The completion code of a THROW, RETRACT or PULSE whose motion ends with a bolt (R161, R162). -/
def Direction.completion (dir : Direction) (b : Bolt) : Completion :=
  match dir, b with
  | .throwing, .thrown => .ok
  | .retracting, .retracted => .ok
  | _, _ => .jammed

/-! ## Handing a STATE reply on (R14) -/

/-- The notices of a STATE reply (1.3, R168, R169). A first reading is no change; `night` is the night flag of the door's group
as the reply is applied (R16). -/
def Part.replyNotices (p : Part) (l : LineNo) (d : DoorNo) (r : StateReply) (old : DoorImage) (night : Bool) (shown : ShortImage) :
    Part :=
  let c := p.config d
  let new := p.image d
  let known := old.settled ≠ .absent
  let bolt := if known ∧ c.mask.bolt ∧ old.bolt ≠ new.bolt then some (old.bolt, new.bolt) else none
  let position := if known ∧ c.mask.position ∧ old.position ≠ new.position then some (old.position, new.position) else none
  let holder := if known ∧ c.mask.holder ∧ old.holder ≠ new.holder then some (old.holder, new.holder) else none
  let exit := r.exit && c.mask.exit
  let forced := r.forced && !night
  let a := if r.forced ∧ night then p.raise (.forcedDoor d c.group shown) else p
  let b := if r.tamper then a.raise (.tamper d shown) else a
  let e := if r.restarted then b.raise (.nodeRestarted d l c.node shown) else b
  if bolt.isSome ∨ position.isSome ∨ holder.isSome ∨ exit ∨ forced then
    e.raise (.doorChange d l bolt position holder exit forced shown)
  else e

/-- The catch-up test (R19). -/
def Part.catchUpTest (p : Part) (d : DoorNo) (r : StateReply) : Bool :=
  p.mayAppend d && (p.image d).position = .closed && (p.image d).bolt ≠ .thrown &&
    (qualifies (p.image d).lastOutcome || r.restarted && r.bolt = .retracted)

/-- The sweep engine's part in a STATE reply, then the catch-up test (R14, R19, R120), directly after it, so that no notice of another
block stands between theirs (log 54). `ev` is the event it is for the door's entry. -/
def Part.engineHears (p : Part) (d : DoorNo) (r : StateReply) (ev : EntryEvent) : Part :=
  let q :=
    match p.entryOf d with
    | some (n, _) => p.entryEvent n ev
    | none => p
  if q.catchUpTest d r then (q.appendCatchUp d).offerCatchUp else q

/-- What a STATE reply is for the entry of its door: the result of its POLL NOW, the end of its motion, or a reply (R67). -/
def replyEvent (polled moved : Option Source) (r : StateReply) : EntryEvent :=
  match polled, moved with
  | some (.entry _), _ => .polled
  | _, some (.entry _) => .motionEnd (some (r.bolt, r.position))
  | _, _ => .reply

/-- A valid STATE reply is applied (R11, R12, R45), returned (R31) and handed on (R14), with the image as the transaction leaves it,
before held requests fill the freed place (log 36). -/
def Part.applyState (p : Part) (l : LineNo) (t : Transaction) (d : DoorNo) (r : StateReply) (order : List Block) : Part :=
  let old := p.image d
  let night := (p.group (p.config d).group).night
  let x := p.line l
  let moved := if r.atRest then x.motionOf d else none
  let polled : Option Source := if t.kind = .queued then x.flying.bind (·.source) else none
  let a := (p.heard d).setImage d (((p.heard d).image d).written r (p.config d).holderFitted)
  let b := if r.atRest then a.dropMotion l d else a.stampPoll l d
  let c := if t.kind = .queued then b.dropFlying l else b
  let shown := c.shortImage d
  let e := c.returnSlot polled .ok
  let f :=
    match moved with
    | some m => e.returnSlot m.source (m.direction.completion r.bolt)
    | none => e
  (f.placeHeld l).inOrder (arrange [.lineController, .watchTable, .fireUnit, .sweepEngine] order) fun b q =>
    match b with
    | .lineController => q.replyNotices l d r old night shown
    | .watchTable => q.testWatches d (.reply old) shown
    | .fireUnit => if !r.moving && r.bolt = .retracted then q.confirmRelease d else q
    | .sweepEngine => q.engineHears d r (replyEvent polled (moved.bind (·.source)) r)
    | _ => q

/-- A transaction of a door ends NO_REPLY (R11, R13, R31). The image handed on is the one the transaction leaves, before held
requests fill the freed place (log 36). -/
def Part.applySilence (p : Part) (l : LineNo) (t : Transaction) (d : DoorNo) (order : List Block) : Part :=
  let m := p.image d
  let source : Option Source := if t.kind = .queued then (p.line l).flying.bind (·.source) else none
  let reached := m.silence = 2
  let a :=
    p.setImage d { m with silence := raiseTo 3 m.silence, settled := if reached then .suspect else m.settled }
  let b := (if t.kind = .queued then a.dropFlying l else a).stampPoll l d
  let shown := b.shortImage d
  let entered := reached ∧ m.settled ≠ .suspect
  ((b.returnSlot source .noReply).placeHeld l).inOrder (arrange [.lineController, .watchTable, .sweepEngine] order) fun b q =>
    match b with
    | .lineController => if reached then q.raise (.doorSilent d l) else q
    | .watchTable => if entered then q.testWatches d .silent shown else q
    | .sweepEngine =>
      match source with
      | some (.entry n) => q.entryEvent n .noReply
      | _ =>
        if entered then
          match q.entryOf d with
          | some (n, _) => q.entryEvent n .silent
          | none => q
        else q
    | _ => q

/-- An ACCEPT (R11, R31, R43, R163). The response to a HOLDER request shows the image before held requests fill the freed place
(log 45). -/
def Part.applyAccept (p : Part) (l : LineNo) (t : Transaction) (d : DoorNo) : Part :=
  let source := (p.line l).flying.bind (·.source)
  let m := (p.heard d).image d
  match t.cmd with
  | .pollNow => p
  | .holderEngage =>
    ((((p.setImage d { m with holder := .holding }).dropFlying l).returnSlot source .ok).placeHeld l).returnEntry source .acceptHolder
  | .holderRelease =>
    ((((p.setImage d { m with holder := .released }).dropFlying l).returnSlot source .ok).placeHeld l).returnEntry source .acceptHolder
  | .driveThrow =>
    ((((((p.setImage d { m with bolt := .moving }).dropFlying l).addMotion l d .throwing source false).setProgress source
      .inMotion).placeHeld l).returnEntry source .acceptDrive)
  | .driveRetract =>
    ((((((p.setImage d { m with bolt := .moving }).dropFlying l).addMotion l d .retracting source false).setProgress source
      .inMotion).placeHeld l).returnEntry source .acceptDrive)
  | .drivePulse _ =>
    ((((((p.setImage d { m with bolt := .moving, pulseActive := true }).dropFlying l).addMotion l d .retracting source
      false).setProgress source .inMotion).placeHeld l).returnEntry source .acceptDrive)

/-- A refusal that ends its request (R11, R31, R163). The response shows the image before held requests fill the freed place (log 45). -/
def Part.applyRefused (p : Part) (l : LineNo) (d : DoorNo) : Part :=
  let source := (p.line l).flying.bind (·.source)
  ((((p.heard d).dropFlying l).returnSlot source .refused).placeHeld l).returnEntry source .refused

/-- REFUSE MOVING to a DRIVE (R11, R36, R37, R44). The response to a purged one shows the image before held requests fill the freed
place (log 45). -/
def Part.applyMoving (p : Part) (l : LineNo) (t : Transaction) (d : DoorNo) : Part :=
  let r := (p.line l).flying
  let source := r.bind (·.source)
  let purged := r.any fun r => r.purged
  let m := (p.heard d).image d
  let a := (p.setImage d { m with bolt := .moving }).addMotion l d t.cmd.direction none true
  if source = none ∨ purged then ((a.dropFlying l).returnSlot source .fireHold).placeHeld l
  else ((a.requeueFlying l).setProgress source .queued).returnEntry source .refuseMoving

/-- A request that the fire purge reached in flight ends without a valid reply (R37): no silence is counted. The response shows the
image before held requests fill the freed place (log 45). -/
def Part.applyPurged (p : Part) (l : LineNo) : Part :=
  let source := (p.line l).flying.bind (·.source)
  ((p.dropFlying l).returnSlot source .fireHold).placeHeld l

/-- A transaction's result is applied to its door (R11, R31). -/
def Part.applyResult (p : Part) (l : LineNo) (t : Transaction) (d : DoorNo) (result : Option Reply) (order : List Block) : Part :=
  match result with
  | some (.state r) => p.applyState l t d r order
  | some .accept => p.applyAccept l t d
  | some (.refuse moving) => if moving ∧ t.cmd.isDrive then p.applyMoving l t d else p.applyRefused l d
  | none =>
    if t.kind = .queued ∧ ((p.line l).flying.any fun r => r.purged) then p.applyPurged l
    else if t.kind = .probe then p
    else p.applySilence l t d order

/-- A transaction whose result is for no door: a detached poll (R3, R4) or a probe of a node no door has (R49). -/
def Part.applyNowhere (p : Part) (l : LineNo) (t : Transaction) : Part :=
  if t.kind = .queued then (p.dropFlying l).placeHeld l else p

/-- The end of a probe decides whether a FAULTED line returns to ACTIVE (R49; log 18, log 19). The timer of a conflicted probe runs
again from the end of its reply window (log 37). -/
def Part.probeEnds (p : Part) (l : LineNo) (t : Transaction) : Part :=
  if t.kind = .probe ∧ (p.line l).state = .faulted then
    if t.anyConflict then p.setLine l { p.line l with probeTimer := some (p.now + Config.probeInterval) }
    else p.returnActive l
  else p

/-- A transaction ends (R30, R31, R32). Where its end is handed on and the line then goes FAULTED on the third conflict, the one `order`
arranges the blocks on both events (log 46). -/
def Part.transactionEnd (p : Part) (l : LineNo) (t : Transaction) (result : Option Reply) (order : List Block) : Part :=
  let q := (p.setLine l { p.line l with wire := .free }).probeEnds l t
  let r :=
    match t.door, t.detached with
    | some d, false => q.applyResult l t d result order
    | _, _ => q.applyNowhere l t
  r.countConflict l t.anyConflict order

/-- A send is over with no valid reply (R30, R37): the frame is sent again, or the transaction ends. -/
def Part.sendFails (p : Part) (l : LineNo) (t : Transaction) (order : List Block) : Part :=
  let purged := t.kind = .queued ∧ (p.line l).flying.any fun r => r.purged
  if t.secondSend ∨ t.kind = .probe ∨ purged then p.transactionEnd l t none order
  else
    p.setLine l
      { p.line l with
        wire := .transaction { t with began := p.now, phase := .sending, secondSend := true, conflicted := false } }

/-- A motion entry ends by its deadline (R11, R46, R161). -/
def Part.motionTimesOut (p : Part) (l : LineNo) (m : MotionEntry) : Part :=
  let q := (p.setImage m.door { p.image m.door with bolt := .unknown }).dropMotion l m.door
  (q.returnSlot m.source .boltTimeout).returnEntry m.source (.motionEnd none)

/-! ## The fire purge (R37) -/

/-- Whether a request is a DRIVE THROW for a door of fire action FREE. -/
def Part.isPurged (p : Part) (r : LineRequest) : Bool := r.cmd = .driveThrow && (p.config r.door).fireAction = .free

/-- Purge a line of bolt-throws for FREE doors (R37). The work-set entries among the sources are ended by R81 (log 32). The FIRE_HOLD
responses show the images once every purged request is gone and before held requests fill the freed places (log 45). -/
def Part.purgeLine (p : Part) (l : LineNo) : Part :=
  let x := p.line l
  let gone := (x.queue.filter fun r => p.isPurged r && !r.inFlight) ++ x.held.filter p.isPurged
  let q :=
    p.setLine l
      { x with
        queue := (x.queue.filter fun r => !p.isPurged r || r.inFlight).map fun r => if p.isPurged r then { r with purged := true } else r
        held := x.held.filter fun r => !p.isPurged r }
  (q.completeSlots (gone.filterMap (·.source)) .fireHold).placeHeld l

end Sys2Proof.Machine
end

