-- ==== Sys2Proof/Machine/Port.lean ====
section
/-! DEFINITION. The frame of every meaning: the transmit arbiter (R178), what the free transmitters choose after a command, and the
request handler's decision of a WAITING frame (R189, R190). -/
namespace Sys2Proof.Machine

/-! ## The transmit arbiter (R177, R178) -/

/-- Begin to send a frame. -/
def Part.send (p : Part) (x : Outbound) : Part := { p with uplink := { p.uplink with sending := some x } }

/-- The response that waits at a place. -/
def Part.waitingAt (p : Part) : ResponsePlace → Option Response
  | .slot o i =>
    match p.slot o i with
    | .answered _ _ r => some r
    | _ => none
  | .holder o => p.uplink.refusals[o]

/-- Send the oldest waiting response, if there is one. -/
def Part.sendResponse (p : Part) : Option Part :=
  match p.uplink.waiting with
  | [] => none
  | x :: xs =>
    (p.waitingAt x).map fun r => { p with uplink := { p.uplink with waiting := xs } }.send (.response x r p.now)

/-- The transmit arbiter's choice (R178); a notice carries its queue's overflow flag as its mark and clears it (R177). -/
def Part.uplinkChoice (p : Part) : Part :=
  match p.uplink.sending with
  | some _ => p
  | none =>
    match p.notices.urgent with
    | n :: rest =>
      { p with notices := { p.notices with urgent := rest, urgentOverflow := false } }.send (.notice n p.notices.urgentOverflow p.now)
    | [] =>
      match p.sendResponse with
      | some q => q
      | none =>
        match p.notices.fault with
        | n :: rest =>
          { p with notices := { p.notices with fault := rest, faultOverflow := false } }.send (.notice n p.notices.faultOverflow p.now)
        | [] =>
          match p.notices.state with
          | n :: rest =>
            { p with notices := { p.notices with state := rest, stateOverflow := false } }.send
              (.notice n p.notices.stateOverflow p.now)
          | [] => p

/-! ## After a command -/

/-- The order of responses built in one action (R178); a holder's place, last of its originator's, shows in no run. -/
def ResponsePlace.key : ResponsePlace → Nat
  | .slot o i => 3 * o.val + i.val
  | .holder o => 3 * o.val + 2

/-- Put a place in its order. -/
def insertPlace (x : ResponsePlace) : List ResponsePlace → List ResponsePlace
  | [] => [x]
  | y :: ys => if x.key ≤ y.key then x :: y :: ys else y :: insertPlace x ys

/-- Order the responses built in one action: those beyond the `n` that waited before it (R178). -/
def orderBuilt (n : Nat) (xs : List ResponsePlace) : List ResponsePlace :=
  xs.take n ++ (xs.drop n).foldr insertPlace []

/-- What the free transmitters choose once a command's effect is done: each line's arbiter (R38), then the uplink's (R178). A choice
made between two notices of one action could send another than this one (log 52). -/
def Part.settle (p : Part) (n : Nat) : Part :=
  let q := (List.finRange 4).foldl Part.lineChoice p
  { q with uplink := { q.uplink with waiting := orderBuilt n q.uplink.waiting } }.uplinkChoice

/-- The part after a command: nothing happens to a part without power or held in reset (R195). -/
def Part.after (p : Part) (f : Part → Part) : Part := if p.working then (f p).settle p.uplink.waiting.length else p

/-- The outcome of a command that acts on a working part. -/
def act (f : Part → Part) (s : State) : Host.Outcome State Fault Refusal := .next { s with part := s.part.after f }

/-- The outcome of a command that acts whether or not the part works (R195). -/
def actAlways (f : Part → Part) (s : State) : Host.Outcome State Fault Refusal := .next { s with part := f s.part }

/-- Time passing with no command: one millisecond, in which nothing else happens (log 3). -/
def Part.tick (p : Part) : Part := if p.working then { p with now := p.now + Config.msTicks } else p

/-! ## The request handler (R189, R190) -/

/-- The slots of all originators. -/
def allSlots : List (OriginatorNo × SlotNo) := (List.finRange 4).flatMap fun o => (List.finRange 2).map fun i => (o, i)

/-- The WAITING frames, with their places and arrivals. -/
def Part.waitingFrames (p : Part) : List (OriginatorNo × SlotNo × Frame × Time) :=
  allSlots.filterMap fun x =>
    match p.slot x.1 x.2 with
    | .waiting f t => some (x.1, x.2, f, t)
    | _ => none

/-- The frame the handler takes next: the oldest WAITING one, unless a restart is pending (R189). -/
def Part.nextFrame (p : Part) : Option (OriginatorNo × SlotNo × Frame) :=
  if p.uplink.restartPending then none
  else
    (p.waitingFrames.foldl
      (fun best x =>
        match best with
        | none => some x
        | some b => if x.2.2.2 < b.2.2.2 then some x else some b) none).map fun x => (x.1, x.2.1, x.2.2.1)

/-- Decide the next WAITING frame as a frame of the code `c` (R190): the authority and range checks, then the owner's action. A
next frame of another code leaves the command without an occasion (log 1, log 2). -/
def Part.decide (p : Part) (c : Code) (own : OriginatorNo → SlotNo → Frame → Part → Part) : Part :=
  match p.nextFrame with
  | none => p
  | some (o, i, f) =>
    match f.verdict with
    | .error _ => p
    | .ok code =>
      if code = c then
        if !p.holds o c.authority then p.refuse o i .authority
        else if !c.inRange f then p.refuse o i .range
        else own o i f p
      else p

/-- The checks of R157 on a door command, in order: the refusal and its sense detail. -/
def Part.policy (p : Part) (c : Code) (o : OriginatorNo) (i : SlotNo) (d : DoorNo) : Option (Completion × Option Nat) :=
  let admin := p.holds o .administer
  let slot := some i.val
  if !(p.config d).configured then some (.notConfigured, slot)
  else if (p.config d).withdrawn then some (.withdrawn, slot)
  else if p.inWorkSet d then some (.inSweep, p.sweepDetail d)
  else if (p.line (p.lineOf d)).state ≠ .active then some (.lineDown, some (p.lineOf d).val)
  else if c = .throwBolt ∧ p.fire.latch ∧ (p.config d).fireAction = .free then some (.fireHold, slot)
  else
    let owner := (p.image d).claim.bind fun x => (p.exceptions[x]).map fun e => e.owner
    if c = .throwBolt ∧ (owner.any fun w => w ≠ o) ∧ !admin then some (.claimed, (p.image d).claim.map (·.val))
    else if (c = .retractBolt ∨ c = .pulse) ∧ (p.group (p.config d).group).night ∧ !(p.config d).nightPass ∧ !admin then
      some (.nightPolicy, slot)
    else none

/-- Take a door command (R159): its slot goes IN PROGRESS and its request is submitted. -/
def Part.takeCommand (p : Part) (c : Code) (o : OriginatorNo) (i : SlotNo) (f : Frame) : Part :=
  match p.slot o i with
  | .waiting g t => ((p.setSlot o i (.inProgress g t (some .queued))).submit (c.lineCmd f) f.doorNo (.slot o i)).1
  | _ => p

/-- A door command's owner: the policy checks, then the taking (R157, R159). -/
def Part.doorCommand (p : Part) (c : Code) (o : OriginatorNo) (i : SlotNo) (f : Frame) : Part :=
  match p.policy c o i f.doorNo with
  | some (code, detail) => p.answer o i code [] detail
  | none => p.takeCommand c o i f

end Sys2Proof.Machine
end

