-- ==== Sys2Proof/Machine/Exceptions.lean ====
section
/-! DEFINITION. The exception table (R108 to R115). -/
namespace Sys2Proof.Machine

/-- The doors of a set at this moment (R108). -/
def Part.doorsOf (p : Part) : DoorSet → List DoorNo
  | .group g => p.groupMembers g
  | .list ds => ds

/-- An expiry lies 1–720 minutes ahead of a minute (R108, R111). -/
def expiryAhead (minute expiry : Nat) : Bool := 1 ≤ forwardDistance minute expiry && forwardDistance minute expiry ≤ 720

/-- A list that names a door twice (R108). -/
def DoorSet.repeats : DoorSet → Bool
  | .group _ => false
  | .list ds => !ds.Nodup

/-- A listed door is unconfigured (R108). -/
def Part.listsUnconfigured (p : Part) : DoorSet → Bool
  | .group _ => false
  | .list ds => ds.any fun d => !(p.config d).configured

/-- The lowest FREE exception slot (R109). -/
def Part.freeException (p : Part) : Option ExceptionNo := (List.finRange 16).find? fun x => (p.exceptions[x]).isNone

/-- The claim on the lowest-numbered claimed door of a set (R108). -/
def Part.lowestClaim (p : Part) (ds : List DoorNo) : Option ExceptionNo :=
  (allDoors.filter fun d => ds.contains d).findSome? fun d => (p.image d).claim

/-- Write a door's claim (R7). -/
def Part.setClaim (p : Part) (d : DoorNo) (c : Option ExceptionNo) : Part := p.setImage d { p.image d with claim := c }

/-- Write an exception slot. -/
def Part.setException (p : Part) (x : ExceptionNo) (e : Option ExceptionRecord) : Part :=
  { p with exceptions := p.exceptions.set x e }

/-- Claim the doors of a new exception (R109, R110). -/
def Part.claimDoors (p : Part) (x : ExceptionNo) (ds : List DoorNo) : Part :=
  (ds.foldl (fun q d => (q.setClaim d (some x)).removeCatchUp d) p).claimEntries ds

/-- CREATE EXCEPTION (R108, R109). -/
def Part.createException (o : OriginatorNo) (i : SlotNo) (f : Frame) (p : Part) : Part :=
  let set := f.doorSet
  let ds := p.doorsOf set
  if !p.clock.set then p.refuse o i .clockUnset
  else if !expiryAhead p.clock.minute (f.param16 0) ∨ set.repeats then p.refuse o i .range
  else if p.listsUnconfigured set then p.refuse o i .notConfigured
  else
    match p.lowestClaim ds, p.freeException with
    | some x, _ => p.answer o i .claimed [] (some x.val)
    | none, none => p.refuse o i .noSlot
    | none, some x =>
      ((p.setException x (some { owner := o, expiry := f.param16 0, doors := set, created := p.clock.minute })).claimDoors x
        ds).answerOk o i [byte x, byte ds.length]

/-- Whether an originator may act on something owned (R111, R112, R174). -/
def Part.mayAct (p : Part) (o owner : OriginatorNo) : Bool := o = owner || p.holds o .administer

/-- EXTEND EXCEPTION (R111). -/
def Part.extendException (o : OriginatorNo) (i : SlotNo) (f : Frame) (p : Part) : Part :=
  let x : ExceptionNo := Fin.ofNat 16 (f.param 0)
  match p.exceptions[x] with
  | none => p.refuse o i .state
  | some e =>
    if !p.mayAct o e.owner then p.refuse o i .authority
    else if !expiryAhead p.clock.minute (f.param16 1) then p.refuse o i .range
    else (p.setException x (some { e with expiry := f.param16 1 })).answerOk o i []

/-- An exception ends (R115); the engine is offered the list afterwards. -/
def Part.endException (p : Part) (x : ExceptionNo) (cause : ExceptionCause) : Part :=
  match p.exceptions[x] with
  | none => p
  | some e =>
    let ds := p.claimedBy x
    let q := ds.foldl (fun q d => q.setClaim d none) p
    let r := q.offerDoors ds
    (r.raise (.exceptionEnded x e.owner e.expiry cause ds.length (r.catchUp.length - q.catchUp.length))).setException x none

/-- Exceptions that a test picks end in one action, in ascending slot order (R113, R114). -/
def Part.endExceptions (p : Part) (test : ExceptionRecord → Bool) (cause : ExceptionCause) : Part :=
  (((List.finRange 16).filter fun x => (p.exceptions[x]).any test).foldl (fun q x => q.endException x cause) p)

/-- END EXCEPTION (R112). -/
def Part.endExceptionRequest (o : OriginatorNo) (i : SlotNo) (f : Frame) (p : Part) : Part :=
  let x : ExceptionNo := Fin.ofNat 16 (f.param 0)
  match p.exceptions[x] with
  | none => p.refuse o i .state
  | some e =>
    if !p.mayAct o e.owner then p.refuse o i .authority
    else ((p.endException x .ended).offerIfGrown p.catchUp.length).answerOk o i []

/-- CREATE_EXCEPTION. -/
def execCreateException (s : State) : Host.Outcome State Fault Refusal :=
  act (fun p => p.decide .createException Part.createException) s

/-- EXTEND_EXCEPTION. -/
def execExtendException (s : State) : Host.Outcome State Fault Refusal :=
  act (fun p => p.decide .extendException Part.extendException) s

/-- END_EXCEPTION. -/
def execEndException (s : State) : Host.Outcome State Fault Refusal :=
  act (fun p => p.decide .endException Part.endExceptionRequest) s

end Sys2Proof.Machine
end

