-- ==== Sys2Proof/Machine/Clock.lean ====
section
/-! DEFINITION. The day clock and the schedule's firings (R113, R114, R125, R126, R128 to R130). -/
namespace Sys2Proof.Machine

/-- The timebase raises the second (R125). -/
def Part.secondPasses (p : Part) : Part :=
  if p.clock.set ∧ p.clock.second < 59 then
    let t := p.secondBegan + Config.secondTicks
    { p.reach t with clock := { p.clock with second := p.clock.second + 1 }, secondBegan := t }
  else p

/-- TIMEBASE_SECOND. -/
def execTimebaseSecond (s : State) : Host.Outcome State Fault Refusal := act Part.secondPasses s

/-- Place a start in the pending-start slot (R129, R130); a catch-up sweep then yields (R84). -/
def Part.placeStart (p : Part) (x : PendingStart) : Part :=
  let q :=
    { p with engine := { p.engine with pendingStart := some x } }.editCtx fun c =>
      { c with yielding := c.yielding || c.kind = SweepKind.catchUp }
  match p.engine.pendingStart with
  | none => q
  | some old => q.raise (.startDisplaced old x)

/-- A firing asks the engine to start its plan (R129). -/
def Part.firing (p : Part) (x : PendingStart) : Part :=
  if p.fire.latch then p.raise (.startDropped .fire x)
  else if p.banks.active[x.plan].isEmpty then p.raise (.startDropped .emptyPlan x)
  else
    match p.engine.ctx with
    | none => (p.startPlan x.plan).engineRun
    | some _ => p.placeStart x

/-- A schedule entry's part in an advance into a minute (R128). -/
def Part.scheduleEntry (p : Part) (minute : Nat) (k : Fin 16) : Part :=
  let e := p.schedule[k]
  if e.enabled ∧ e.minute = minute then
    let q :=
      match e.repetition with
      | .weekly => p
      | .once => { p with schedule := p.schedule.set k { e with enabled := false } }
    q.firing { plan := e.plan, entry := k, minute := minute }
  else p

/-- The schedule's part in an advance (R128). -/
def Part.scheduleAdvances (p : Part) (minute : Nat) : Part := (List.finRange 16).foldl (fun q k => q.scheduleEntry minute k) p

/-- The exception table's part in an advance (R113); the engine is offered the appends (R120). -/
def Part.exceptionsAdvance (p : Part) (minute : Nat) : Part :=
  (p.endExceptions (fun e => e.expiry = minute) .expired).offerIfGrown p.catchUp.length

/-- The clock advances into the next minute (R125; log 5). -/
def Part.clockAdvances (order : List Block) (p : Part) : Part :=
  if p.clock.set then
    let t := p.secondBegan + (60 - p.clock.second) * Config.secondTicks
    let minute := (p.clock.minute + 1) % Config.weekMinutes
    { p.reach t with clock := { p.clock with minute := minute, second := 0 }, secondBegan := t }.inOrder
      (arrange [.schedule, .exceptionTable] order) fun b q =>
        match b with
        | .schedule => q.scheduleAdvances minute
        | .exceptionTable => q.exceptionsAdvance minute
        | _ => q
  else p

/-- CLOCK_ADVANCE. -/
def execClockAdvance (order : List Block) (s : State) : Host.Outcome State Fault Refusal := act (Part.clockAdvances order) s

/-- A forward set of the clock ends the exceptions on its path (R114). -/
def Part.setPassesExceptions (p : Part) (minute : Nat) : Part :=
  let path := forwardDistance p.clock.minute minute
  if p.clock.set ∧ path ≤ 5040 then
    p.endExceptions (fun e => forwardDistance p.clock.minute e.expiry ≤ path) .clockSet
  else p

/-- SET CLOCK (R126). The set begins a whole second anew, and the engine is offered the appends once the new minute stands
(log 42). -/
def Part.setClock (o : OriginatorNo) (i : SlotNo) (f : Frame) (p : Part) : Part :=
  let minute := f.param16 0
  let q := { p.setPassesExceptions minute with clock := ⟨true, minute, f.param 2⟩, secondBegan := p.now }
  (q.offerIfGrown p.catchUp.length).answerOk o i []

/-- SET_CLOCK. -/
def execSetClock (s : State) : Host.Outcome State Fault Refusal := act (fun p => p.decide .setClock Part.setClock) s

end Sys2Proof.Machine
end

