-- ==== Sys2Proof/Machine/DoorCommands.lean ====
section
/-! DEFINITION. The pass-through door commands (chapter 8): each is checked (R157) and taken (R159); its completion comes from its line
(R160 to R165). -/
namespace Sys2Proof.Machine

/-- THROW. -/
def execThrowBolt (s : State) : Host.Outcome State Fault Refusal :=
  act (fun p => p.decide .throwBolt fun o i f q => q.doorCommand .throwBolt o i f) s

/-- RETRACT. -/
def execRetractBolt (s : State) : Host.Outcome State Fault Refusal :=
  act (fun p => p.decide .retractBolt fun o i f q => q.doorCommand .retractBolt o i f) s

/-- PULSE. -/
def execPulse (s : State) : Host.Outcome State Fault Refusal :=
  act (fun p => p.decide .pulse fun o i f q => q.doorCommand .pulse o i f) s

/-- HOLDER_ENGAGE. -/
def execHolderEngage (s : State) : Host.Outcome State Fault Refusal :=
  act (fun p => p.decide .holderEngage fun o i f q => q.doorCommand .holderEngage o i f) s

/-- HOLDER_RELEASE. -/
def execHolderRelease (s : State) : Host.Outcome State Fault Refusal :=
  act (fun p => p.decide .holderRelease fun o i f q => q.doorCommand .holderRelease o i f) s

/-- POLL_NOW. -/
def execPollNow (s : State) : Host.Outcome State Fault Refusal :=
  act (fun p => p.decide .pollNow fun o i f q => q.doorCommand .pollNow o i f) s

end Sys2Proof.Machine
end

