-- ==== Sys2Proof/Machine/DoorTable.lean ====
section
/-! DEFINITION. The door table's requests (R2 to R5). -/
namespace Sys2Proof.Machine

/-- A poll of the door in flight is no longer applied to it (R3, R4; log 16). -/
def Wire.detach (w : Wire) (d : DoorNo) : Wire :=
  match w with
  | .transaction t => if t.door = some d ∧ t.cmd = .pollNow then .transaction { t with detached := true } else w
  | .free => w
  | .broadcast _ _ _ => w

/-- Detach the polls of a door on every line. -/
def Part.detachPolls (p : Part) (d : DoorNo) : Part := { p with lines := p.lines.map fun x => { x with wire := x.wire.detach d } }

/-- The door's image goes ABSENT (R3, R4). -/
def Part.clearImage (p : Part) (d : DoorNo) : Part :=
  (p.setImage d ((p.image d).cleared (p.config d).holderFitted)).detachPolls d

/-- Whether another configured record holds a line and node (R2, R1). -/
def Part.nodeTaken (p : Part) (d : DoorNo) (l : LineNo) (node : Nat) : Bool :=
  allDoors.any fun x => x ≠ d && (p.config x).configured && (p.config x).line = l && (p.config x).node = node

/-- Work outstanding for a door keeps its record (R2, R4). -/
def Part.doorBusy (p : Part) (d : DoorNo) : Bool := p.imageState d = .pending || p.commandOutstanding d

/-- The effects of LOAD DOOR on the image and the catch-up list (R3). -/
def Part.reconfigured (p : Part) (d : DoorNo) (old new : DoorConfig) : Part :=
  let q := p.setConfig d new
  let a := if old.line ≠ new.line ∨ old.node ≠ new.node ∨ old.configured ≠ new.configured then q.clearImage d else q
  if !new.configured ∨ (old.group ≠ new.group ∧ !(p.group new.group).night) then a.removeCatchUp d else a

/-- LOAD DOOR's own checks and action (R2, R3, R147). -/
def Part.loadDoor (o : OriginatorNo) (i : SlotNo) (f : Frame) (p : Part) : Part :=
  let d := f.doorNo
  let old := p.config d
  let new := f.doorConfig old.withdrawn
  if p.inWorkSet d then p.answer o i .inSweep [] (p.sweepDetail d)
  else if p.doorBusy d then p.refuse o i .busy
  else if new.configured ∧ p.nodeTaken d new.line new.node then p.refuse o i .conflict
  else ((p.reconfigured d old new).fireReconfigured d).answerOk o i []

/-- WITHDRAW DOOR's own checks and action (R4, R147). -/
def Part.withdrawDoor (o : OriginatorNo) (i : SlotNo) (f : Frame) (p : Part) : Part :=
  let d := f.doorNo
  if !(p.config d).configured then p.refuse o i .notConfigured
  else if (p.config d).withdrawn then p.refuse o i .state
  else if p.inWorkSet d then p.answer o i .inSweep [] (p.sweepDetail d)
  else if p.doorBusy d then p.refuse o i .busy
  else ((((p.setConfig d { p.config d with withdrawn := true }).clearImage d).removeCatchUp d).removeRelease d).answerOk o i []

/-- RESTORE DOOR's own checks and action (R5, R147). -/
def Part.restoreDoor (o : OriginatorNo) (i : SlotNo) (f : Frame) (p : Part) : Part :=
  let d := f.doorNo
  if !(p.config d).configured then p.refuse o i .notConfigured
  else if !(p.config d).withdrawn then p.refuse o i .state
  else ((p.setConfig d { p.config d with withdrawn := false }).fireReconfigured d).answerOk o i []

/-- LOAD_DOOR. -/
def execLoadDoor (s : State) : Host.Outcome State Fault Refusal := act (fun p => p.decide .loadDoor Part.loadDoor) s

/-- WITHDRAW_DOOR. -/
def execWithdrawDoor (s : State) : Host.Outcome State Fault Refusal := act (fun p => p.decide .withdrawDoor Part.withdrawDoor) s

/-- RESTORE_DOOR. -/
def execRestoreDoor (s : State) : Host.Outcome State Fault Refusal := act (fun p => p.decide .restoreDoor Part.restoreDoor) s

end Sys2Proof.Machine
end

