-- ==== Sys2Proof/Machine/Fire.lean ====
section
/-! DEFINITION. The fire release unit (R140 to R152). -/
namespace Sys2Proof.Machine

/-- The raw fire input changes (R140): the filter of a working part starts, restarts or drops its candidate. -/
def Part.fireInput (reading : FireInput) (p : Part) : Part :=
  if reading = p.fire.raw then p
  else
    let candidate :=
      if !p.working then p.fire.candidate else if reading = p.fire.filtered then none else some (reading, p.now)
    { p with fire := { p.fire with raw := reading, candidate := candidate } }

/-- FIRE_INPUT_CHANGE. -/
def execFireInputChange (reading : FireInput) (s : State) : Host.Outcome State Fault Refusal := actAlways (Part.fireInput reading) s

/-- Queue the URGENT notice of a departure from NORMAL (R141). -/
def Part.fireNotice (p : Part) (v : FireInput) (before : Bool) : Part :=
  match v with
  | .normal => p
  | .alarm => p.raise (.fireAlarm v before p.fire.releasePending.length)
  | .loopFault => p.raise (.fireLoopFault v before p.fire.releasePending.length)

/-- The doors that fill the release-pending set (R146). -/
def Part.freeDoors (p : Part) : List DoorNo :=
  allDoors.filter fun d => (p.config d).configured && !(p.config d).withdrawn && (p.config d).fireAction = .free

/-- The latch, its time, the set and the timers (R142, items 1, 3 and 4). -/
def FireUnit.latched (f : FireUnit) (now : Time) (set : List DoorNo) : FireUnit :=
  { f with
    latch := true
    latchTime := some now
    releasePending := set
    confirmed := 0
    removed := 0
    repeatTimer := some (now + Config.repeatInterval)
    incompleteTimer := some (now + Config.incompleteInterval) }

/-- The latch empties the pending-start slot (R130). -/
def Part.dropPendingStart (p : Part) : Part :=
  match p.engine.pendingStart with
  | none => p
  | some s => { p with engine := { p.engine with pendingStart := none } }.raise (.startDropped .fire s)

/-- The fire latch sets (R142): the lines are purged in ascending number (log 57), before the sweep engine ends its entries (log 50). -/
def Part.setLatch (p : Part) (v : FireInput) (order : List Block) : Part :=
  let q := ({ p with fire := p.fire.latched p.now p.freeDoors }.fireNotice v false).confirmIfEmpty
  ((List.finRange 4).foldl (fun q l => (q.purgeLine l).makeBroadcast l) q).inOrder
    (arrange [.sweepEngine, .pendingStart, .watchTable] order) fun b q =>
      match b with
      | .sweepEngine => q.fireEndsSweep
      | .pendingStart => q.dropPendingStart
      | .watchTable => q.fireWatches
      | _ => q

/-- The candidate has held for 0.5 s (R140, R141). -/
def Part.filterHolds (order : List Block) (p : Part) : Part :=
  match p.fire.candidate with
  | none => p
  | some (v, t) =>
    let q := p.reach (t + Config.filterTime)
    let r := { q with fire := { q.fire with filtered := v, candidate := none } }
    if v = .normal then r else if r.fire.latch then r.fireNotice v true else r.setLatch v order

/-- FILTERED_INPUT_CHANGE. -/
def execFilteredInputChange (order : List Block) (s : State) : Host.Outcome State Fault Refusal := act (Part.filterHolds order) s

/-- The repeat timer expires (R144). -/
def Part.repeatFires (p : Part) : Part :=
  match p.fire.repeatTimer with
  | none => p
  | some t =>
    let q := p.reach t
    let r := { q with fire := { q.fire with repeatTimer := some (t + Config.repeatInterval) } }
    if r.fire.releasePending = [] then r else r.makeBroadcasts

/-- REPEAT_TIMER_EXPIRY. -/
def execRepeatTimerExpiry (s : State) : Host.Outcome State Fault Refusal := act Part.repeatFires s

/-- The doors of the release-pending set on a line (R148). -/
def Part.pendingOn (p : Part) (l : LineNo) : Nat := (p.fire.releasePending.filter fun d => p.lineOf d = l).length

/-- The incomplete timer expires (R148). -/
def Part.incompleteFires (p : Part) : Part :=
  match p.fire.incompleteTimer with
  | none => p
  | some t =>
    let q := p.reach t
    let r := { q with fire := { q.fire with incompleteTimer := none } }
    if r.fire.releasePending = [] then r
    else r.raise (.fireReleaseIncomplete r.fire.releasePending.length (Vector.ofFn r.pendingOn))

/-- INCOMPLETE_TIMER_EXPIRY. -/
def execIncompleteTimerExpiry (s : State) : Host.Outcome State Fault Refusal := act Part.incompleteFires s

/-- The fire release unit after a restore (R152, items 1 and 2). -/
def FireUnit.restored (f : FireUnit) : FireUnit :=
  { f with latch := false, releasePending := [], repeatTimer := none, incompleteTimer := none }

/-- A line's pending broadcast is withdrawn (R152, item 3). -/
def Line.withoutBroadcast (x : Line) : Line := { x with broadcast := none, wire := x.wire.outdated }

/-- FIRE RESTORE's action (R152): the clearing of the latch lets an IDLE engine test for a catch-up sweep whatever was appended
(R82), any other engine is offered the appends (R120). -/
def Part.restoreFire (p : Part) : Part :=
  let q := { p with fire := p.fire.restored, lines := p.lines.map Line.withoutBroadcast }
  let r := q.offerDoors (allDoors.filter fun d => (q.config d).fireAction = .free)
  let t := r.raise (.fireRestored p.fire.releasePending.length (r.catchUp.length - q.catchUp.length))
  match t.engine.ctx with
  | none => t.offerCatchUp
  | some _ => t.offerIfGrown p.catchUp.length

/-- FIRE RESTORE (R151, R152). -/
def Part.fireRestoreRequest (o : OriginatorNo) (i : SlotNo) (_ : Frame) (p : Part) : Part :=
  if p.fire.latch ∧ p.fire.filtered = .normal then (p.restoreFire).answerOk o i [] else p.refuse o i .state

/-- FIRE_RESTORE. -/
def execFireRestore (s : State) : Host.Outcome State Fault Refusal := act (fun p => p.decide .fireRestore Part.fireRestoreRequest) s

end Sys2Proof.Machine
end

