-- ==== Sys2Proof/Machine/LineEvents.lean ====
section
/-! DEFINITION. The events of the door lines (2.1 to 2.8) and of their timers. An event whose occasion is absent changes nothing
(log 1); a timer's event moves time to its moment (log 4). -/
namespace Sys2Proof.Machine

/-- Put a transaction back on the wire in a later phase. -/
def Part.setTransaction (p : Part) (l : LineNo) (t : Transaction) : Part := p.setLine l { p.line l with wire := .transaction t }

/-- Offer a CONFLICT on a frame if it was conflicted (R28, R52). -/
def Part.offerConflict (p : Part) (l : LineNo) (conflicted : Bool) (node : Nat) (fn : LineFunction) : Part :=
  if conflicted then p.offerFault l .conflict (some node) (some fn) else p

/-- The last character of a POLL, DRIVE or HOLDER frame has been sent (R28, R30). The frame of a transaction that was cut off counts
in no conflict count, whatever the line's state at its end (log 40). -/
def Part.lineFrameSent (l : LineNo) (readback : Readback) (p : Part) : Part :=
  match (p.line l).wire with
  | .transaction t =>
    if t.phase = .sending then
      let conflicted := readbackConflicts t.frame readback
      let q := (p.reach (t.began + Config.lineCharTicks * t.frame.length)).offerConflict l conflicted t.node t.cmd.function
      if t.cut then q.setLine l { q.line l with wire := .free }
      else
        q.setTransaction l
          { t with
            phase := .window (q.now + Config.replyWindow)
            conflicted := conflicted
            anyConflict := t.anyConflict || conflicted }
    else p
  | _ => p

/-- LINE_FRAME_SENT. -/
def execLineFrameSent (line : LineNo) (readback : Readback) (s : State) : Host.Outcome State Fault Refusal :=
  act (Part.lineFrameSent line readback) s

/-- What the receiver discards after a character failure (R27, log 47): time moves to the end of the last character that puts the mark
off, or to the window's close where that ends the send first. -/
def Part.discards (p : Part) (l : LineNo) (t : Transaction) (k : FaultKind) (failed mark closes : Time) (chars : List LineChar) : Part :=
  let since := markSince mark chars
  (p.reach (if failed ≤ closes then min since closes else since)).setTransaction l { t with phase := .charFailed k failed since closes }

/-- A reply is received (R27, R29, R30). A conflicted send discards it (R28), and so does a window that has closed before it begins
(log 28). A whole reply, one that fails CHECK whatever its form among them, ends with its last character (log 39), its fault offered before the
send's end is handed on (log 53). After a character failure further characters are discarded. -/
def Part.replyReceived (l : LineNo) (chars : List LineChar) (order : List Block) (p : Part) : Part :=
  match (p.line l).wire, chars with
  | .transaction t, first :: _ =>
    match t.phase with
    | .window closes =>
      if t.conflicted ∨ Config.replyWindow < first.pause then p
      else
        let q := p.reach (closes - Config.replyWindow + charsTicks (charsTaken chars))
        match judgeReply t.node t.cmd.function chars with
        | .valid r => q.transactionEnd l t (some r) order
        | .failed k => (q.offerFault l k (some t.node) (some t.cmd.function)).sendFails l t order
        | .charFailed k => q.discards l t k q.now q.now closes (charsDropped chars)
    | .charFailed k failed mark closes => p.discards l t k failed mark closes chars
    | .sending => p
  | _, _ => p

/-- LINE_REPLY_RECEIVED. -/
def execLineReplyReceived (line : LineNo) (chars : List LineChar) (order : List Block) (s : State) :
    Host.Outcome State Fault Refusal :=
  act (Part.replyReceived line chars order) s

/-- A reply window closes (R27, R29, R30): with no character the send is SILENT; after a character failure it ends the send, its fault
offered first (log 53), where the 2 ms of mark do not end it before. -/
def Part.windowCloses (l : LineNo) (order : List Block) (p : Part) : Part :=
  match (p.line l).wire with
  | .transaction t =>
    match t.phase with
    | .window closes => (p.reach closes).sendFails l t order
    | .charFailed k failed mark closes =>
      if failed ≤ closes ∧ closes ≤ mark + Config.lineGap then
        ((p.reach closes).offerFault l k (some t.node) (some t.cmd.function)).sendFails l t order else p
    | .sending => p
  | _ => p

/-- REPLY_WINDOW_CLOSED. -/
def execReplyWindowClosed (line : LineNo) (order : List Block) (s : State) : Host.Outcome State Fault Refusal :=
  act (Part.windowCloses line order) s

/-- The line has been at mark for 2 ms after a character failure (R27, R203), where the window's close does not end the send before; the
fault is offered first (log 53). -/
def Part.markHolds (l : LineNo) (order : List Block) (p : Part) : Part :=
  match (p.line l).wire with
  | .transaction t =>
    match t.phase with
    | .charFailed k failed mark closes =>
      if mark + Config.lineGap ≤ closes ∨ closes < failed then
        ((p.reach (mark + Config.lineGap)).offerFault l k (some t.node) (some t.cmd.function)).sendFails l t order
      else p
    | _ => p
  | _ => p

/-- RECEIVER_MARK_2MS. -/
def execReceiverMark2ms (line : LineNo) (order : List Block) (s : State) : Host.Outcome State Fault Refusal :=
  act (Part.markHolds line order) s

/-- A send of the pending broadcast lowers its sends remaining (R33). -/
def Broadcast.lowered : Option Broadcast → Option Broadcast
  | none => none
  | some b => if b.sends ≤ 1 then none else some { b with sends := b.sends - 1 }

/-- One send of a fire broadcast ends (R32, R33; log 14), a conflict offered first (log 53). -/
def Part.broadcastSent (l : LineNo) (readback : Readback) (order : List Block) (p : Part) : Part :=
  match (p.line l).wire with
  | .broadcast maps began present =>
    let conflicted := readbackConflicts maps.frame readback
    let q := (p.reach (began + Config.lineCharTicks * maps.frame.length)).offerConflict l conflicted 0 .fireBroadcast
    let x := q.line l
    (q.setLine l { x with wire := .free, broadcast := if present then Broadcast.lowered x.broadcast else x.broadcast }).countConflict l
      conflicted order
  | _ => p

/-- FIRE_BROADCAST_SENT. -/
def execFireBroadcastSent (line : LineNo) (readback : Readback) (order : List Block) (s : State) :
    Host.Outcome State Fault Refusal :=
  act (Part.broadcastSent line readback order) s

/-- The node address and function of the frame being sent, none where the line is not sending (2.8). -/
def Wire.frameSending : Wire → Option (Nat × LineFunction)
  | .free => none
  | .transaction t => if t.phase = .sending then some (t.node, t.cmd.function) else none
  | .broadcast _ _ _ => some (0, .fireBroadcast)

/-- What an overload leaves on the wire of a line that is QUIET or FAULTED: the send under way stops (R32, R33, R49; log 17). -/
def Part.stopSend (p : Part) (l : LineNo) : Part :=
  let x := p.line l
  match x.state, x.wire with
  | .faulted, .transaction _ => p.setLine l { x with wire := .free, probeTimer := some (p.now + Config.probeInterval) }
  | _, .transaction t => if t.phase = .sending then p.setLine l { x with wire := .free } else p
  | _, .broadcast _ _ _ => p.setLine l { x with wire := .free }
  | _, .free => p

/-- The line driver reports overload (R32, R49, R52). LINE FAULT is queued before the notices of the line's going down (log 53). -/
def Part.overloads (l : LineNo) (order : List Block) (p : Part) : Part :=
  let x := p.line l
  let q := p.offerFault l .overload (x.wire.frameSending.map (·.1)) (x.wire.frameSending.map (·.2))
  if x.state = .active then q.goDown l .faulted true order else q.stopSend l

/-- OVERLOAD_REPORT. -/
def execOverloadReport (line : LineNo) (order : List Block) (s : State) : Host.Outcome State Fault Refusal :=
  act (Part.overloads line order) s

/-- A moving door's last-poll time passes 200 ms (R38, R42): the arbiter then chooses. -/
def Part.confirmFallsDue (l : LineNo) (p : Part) : Part :=
  match oldestMotion (p.line l).motions with
  | none => p
  | some m => p.reach (m.lastPoll + Config.confirmInterval + 1)

/-- CONFIRM_POLL_DUE. -/
def execConfirmPollDue (line : LineNo) (s : State) : Host.Outcome State Fault Refusal := act (Part.confirmFallsDue line) s

/-- A motion entry's deadline passes (R46). -/
def Part.deadlinePasses (d : DoorNo) (p : Part) : Part :=
  let l := p.lineOf d
  match (p.line l).motionOf d with
  | none => p
  | some m => (p.reach m.deadline).motionTimesOut l m

/-- MOTION_DEADLINE. -/
def execMotionDeadline (door : DoorNo) (s : State) : Host.Outcome State Fault Refusal := act (Part.deadlinePasses door) s

/-- The probe timer of a FAULTED line expires (R49): the probe is then sent. -/
def Part.probeFallsDue (l : LineNo) (p : Part) : Part :=
  let x := p.line l
  match x.state, x.probeTimer with
  | .faulted, some t => (p.reach t).setLine l { x with probeTimer := none, probeDue := true }
  | _, _ => p

/-- PROBE_TIMER_EXPIRY. -/
def execProbeTimerExpiry (line : LineNo) (s : State) : Host.Outcome State Fault Refusal := act (Part.probeFallsDue line) s

end Sys2Proof.Machine
end

