-- ==== Sys2Proof/Machine/LineRequests.lean ====
section
/-! DEFINITION. The requests that act on a door line (R48, R50, R53). -/
namespace Sys2Proof.Machine

/-- CLEAR LINE FAULT (R53). -/
def Part.clearLineFault (o : OriginatorNo) (i : SlotNo) (f : Frame) (p : Part) : Part :=
  let l := f.lineNo 0
  (p.setLine l { p.line l with fault := none }).answerOk o i []

/-- QUIET LINE (R48). -/
def Part.quietLine (order : List Block) (o : OriginatorNo) (i : SlotNo) (f : Frame) (p : Part) : Part :=
  let l := f.lineNo 0
  match (p.line l).state with
  | .active => (p.goDown l .quiet false order).answerOk o i []
  | .faulted => (p.setLine l { p.line l with state := .quiet, probeTimer := none, probeDue := false }).answerOk o i []
  | .quiet => p.refuse o i .state

/-- A RESUME LINE waits for its probe to be sent (R50, R187; log 31). -/
def Part.awaitProbe (p : Part) (l : LineNo) (o : OriginatorNo) (i : SlotNo) : Part :=
  match p.slot o i with
  | .waiting g t =>
    (p.setSlot o i (.inProgress g t none)).setLine l
      { p.line l with probeTimer := none, probeDue := true, probeWaiters := (p.line l).probeWaiters ++ [(o, i)] }
  | _ => p

/-- Whether a probe is on the wire of a line. -/
def Line.probing (x : Line) : Bool :=
  match x.wire with
  | .transaction t => t.kind = .probe && !t.cut
  | _ => false

/-- RESUME LINE (R50). -/
def Part.resumeLine (o : OriginatorNo) (i : SlotNo) (f : Frame) (p : Part) : Part :=
  let l := f.lineNo 0
  match (p.line l).state with
  | .quiet => (p.returnActive l).answerOk o i []
  | .faulted => if (p.line l).probing then p.answerOk o i [] else p.awaitProbe l o i
  | .active => p.refuse o i .state

/-- CLEAR_LINE_FAULT. -/
def execClearLineFault (s : State) : Host.Outcome State Fault Refusal :=
  act (fun p => p.decide .clearLineFault Part.clearLineFault) s

/-- QUIET_LINE. -/
def execQuietLine (order : List Block) (s : State) : Host.Outcome State Fault Refusal :=
  act (fun p => p.decide .quietLine (Part.quietLine order)) s

/-- RESUME_LINE. -/
def execResumeLine (s : State) : Host.Outcome State Fault Refusal := act (fun p => p.decide .resumeLine Part.resumeLine) s

end Sys2Proof.Machine
end

