-- ==== Sys2Proof/Machine/Plans.lean ====
section
/-! DEFINITION. The plan banks, the schedule and the originator table (R127, R133 to R135, R184). -/
namespace Sys2Proof.Machine

/-- Write a staged plan. -/
def Part.setStaged (p : Part) (k : PlanNo) (x : Plan) : Part :=
  { p with banks := { p.banks with staged := p.banks.staged.set k x } }

/-- LOAD PLAN STEP (R133). -/
def Part.loadPlanStep (o : OriginatorNo) (i : SlotNo) (f : Frame) (p : Part) : Part :=
  let k : PlanNo := Fin.ofNat 8 (f.param 0)
  let plan := p.banks.staged[k]
  if p.banks.commitPending then p.refuse o i .pendingCommit
  else if plan.length < f.param 1 then p.refuse o i .range
  else if f.param 1 < plan.length then (p.setStaged k (plan.set (f.param 1) f.planStep)).answerOk o i []
  else (p.setStaged k (plan ++ [f.planStep])).answerOk o i []

/-- CLEAR STAGED PLAN (R134). -/
def Part.clearStagedPlan (o : OriginatorNo) (i : SlotNo) (f : Frame) (p : Part) : Part :=
  if p.banks.commitPending then p.refuse o i .pendingCommit else (p.setStaged (Fin.ofNat 8 (f.param 0)) []).answerOk o i []

/-- COMMIT PLANS (R135). -/
def Part.commitPlans (o : OriginatorNo) (i : SlotNo) (_ : Frame) (p : Part) : Part :=
  match p.engine.ctx with
  | none => { p with banks := { p.banks with active := p.banks.staged } }.answerOk o i []
  | some _ => { p with banks := { p.banks with commitPending := true } }.answer o i .commitPending [] none

/-- LOAD SCHEDULE ENTRY (R127). -/
def Part.loadScheduleEntry (o : OriginatorNo) (i : SlotNo) (f : Frame) (p : Part) : Part :=
  { p with schedule := p.schedule.set (Fin.ofNat 16 (f.param 0)) f.scheduleEntry }.answerOk o i []

/-- SET ORIGINATOR (R184). -/
def Part.setOriginator (o : OriginatorNo) (i : SlotNo) (f : Frame) (p : Part) : Part :=
  let table := p.uplink.originators.set (Fin.ofNat 4 (f.param 0)) { enabled := f.param 1 = 1, authority := authorityOf (f.param 2) }
  if table.toList.any fun r => r.enabled && r.authority = .administer then
    { p with uplink := { p.uplink with originators := table } }.answerOk o i []
  else p.refuse o i .state

/-- LOAD_PLAN_STEP. -/
def execLoadPlanStep (s : State) : Host.Outcome State Fault Refusal := act (fun p => p.decide .loadPlanStep Part.loadPlanStep) s

/-- CLEAR_STAGED_PLAN. -/
def execClearStagedPlan (s : State) : Host.Outcome State Fault Refusal :=
  act (fun p => p.decide .clearStagedPlan Part.clearStagedPlan) s

/-- COMMIT_PLANS. -/
def execCommitPlans (s : State) : Host.Outcome State Fault Refusal := act (fun p => p.decide .commitPlans Part.commitPlans) s

/-- LOAD_SCHEDULE_ENTRY. -/
def execLoadScheduleEntry (s : State) : Host.Outcome State Fault Refusal :=
  act (fun p => p.decide .loadScheduleEntry Part.loadScheduleEntry) s

/-- SET_ORIGINATOR. -/
def execSetOriginator (s : State) : Host.Outcome State Fault Refusal := act (fun p => p.decide .setOriginator Part.setOriginator) s

end Sys2Proof.Machine
end

