-- ==== Sys2Proof/Machine/Reads.lean ====
section
/-! DEFINITION. The queries (R6, R24, R54, R103, R106, R116, R123, R132, R137, R192). Each returns what it reads as it stands when its
response is built and, but for SENSE, changes nothing; layouts by R199 and R200 (log 22). -/
namespace Sys2Proof.Machine

/-- The ten configuration bytes of 11.3. -/
def DoorConfig.bytes (c : DoorConfig) : List Byte :=
  [boolByte c.configured, byte c.line, byte c.node, byte c.group, byte c.fireAction.code,
    byte (c.holderFitted.toNat + 2 * c.holdAtRelease.toNat + 4 * c.nightPass.toNat + 8 * c.withdrawn.toNat),
    byte (c.mask.bolt.toNat + 2 * c.mask.position.toNat + 4 * c.mask.holder.toNat + 8 * c.mask.exit.toNat), byte c.boltTime] ++
    be16 c.closeWait

/-- READ DOOR (R6). -/
def Part.readDoor (o : OriginatorNo) (i : SlotNo) (f : Frame) (p : Part) : Part :=
  p.answerOk o i ((p.config f.doorNo).bytes ++ p.imageBytes f.doorNo)

/-- How many doors of a list pass a test. -/
def countDoors (ds : List DoorNo) (test : DoorNo → Bool) : Byte := byte (ds.filter test).length

/-- READ GROUP (R24). -/
def Part.readGroup (o : OriginatorNo) (i : SlotNo) (f : Frame) (p : Part) : Part :=
  let g : GroupNo := Fin.ofNat 32 (f.param 0)
  let ds := p.groupMembers g
  let r := p.group g
  p.answerOk o i
    ([boolByte r.night, byte r.lastResult.code] ++ sweepField r.resultSweep ++
      [byte ds.length, countDoors ds fun d => (p.config d).withdrawn, countDoors ds fun d => (p.image d).claim.isSome,
        countDoors ds fun d => p.inCatchUp d, countDoors ds fun d => p.imageState d = .suspect])

/-- A source byte (R200). -/
def sourceByte : Option Source → Byte
  | none => 0xFF#8
  | some (.entry n) => byte n
  | some (.slot o i) => byte (0x80 + 2 * o.val + i.val)

/-- The kind of a request (R200). -/
def LineCmd.kindByte (c : LineCmd) : Byte :=
  match c.function with
  | .poll => 1#8
  | .drive => 2#8
  | .holder => 3#8
  | .fireBroadcast => 0#8

/-- A request of a transmit queue (R200). -/
def LineRequest.bytes (r : LineRequest) : List Byte :=
  [r.cmd.kindByte, byte r.door] ++ r.cmd.argument ++ [sourceByte r.source, boolByte r.inFlight]

/-- A motion entry (R200). -/
def MotionEntry.bytes (m : MotionEntry) (now : Time) : List Byte :=
  [byte m.door, byte m.direction.code, boolByte m.wait] ++ be16 ((m.deadline - now) / Config.tenthTicks) ++ [sourceByte m.source]

/-- READ LINE's results (R54, R200); an empty fault capture record is its state alone (log 22). -/
def Line.bytes (x : Line) (now : Time) : List Byte :=
  [byte x.state.code, byte x.conflicts, byte x.queuedSends, byte ((x.broadcast.map (·.sends)).getD 0), byte x.queue.length] ++
    x.queue.flatMap LineRequest.bytes ++ [byte x.held.length, byte x.motions.length] ++
    (x.motions.flatMap fun m => m.bytes now) ++ [byte x.cursor] ++
    match x.fault with
    | none => [0#8]
    | some r => 1#8 :: r.bytes

/-- READ LINE (R54). -/
def Part.readLine (o : OriginatorNo) (i : SlotNo) (f : Frame) (p : Part) : Part :=
  p.answerOk o i ((p.line (f.lineNo 0)).bytes p.now)

/-- A failure-list entry (R200). -/
def Failure.bytes (x : Failure) : List Byte := [byte x.door, byte x.outcome.code, optByte x.step, byte x.attempt]

/-- A report with one page of its failure list (R103, R200). -/
def reportBytes (page : Nat) : Option SweepReport → List Byte
  | none => [0#8]
  | some r =>
    [1#8] ++ sweepField r.number ++ [optByte (r.plan.map (·.val))] ++ minuteField r.startMinute ++ endMinuteField r.endMinute ++
      [byte r.status.code] ++ (r.counts.toList.flatMap be16) ++
      [byte r.overflow, optByte (r.suspension.map fun x => x.1.val), optByte (r.suspension.map (·.2)), byte r.failures.length] ++
      ((r.failures.drop (8 * page)).take 8).flatMap Failure.bytes

/-- READ SWEEP REPORT (R103). -/
def Part.readSweepReport (o : OriginatorNo) (i : SlotNo) (f : Frame) (p : Part) : Part :=
  p.answerOk o i (reportBytes (f.param 1) (if f.param 0 = 0 then p.engine.planReport else p.engine.catchUpReport))

/-- READ CATCH-UP LIST (R123). -/
def Part.readCatchUpList (o : OriginatorNo) (i : SlotNo) (f : Frame) (p : Part) : Part :=
  let page := (p.catchUp.drop (16 * f.param 0)).take 16
  p.answerOk o i ([byte p.catchUp.length, byte page.length] ++ page.map fun d : DoorNo => byte d)

/-- An exception's door set (R116). -/
def DoorSet.bytes : DoorSet → List Byte
  | .group g => [1#8, byte g]
  | .list ds => [2#8, byte ds.length] ++ ds.map fun d : DoorNo => byte d

/-- READ EXCEPTION (R116). -/
def Part.readException (o : OriginatorNo) (i : SlotNo) (f : Frame) (p : Part) : Part :=
  let x : ExceptionNo := Fin.ofNat 16 (f.param 0)
  match p.exceptions[x] with
  | none => p.answerOk o i [0#8]
  | some e =>
    p.answerOk o i
      ([1#8, byte e.owner] ++ be16 e.expiry ++ be16 e.created ++ e.doors.bytes ++ [byte (p.claimedBy x).length] ++
        be16 (forwardDistance p.clock.minute e.expiry))

/-- A plan step's five fields (11.2). -/
def PlanStep.bytes (s : PlanStep) : List Byte :=
  [byte s.group, byte s.action.code, boolByte s.strict, byte s.retries, boolByte s.overlap]

/-- READ PLAN (R137). -/
def Part.readPlan (o : OriginatorNo) (i : SlotNo) (f : Frame) (p : Part) : Part :=
  let k : PlanNo := Fin.ofNat 8 (f.param 1)
  let plan := if f.param 0 = 0 then p.banks.staged[k] else p.banks.active[k]
  p.answerOk o i ([boolByte p.banks.commitPending, byte plan.length] ++ plan.flatMap PlanStep.bytes)

/-- The clock in a response: state, minute and second, UNSET while the clock is unset (R199). -/
def Part.clockBytes (p : Part) : List Byte :=
  [boolByte p.clock.set] ++ minuteField p.minute ++ [if p.clock.set then byte p.clock.second else 0xFF#8]

/-- The pending-start slot (R132); an empty one is its state alone (log 22). -/
def pendingBytes : Option PendingStart → List Byte
  | none => [0#8]
  | some s => 1#8 :: s.bytes

/-- READ SCHEDULE (R132). -/
def Part.readSchedule (o : OriginatorNo) (i : SlotNo) (f : Frame) (p : Part) : Part :=
  let e := p.schedule[(Fin.ofNat 16 (f.param 0) : Fin 16)]
  p.answerOk o i
    ([boolByte e.enabled] ++ be16 e.minute ++ [byte e.plan, byte e.repetition.code] ++ p.clockBytes ++
      pendingBytes p.engine.pendingStart)

/-- The sweep kind (11.4). -/
def Part.sweepKindCode (p : Part) : Nat :=
  match p.engine.ctx with
  | none => 0
  | some c =>
    match c.kind with
    | .plan _ _ _ => 1
    | .catchUp => 2

/-- READ STATUS's results (R155, R192). -/
def Part.statusBytes (p : Part) : List Byte :=
  [byte p.uplink.restartCause.code, boolByte p.uplink.requestedFlag] ++ p.clockBytes ++
    [byte p.engineState.code, byte p.sweepKindCode] ++ be16 p.engine.counter ++
    [byte (fireInputCode p.fire.filtered), boolByte p.fire.latch, byte p.fire.releasePending.length, byte p.catchUp.length,
      boolByte p.notices.urgentOverflow, boolByte p.notices.faultOverflow, boolByte p.notices.stateOverflow]

/-- READ STATUS (R192). -/
def Part.readStatus (o : OriginatorNo) (i : SlotNo) (_ : Frame) (p : Part) : Part := p.answerOk o i p.statusBytes

/-- A filled sense record (R106). -/
def SenseRecord.bytes (r : SenseRecord) : List Byte :=
  [byte r.completion.code, r.request, boolByte r.door.isSome, optByte (r.door.map (·.val)), optByte r.detail]

/-- SENSE (R106). -/
def Part.senseRequest (o : OriginatorNo) (i : SlotNo) (_ : Frame) (p : Part) : Part :=
  match p.uplink.senses[o] with
  | none => p.answer o i .none [] none
  | some r => (p.setSense o none).answerOk o i r.bytes

/-- READ_DOOR. -/
def execReadDoor (s : State) : Host.Outcome State Fault Refusal := act (fun p => p.decide .readDoor Part.readDoor) s

/-- READ_GROUP. -/
def execReadGroup (s : State) : Host.Outcome State Fault Refusal := act (fun p => p.decide .readGroup Part.readGroup) s

/-- READ_LINE. -/
def execReadLine (s : State) : Host.Outcome State Fault Refusal := act (fun p => p.decide .readLine Part.readLine) s

/-- READ_SWEEP_REPORT. -/
def execReadSweepReport (s : State) : Host.Outcome State Fault Refusal :=
  act (fun p => p.decide .readSweepReport Part.readSweepReport) s

/-- READ_CATCH_UP_LIST. -/
def execReadCatchUpList (s : State) : Host.Outcome State Fault Refusal :=
  act (fun p => p.decide .readCatchUpList Part.readCatchUpList) s

/-- READ_EXCEPTION. -/
def execReadException (s : State) : Host.Outcome State Fault Refusal := act (fun p => p.decide .readException Part.readException) s

/-- READ_PLAN. -/
def execReadPlan (s : State) : Host.Outcome State Fault Refusal := act (fun p => p.decide .readPlan Part.readPlan) s

/-- READ_SCHEDULE. -/
def execReadSchedule (s : State) : Host.Outcome State Fault Refusal := act (fun p => p.decide .readSchedule Part.readSchedule) s

/-- READ_STATUS. -/
def execReadStatus (s : State) : Host.Outcome State Fault Refusal := act (fun p => p.decide .readStatus Part.readStatus) s

/-- SENSE. -/
def execSense (s : State) : Host.Outcome State Fault Refusal := act (fun p => p.decide .sense Part.senseRequest) s

end Sys2Proof.Machine
end

