-- ==== Sys2Proof/Machine/Restarts.lean ====
section
/-! DEFINITION. Power, the reset input and the requested restart (R25, R26, R55, R56, R85, R86, R104, R117, R118, R124, R138, R139,
R153, R154, R175, R180, R185, R194, R195, R196), and the decision of RESTART PART (R193). -/
namespace Sys2Proof.Machine

/-- Queue PART STARTED as the restart cause record holds it (R180, R194). -/
def Part.announce (p : Part) : Part := p.raise (.partStarted p.uplink.restartCause p.uplink.requestedFlag)

/-- The power-up or reset restart of a part, its transmitters then choosing if the part is not held (R195). -/
def Part.restart (reset : Bool) (now : Time) (raw : FireInput) (cause : RestartCause) (flag : Bool) : Part :=
  let q := (Part.blank reset now raw cause flag).announce
  if q.working then q.settle 0 else q

/-- Power becomes stable (R195; log 9). -/
def Part.powerUp (p : Part) : Part := .restart p.resetAsserted p.now p.fire.raw .power false

/-- The reset input is asserted: the part is held, a frame being sent stops where it stands (R195). -/
def Part.assertReset (p : Part) : Part := { p with resetAsserted := true, uplink := { p.uplink with sending := none } }

/-- The reset input is released: the reset restart is taken where there is power (R194, R195; log 9). -/
def Part.releaseReset (p : Part) : Part :=
  if p.powered then .restart false p.now p.fire.raw .resetInput p.uplink.requestedFlag else { p with resetAsserted := false }

/-- Power fails: the part holds nothing until power is stable again (R195; log 8). -/
def Part.losePower (p : Part) : Part :=
  let q := Part.blank p.resetAsserted p.now p.fire.raw .power false
  { q with powered := false, fire := { q.fire with candidate := none } }

/-- POWER_UP. -/
def execPowerUp (s : State) : Host.Outcome State Fault Refusal := actAlways Part.powerUp s

/-- RESET_INPUT_ASSERTED. -/
def execResetInputAsserted (s : State) : Host.Outcome State Fault Refusal := actAlways Part.assertReset s

/-- RESET_INPUT_RELEASED. -/
def execResetInputReleased (s : State) : Host.Outcome State Fault Refusal := actAlways Part.releaseReset s

/-- POWER_FAILS. -/
def execPowerFails (s : State) : Host.Outcome State Fault Refusal := actAlways Part.losePower s

/-! ## The requested restart (R196) -/

/-- A line after the requested restart (R56; log 15). -/
def Line.restarted (x : Line) : Line where
  state := if x.state = .quiet then .quiet else .active
  queue := []
  held := []
  wire := x.wire.downed false
  motions := []
  cursor := 0
  queuedSends := 0
  conflicts := 0
  broadcast := x.broadcast
  probeTimer := none
  probeDue := false
  probeWaiters := []
  fault := none

/-- A report that was IN_PROGRESS takes INTERRUPTED (R104). -/
def SweepReport.interrupted (r : SweepReport) (minute : Option Nat) : SweepReport :=
  if r.status = .inProgress then r.closed .interrupted minute else r

/-- The sweep engine after the requested restart (R86, R104). -/
def Engine.restarted (e : Engine) (minute : Option Nat) : Engine where
  ctx := none
  workSet := Vector.replicate 16 none
  counter := e.counter
  pendingStart := none
  planReport := e.planReport.map fun r => r.interrupted minute
  catchUpReport := e.catchUpReport.map fun r => r.interrupted minute

/-- The fire release unit after the requested restart: all kept but the filter's timing (R154; log 10). -/
def FireUnit.restarted (f : FireUnit) (now : Time) : FireUnit :=
  { f with candidate := if f.raw = f.filtered then none else some (f.raw, now) }

/-- The uplink and the handler after the requested restart (R194, R196). -/
def Uplink.restarted (u : Uplink) : Uplink where
  assembler := .hunting
  lastByte := u.lastByte
  originators := u.originators
  slots := Vector.replicate 8 .empty
  refusals := Vector.replicate 4 none
  senses := Vector.replicate 4 none
  waiting := []
  sending := none
  restartPending := false
  restartCause := .requested
  requestedFlag := true

/-- What the requested restart leaves, before PART STARTED and the return to IDLE. -/
def Part.restarted (p : Part) : Part :=
  { p with
    doors := p.doors.map fun r => { r with image := r.image.cleared r.config.holderFitted }
    lines := p.lines.map Line.restarted
    engine := p.engine.restarted p.minute
    fire := p.fire.restarted p.now
    watches := Vector.replicate 8 none
    notices := NoticeQueues.blank
    uplink := p.uplink.restarted }

/-- The requested restart: the blocks, PART STARTED, then the engine's return to IDLE (R86, R139, R180, R196; log 29). -/
def Part.requestedRestart (p : Part) : Part := p.restarted.announce.returnToIdle.engineRun

/-- RESTART PART's own action (R193). -/
def Part.markRestart (o : OriginatorNo) (i : SlotNo) (_ : Frame) (p : Part) : Part :=
  let q := p.answerOk o i []
  { q with uplink := { q.uplink with restartPending := true } }

/-- RESTART_PART. -/
def execRestartPart (s : State) : Host.Outcome State Fault Refusal := act (fun p => p.decide .restartPart Part.markRestart) s

end Sys2Proof.Machine
end

