-- ==== Sys2Proof/Machine/SweepRequests.lean ====
section
/-! DEFINITION. The sweep requests and the sweep engine's timers (R60, R70, R90, R94 to R96). -/
namespace Sys2Proof.Machine

/-- START SWEEP (R60, R61). -/
def Part.startSweep (o : OriginatorNo) (i : SlotNo) (f : Frame) (p : Part) : Part :=
  let plan : PlanNo := Fin.ofNat 8 (f.param 0)
  if p.fire.latch then p.refuse o i .fireHold
  else if p.engine.ctx.isSome then p.refuse o i .busy
  else if p.banks.active[plan].isEmpty then p.refuse o i .range
  else ((p.startPlan plan).engineRun).answerOk o i (be16 (nextSweepNumber p.engine.counter))

/-- CONTINUE SWEEP (R90). -/
def Part.continueRequest (o : OriginatorNo) (i : SlotNo) (f : Frame) (p : Part) : Part :=
  if p.engineState = .suspended then (p.continueSweep (f.param 0 = 2)).answerOk o i [] else p.refuse o i .state

/-- ABANDON SWEEP (R95). A step that only the dropped redo held completes at once (R93; log 56). -/
def Part.abandonRequest (o : OriginatorNo) (i : SlotNo) (_ : Frame) (p : Part) : Part :=
  if p.engineState = .running ∨ p.engineState = .suspended then
    ((p.editCtx fun c => c.drained .abandoned).engineRun).answerOk o i []
  else p.refuse o i .state

/-- ABORT SWEEP (R96). -/
def Part.abortRequest (o : OriginatorNo) (i : SlotNo) (_ : Frame) (p : Part) : Part :=
  if p.engineState = .idle then p.refuse o i .state else (p.abortSweep).answerOk o i []

/-- START_SWEEP. -/
def execStartSweep (s : State) : Host.Outcome State Fault Refusal := act (fun p => p.decide .startSweep Part.startSweep) s

/-- CONTINUE_SWEEP. -/
def execContinueSweep (s : State) : Host.Outcome State Fault Refusal := act (fun p => p.decide .continueSweep Part.continueRequest) s

/-- ABANDON_SWEEP. -/
def execAbandonSweep (s : State) : Host.Outcome State Fault Refusal := act (fun p => p.decide .abandonSweep Part.abandonRequest) s

/-- ABORT_SWEEP. -/
def execAbortSweep (s : State) : Host.Outcome State Fault Refusal := act (fun p => p.decide .abortSweep Part.abortRequest) s

/-- The close wait of a door's entry passes (R70): HELD_OPEN. -/
def Part.closeWaitPasses (d : DoorNo) (p : Part) : Part :=
  match p.entryOf d with
  | none => p
  | some (n, e) =>
    match e.deadline with
    | none => p
    | some t => if e.waiting then (((p.reach t).endEntry n .heldOpen)).engineRun else p

/-- CLOSE_WAIT_DEADLINE. -/
def execCloseWaitDeadline (door : DoorNo) (s : State) : Host.Outcome State Fault Refusal := act (Part.closeWaitPasses door) s

/-- The suspend timer expires (R94; log 24). -/
def Part.suspendTimesOut (p : Part) : Part :=
  match p.engine.ctx with
  | none => p
  | some c =>
    match c.suspendTimer, c.suspension, c.kind with
    | some t, some (d, k), .plan _ number _ => ((p.reach t).continueSweep false).raise (.suspendTimedOut number d k)
    | _, _, _ => p

/-- SUSPEND_TIMER_EXPIRY. -/
def execSuspendTimerExpiry (s : State) : Host.Outcome State Fault Refusal := act Part.suspendTimesOut s

end Sys2Proof.Machine
end

