-- ==== Sys2Proof/Machine/UplinkEvents.lean ====
section
/-! DEFINITION. The uplink (10.1, 10.3): the receive assembler, the placing of a frame, the end of an outbound frame, and the decision
of a frame that fails check 1 or 2. -/
namespace Sys2Proof.Machine

/-- The BUSY response of a frame that finds both slots occupied (R188). -/
def Part.holdBusy (p : Part) (o : OriginatorNo) (f : Frame) : Part :=
  let q := p.noteSense o f .busy none
  { q with
    uplink :=
      { q.uplink with
        refusals := q.uplink.refusals.set o (some (f.respond o .busy []))
        waiting := q.uplink.waiting ++ [.holder o] } }

/-- Route and place an assembled frame (R182, R186). -/
def Part.placeFrame (p : Part) (f : Frame) : Part :=
  if h : f.originator.toNat < 4 then
    let o : OriginatorNo := ⟨f.originator.toNat, h⟩
    if p.slot o 0 = .empty then p.setSlot o 0 (.waiting f p.now)
    else if p.slot o 1 = .empty then p.setSlot o 1 (.waiting f p.now)
    else if p.uplink.refusals[o] = none then p.holdBusy o f
    else p
  else p

/-- Write the assembler. -/
def Part.setAssembler (p : Part) (a : Assembler) : Part := { p with uplink := { p.uplink with assembler := a } }

/-- The bytes of a frame have been taken whole: it is placed if its length and CRC hold, and discarded otherwise (R181). -/
def Part.takeFrame (p : Part) (bytes : List Byte) : Part :=
  match frameOfBytes bytes with
  | some f => (p.setAssembler .hunting).placeFrame f
  | none => p.setAssembler .hunting

/-- The end of a character is reached: time moves there and it is the time of the last byte (R181; log 27). -/
def Part.stampByte (p : Part) (t : Time) : Part :=
  let q := p.reach t
  { q with uplink := { q.uplink with lastByte := q.now } }

/-- A whole inbound frame is taken (R181; log 26). -/
def Part.receiveFrame (p : Part) (bytes : List Byte) : Part :=
  (p.stampByte (p.uplink.lastByte + Config.uplinkCharTicks * bytes.length)).takeFrame bytes

/-- HUNTING examines a character (R181). -/
def Part.examine (p : Part) (b : Byte) : Part := p.setAssembler (if b = 0xC3#8 then .assembling [] else .hunting)

/-- ASSEMBLING collects a character (R181). -/
def Part.collect (p : Part) (got : List Byte) (b : Byte) : Part :=
  let all := got ++ [b]
  let len := (all.headD 0#8).toNat
  if len < 5 ∨ 240 < len then p.setAssembler .hunting
  else if all.length = len + 3 then p.takeFrame (0xC3#8 :: all)
  else p.setAssembler (.assembling all)

/-- A character arrives at the assembler (R181). -/
def Part.receiveChar (p : Part) (b : Byte) (stopAtMark : Bool) (pause : Time) : Part :=
  let q := p.stampByte (p.uplink.lastByte + pause + Config.uplinkCharTicks)
  match p.uplink.assembler with
  | .hunting => q.examine b
  | .assembling got =>
    if Config.uplinkGap < pause then q.examine b
    else if !stopAtMark then q.setAssembler .hunting
    else q.collect got b

/-- FRAME_ASSEMBLED. -/
def execFrameAssembled (bytes : List Byte) (s : State) : Host.Outcome State Fault Refusal := act (fun p => p.receiveFrame bytes) s

/-- UPLINK_CHARACTER_RECEIVED. -/
def execUplinkCharacterReceived (byte : Byte) (stopAtMark : Bool) (pause : Time) (s : State) : Host.Outcome State Fault Refusal :=
  act (fun p => p.receiveChar byte stopAtMark pause) s

/-! ## The end of an outbound frame (R179) -/

/-- Free the slot or the holder of a response that has been sent (R179). -/
def Part.freePlace (p : Part) (x : ResponsePlace) : Part :=
  match x with
  | .slot o i => p.setSlot o i .empty
  | .holder o => { p with uplink := { p.uplink with refusals := p.uplink.refusals.set o none } }

/-- Whether a response is the OK of the RESTART PART that marked a restart pending (R193). -/
def Response.restarts (r : Response) : Bool := r.code = Code.restartPart.value && r.completion = .ok

/-- The sending of a frame ends (R179); that of the OK to RESTART PART is followed by the requested restart (R193). -/
def Part.frameSent (p : Part) : Part :=
  match p.uplink.sending with
  | none => p
  | some x =>
    let q := p.reach (x.began + Config.uplinkCharTicks * x.frame.length)
    let r := { q with uplink := { q.uplink with sending := none } }
    match x with
    | .notice _ _ _ => r
    | .response place answer _ =>
      let e := r.freePlace place
      if answer.restarts ∧ p.uplink.restartPending then e.requestedRestart else e

/-- UPLINK_FRAME_SENT. -/
def execUplinkFrameSent (s : State) : Host.Outcome State Fault Refusal := act Part.frameSent s

/-! ## Frames that fail checks 1 and 2 -/

/-- The next WAITING frame is answered MALFORMED or UNKNOWN_REQUEST (R190, checks 1 and 2). -/
def Part.decideUnknown (p : Part) : Part :=
  match p.nextFrame with
  | none => p
  | some (o, i, f) =>
    match f.verdict with
    | .error c => p.refuse o i c
    | .ok _ => p

/-- UNKNOWN_REQUEST. -/
def execUnknownRequest (s : State) : Host.Outcome State Fault Refusal := act Part.decideUnknown s

end Sys2Proof.Machine
end

