-- ==== Sys2Proof/Machine/Watches.lean ====
section
/-! DEFINITION. The watch table's requests (R170, R174). -/
namespace Sys2Proof.Machine

/-- The lowest EMPTY watch slot (R170). -/
def Part.freeWatch (p : Part) : Option (Fin 8) := (List.finRange 8).find? fun k => (p.watches[k]).isNone

/-- Write a watch slot. -/
def Part.setWatch (p : Part) (k : Fin 8) (w : Option Watch) : Part := { p with watches := p.watches.set k w }

/-- A target that is an unconfigured door (R170). -/
def Part.targetMissing (p : Part) : WatchTarget → Bool
  | .door d => !(p.config d).configured
  | .group _ => false

/-- ARM WATCH (R170). -/
def Part.armWatch (o : OriginatorNo) (i : SlotNo) (f : Frame) (p : Part) : Part :=
  if p.targetMissing f.watchTarget then p.refuse o i .notConfigured
  else
    match p.freeWatch with
    | none => p.refuse o i .noSlot
    | some k =>
      (p.setWatch k (some { owner := o, target := f.watchTarget, condition := f.watchCondition })).answerOk o i [byte k]

/-- DISARM WATCH (R174). -/
def Part.disarmWatch (o : OriginatorNo) (i : SlotNo) (f : Frame) (p : Part) : Part :=
  let k : Fin 8 := Fin.ofNat 8 (f.param 0)
  match p.watches[k] with
  | none => p.refuse o i .state
  | some w => if !p.mayAct o w.owner then p.refuse o i .authority else (p.setWatch k none).answerOk o i []

/-- ARM_WATCH. -/
def execArmWatch (s : State) : Host.Outcome State Fault Refusal := act (fun p => p.decide .armWatch Part.armWatch) s

/-- DISARM_WATCH. -/
def execDisarmWatch (s : State) : Host.Outcome State Fault Refusal := act (fun p => p.decide .disarmWatch Part.disarmWatch) s

end Sys2Proof.Machine
end

