-- ==== Sys2Proof/Machine/Dispatch.lean ====
section
/-! DEFINITION. The commands' meanings, one arm per constructor. -/
namespace Sys2Proof.Machine

/-- The effect of a command on everything but the queue. -/
def exec (i : Instr) (s : State) : Host.Outcome State Fault Refusal :=
  match i with
  | .powerUp => Sys2Proof.Machine.execPowerUp s
  | .resetInputAsserted => Sys2Proof.Machine.execResetInputAsserted s
  | .resetInputReleased => Sys2Proof.Machine.execResetInputReleased s
  | .frameAssembled bytes => Sys2Proof.Machine.execFrameAssembled bytes s
  | .unknownRequest => Sys2Proof.Machine.execUnknownRequest s
  | .uplinkFrameSent => Sys2Proof.Machine.execUplinkFrameSent s
  | .loadDoor => Sys2Proof.Machine.execLoadDoor s
  | .withdrawDoor => Sys2Proof.Machine.execWithdrawDoor s
  | .restoreDoor => Sys2Proof.Machine.execRestoreDoor s
  | .loadPlanStep => Sys2Proof.Machine.execLoadPlanStep s
  | .clearStagedPlan => Sys2Proof.Machine.execClearStagedPlan s
  | .commitPlans => Sys2Proof.Machine.execCommitPlans s
  | .loadScheduleEntry => Sys2Proof.Machine.execLoadScheduleEntry s
  | .setOriginator => Sys2Proof.Machine.execSetOriginator s
  | .setClock => Sys2Proof.Machine.execSetClock s
  | .startSweep => Sys2Proof.Machine.execStartSweep s
  | .continueSweep => Sys2Proof.Machine.execContinueSweep s
  | .abandonSweep => Sys2Proof.Machine.execAbandonSweep s
  | .abortSweep => Sys2Proof.Machine.execAbortSweep s
  | .createException => Sys2Proof.Machine.execCreateException s
  | .extendException => Sys2Proof.Machine.execExtendException s
  | .endException => Sys2Proof.Machine.execEndException s
  | .armWatch => Sys2Proof.Machine.execArmWatch s
  | .disarmWatch => Sys2Proof.Machine.execDisarmWatch s
  | .fireRestore => Sys2Proof.Machine.execFireRestore s
  | .clearLineFault => Sys2Proof.Machine.execClearLineFault s
  | .quietLine order => Sys2Proof.Machine.execQuietLine order s
  | .resumeLine => Sys2Proof.Machine.execResumeLine s
  | .readDoor => Sys2Proof.Machine.execReadDoor s
  | .readGroup => Sys2Proof.Machine.execReadGroup s
  | .readLine => Sys2Proof.Machine.execReadLine s
  | .readSweepReport => Sys2Proof.Machine.execReadSweepReport s
  | .readCatchUpList => Sys2Proof.Machine.execReadCatchUpList s
  | .readException => Sys2Proof.Machine.execReadException s
  | .readPlan => Sys2Proof.Machine.execReadPlan s
  | .readSchedule => Sys2Proof.Machine.execReadSchedule s
  | .readStatus => Sys2Proof.Machine.execReadStatus s
  | .sense => Sys2Proof.Machine.execSense s
  | .restartPart => Sys2Proof.Machine.execRestartPart s
  | .throwBolt => Sys2Proof.Machine.execThrowBolt s
  | .retractBolt => Sys2Proof.Machine.execRetractBolt s
  | .pulse => Sys2Proof.Machine.execPulse s
  | .holderEngage => Sys2Proof.Machine.execHolderEngage s
  | .holderRelease => Sys2Proof.Machine.execHolderRelease s
  | .pollNow => Sys2Proof.Machine.execPollNow s
  | .lineFrameSent line readback => Sys2Proof.Machine.execLineFrameSent line readback s
  | .lineReplyReceived line chars order => Sys2Proof.Machine.execLineReplyReceived line chars order s
  | .replyWindowClosed line order => Sys2Proof.Machine.execReplyWindowClosed line order s
  | .receiverMark2ms line order => Sys2Proof.Machine.execReceiverMark2ms line order s
  | .fireBroadcastSent line readback order => Sys2Proof.Machine.execFireBroadcastSent line readback order s
  | .overloadReport line order => Sys2Proof.Machine.execOverloadReport line order s
  | .confirmPollDue line => Sys2Proof.Machine.execConfirmPollDue line s
  | .motionDeadline door => Sys2Proof.Machine.execMotionDeadline door s
  | .probeTimerExpiry line => Sys2Proof.Machine.execProbeTimerExpiry line s
  | .fireInputChange reading => Sys2Proof.Machine.execFireInputChange reading s
  | .filteredInputChange order => Sys2Proof.Machine.execFilteredInputChange order s
  | .repeatTimerExpiry => Sys2Proof.Machine.execRepeatTimerExpiry s
  | .incompleteTimerExpiry => Sys2Proof.Machine.execIncompleteTimerExpiry s
  | .clockAdvance order => Sys2Proof.Machine.execClockAdvance order s
  | .closeWaitDeadline door => Sys2Proof.Machine.execCloseWaitDeadline door s
  | .suspendTimerExpiry => Sys2Proof.Machine.execSuspendTimerExpiry s
  | .uplinkCharacterReceived byte stopAtMark pause => Sys2Proof.Machine.execUplinkCharacterReceived byte stopAtMark pause s
  | .powerFails => Sys2Proof.Machine.execPowerFails s
  | .timebaseSecond => Sys2Proof.Machine.execTimebaseSecond s

end Sys2Proof.Machine
end

