-- ==== Sys2Proof/Safety.lean ====
section
/-! DEFINITION. What the statements speak of: a command that decides a frame, a built response, and the invariants of the part. -/
namespace Sys2Proof.Machine

/-- The next frame the handler takes is a frame of code `c` in slot `i` of originator `o`, arrived at `a`, that passes checks 1 and 2
of R190. -/
structure Asks (s : State) (c : Code) (o : OriginatorNo) (i : SlotNo) (f : Frame) (a : Time) : Prop where
  working : s.part.working = true
  next : s.part.nextFrame = some (o, i, f)
  waits : s.part.slot o i = .waiting f a
  verdict : f.verdict = .ok c

/-- The frame also passes checks 3 and 4 of R190. -/
structure Decides (s : State) (c : Code) (o : OriginatorNo) (i : SlotNo) (f : Frame) (a : Time) : Prop extends
  Asks s c o i f a where
  authority : s.part.holds o c.authority = true
  range : c.inRange f = true

/-! ## What the free transmitters may do after a command (R38, R39, R178) -/

/-- A line after its arbiter's choice: a busy line is as it was; a free one may have put a frame on the wire, with the marks, the
count and the cursor that such a choice keeps. -/
structure Line.Chosen (x y : Line) : Prop where
  busy : x.wire ≠ .free → y = x
  rest :
    { y with
      wire := x.wire, queue := x.queue, cursor := x.cursor, queuedSends := x.queuedSends, probeTimer := x.probeTimer
      probeDue := x.probeDue, probeWaiters := x.probeWaiters } = x
  queue : (y.queue.map fun r => { r with inFlight := false }) = x.queue.map fun r => { r with inFlight := false }
  probe : x.state ≠ .faulted → y.probeTimer = x.probeTimer ∧ y.probeDue = x.probeDue ∧ y.probeWaiters = x.probeWaiters

/-- A request slot after the choices: a door command may be on its line now (R160), and a RESUME LINE may be answered OK as its
probe is sent (R50). -/
def Slot.Chosen (x y : Slot) (o : OriginatorNo) : Prop :=
  y = x ∨ (∃ f t g, x = .inProgress f t (some g) ∧ y = .inProgress f t (some .onLine)) ∨
    ∃ f t, x = .inProgress f t none ∧ y = .answered f t (f.respond o .ok [])

/-- The notice queues after the choices: as they were, or one notice has left as its sending begins, with its queue's overflow
flag (R177, R178). -/
def NoticeQueues.Chosen (x y : NoticeQueues) : Prop :=
  y = x ∨ y = { x with urgent := x.urgent.tail, urgentOverflow := false } ∨
    y = { x with fault := x.fault.tail, faultOverflow := false } ∨ y = { x with state := x.state.tail, stateOverflow := false }

/-- Everything but the lines, the uplink and the notice queues is as it was. -/
def Part.SameTables (p q : Part) : Prop := { q with lines := p.lines, uplink := p.uplink, notices := p.notices } = p

/-- A part after the choices of its free transmitters: nothing else has changed, and no response that waited is lost. -/
structure Part.Chosen (p q : Part) : Prop where
  tables : p.SameTables q
  line : ∀ l, (p.line l).Chosen (q.line l)
  slot : ∀ o i, (p.slot o i).Chosen (q.slot o i) o
  notices : p.notices.Chosen q.notices
  uplink : { q.uplink with slots := p.uplink.slots, waiting := p.uplink.waiting, sending := p.uplink.sending } = p.uplink
  sending : ∀ x, p.uplink.sending = some x → q.uplink.sending = some x
  waiting : ∀ x ∈ p.uplink.waiting, x ∈ q.uplink.waiting ∨ ∃ r t, q.uplink.sending = some (.response x r t)

/-- A command that leaves a part `p`, on which the free transmitters then choose (R38, R178; log 52): the next part is `Part.settle` of
it, which orders the responses built beyond those that waited before the command; `part` says what these choices can change. The queue
of commands is as it was. -/
structure Reaches (s : State) (p : Part) (t : State) : Prop where
  queue : t.pending = s.pending
  settled : t.part = p.settle s.part.uplink.waiting.length
  part : p.Chosen t.part

/-- A command completes: `exec` answers a next state, whose part is `p` with the choices of the free transmitters made. -/
def Completes (c : Instr) (s : State) (p : Part) : Prop := ∃ t, exec c s = .next t ∧ Reaches s p t

/-- A part with the response of a frame built (R105, R187, R191): its slot is ANSWERED, the response waits behind those built
before it, and for a code other than OK and COMMIT_PENDING, and a request other than SENSE, the originator's sense record is
written. -/
def Part.withAnswer (p : Part) (o : OriginatorNo) (i : SlotNo) (f : Frame) (a : Time) (c : Completion) (results : List Byte)
    (detail : Option Nat) : Part :=
  { p with
    uplink :=
      { p.uplink with
        slots := p.uplink.slots.set (slotPlace o i)
          (.answered f a
            { originator := o, tag := f.tag, code := f.code, door := f.door, completion := c, results := results })
        senses :=
          if c = .ok ∨ c = .commitPending ∨ (f.kind = 0x01#8 ∧ f.code = 0x39#8) then p.uplink.senses
          else p.uplink.senses.set o (some { completion := c, request := f.code, door := f.namedDoor, detail := detail })
        waiting := p.uplink.waiting ++ [.slot o i] } }

/-- The command that decides a frame of a code; QUIET LINE takes the order of the blocks. -/
def Code.command (c : Code) (order : List Block) : Instr :=
  match c with
  | .loadDoor => .loadDoor
  | .withdrawDoor => .withdrawDoor
  | .restoreDoor => .restoreDoor
  | .loadPlanStep => .loadPlanStep
  | .clearStagedPlan => .clearStagedPlan
  | .commitPlans => .commitPlans
  | .loadScheduleEntry => .loadScheduleEntry
  | .setOriginator => .setOriginator
  | .setClock => .setClock
  | .startSweep => .startSweep
  | .continueSweep => .continueSweep
  | .abandonSweep => .abandonSweep
  | .abortSweep => .abortSweep
  | .createException => .createException
  | .extendException => .extendException
  | .endException => .endException
  | .armWatch => .armWatch
  | .disarmWatch => .disarmWatch
  | .fireRestore => .fireRestore
  | .clearLineFault => .clearLineFault
  | .quietLine => .quietLine order
  | .resumeLine => .resumeLine
  | .readDoor => .readDoor
  | .readGroup => .readGroup
  | .readLine => .readLine
  | .readSweepReport => .readSweepReport
  | .readCatchUpList => .readCatchUpList
  | .readException => .readException
  | .readPlan => .readPlan
  | .readSchedule => .readSchedule
  | .readStatus => .readStatus
  | .sense => .sense
  | .restartPart => .restartPart
  | .throwBolt => .throwBolt
  | .retractBolt => .retractBolt
  | .pulse => .pulse
  | .holderEngage => .holderEngage
  | .holderRelease => .holderRelease
  | .pollNow => .pollNow

/-! ## After a restart -/

/-- The slot holds the response built to its frame, with a completion code and results (R187, R191). -/
def Answers (t : State) (o : OriginatorNo) (i : SlotNo) (f : Frame) (a : Time) (c : Completion) (results : List Byte) : Prop :=
  t.part.slot o i =
    .answered f a { originator := o, tag := f.tag, code := f.code, door := f.door, completion := c, results := results }

/-- The door record that R1 gives for one never loaded, with the image that R25 gives. -/
def DoorRecord.NeverLoaded (r : DoorRecord) : Prop :=
  r.config =
      { configured := false, line := 0, node := 1, group := 0, fireAction := .none, holderFitted := false, holdAtRelease := false,
        nightPass := false, mask := { bolt := false, position := false, holder := false, exit := false }, boltTime := 10,
        closeWait := 60, withdrawn := false } ∧
    r.image =
      { settled := .absent, bolt := .unknown, position := .unknown, holder := .none, pulseActive := false, silence := 0,
        lastOutcome := none, claim := none }

/-- A line as power-up and the reset input leave it (R55). -/
structure Line.Fresh (x : Line) : Prop where
  state : x.state = .active
  queue : x.queue = []
  held : x.held = []
  motions : x.motions = []
  wire : x.wire = .free
  broadcast : x.broadcast = none
  cursor : x.cursor = 0
  counts : x.queuedSends = 0 ∧ x.conflicts = 0
  probe : x.probeTimer = none ∧ x.probeDue = false ∧ x.probeWaiters = []
  fault : x.fault = none

/-- What power-up and the reset input leave of every table, list, queue and record, PART STARTED being sent (R25, R55, R85, R104,
R117, R124, R138, R153, R175, R180, R185, R194, R195). -/
structure Part.Fresh (p : Part) (cause : RestartCause) (flag : Bool) : Prop where
  doors : ∀ d, (p.door d).NeverLoaded
  groups : ∀ g, (p.group g).night = false ∧ (p.group g).lastResult = .none ∧ (p.group g).resultSweep = none
  lines : ∀ l, (p.line l).Fresh
  engine : p.engine.ctx = none ∧ (∀ n, p.entry n = none) ∧ p.engine.pendingStart = none ∧ p.engine.counter = 0
  reports : p.engine.planReport = none ∧ p.engine.catchUpReport = none
  exceptions : ∀ x : ExceptionNo, p.exceptions[x] = none
  catchUp : p.catchUp = []
  clock : p.clock = { set := false, minute := 0, second := 0 }
  schedule : ∀ k : Fin 16, p.schedule[k] = { enabled := false, minute := 0, plan := 0, repetition := .weekly }
  banks : (∀ k : PlanNo, p.banks.staged[k] = [] ∧ p.banks.active[k] = []) ∧ p.banks.commitPending = false
  latch : p.fire.latch = false ∧ p.fire.filtered = .normal ∧ p.fire.latchTime = none
  releasePending : p.fire.releasePending = [] ∧ p.fire.confirmed = 0 ∧ p.fire.removed = 0
  fireTimers : p.fire.repeatTimer = none ∧ p.fire.incompleteTimer = none
  watches : ∀ k : Fin 8, p.watches[k] = none
  notices : p.notices = { urgent := [], fault := [], state := [], urgentOverflow := false, faultOverflow := false, stateOverflow := false }
  sending : p.uplink.sending = some (.notice (.partStarted cause flag) false p.now)
  assembler : p.uplink.assembler = .hunting
  originators :
    p.originator 0 = { enabled := true, authority := .administer } ∧
      ∀ o, o ≠ 0 → p.originator o = { enabled := false, authority := .view }
  slots : ∀ o i, p.slot o i = .empty
  holders : ∀ o : OriginatorNo, p.uplink.refusals[o] = none
  senses : ∀ o : OriginatorNo, p.uplink.senses[o] = none
  waiting : p.uplink.waiting = []
  restart : p.uplink.restartPending = false ∧ p.uplink.restartCause = cause ∧ p.uplink.requestedFlag = flag

/-! ## Invariants -/

/-- The notice queues hold at most their number of notices (R176). -/
def NoticeQueues.Bounded (q : NoticeQueues) : Prop := q.urgent.length ≤ 8 ∧ q.fault.length ≤ 8 ∧ q.state.length ≤ 32

/-- The lists and counts of a line keep their ranges: at most 8 requests in the queue, which is full while sources are held (R34,
R35); at most 8 motions, with a place left for the one that a DRIVE on the wire may make (R40, R43); the counts of R32 and R39;
1 to 3 sends of a pending broadcast (R33). -/
structure Line.Bounded (x : Line) : Prop where
  queue : x.queue.length ≤ 8
  held : x.held ≠ [] → x.queue.length = 8
  motions : x.motions.length ≤ 8
  drive : ∀ t, x.wire = .transaction t → t.cmd.isDrive = true → x.motions.length < 8
  conflicts : x.conflicts ≤ 3
  queuedSends : x.queuedSends ≤ 3
  sends : ∀ b, x.broadcast = some b → 1 ≤ b.sends ∧ b.sends ≤ 3

/-- The queues, lists and counts of the lines, the notices and the images keep the ranges the spec gives them (R13, R33 to R35, R39,
R43, R176). -/
structure Part.Bounded (p : Part) : Prop where
  notices : p.notices.Bounded
  lines : ∀ l, (p.line l).Bounded
  silence : ∀ d, (p.image d).silence ≤ 3

/-- An IDLE engine has an empty work set and an empty pending-start slot (3.2, R130); while the fire latch is set the engine is IDLE
(R81); while it is clear the filtered input is NORMAL (R141), the release-pending set is empty (R146) and both fire timers are
stopped (R144, R148, R152). -/
structure Part.FireSafe (p : Part) : Prop where
  idle : p.engine.ctx = none → (∀ n, p.entry n = none) ∧ p.engine.pendingStart = none
  latched : p.fire.latch = true → p.engine.ctx = none
  clear :
    p.fire.latch = false →
      p.fire.filtered = .normal ∧ p.fire.releasePending = [] ∧ p.fire.repeatTimer = none ∧ p.fire.incompleteTimer = none

/-- The catch-up list never holds a door twice, and every door in it is configured, not withdrawn, unclaimed, not in the work set
and in a group whose night flag is set (R119); the work set never holds a door twice (R66), and no door claimed by an exception
is in it for a SECURE step (R110); a claim names an ACTIVE slot (R107). -/
structure Part.WorkSound (p : Part) : Prop where
  nodup : p.catchUp.Nodup
  listed :
    ∀ d ∈ p.catchUp,
      (p.config d).configured = true ∧ (p.config d).withdrawn = false ∧ (p.image d).claim = none ∧
        (p.group (p.config d).group).night = true ∧ ∀ n e, p.entry n = some e → e.door ≠ d
  once : ∀ m n e e', p.entry m = some e → p.entry n = some e' → e.door = e'.door → m = n
  unclaimed : ∀ n e, p.entry n = some e → e.action = .secure → (p.image e.door).claim = none
  claims : ∀ d x, (p.image d).claim = some x → ∃ e, p.exceptions[x] = some e

/-- No two configured records hold the same line and node (R1), and nodes, bolt times and close waits keep their ranges (1.1); an
originator is enabled with ADMINISTER (R184); the clock keeps its ranges, holds 0 and 0 while UNSET (R125), and no exception is ACTIVE then (R107); a plan has at most 24 steps (6.6). -/
structure Part.TablesSound (p : Part) : Prop where
  nodes :
    ∀ d d', (p.config d).configured = true → (p.config d').configured = true → (p.config d).line = (p.config d').line →
      (p.config d).node = (p.config d').node → d = d'
  ranges :
    ∀ d,
      (1 ≤ (p.config d).node ∧ (p.config d).node ≤ 60) ∧ (2 ≤ (p.config d).boltTime ∧ (p.config d).boltTime ≤ 50) ∧
        (5 ≤ (p.config d).closeWait ∧ (p.config d).closeWait ≤ 600)
  administrator : ∃ o, p.originator o = { enabled := true, authority := .administer }
  clock : p.clock.minute < 10080 ∧ p.clock.second < 60
  unset : p.clock.set = false → p.clock.minute = 0 ∧ p.clock.second = 0 ∧ ∀ x : ExceptionNo, p.exceptions[x] = none
  plans : ∀ k : PlanNo, p.banks.staged[k].length ≤ 24 ∧ p.banks.active[k].length ≤ 24

/-- A response waits for the transmitter or is being sent. -/
def Part.OnItsWay (p : Part) (x : ResponsePlace) : Prop := x ∈ p.uplink.waiting ∨ ∃ r t, p.uplink.sending = some (.response x r t)

/-- While the part works, no built response is lost: the response of every ANSWERED slot and of every occupied refusal holder waits
or is being sent (R178, R188, R191). -/
structure Part.ResponsesKept (p : Part) : Prop where
  slots : p.working = true → ∀ o i f a r, p.slot o i = .answered f a r → p.OnItsWay (.slot o i)
  holders : p.working = true → ∀ (o : OriginatorNo) r, p.uplink.refusals[o] = some r → p.OnItsWay (.holder o)

end Sys2Proof.Machine
end

