-- ==== Sys2Proof/Certificates/Slice0/Obligations.lean ====
section
/-! DEFINITION. The statements for the provers. A statement about a command says which next state `exec` answers, under hypotheses
on the state and the operands alone; `Completes c s p` says that this is the part `p` with the choices of the free transmitters made
(`NoticesAreQueuedAndSentInOrder` says which), so that everything `p` does not change is unchanged but for what those change. -/
section

open Sys2Proof Sys2Proof.Machine

/-! ## The machine -/

/-- A step takes the command at the front of the queue and runs it on the queue's rest; on an empty queue it lets one millisecond, 576
ticks, pass in a working part, which is the model's choice (log 3). -/
def Obligations.StepRunsTheFrontCommand : Prop :=
  (∀ (c : Instr) (rest : List Instr) (p : Part),
    step { part := p, pending := c :: rest } = exec c { part := p, pending := rest }) ∧
  ∀ p : Part,
    step { part := p, pending := [] } = .next { part := { p with now := if p.working then p.now + 576 else p.now }, pending := [] }

/-- Every command answers a next state and leaves the queue as it is; on a working part every command but power, the reset input and the
raw fire input is followed by the choices of the free transmitters (R38, R178). That a command whose event cannot come (a stopped timer,
a reply with no window, another code than the waiting frame's) answers a next state too is the model's choice (log 1), and so is that a
free uplink transmitter chooses once, at the end of the command (log 52). -/
def Obligations.EveryCommandAnswersANextState : Prop :=
  (∀ (c : Instr) (s : State), ∃ t, exec c s = .next t ∧ t.pending = s.pending) ∧
  ∀ (c : Instr) (s : State), s.part.working = true →
    c ≠ .powerUp → c ≠ .resetInputAsserted → c ≠ .resetInputReleased → c ≠ .powerFails → (∀ r, c ≠ .fireInputChange r) →
      ∃ p, Completes c s p

/-- Without power, or with the reset input asserted, only power, the reset input and the raw fire input change anything (R195). -/
def Obligations.HeldPartIgnoresCommands : Prop :=
  ∀ (c : Instr) (s : State), s.part.working = false →
    c ≠ .powerUp → c ≠ .resetInputAsserted → c ≠ .resetInputReleased → c ≠ .powerFails → (∀ r, c ≠ .fireInputChange r) →
      exec c s = .next s

/-- The machine right after power-up: what the spec's rules for power-up leave (`Part.Fresh`), and no command waiting; that it works,
with power present and the reset input released, is the model's choice (log 7). -/
def Obligations.ResetLeavesWhatPowerUpLeaves : Prop :=
  State.reset.part.Fresh .power false ∧ State.reset.part.working = true ∧ State.reset.pending = []

/-- POWER_UP leaves the fresh part with cause POWER and the flag clear; RESET_INPUT_RELEASED on a part with power leaves it with cause
RESET_INPUT and the flag as it was (R194, R195). That POWER_UP with the reset input asserted leaves the part held, and that a release
restarts a part whether or not it was held, is read from these rules by inference (log 9). -/
def Obligations.PowerUpAndResetReleaseRestart : Prop :=
  (∀ s : State, ∃ t, exec .powerUp s = .next t ∧ t.pending = s.pending ∧ t.part.fire.raw = s.part.fire.raw ∧
    (s.part.resetAsserted = false → t.part.working = true ∧ t.part.Fresh .power false) ∧
    (s.part.resetAsserted = true → t.part.working = false)) ∧
  ∀ s : State, s.part.powered = true → ∃ t, exec .resetInputReleased s = .next t ∧ t.pending = s.pending ∧
    t.part.working = true ∧ t.part.fire.raw = s.part.fire.raw ∧ t.part.Fresh .resetInput s.part.uplink.requestedFlag

/-- RESET_INPUT_ASSERTED holds the part and stops the frame being sent, and POWER_FAILS leaves a part that does not work and sends
nothing (R195); that the model keeps nothing else without power is log 8. -/
def Obligations.ResetInputAndPowerFailureStopThePart : Prop :=
  ∀ s : State,
    (exec .resetInputAsserted s =
      .next { s with part := { s.part with resetAsserted := true, uplink := { s.part.uplink with sending := none } } }) ∧
    ∃ t, exec .powerFails s = .next t ∧ t.pending = s.pending ∧ t.part.working = false ∧ t.part.powered = false ∧
      t.part.uplink.sending = none ∧ t.part.resetAsserted = s.part.resetAsserted ∧ t.part.fire.raw = s.part.fire.raw

/-- What each restart leaves of the originator table (R185, R194, R195). That POWER_UP writes it with the reset input asserted too, and
that a release writes it whether or not the part was held, is read from these rules by inference (log 9). -/
def Obligations.RestartsLeaveTheOriginatorTable : Prop :=
  (∀ s : State, ∃ t, exec .powerUp s = .next t ∧ t.part.originator 0 = { enabled := true, authority := .administer } ∧
    ∀ o, o ≠ 0 → t.part.originator o = { enabled := false, authority := .view }) ∧
  (∀ s : State, s.part.powered = true → ∃ t, exec .resetInputReleased s = .next t ∧
    t.part.originator 0 = { enabled := true, authority := .administer } ∧
    ∀ o, o ≠ 0 → t.part.originator o = { enabled := false, authority := .view }) ∧
  ∀ (s : State) (x : ResponsePlace) (r : Response) (b : Time), s.part.working = true →
    s.part.uplink.sending = some (.response x r b) → r.code = 0x3F#8 → r.completion = .ok → s.part.uplink.restartPending = true →
      ∃ t, exec .uplinkFrameSent s = .next t ∧ t.part.uplink.restartCause = .requested ∧ ∀ o, t.part.originator o = s.part.originator o

/-- The requested restart, taken as the sending of the OK to RESTART PART ends: all that it keeps and all that it empties (R26, R56, R86,
R104, R124, R138, R139, R154, R175, R180, R194, R196), after which the engine returns to IDLE: a commit that is pending is carried out
and a catch-up sweep may start. The model's own: the frame that a line has on its wire runs to its end (log 15), PART STARTED comes before
the return to IDLE (log 29), a raw fire input that differs from the filtered one is timed from the restart (log 10), and the time moves
to the end of the frame sent (log 4). -/
def Obligations.RequestedRestartKeepsAndEmpties : Prop :=
  ∀ (s : State) (x : ResponsePlace) (r : Response) (b : Time), s.part.working = true →
    s.part.uplink.sending = some (.response x r b) → r.code = 0x3F#8 → r.completion = .ok → s.part.uplink.restartPending = true →
      let p := s.part
      let ends := max p.now (b + 50 * r.frame.length)
      let minute := if p.clock.set = true then some p.clock.minute else none
      let interrupted (x : SweepReport) : SweepReport :=
        if x.status = .inProgress then { x with status := .interrupted, endMinute := some minute } else x
      let restarted : Part :=
        { p with
          now := ends
          doors :=
            Vector.ofFn fun d : DoorNo =>
              { config := p.config d
                image :=
                  { p.image d with
                    settled := .absent, bolt := .unknown, position := .unknown
                    holder := if (p.config d).holderFitted then .unknown else .none
                    pulseActive := false, silence := 0 } }
          lines :=
            Vector.ofFn fun l : LineNo =>
              { state := if (p.line l).state = .quiet then .quiet else .active
                queue := [], held := [], motions := []
                wire :=
                  match (p.line l).wire with
                  | .free => .free
                  | .transaction t => if t.phase = .sending then .transaction { t with cut := true } else .free
                  | .broadcast m t y => .broadcast m t y
                cursor := 0, queuedSends := 0, conflicts := 0, broadcast := (p.line l).broadcast
                probeTimer := none, probeDue := false, probeWaiters := [], fault := none }
          engine :=
            { ctx := none, workSet := Vector.replicate 16 none, counter := p.engine.counter, pendingStart := none
              planReport := p.engine.planReport.map interrupted, catchUpReport := p.engine.catchUpReport.map interrupted }
          fire :=
            { p.fire with candidate := if p.fire.raw = p.fire.filtered then none else some (p.fire.raw, ends) }
          watches := Vector.replicate 8 none
          notices :=
            { urgent := [], fault := [], state := [.partStarted .requested true]
              urgentOverflow := false, faultOverflow := false, stateOverflow := false }
          uplink :=
            { assembler := .hunting, lastByte := p.uplink.lastByte, originators := p.uplink.originators
              slots := Vector.replicate 8 .empty, refusals := Vector.replicate 4 none, senses := Vector.replicate 4 none
              waiting := [], sending := none, restartPending := false, restartCause := .requested, requestedFlag := true } }
      ∃ t, exec .uplinkFrameSent s = .next t ∧ Reaches s restarted.returnToIdle.engineRun t ∧
        (∀ d, t.part.config d = s.part.config d ∧ (t.part.image d).claim = (s.part.image d).claim ∧
          (t.part.image d).settled = .absent ∧ (t.part.image d).bolt = .unknown ∧ (t.part.image d).position = .unknown ∧
          (t.part.image d).holder = (if (s.part.config d).holderFitted then .unknown else .none) ∧
          (t.part.image d).pulseActive = false ∧ (t.part.image d).silence = 0) ∧
        (∀ l, (t.part.line l).state = (if (s.part.line l).state = .quiet then .quiet else .active) ∧
          (t.part.line l).motions = [] ∧ (t.part.line l).conflicts = 0 ∧ (t.part.line l).fault = none ∧
          (t.part.line l).probeTimer = none ∧ (t.part.line l).broadcast = (s.part.line l).broadcast) ∧
        t.part.engine.counter = s.part.engine.counter ∧ t.part.engine.pendingStart = none ∧
        t.part.exceptions = s.part.exceptions ∧ t.part.clock = s.part.clock ∧ t.part.schedule = s.part.schedule ∧
        t.part.banks.staged = s.part.banks.staged ∧
        t.part.fire =
          { s.part.fire with
            candidate := if s.part.fire.raw = s.part.fire.filtered then none else some (s.part.fire.raw, t.part.now) } ∧
        (∀ k : Fin 8, t.part.watches[k] = none) ∧ (∀ o i, t.part.slot o i = .empty) ∧
        (∀ o : OriginatorNo, t.part.uplink.refusals[o] = none ∧ t.part.uplink.senses[o] = none) ∧
        t.part.uplink.assembler = .hunting ∧ t.part.uplink.restartPending = false ∧ t.part.uplink.restartCause = .requested ∧
        t.part.uplink.requestedFlag = true ∧
        (.partStarted .requested true ∈ t.part.notices.state ∨
          ∃ mark began, t.part.uplink.sending = some (.notice (.partStarted .requested true) mark began))

/-! ## Frames and replies -/

/-- R202: how the two CRCs are computed, where the uplink's stands in a frame sent, when a frame received matches, and the two check
values. -/
def Obligations.TheTwoChecks : Prop :=
  crc16 [] = 0xFFFF#16 ∧
  (∀ (bytes : List Byte) (b : Byte),
    crc16 (bytes ++ [b]) =
      Nat.repeat (fun c => if c.msb then (c <<< 1) ^^^ 0x1021#16 else c <<< 1) 8 (crc16 bytes ^^^ (b.setWidth 16 <<< 8))) ∧
  crc8 [] = 0#8 ∧
  (∀ (bytes : List Byte) (b : Byte),
    crc8 (bytes ++ [b]) = Nat.repeat (fun c => if c.msb then (c <<< 1) ^^^ 0x07#8 else c <<< 1) 8 (crc8 bytes ^^^ b)) ∧
  (∀ (k o t c d : Byte) (ps : List Byte),
    let covered := byte (5 + ps.length) :: k :: o :: t :: c :: d :: ps
    uplinkFrame k o t c d ps = 0xC3#8 :: covered ++ [(crc16 covered >>> 8).setWidth 8, (crc16 covered).setWidth 8]) ∧
  (∀ (len k o t c d : Byte) (ps : List Byte) (high low : Byte), 5 ≤ len.toNat → len.toNat ≤ 240 → ps.length + 5 = len.toNat →
    let covered := len :: k :: o :: t :: c :: d :: ps
    frameOfBytes (0xC3#8 :: covered ++ [high, low]) =
      if high = (crc16 covered >>> 8).setWidth 8 ∧ low = (crc16 covered).setWidth 8 then some ⟨k, o, t, c, d, ps⟩ else none) ∧
  crc16 [0x31#8, 0x32#8, 0x33#8, 0x34#8, 0x35#8, 0x36#8, 0x37#8, 0x38#8, 0x39#8] = 0x29B1#16 ∧
  crc8 [0x31#8, 0x32#8, 0x33#8, 0x34#8, 0x35#8, 0x36#8, 0x37#8, 0x38#8, 0x39#8] = 0xF4#8

/-- The assembler takes a frame from exactly the bytes of its layout (11.1), and each field comes out as it went in. -/
def Obligations.FramesAreReadFromTheirBytes : Prop :=
  ∀ (bytes : List Byte) (f : Frame),
    frameOfBytes bytes = some f ↔
      f.params.length ≤ 235 ∧ bytes = uplinkFrame f.kind f.originator f.tag f.code f.door f.params

/-- What LOAD DOOR carries is read back as it was written (11.3), the withdrawn field apart. -/
def Obligations.DoorConfigurationsAreReadAsWritten : Prop :=
  ∀ (f : Frame) (c : DoorConfig) (w : Bool), 1 ≤ c.node → c.node ≤ 60 → 2 ≤ c.boltTime → c.boltTime ≤ 50 → 5 ≤ c.closeWait →
    c.closeWait ≤ 600 → f.params = DoorConfig.bytes { c with withdrawn := false } → f.door.toNat < 240 →
      f.doorConfig w = { c with withdrawn := w } ∧ Code.loadDoor.inRange f = true ∧ Code.loadDoor.reservedClear f = true

/-- The bytes of the frames the part sends. A line's: the address, the function, the length, the data, then the CRC-8 over them (11.7). The
uplink's: a response echoes its frame and carries its completion code and results (R191, R197), and each notice carries its addressee
(R176), its level with the overflow mark (R197), its kind code, its door byte and its parameters (11.5, R199). A fire broadcast's maps go
eight bytes each, most significant first, node n being bit n − 1 counted from the least significant bit of the last byte (11.7). -/
def Obligations.FramesSentAreLaidOut : Prop :=
  (∀ t : Transaction,
    let body : List Byte :=
      byte t.node ::
        match t.cmd with
        | .pollNow => [0x01#8, 0#8]
        | .driveThrow => [0x02#8, 2#8, 1#8, 0#8]
        | .driveRetract => [0x02#8, 2#8, 2#8, 0#8]
        | .drivePulse n => [0x02#8, 2#8, 3#8, byte n]
        | .holderEngage => [0x03#8, 1#8, 1#8]
        | .holderRelease => [0x03#8, 1#8, 2#8]
    t.frame = body ++ [crc8 body]) ∧
  (∀ m : FireMaps,
    let octets (x : BitVec 64) : List Byte :=
      [(x >>> 56).setWidth 8, (x >>> 48).setWidth 8, (x >>> 40).setWidth 8, (x >>> 32).setWidth 8, (x >>> 24).setWidth 8,
        (x >>> 16).setWidth 8, (x >>> 8).setWidth 8, x.setWidth 8]
    let body : List Byte := [0#8, 0x0F#8, 16#8] ++ octets m.retract ++ octets m.holder
    m.frame = body ++ [crc8 body] ∧
      ∀ n, 1 ≤ n → n ≤ 64 →
        (m.frame.getD (3 + (64 - n) / 8) 0#8).getLsbD ((n - 1) % 8) = m.retract.getLsbD (n - 1) ∧
          (m.frame.getD (11 + (64 - n) / 8) 0#8).getLsbD ((n - 1) % 8) = m.holder.getLsbD (n - 1)) ∧
  (∀ r : Response, r.frame = uplinkFrame 0x81#8 (byte r.originator) r.tag r.code r.door (byte r.completion.code :: r.results)) ∧
  ∀ (mark : Bool) (n : Notice),
    let yes (b : Bool) : Byte := if b then 1#8 else 0#8
    let wide (k : Nat) : List Byte := [byte (k / 256), byte k]
    let time : Option Nat → List Byte
      | none => [0xFF#8, 0xFF#8]
      | some m => wide m
    let image (m : ShortImage) : List Byte :=
      [byte m.state.code, byte m.bolt.code, byte m.position.code, byte m.holder.code, yes m.pulseActive, byte m.silence]
    let start (x : PendingStart) : List Byte := [byte x.plan, byte x.entry] ++ wide x.minute
    let sweep (number : Option Nat) (plan : Option PlanNo) : List Byte :=
      wide (number.getD 0) ++ [match plan with | none => 0xFF#8 | some k => byte k]
    let sends (addressee : Byte) (level : Nat) (code door : Byte) (params : List Byte) :=
      n.frame mark = uplinkFrame 0x82#8 addressee (byte (if mark then level + 128 else level)) code door params
    let all (level : Nat) (code door : Byte) (params : List Byte) := sends 0xFF#8 level code door params
    match n with
    | .fireAlarm input before count => all 1 0x01#8 0xFF#8 [byte (fireInputCode input), yes before, byte count]
    | .fireLoopFault input before count => all 1 0x02#8 0xFF#8 [byte (fireInputCode input), yes before, byte count]
    | .fireReleaseIncomplete count on => all 1 0x03#8 0xFF#8 [byte count, byte on[0], byte on[1], byte on[2], byte on[3]]
    | .forcedDoor d g m => all 1 0x04#8 (byte d) (byte g :: image m)
    | .tamper d m => all 1 0x05#8 (byte d) (image m)
    | .lineFault l r =>
      all 2 0x11#8 0xFF#8
        ([byte l, byte r.kind.code, match r.node with | none => 0xFF#8 | some k => byte k,
            match r.function with | none => 0xFF#8 | some x => byte x.code] ++ time r.minute ++ [yes r.again])
    | .doorSilent d l => all 2 0x12#8 (byte d) [byte l]
    | .nodeRestarted d l node m => all 2 0x13#8 (byte d) (byte l :: byte node :: image m)
    | .sweepSuspended number k d x => all 2 0x14#8 (byte d) (wide number ++ [byte k, byte x.code])
    | .suspendTimedOut number d k => all 2 0x15#8 (byte d) (wide number ++ [byte k])
    | .startDisplaced old new => all 2 0x16#8 0xFF#8 (start old ++ start new)
    | .startDropped why x => all 2 0x17#8 0xFF#8 ([byte why.code, byte x.entry, byte x.plan] ++ wide x.minute)
    | .doorChange d l bolt position holder exit forced m =>
      all 3 0x21#8 (byte d)
        ([byte l,
            byte (bolt.isSome.toNat + 2 * position.isSome.toNat + 4 * holder.isSome.toNat + 8 * exit.toNat + 16 * forced.toNat),
            match bolt with | none => 0xFF#8 | some x => byte x.1.code,
            match position with | none => 0xFF#8 | some x => byte x.1.code,
            match holder with | none => 0xFF#8 | some x => byte x.1.code] ++ image m)
    | .sweepStarted number plan minute => all 3 0x22#8 0xFF#8 (sweep number plan ++ time minute)
    | .sweepEnded number plan status => all 3 0x23#8 0xFF#8 (sweep number plan ++ [byte status.code])
    | .exceptionEnded x owner expiry why released appended =>
      all 3 0x24#8 0xFF#8 ([byte x, byte owner] ++ wide expiry ++ [byte why.code, byte released, byte appended])
    | .watchFired owner k target condition why matched =>
      sends (byte owner) 3 0x25#8 (match matched with | none => 0xFF#8 | some x => byte x.1)
        ([byte k] ++ (match target with | .door d => [1#8, byte d] | .group g => [2#8, byte g]) ++ [byte condition.code, byte why.code] ++
          match matched with
          | none => [0xFF#8, 0xFF#8, 0xFF#8, 0xFF#8, 0xFF#8, 0xFF#8]
          | some x => image x.2)
    | .fireReleaseConfirmed confirmed removed seconds => all 3 0x26#8 0xFF#8 ([byte confirmed, byte removed] ++ wide seconds)
    | .fireRestored left appended => all 3 0x27#8 0xFF#8 [byte left, byte appended]
    | .partStarted cause flag => all 3 0x28#8 0xFF#8 [byte cause.code, yes flag]

/-- The first character that fails a check of R27 ends a reply, with the kind of the check, whatever else the reply holds: the
characters after it are discarded. A reply whose characters all pass is judged by the first of R29's conditions 2 to 7 that fails:
its length, its CRC-8, its pauses, its address and function, its layout (11.7, R201). What the mark of R27 is counted from once
characters have been discarded is the model's reading (log 47). -/
def Obligations.RepliesAreJudgedByTheFirstFailure : Prop :=
  let passes (c : LineChar) := c.startHeld = true ∧ (ones c.data + c.parity.toNat) % 2 = 0 ∧ c.stopAtMark = true
  (∀ (node : Nat) (sent : LineFunction) (before after : List LineChar) (c : LineChar), (∀ x ∈ before, passes x) →
    (c.startHeld = false → judgeReply node sent (before ++ c :: after) = .charFailed .start) ∧
    (c.startHeld = true → (ones c.data + c.parity.toNat) % 2 = 1 →
      judgeReply node sent (before ++ c :: after) = .charFailed .parity) ∧
    (c.startHeld = true → (ones c.data + c.parity.toNat) % 2 = 0 → c.stopAtMark = false →
      judgeReply node sent (before ++ c :: after) = .charFailed .stop) ∧
    (¬passes c → charsTaken (before ++ c :: after) = before ++ [c] ∧ charsDropped (before ++ c :: after) = after) ∧
    charsTaken before = before ∧ charsDropped before = []) ∧
  (∀ t c cs, markSince t [] = t ∧ markSince t (c :: cs) = if c.pause < 2 * 576 then markSince (t + c.pause + 330) cs else t) ∧
  (∀ (node : Nat) (sent : LineFunction) (chars : List LineChar), (∀ c ∈ chars, passes c) →
    (chars.length < 4 → judgeReply node sent chars = .failed .check) ∧
    ∀ address fn len rest, chars.map (fun c => c.data) = address :: fn :: len :: rest → 17 < len.toNat ∨ rest.length ≠ len.toNat + 1 →
      judgeReply node sent chars = .failed .check) ∧
  (∀ (node : Nat) (sent : LineFunction) (chars : List LineChar) (address fn crc : Byte) (data : List Byte),
    (∀ c ∈ chars, passes c) → data.length ≤ 17 →
    (chars.map fun c => c.data) = address :: fn :: byte data.length :: data ++ [crc] →
      judgeReply node sent chars =
        if crc ≠ crc8 (address :: fn :: byte data.length :: data) then .failed .check
        else if ∃ c ∈ chars.drop 1, 2 * 576 < c.pause then .failed .check
        else if ¬(address.toNat = node ∧ replyExpected sent fn = true) then .failed .stray
        else
          match replyOf fn data with
          | none => .failed .check
          | some r => .valid r) ∧
  (∀ (sent : LineFunction) (fn : Byte),
    replyExpected sent fn = true ↔
      (sent = .poll ∧ fn = 0x11#8) ∨ ((sent = .drive ∨ sent = .holder) ∧ (fn = 0x12#8 ∨ fn = 0x13#8))) ∧
  (∀ bolt position holder flags : Byte,
    (bolt ∈ ([0#8, 1#8, 2#8, 4#8] : List Byte) → position.toNat ≤ 2 → holder = 1#8 ∨ holder = 2#8 → flags.toNat < 64 →
      replyOf 0x11#8 [bolt, position, holder, flags] =
        some
          (.state
            { bolt := if bolt = 0#8 then .unknown else if bolt = 1#8 then .thrown else if bolt = 2#8 then .retracted else .jammed
              position := if position = 0#8 then .unknown else if position = 1#8 then .closed else .opened
              holding := holder = 1#8
              exit := flags.getLsbD 0, forced := flags.getLsbD 1, tamper := flags.getLsbD 2, pulse := flags.getLsbD 3
              restarted := flags.getLsbD 4, moving := flags.getLsbD 5 })) ∧
    (bolt ∉ ([0#8, 1#8, 2#8, 4#8] : List Byte) ∨ 2 < position.toNat ∨ (holder ≠ 1#8 ∧ holder ≠ 2#8) ∨ 64 ≤ flags.toNat →
      replyOf 0x11#8 [bolt, position, holder, flags] = none)) ∧
  replyOf 0x12#8 [] = some .accept ∧ replyOf 0x13#8 [1#8] = some (.refuse true) ∧ replyOf 0x13#8 [2#8] = some (.refuse false) ∧
  (∀ r : Byte, r ≠ 1#8 → r ≠ 2#8 → replyOf 0x13#8 [r] = none) ∧
  ∀ (fn : Byte) (data : List Byte),
    ¬(fn = 0x11#8 ∧ data.length = 4) → ¬(fn = 0x12#8 ∧ data = []) → ¬(fn = 0x13#8 ∧ data.length = 1) → replyOf fn data = none

/-! ## The uplink -/

/-- FRAME_ASSEMBLED: a good frame of originators 0 to 3 takes the lowest EMPTY slot, or is answered BUSY from an empty holder, with
the sense record written (R186, R188); any other is discarded (R181, R182). The model's own: the assembler drops a frame it has in
hand (log 26), the time of the frame's end (log 26, log 27), and what the sense record holds of the frame (log 20). -/
def Obligations.AssembledFramesArePlaced : Prop :=
  ∀ (s : State) (bytes : List Byte), s.part.working = true →
    let ends := max s.part.now (s.part.uplink.lastByte + 50 * bytes.length)
    let q : Part := { s.part with now := ends, uplink := { s.part.uplink with lastByte := ends, assembler := .hunting } }
    (frameOfBytes bytes = none → Completes (.frameAssembled bytes) s q) ∧
    ∀ f, frameOfBytes bytes = some f →
      (4 ≤ f.originator.toNat → Completes (.frameAssembled bytes) s q) ∧
      ∀ o : OriginatorNo, o.val = f.originator.toNat →
        (s.part.slot o 0 = .empty →
          Completes (.frameAssembled bytes) s (q.setSlot o 0 (.waiting f ends))) ∧
        (s.part.slot o 0 ≠ .empty → s.part.slot o 1 = .empty →
          Completes (.frameAssembled bytes) s (q.setSlot o 1 (.waiting f ends))) ∧
        (s.part.slot o 0 ≠ .empty → s.part.slot o 1 ≠ .empty → s.part.uplink.refusals[o] = none →
          Completes (.frameAssembled bytes) s
            { q with
              uplink :=
                { q.uplink with
                  refusals :=
                    q.uplink.refusals.set o
                      (some { originator := o, tag := f.tag, code := f.code, door := f.door, completion := .busy, results := [] })
                  senses :=
                    if f.isSense then q.uplink.senses
                    else
                      q.uplink.senses.set o
                        (some { completion := .busy, request := f.code, door := f.namedDoor, detail := none })
                  waiting := q.uplink.waiting ++ [.holder o] } }) ∧
        (s.part.slot o 0 ≠ .empty → s.part.slot o 1 ≠ .empty → s.part.uplink.refusals[o] ≠ none →
          Completes (.frameAssembled bytes) s q)

/-- UPLINK_CHARACTER_RECEIVED moves the assembler as R181's table gives. At a frame's last byte a bad frame is discarded (R181), and a good
one is placed as FRAME_ASSEMBLED places it: in the lowest EMPTY slot of its originator (R182, R186), answered BUSY from an empty holder
with the sense record written (R188), or discarded. The model's own: the time at which a character ends, and that a character in
HUNTING, or after a pause of more than 5 ms, is examined whatever its stop bit (log 27), and what the sense record holds of the frame
(log 20). -/
def Obligations.UplinkCharactersMoveTheAssembler : Prop :=
  ∀ (s : State) (b : Byte) (mark : Bool) (pause : Time), s.part.working = true →
    let ends := max s.part.now (s.part.uplink.lastByte + pause + 50)
    let leaves (x : Assembler) : Part := { s.part with now := ends, uplink := { s.part.uplink with lastByte := ends, assembler := x } }
    let examined : Assembler := if b = 0xC3#8 then .assembling [] else .hunting
    (s.part.uplink.assembler = .hunting →
      Completes (.uplinkCharacterReceived b mark pause) s (leaves examined)) ∧
    ∀ got, s.part.uplink.assembler = .assembling got →
      (5 * 576 < pause → Completes (.uplinkCharacterReceived b mark pause) s (leaves examined)) ∧
      (pause ≤ 5 * 576 → mark = false →
        Completes (.uplinkCharacterReceived b mark pause) s (leaves .hunting)) ∧
      (pause ≤ 5 * 576 → mark = true → got = [] → b.toNat < 5 ∨ 240 < b.toNat →
        Completes (.uplinkCharacterReceived b mark pause) s (leaves .hunting)) ∧
      (pause ≤ 5 * 576 → mark = true → got = [] → 5 ≤ b.toNat → b.toNat ≤ 240 →
        Completes (.uplinkCharacterReceived b mark pause) s (leaves (.assembling [b]))) ∧
      ∀ len rest, pause ≤ 5 * 576 → mark = true → got = len :: rest → 5 ≤ len.toNat → len.toNat ≤ 240 →
        (rest.length + 1 < len.toNat + 2 →
          Completes (.uplinkCharacterReceived b mark pause) s (leaves (.assembling (got ++ [b])))) ∧
        (rest.length + 1 = len.toNat + 2 → frameOfBytes (0xC3#8 :: got ++ [b]) = none →
          Completes (.uplinkCharacterReceived b mark pause) s (leaves .hunting)) ∧
        ∀ f, rest.length + 1 = len.toNat + 2 → frameOfBytes (0xC3#8 :: got ++ [b]) = some f →
          let q := leaves .hunting
          (4 ≤ f.originator.toNat → Completes (.uplinkCharacterReceived b mark pause) s q) ∧
          ∀ o : OriginatorNo, o.val = f.originator.toNat →
            (s.part.slot o 0 = .empty →
              Completes (.uplinkCharacterReceived b mark pause) s (q.setSlot o 0 (.waiting f ends))) ∧
            (s.part.slot o 0 ≠ .empty → s.part.slot o 1 = .empty →
              Completes (.uplinkCharacterReceived b mark pause) s (q.setSlot o 1 (.waiting f ends))) ∧
            (s.part.slot o 0 ≠ .empty → s.part.slot o 1 ≠ .empty → s.part.uplink.refusals[o] = none →
              Completes (.uplinkCharacterReceived b mark pause) s
                { q with
                  uplink :=
                    { q.uplink with
                      refusals :=
                        q.uplink.refusals.set o
                          (some { originator := o, tag := f.tag, code := f.code, door := f.door, completion := .busy, results := [] })
                      senses :=
                        if f.isSense then q.uplink.senses
                        else
                          q.uplink.senses.set o
                            (some { completion := .busy, request := f.code, door := f.namedDoor, detail := none })
                      waiting := q.uplink.waiting ++ [.holder o] } }) ∧
            (s.part.slot o 0 ≠ .empty → s.part.slot o 1 ≠ .empty → s.part.uplink.refusals[o] ≠ none →
              Completes (.uplinkCharacterReceived b mark pause) s q)

/-- UPLINK_FRAME_SENT frees the transmitter, and the slot or the refusal holder whose response was sent (R179), a restart pending or
not: for every frame but the OK to RESTART PART that ends while its restart is pending, which `RequestedRestartKeepsAndEmpties` is
about. Time moves to the frame's end (log 4). -/
def Obligations.SentFramesFreeTheirPlace : Prop :=
  ∀ (s : State) (x : Outbound), s.part.working = true → s.part.uplink.sending = some x →
    (s.part.uplink.restartPending = true → ∀ y r b, x = .response y r b → ¬(r.code = 0x3F#8 ∧ r.completion = .ok)) →
    let ends := max s.part.now (x.began + 50 * x.frame.length)
    let q : Part := { s.part with now := ends, uplink := { s.part.uplink with sending := none } }
    (∀ n mark b, x = .notice n mark b → Completes .uplinkFrameSent s q) ∧
    (∀ o i r b, x = .response (.slot o i) r b →
      Completes .uplinkFrameSent s (q.setSlot o i .empty)) ∧
    ∀ o r b, x = .response (.holder o) r b →
      Completes .uplinkFrameSent s { q with uplink := { q.uplink with refusals := q.uplink.refusals.set o none } }

/-- A notice raised goes to the tail of its level's queue; into a full one it is not stored and the overflow flag is set (R176,
R177). The transmit arbiter of R178 sends, on a free transmitter and with the overflow mark of R177, an URGENT notice, the oldest
response that waits, a FAULT notice, a STATE notice. After a command (`Completes`) each line makes its choice (R38), the responses built
are put behind those that waited before, in ascending originator and then slot, and the uplink makes its own (R178); that it chooses
once, when the command's effect is done, is the model's choice (log 52), and so are the lines' order and the place of a refusal
holder's response, which show in no run. -/
def Obligations.NoticesAreQueuedAndSentInOrder : Prop :=
  (∀ (q : NoticeQueues) (n : Notice),
    (n.level = .urgent →
      (q.urgent.length < 8 → q.raise n = { q with urgent := q.urgent ++ [n] }) ∧
      (8 ≤ q.urgent.length → q.raise n = { q with urgentOverflow := true })) ∧
    (n.level = .fault →
      (q.fault.length < 8 → q.raise n = { q with fault := q.fault ++ [n] }) ∧
      (8 ≤ q.fault.length → q.raise n = { q with faultOverflow := true })) ∧
    (n.level = .state →
      (q.state.length < 32 → q.raise n = { q with state := q.state ++ [n] }) ∧
      (32 ≤ q.state.length → q.raise n = { q with stateOverflow := true }))) ∧
  (∀ p : Part, p.uplink.sending = none →
    (∀ n rest, p.notices.urgent = n :: rest →
      p.uplinkChoice =
        { p with
          notices := { p.notices with urgent := rest, urgentOverflow := false }
          uplink := { p.uplink with sending := some (.notice n p.notices.urgentOverflow p.now) } }) ∧
    (p.notices.urgent = [] →
      (∀ o i f a r rest, p.uplink.waiting = .slot o i :: rest → p.slot o i = .answered f a r →
        p.uplinkChoice =
          { p with uplink := { p.uplink with waiting := rest, sending := some (.response (.slot o i) r p.now) } }) ∧
      (∀ (o : OriginatorNo) r rest, p.uplink.waiting = .holder o :: rest → p.uplink.refusals[o] = some r →
        p.uplinkChoice =
          { p with uplink := { p.uplink with waiting := rest, sending := some (.response (.holder o) r p.now) } }) ∧
      (p.uplink.waiting = [] →
        (∀ n rest, p.notices.fault = n :: rest →
          p.uplinkChoice =
            { p with
              notices := { p.notices with fault := rest, faultOverflow := false }
              uplink := { p.uplink with sending := some (.notice n p.notices.faultOverflow p.now) } }) ∧
        (p.notices.fault = [] →
          (∀ n rest, p.notices.state = n :: rest →
            p.uplinkChoice =
              { p with
                notices := { p.notices with state := rest, stateOverflow := false }
                uplink := { p.uplink with sending := some (.notice n p.notices.stateOverflow p.now) } }) ∧
          (p.notices.state = [] → p.uplinkChoice = p))))) ∧
  (∀ (q : Part) (x : Outbound), q.uplink.sending = some x → q.uplinkChoice = q) ∧
  (∀ (p : Part) (n : Nat),
    let q := (((p.lineChoice 0).lineChoice 1).lineChoice 2).lineChoice 3
    p.settle n = ({ q with uplink := { q.uplink with waiting := orderBuilt n q.uplink.waiting } } : Part).uplinkChoice) ∧
  ∀ (n : Nat) (xs : List ResponsePlace),
    let before : ResponsePlace → ResponsePlace → Prop
      | .slot o i, .slot o' i' => o < o' ∨ o = o' ∧ i ≤ i'
      | .slot o _, .holder o' => o ≤ o'
      | .holder o, .slot o' _ => o < o'
      | .holder o, .holder o' => o ≤ o'
    ∃ built, orderBuilt n xs = xs.take n ++ built ∧ built.Perm (xs.drop n) ∧ built.Pairwise before

/-! ## The request handler -/

/-- The checks of R190 that name a frame's refusal before its owner sees it: MALFORMED when its kind is neither REQUEST nor DOOR
COMMAND, when a REQUEST that names no door has a door byte other than 0xFF, or when a known code has not its form (R198),
UNKNOWN_REQUEST when its code is not known for its kind; then, for every request and door command, AUTHORITY when its originator is
disabled or of too low a level (R183), and RANGE when a parameter or the door byte is outside the range that the code's owning rule
gives, each stated here (R1, R90, R103, R108, R126, R127, R133, R156, R170). A refusal changes nothing else. Read by inference: a DOOR COMMAND frame of any code,
and a REQUEST frame of a door command's code, are taken as naming a door (log 21), and which door the sense record names (log 20). -/
def Obligations.TheFirstFourChecksNameTheRefusal : Prop :=
  (∀ (c : Code) (f : Frame),
    c.formHolds f = true ↔
      c.paramLength f = some f.params.length ∧ (c = .loadDoor → f.param 5 < 8 ∧ f.param 6 < 16)) ∧
  (∀ (c : Code) (f : Frame),
    let door := f.door.toNat ≤ 239
    let upTo (k most : Nat) := f.param k ≤ most
    let within (k least most : Nat) := least ≤ f.param k ∧ f.param k ≤ most
    let minute (k : Nat) := f.param k * 256 + f.param (k + 1) ≤ 10079
    c.inRange f = true ↔
      match c with
      | .loadDoor =>
        door ∧ upTo 0 1 ∧ upTo 1 3 ∧ within 2 1 60 ∧ upTo 3 31 ∧ upTo 4 2 ∧ within 7 2 50 ∧ 5 ≤ f.param 8 * 256 + f.param 9 ∧
          f.param 8 * 256 + f.param 9 ≤ 600
      | .withdrawDoor | .restoreDoor | .readDoor => door
      | .loadPlanStep => upTo 0 7 ∧ upTo 1 23 ∧ upTo 2 32 ∧ within 3 1 2 ∧ upTo 4 1 ∧ upTo 5 3 ∧ upTo 6 1
      | .clearStagedPlan => upTo 0 7
      | .loadScheduleEntry => upTo 0 15 ∧ upTo 1 1 ∧ minute 2 ∧ upTo 4 7 ∧ within 5 1 2
      | .setOriginator => upTo 0 3 ∧ upTo 1 1 ∧ within 2 1 3
      | .setClock => minute 0 ∧ upTo 2 59
      | .startSweep => upTo 0 7
      | .continueSweep => within 0 1 2
      | .createException =>
        minute 0 ∧ (f.param 2 = 1 → upTo 3 31) ∧ (f.param 2 ≠ 1 → within 3 1 12 ∧ ∀ b ∈ f.params.drop 4, b.toNat ≤ 239)
      | .extendException => upTo 0 15 ∧ minute 1
      | .endException => upTo 0 15
      | .armWatch => (f.param 0 = 1 ∧ upTo 1 239 ∨ f.param 0 = 2 ∧ upTo 1 31) ∧ within 2 1 3
      | .disarmWatch => upTo 0 7
      | .clearLineFault | .quietLine | .resumeLine | .readLine => upTo 0 3
      | .readGroup => upTo 0 31
      | .readSweepReport => upTo 0 1 ∧ upTo 1 5
      | .readCatchUpList => upTo 0 14
      | .readException => upTo 0 15
      | .readPlan => upTo 0 1 ∧ upTo 1 7
      | .readSchedule => upTo 0 15
      | .throwBolt | .retractBolt | .holderEngage | .holderRelease | .pollNow => door
      | .pulse => door ∧ within 0 1 30
      | .commitPlans | .abandonSweep | .abortSweep | .fireRestore | .readStatus | .sense | .restartPart => True) ∧
  ∀ (s : State) (o : OriginatorNo) (i : SlotNo) (f : Frame) (a : Time), s.part.working = true →
    s.part.nextFrame = some (o, i, f) → s.part.slot o i = .waiting f a →
      let namesDoor :=
        f.kind = 0x02#8 ∨
          f.code ∈ ([0x10#8, 0x11#8, 0x12#8, 0x30#8, 0x40#8, 0x41#8, 0x42#8, 0x43#8, 0x44#8, 0x45#8] : List Byte)
      (f.kind ≠ 0x01#8 → f.kind ≠ 0x02#8 →
        Completes .unknownRequest s (s.part.withAnswer o i f a .malformed [] (some i.val))) ∧
      (¬namesDoor → f.door ≠ 0xFF#8 →
        Completes .unknownRequest s (s.part.withAnswer o i f a .malformed [] (some i.val))) ∧
      (∀ c, f.known = some c → c.formHolds f = false →
        Completes .unknownRequest s (s.part.withAnswer o i f a .malformed [] (some i.val))) ∧
      (f.kind = 0x01#8 ∨ f.kind = 0x02#8 → namesDoor ∨ f.door = 0xFF#8 → f.known = none →
        Completes .unknownRequest s (s.part.withAnswer o i f a .unknownRequest [] (some i.val))) ∧
      ∀ (c : Code) (order : List Block), f.known = some c → namesDoor ∨ f.door = 0xFF#8 → c.formHolds f = true →
        ((s.part.originator o).enabled = false ∨ (s.part.originator o).authority.code < c.authority.code →
          Completes (c.command order) s (s.part.withAnswer o i f a .authority [] (some i.val))) ∧
        ((s.part.originator o).enabled = true → c.authority.code ≤ (s.part.originator o).authority.code → c.inRange f = false →
          Completes (c.command order) s (s.part.withAnswer o i f a .range [] (some i.val)))

/-- The codes of 11.2 for each kind of frame, the level each requires (10.4) and the number of its parameter bytes; no other code is
known. The codes of the field values (11.3, 11.4), of the completions and faults (11.4, 11.5) and of the lines' functions (11.7). -/
def Obligations.TheCodesAreThoseOfTheTable : Prop :=
  (∀ x ∈ ([(0x10#8, .loadDoor, .administer, 10), (0x11#8, .withdrawDoor, .administer, 0), (0x12#8, .restoreDoor, .administer, 0),
        (0x13#8, .loadPlanStep, .administer, 7), (0x14#8, .clearStagedPlan, .administer, 1), (0x15#8, .commitPlans, .administer, 0),
        (0x16#8, .loadScheduleEntry, .administer, 6), (0x17#8, .setOriginator, .administer, 3), (0x18#8, .setClock, .administer, 3),
        (0x20#8, .startSweep, .operate, 1), (0x21#8, .continueSweep, .operate, 1), (0x22#8, .abandonSweep, .operate, 0),
        (0x23#8, .abortSweep, .operate, 0), (0x25#8, .extendException, .operate, 3), (0x26#8, .endException, .operate, 1),
        (0x27#8, .armWatch, .operate, 3), (0x28#8, .disarmWatch, .operate, 1), (0x29#8, .fireRestore, .administer, 0),
        (0x2A#8, .clearLineFault, .administer, 1), (0x2B#8, .quietLine, .administer, 1), (0x2C#8, .resumeLine, .administer, 1),
        (0x30#8, .readDoor, .view, 0), (0x31#8, .readGroup, .view, 1), (0x32#8, .readLine, .view, 1),
        (0x33#8, .readSweepReport, .view, 2), (0x34#8, .readCatchUpList, .view, 1), (0x35#8, .readException, .view, 1),
        (0x36#8, .readPlan, .view, 2), (0x37#8, .readSchedule, .view, 1), (0x38#8, .readStatus, .view, 0), (0x39#8, .sense, .view, 0),
        (0x3F#8, .restartPart, .administer, 0)] : List (Byte × Code × Authority × Nat)),
    ∀ f : Frame, f.kind = 0x01#8 → f.code = x.1 →
      f.known = some x.2.1 ∧ x.2.1.authority = x.2.2.1 ∧ x.2.1.paramLength f = some x.2.2.2) ∧
  (∀ x ∈ ([(0x40#8, .throwBolt, .operate, 0), (0x41#8, .retractBolt, .operate, 0), (0x42#8, .pulse, .operate, 1),
        (0x43#8, .holderEngage, .operate, 0), (0x44#8, .holderRelease, .operate, 0), (0x45#8, .pollNow, .view, 0)] :
        List (Byte × Code × Authority × Nat)),
    ∀ f : Frame, f.kind = 0x02#8 → f.code = x.1 →
      f.known = some x.2.1 ∧ x.2.1.authority = x.2.2.1 ∧ x.2.1.paramLength f = some x.2.2.2) ∧
  (∀ f : Frame, f.kind = 0x01#8 → f.code = 0x24#8 →
    f.known = some .createException ∧ Code.authority .createException = .operate ∧
      Code.paramLength .createException f =
        if f.param 2 = 1 then some 4 else if f.param 2 = 2 then some (4 + f.param 3) else none) ∧
  (∀ f : Frame, f.known ≠ none →
    (f.kind = 0x01#8 ∧
      (0x10 ≤ f.code.toNat ∧ f.code.toNat ≤ 0x18 ∨ 0x20 ≤ f.code.toNat ∧ f.code.toNat ≤ 0x2C ∨
        0x30 ≤ f.code.toNat ∧ f.code.toNat ≤ 0x39 ∨ f.code.toNat = 0x3F)) ∨
    (f.kind = 0x02#8 ∧ 0x40 ≤ f.code.toNat ∧ f.code.toNat ≤ 0x45)) ∧
  ([FireAction.none, .free, .close].map FireAction.code = [0, 1, 2] ∧
    [ImageState.absent, .current, .pending, .suspect].map ImageState.code = [0, 1, 2, 3] ∧
    [Bolt.unknown, .thrown, .retracted, .moving, .jammed].map Bolt.code = [0, 1, 2, 3, 4] ∧
    [Position.unknown, .closed, .opened].map Position.code = [0, 1, 2] ∧
    [Holder.none, .holding, .released, .unknown].map Holder.code = [0, 1, 2, 3]) ∧
  ([SweepOutcome.secured, .released, .heldOpen, .boltFault, .noReply, .lineDown, .withdrawn, .excepted, .aborted, .fire,
        .notReached].map SweepOutcome.code =
      [1, 2, 3, 4, 5, 6, 7, 8, 9, 10, 11] ∧
    [FinalStatus.inProgress, .complete, .abandoned, .aborted, .fire, .interrupted].map FinalStatus.code = [0, 1, 2, 3, 4, 5] ∧
    [Action.secure, .release].map Action.code = [1, 2] ∧ [Repetition.weekly, .once].map Repetition.code = [1, 2] ∧
    [Authority.view, .operate, .administer].map Authority.code = [1, 2, 3] ∧
    [WatchCondition.change, .opens, .secures].map WatchCondition.code = [1, 2, 3] ∧
    [WatchReason.condition, .silent, .fire].map WatchReason.code = [1, 2, 3] ∧
    [ExceptionCause.expired, .clockSet, .ended].map ExceptionCause.code = [1, 2, 3] ∧
    [DropReason.fire, .emptyPlan].map DropReason.code = [1, 2] ∧
    [LineState.active, .quiet, .faulted].map LineState.code = [0, 1, 2] ∧
    [FaultKind.start, .parity, .stop, .check, .stray, .conflict, .overload].map FaultKind.code = [1, 2, 3, 4, 5, 6, 7] ∧
    [FireInput.normal, .alarm, .loopFault].map fireInputCode = [0, 1, 2] ∧
    [RestartCause.power, .resetInput, .requested].map RestartCause.code = [1, 2, 3] ∧
    [LineFunction.poll, .drive, .holder, .fireBroadcast].map LineFunction.code = [0x01, 0x02, 0x03, 0x0F]) ∧
  [Completion.ok, .commitPending, .busy, .malformed, .unknownRequest, .authority, .range, .notConfigured, .withdrawn, .conflict,
        .inSweep, .lineDown, .fireHold, .nightPolicy, .claimed, .clockUnset, .noSlot, .state, .pendingCommit, .noReply, .boltTimeout,
        .jammed, .refused, .none].map Completion.code =
    [0x00, 0x01, 0x10, 0x11, 0x12, 0x13, 0x14, 0x20, 0x21, 0x22, 0x23, 0x24, 0x25, 0x26, 0x27, 0x28, 0x29, 0x2A, 0x2B, 0x30, 0x31, 0x32,
      0x33, 0x3F]

/-! ## The door table -/

/-- LOAD DOOR: the checks of R2 in their order, then the record written with the effects of R3, a poll or a probe of the door in flight
being detached from it and every other wire left as it is; what a set fire latch adds (R147) is `TheReleasePendingSetFollowsTheRecords`. Read by inference: a confirm poll and a withdrawn POLL NOW in flight are detached as a routine
poll is (log 16), and a LOAD DOOR that changes holder fitted alone leaves the image (log 35). -/
def Obligations.LoadDoorChecksThenWrites : Prop :=
  ∀ (s : State) (o : OriginatorNo) (i : SlotNo) (f : Frame) (a : Time) (d : DoorNo), Decides s .loadDoor o i f a →
    d.val = f.door.toNat →
      let p := s.part
      let old := p.config d
      let new := f.doorConfig old.withdrawn
      let busy := p.imageState d = .pending ∨ ∃ o' i' f' b g, p.slot o' i' = .inProgress f' b (some g) ∧ f'.doorNo = d
      let taken := ∃ x, x ≠ d ∧ (p.config x).configured = true ∧ (p.config x).line = new.line ∧ (p.config x).node = new.node
      let moved := old.line ≠ new.line ∨ old.node ≠ new.node ∨ old.configured ≠ new.configured
      let image : DoorImage :=
        if moved then
          { p.image d with
            settled := .absent, bolt := .unknown, position := .unknown, holder := if new.holderFitted then .unknown else .none
            pulseActive := false, silence := 0 }
        else p.image d
      let detached (w : Wire) : Wire :=
        match w with
        | .transaction t => if t.door = some d ∧ t.cmd = .pollNow then .transaction { t with detached := true } else w
        | .free => w
        | .broadcast _ _ _ => w
      let loaded : Part :=
        { p with
          doors := p.doors.set d { config := new, image := image }
          lines := if moved then p.lines.map fun x => { x with wire := detached x.wire } else p.lines
          catchUp :=
            if new.configured = false ∨ old.group ≠ new.group ∧ (p.group new.group).night = false then
              p.catchUp.filter fun x => x ≠ d
            else p.catchUp }
      (∀ n e, p.entryOf d = some (n, e) → Completes .loadDoor s (p.withAnswer o i f a .inSweep [] e.step)) ∧
      (p.entryOf d = none →
        (busy → Completes .loadDoor s (p.withAnswer o i f a .busy [] (some i.val))) ∧
        (¬busy →
          (new.configured = true ∧ taken → Completes .loadDoor s (p.withAnswer o i f a .conflict [] (some i.val))) ∧
          (¬(new.configured = true ∧ taken) →
            Completes .loadDoor s ((loaded.fireReconfigured d).withAnswer o i f a .ok [] none))))

/-- WITHDRAW DOOR and RESTORE DOOR: their checks in order, and the records they leave (R4, R5, R147); WITHDRAW DOOR detaches a poll or a
probe of the door in flight and leaves every other wire as it is. That a confirm poll and a
withdrawn POLL NOW in flight are detached as a routine poll is, is read by inference (log 16). -/
def Obligations.DoorsAreWithdrawnAndRestored : Prop :=
  ∀ (s : State) (o : OriginatorNo) (i : SlotNo) (f : Frame) (a : Time) (d : DoorNo), d.val = f.door.toNat →
    let p := s.part
    let c := p.config d
    let busy := p.imageState d = .pending ∨ ∃ o' i' f' b g, p.slot o' i' = .inProgress f' b (some g) ∧ f'.doorNo = d
    let detached (w : Wire) : Wire :=
      match w with
      | .transaction t => if t.door = some d ∧ t.cmd = .pollNow then .transaction { t with detached := true } else w
      | .free => w
      | .broadcast _ _ _ => w
    let withdrawn : Part :=
      { p with
        doors :=
          p.doors.set d
            { config := { c with withdrawn := true }
              image :=
                { p.image d with
                  settled := .absent, bolt := .unknown, position := .unknown, holder := if c.holderFitted then .unknown else .none
                  pulseActive := false, silence := 0 } }
        lines := p.lines.map fun x => { x with wire := detached x.wire }
        catchUp := p.catchUp.filter fun x => x ≠ d }
    let restored : Part := { p with doors := p.doors.set d { config := { c with withdrawn := false }, image := p.image d } }
    (Decides s .withdrawDoor o i f a →
      (c.configured = false → Completes .withdrawDoor s (p.withAnswer o i f a .notConfigured [] (some i.val))) ∧
      (c.configured = true → c.withdrawn = true → Completes .withdrawDoor s (p.withAnswer o i f a .state [] (some i.val))) ∧
      (c.configured = true → c.withdrawn = false →
        (∀ n e, p.entryOf d = some (n, e) → Completes .withdrawDoor s (p.withAnswer o i f a .inSweep [] e.step)) ∧
        (p.entryOf d = none → busy → Completes .withdrawDoor s (p.withAnswer o i f a .busy [] (some i.val))) ∧
        (p.entryOf d = none → ¬busy → Completes .withdrawDoor s ((withdrawn.removeRelease d).withAnswer o i f a .ok [] none)))) ∧
    (Decides s .restoreDoor o i f a →
      (c.configured = false → Completes .restoreDoor s (p.withAnswer o i f a .notConfigured [] (some i.val))) ∧
      (c.configured = true → c.withdrawn = false → Completes .restoreDoor s (p.withAnswer o i f a .state [] (some i.val))) ∧
      (c.configured = true → c.withdrawn = true →
        Completes .restoreDoor s ((restored.fireReconfigured d).withAnswer o i f a .ok [] none)))

/-- The release-pending set while the latch is set: what a reply (R146), a withdrawal and a change of a record (R147) do to it, the
notice given as it becomes empty (R149), and the maps of the broadcasts made pending (R33, R143). A broadcast send on the wire then
carries maps that are no longer pending (`Wire.outdated`), which keeps it from being counted against the new broadcast (log 14). -/
def Obligations.TheReleasePendingSetFollowsTheRecords : Prop :=
  ∀ (p : Part) (d : DoorNo),
    let c := p.config d
    let left (confirmed removed : Nat) : Part :=
      { p with
        fire :=
          { p.fire with
            releasePending := p.fire.releasePending.filter fun x => x ≠ d, confirmed := confirmed, removed := removed } }
    let seconds := min 65535 ((p.now - p.fire.latchTime.getD p.now) / 576000)
    let noticed (q : Part) : Part :=
      if q.fire.releasePending = [] then
        { q with notices := q.notices.raise (.fireReleaseConfirmed q.fire.confirmed q.fire.removed seconds) }
      else q
    (p.fire.latch = false → p.fireReconfigured d = p ∧ p.removeRelease d = p ∧ p.confirmRelease d = p) ∧
    (p.fire.latch = true →
      (d ∈ p.fire.releasePending → p.confirmRelease d = noticed (left (min 255 (p.fire.confirmed + 1)) p.fire.removed)) ∧
      (d ∈ p.fire.releasePending → p.removeRelease d = noticed (left p.fire.confirmed (min 255 (p.fire.removed + 1)))) ∧
      (d ∉ p.fire.releasePending → p.confirmRelease d = p ∧ p.removeRelease d = p) ∧
      (c.configured = false ∨ c.fireAction ≠ .free → p.fireReconfigured d = (p.removeRelease d).makeBroadcast c.line) ∧
      (c.configured = true → c.fireAction = .free → c.withdrawn = true ∨ d ∈ p.fire.releasePending →
        p.fireReconfigured d = p.makeBroadcast c.line) ∧
      (c.configured = true → c.fireAction = .free → c.withdrawn = false → d ∉ p.fire.releasePending →
        p.fireReconfigured d =
          { p with fire := { p.fire with releasePending := p.fire.releasePending ++ [d] } }.makeBroadcast c.line)) ∧
    ∀ l,
      (∃ maps,
        p.makeBroadcast l =
            { p with
              lines :=
                p.lines.set l
                  { p.line l with broadcast := some { maps := maps, sends := 3 }, wire := (p.line l).wire.outdated } } ∧
          (∀ m t b, (p.line l).wire = .broadcast m t b → (p.line l).wire.outdated = .broadcast m t false) ∧
          ((∀ m t b, (p.line l).wire ≠ .broadcast m t b) → (p.line l).wire.outdated = (p.line l).wire) ∧
          ((∀ x, 1 ≤ (p.config x).node ∧ (p.config x).node ≤ 60) → ∀ n, 1 ≤ n → n ≤ 64 →
            (maps.retract.getLsbD (n - 1) = true ↔
              ∃ x, (p.config x).configured = true ∧ (p.config x).line = l ∧ (p.config x).fireAction = .free ∧
                (p.config x).node = n) ∧
            (maps.holder.getLsbD (n - 1) = true ↔
              ∃ x, (p.config x).configured = true ∧ (p.config x).line = l ∧
                ((p.config x).fireAction = .close ∨ (p.config x).fireAction = .free ∧ (p.config x).holderFitted = true) ∧
                (p.config x).node = n)))

/-! ## Plans, the schedule, the originators and the clock -/

/-- LOAD PLAN STEP and CLEAR STAGED PLAN write the staged bank alone, and are refused PENDING_COMMIT while a commit is pending (R133,
R134). -/
def Obligations.StagedPlansAreLoadedAndCleared : Prop :=
  ∀ (s : State) (o : OriginatorNo) (i : SlotNo) (f : Frame) (a : Time) (k : PlanNo), k.val = f.param 0 →
    let p := s.part
    let plan := p.banks.staged[k]
    let staged (x : Plan) : Part := { p with banks := { p.banks with staged := p.banks.staged.set k x } }
    (Decides s .loadPlanStep o i f a →
      (p.banks.commitPending = true → Completes .loadPlanStep s (p.withAnswer o i f a .pendingCommit [] (some i.val))) ∧
      (p.banks.commitPending = false → plan.length < f.param 1 →
        Completes .loadPlanStep s (p.withAnswer o i f a .range [] (some i.val))) ∧
      ∀ step : PlanStep, step.group.val = f.param 2 → (step.action = .secure ↔ f.param 3 = 1) → (step.strict = true ↔ f.param 4 = 1) →
        step.retries = f.param 5 → (step.overlap = true ↔ f.param 6 = 1) →
          (p.banks.commitPending = false → f.param 1 < plan.length →
            Completes .loadPlanStep s ((staged (plan.set (f.param 1) step)).withAnswer o i f a .ok [] none)) ∧
          (p.banks.commitPending = false → f.param 1 = plan.length →
            Completes .loadPlanStep s ((staged (plan ++ [step])).withAnswer o i f a .ok [] none))) ∧
    (Decides s .clearStagedPlan o i f a →
      (p.banks.commitPending = true → Completes .clearStagedPlan s (p.withAnswer o i f a .pendingCommit [] (some i.val))) ∧
      (p.banks.commitPending = false → Completes .clearStagedPlan s ((staged []).withAnswer o i f a .ok [] none)))

/-- COMMIT PLANS copies the staged bank over the active one while the engine is IDLE and marks the commit pending otherwise (R135), and
LOAD SCHEDULE ENTRY writes the four fields of its entry (R127). The engine's return to IDLE takes up a pending commit (R136), then the
pending start, tested again, then the start of a catch-up sweep (R131). -/
def Obligations.PlansAreCommittedAndScheduled : Prop :=
  (∀ p : Part,
    let taken : Part :=
      if p.banks.commitPending = true then
        { p with banks := { staged := p.banks.staged, active := p.banks.staged, commitPending := false } }
      else p
    (p.engine.pendingStart = none → p.returnToIdle = taken.tryCatchUp) ∧
    ∀ x, p.engine.pendingStart = some x →
      let emptied : Part := { taken with engine := { taken.engine with pendingStart := none } }
      (p.fire.latch = true →
        p.returnToIdle = ({ emptied with notices := p.notices.raise (.startDropped .fire x) } : Part).tryCatchUp) ∧
      (p.fire.latch = false → taken.banks.active[x.plan] = [] →
        p.returnToIdle = ({ emptied with notices := p.notices.raise (.startDropped .emptyPlan x) } : Part).tryCatchUp) ∧
      (p.fire.latch = false → taken.banks.active[x.plan] ≠ [] → p.returnToIdle = emptied.startPlan x.plan)) ∧
  ∀ (s : State) (o : OriginatorNo) (i : SlotNo) (f : Frame) (a : Time),
    let p := s.part
    (Decides s .commitPlans o i f a →
      (p.engine.ctx = none →
        Completes .commitPlans s
          ({ p with banks := { p.banks with active := p.banks.staged } }.withAnswer o i f a .ok [] none)) ∧
      (p.engine.ctx ≠ none →
        Completes .commitPlans s
          ({ p with banks := { p.banks with commitPending := true } }.withAnswer o i f a .commitPending [] none))) ∧
    (Decides s .loadScheduleEntry o i f a → ∀ (k : Fin 16) (e : ScheduleEntry), k.val = f.param 0 → (e.enabled = true ↔ f.param 1 = 1) →
      e.minute = f.param 2 * 256 + f.param 3 → e.plan.val = f.param 4 → (e.repetition = .weekly ↔ f.param 5 = 1) →
        Completes .loadScheduleEntry s ({ p with schedule := p.schedule.set k e }.withAnswer o i f a .ok [] none))

/-- R184: SET ORIGINATOR's level, its range check, the check that an originator stays enabled with ADMINISTER, and the record
written. -/
def Obligations.SetOriginatorKeepsAnAdministrator : Prop :=
  ∀ (s : State) (o : OriginatorNo) (i : SlotNo) (f : Frame) (a : Time), Asks s .setOriginator o i f a →
    let p := s.part
    (p.originator o ≠ { enabled := true, authority := .administer } →
      Completes .setOriginator s (p.withAnswer o i f a .authority [] (some i.val))) ∧
    (p.originator o = { enabled := true, authority := .administer } →
      (3 < f.param 0 ∨ 1 < f.param 1 ∨ f.param 2 = 0 ∨ 3 < f.param 2 →
        Completes .setOriginator s (p.withAnswer o i f a .range [] (some i.val))) ∧
      ∀ (n : OriginatorNo) (e : Bool) (x : Authority), n.val = f.param 0 → f.param 1 = (if e then 1 else 0) →
        f.param 2 = (match x with | .view => 1 | .operate => 2 | .administer => 3) →
          let table := p.uplink.originators.set n { enabled := e, authority := x }
          ((∀ k : OriginatorNo, table[k] ≠ { enabled := true, authority := .administer }) →
            Completes .setOriginator s (p.withAnswer o i f a .state [] (some i.val))) ∧
          ((∃ k : OriginatorNo, table[k] = { enabled := true, authority := .administer }) →
            Completes .setOriginator s
              ({ p with uplink := { p.uplink with originators := table } }.withAnswer o i f a .ok [] none)))

/-- SET CLOCK sets the clock in either state (R126); a forward set ends the exceptions on its path in ascending slot order (R114), each
with its doors unclaimed and appended where R120 allows and an EXCEPTION ENDED notice of cause CLOCK_SET (R115), and the engine is
offered the list if anything was appended (R120). The model's own: the set begins a whole second anew, the moment being a field of the
model (log 3), and the offer is made once the new minute stands (log 42). -/
def Obligations.SetClockEndsTheExceptionsOnItsPath : Prop :=
  ∀ (s : State) (o : OriginatorNo) (i : SlotNo) (f : Frame) (a : Time), Decides s .setClock o i f a →
    let p := s.part
    let minute := f.param 0 * 256 + f.param 1
    let set (q : Part) : Part := { q with clock := { set := true, minute := minute, second := f.param 2 }, secondBegan := p.now }
    let path := forwardDistance p.clock.minute minute
    let passed (e : ExceptionRecord) := p.clock.set = true ∧ path ≤ 5040 ∧ forwardDistance p.clock.minute e.expiry ≤ path
    let ends (q : Part) (x : ExceptionNo) : Part :=
      match q.exceptions[x] with
      | none => q
      | some e =>
        let released := (List.finRange 240).filter fun d => (q.image d).claim = some x
        let appended :=
          released.filter fun d =>
            (q.config d).configured && !(q.config d).withdrawn && (q.group (q.config d).group).night && (q.entryOf d).isNone &&
              !q.catchUp.contains d
        { q with
          doors :=
            Vector.ofFn fun d =>
              if (q.image d).claim = some x then { q.door d with image := { q.image d with claim := none } } else q.door d
          catchUp := q.catchUp ++ appended
          notices := q.notices.raise (.exceptionEnded x e.owner e.expiry .clockSet released.length appended.length)
          exceptions := q.exceptions.set x none }
    let ended : Part := ((List.finRange 16).filter fun x => (p.exceptions[x]).any fun e => passed e).foldl ends p
    let offered : Part := if p.catchUp.length < ended.catchUp.length then (set ended).offerCatchUp else set ended
    ((∀ (x : ExceptionNo) e, p.exceptions[x] = some e → ¬passed e) →
      Completes .setClock s ((set p).withAnswer o i f a .ok [] none)) ∧
    Completes .setClock s (offered.withAnswer o i f a .ok [] none) ∧
    ∃ t, exec .setClock s = .next t ∧ Answers t o i f a .ok [] ∧
      t.part.clock = { set := true, minute := minute, second := f.param 2 } ∧ t.part.schedule = p.schedule ∧
      t.part.fire = p.fire ∧ t.part.watches = p.watches ∧ (∀ d, t.part.config d = p.config d) ∧
      (∀ (x : ExceptionNo) e, p.exceptions[x] = some e →
        (¬passed e → t.part.exceptions[x] = some e) ∧ (passed e → t.part.exceptions[x] = none)) ∧
      (∀ x : ExceptionNo, p.exceptions[x] = none → t.part.exceptions[x] = none) ∧
      ∀ d,
        ((∃ (x : ExceptionNo) (e : ExceptionRecord), p.exceptions[x] = some e ∧ passed e ∧ (p.image d).claim = some x) →
          (t.part.image d).claim = none) ∧
        ((∀ (x : ExceptionNo) e, p.exceptions[x] = some e → passed e → (p.image d).claim ≠ some x) →
          (t.part.image d).claim = (p.image d).claim)

/-! ## Sweeps -/

/-- The starts and the ends of sweeps. START SWEEP: the checks of R60 in order, then the start of R61, whose next small actions are the
engine's own; the response carries the sweep's number, which follows the counter's. A catch-up sweep: its start (R82), the offer of
the list (R120), its admissions from the head (R83), its end (R84) and its drain (R99). The end of a sweep: the doors not reached, the
report's status and end minute, SWEEP ENDED, the context discarded and the return to IDLE (R80, R98, R102), and the end that the fire
latch makes (R81). The engine repeats its small actions until none is left (log 13). In the end by the fire latch, a step that only a
suspension or a redo held completes first (log 12), and no outcome suspends or admits (log 25). Steps cut short write their results in
step order (log 55). -/
def Obligations.StartSweepChecksThenStarts : Prop :=
  (∀ p : Part,
    (p.engineAction = none → p.engineRun = p) ∧ p.engineRun = p.engineLoop 16384 ∧
      ∀ q n, p.engineAction = some q → p.engineLoop (n + 1) = q.engineLoop n) ∧
  (∀ (p : Part) (plan : PlanNo),
    let number := if p.engine.counter = 65535 then 1 else p.engine.counter + 1
    p.startPlan plan =
      { p with
        engine :=
          { p.engine with
            counter := number
            ctx :=
              some
                { kind := .plan plan number p.banks.active[plan].length, phase := .running, records := [], begun := 0
                  cursorStep := none, cursorPos := none, yielding := false, suspension := none, suspendTimer := none
                  redo := none, drain := none }
            planReport :=
              some
                { number := some number, plan := some plan, startMinute := p.minute, endMinute := none, status := .inProgress
                  counts := Vector.replicate 11 0, failures := [], overflow := 0, suspension := none } }
        notices := p.notices.raise (.sweepStarted (some number) (some plan) p.minute) }) ∧
  (∀ p : Part,
    let may := p.engine.ctx = none ∧ p.fire.latch = false ∧ p.engine.pendingStart = none ∧ p.catchUp ≠ []
    (may →
      p.tryCatchUp =
        { p with
          engine :=
            { p.engine with
              ctx :=
                some
                  { kind := .catchUp, phase := .running, records := [], begun := 0, cursorStep := none, cursorPos := none
                    yielding := false, suspension := none, suspendTimer := none, redo := none, drain := none }
              catchUpReport :=
                some
                  { number := none, plan := none, startMinute := p.minute, endMinute := none, status := .inProgress
                    counts := Vector.replicate 11 0, failures := [], overflow := 0, suspension := none } }
          notices := p.notices.raise (.sweepStarted none none p.minute) }) ∧
    (¬may → p.tryCatchUp = p) ∧
    (p.engine.ctx = none → p.offerCatchUp = p.tryCatchUp.engineRun) ∧
    ∀ c, p.engine.ctx = some c →
      p.offerCatchUp = if c.kind = .catchUp ∧ c.phase = .running ∧ c.yielding = false then p.engineRun else p) ∧
  (∀ (p : Part) (c : SweepContext), p.engine.ctx = some c → c.kind = .catchUp →
    let idle := ∀ n, p.entry n = none
    (c.phase = .draining →
      (∀ why, idle → c.drain = some why →
        p.engineAction = some (p.endSweep c (match why with | .abandoned => .abandoned | .aborted => .aborted))) ∧
      (¬idle → p.engineAction = none)) ∧
    (c.phase ≠ .draining →
      (idle → p.catchUp = [] ∨ c.yielding = true → p.engineAction = some (p.endSweep c .complete)) ∧
      (¬idle → p.catchUp = [] ∨ c.yielding = true → p.engineAction = none) ∧
      ∀ d rest, p.catchUp = d :: rest → c.yielding = false →
        ((p.line (p.config d).line).state ≠ .active →
          p.engineAction = some (({ p with catchUp := p.catchUp.filter fun x => x ≠ d } : Part).record d .lineDown none 0)) ∧
        ((p.line (p.config d).line).state = .active →
          ((∀ n, p.entry n ≠ none) → p.engineAction = none) ∧
          ∀ n, p.entry n = none → (∀ k < n, p.entry k ≠ none) →
            p.engineAction = some (p.enlist n d none .secure 2)))) ∧
  (∀ (p : Part) (c : SweepContext) (status : FinalStatus),
    (∀ plan number length, c.kind = .plan plan number length →
      let above (pos : Option DoorNo) (k : Nat) : Nat :=
        match p.banks.active[plan][k]? with
        | none => 0
        | some step =>
          ((List.finRange 240).filter fun d =>
            (pos.all fun x => decide (x < d)) &&
              ((p.config d).configured && (step.group.val = 32 || step.group.val = (p.config d).group.val))).length
      let unreached : Nat :=
        (c.records.map fun y => if y.admissionDone then 0 else above c.cursorPos y.index).sum +
          ((List.range length).map fun k => if k < c.begun then 0 else above none k).sum
      let cut : Part := c.records.foldl (fun q y => q.cutStep c plan number y) p
      p.endSweep c status =
        ({ cut with
          engine :=
            { cut.engine with
              ctx := none
              planReport :=
                p.engine.planReport.map fun r =>
                  { r with
                    counts := r.counts.set 10 (min 65535 (r.counts[10] + unreached)), status := status
                    endMinute := some p.minute } }
          notices := p.notices.raise (.sweepEnded (some number) (some plan) status) } : Part).returnToIdle) ∧
    (c.kind = .catchUp →
      p.endSweep c status =
        ({ p with
          engine :=
            { p.engine with
              ctx := none
              catchUpReport := p.engine.catchUpReport.map fun r => { r with status := status, endMinute := some p.minute } }
          notices := p.notices.raise (.sweepEnded none none status) } : Part).returnToIdle)) ∧
  (∀ p : Part,
    (p.engine.ctx = none → p.fireEndsSweep = p) ∧
    ∀ c, p.engine.ctx = some c →
      let stopped : Part :=
        { p with
          engine :=
            { p.engine with ctx := some { c with phase := .draining, suspension := none, suspendTimer := none, redo := none } } }
      let ended : Part :=
        ((List.finRange 16).filter fun n => (p.entry n).isSome).foldl (fun q n => q.endEntry n .fire) stopped.completeSteps
      ∀ c', ended.engine.ctx = some c' → p.fireEndsSweep = (ended.endSweep c' .fire).engineRun) ∧
  ∀ (s : State) (o : OriginatorNo) (i : SlotNo) (f : Frame) (a : Time) (plan : PlanNo), Decides s .startSweep o i f a →
    plan.val = f.param 0 →
      let p := s.part
      let number := if p.engine.counter = 65535 then 1 else p.engine.counter + 1
      let started : Part :=
        { p with
          engine :=
            { p.engine with
              counter := number
              ctx :=
                some
                  { kind := .plan plan number p.banks.active[plan].length, phase := .running, records := [], begun := 0
                    cursorStep := none, cursorPos := none, yielding := false, suspension := none, suspendTimer := none
                    redo := none, drain := none }
              planReport :=
                some
                  { number := some number, plan := some plan, startMinute := p.minute, endMinute := none, status := .inProgress
                    counts := Vector.replicate 11 0, failures := [], overflow := 0, suspension := none } }
          notices := p.notices.raise (.sweepStarted (some number) (some plan) p.minute) }
      (p.fire.latch = true → Completes .startSweep s (p.withAnswer o i f a .fireHold [] (some i.val))) ∧
      (p.fire.latch = false → p.engine.ctx ≠ none → Completes .startSweep s (p.withAnswer o i f a .busy [] (some i.val))) ∧
      (p.fire.latch = false → p.engine.ctx = none → p.banks.active[plan] = [] →
        Completes .startSweep s (p.withAnswer o i f a .range [] (some i.val))) ∧
      (p.fire.latch = false → p.engine.ctx = none → p.banks.active[plan] ≠ [] → p.FireSafe →
        Completes .startSweep s (started.engineRun.withAnswer o i f a .ok [byte (number / 256), byte number] none) ∧
        ∃ t, exec .startSweep s = .next t ∧ Answers t o i f a .ok [byte (number / 256), byte number] ∧
          t.part.engine.counter = number ∧
          (∃ r, t.part.engine.planReport = some r ∧ r.number = some number ∧ r.plan = some plan ∧ r.startMinute = p.minute) ∧
          (∀ d, t.part.config d = p.config d) ∧ t.part.exceptions = p.exceptions ∧ t.part.clock = p.clock ∧
          t.part.schedule = p.schedule ∧ t.part.fire = p.fire ∧ t.part.watches = p.watches ∧
          ∀ n, t.part.originator n = p.originator n)

/-- CONTINUE SWEEP, ABANDON SWEEP and ABORT SWEEP: the states in which each is taken, and what each leaves of the context and the work
set before the engine's completion tests and admission attempts (R90 to R96). The model's own: a redo door that still waits is dropped
by SKIP and replaced by REDO (log 41), ABANDON SWEEP completes at once a step that only a dropped redo held (log 56), and ABORT SWEEP
completes one that only the suspension or the redo held before it ends the entries, all of them before the next admission (log 12). -/
def Obligations.SweepsAreContinuedAndEndedEarly : Prop :=
  ∀ (s : State) (o : OriginatorNo) (i : SlotNo) (f : Frame) (a : Time),
    let p := s.part
    let state : Part := p.withAnswer o i f a .state [] (some i.val)
    let leaves (c : SweepContext) : Part := { p with engine := { p.engine with ctx := some c } }
    let drained (c : SweepContext) (why : DrainReason) : SweepContext :=
      { c with phase := .draining, suspendTimer := none, suspension := none, redo := none, drain := some why }
    (Decides s .continueSweep o i f a →
      ((∀ c, p.engine.ctx = some c → c.phase ≠ .suspended) → Completes .continueSweep s state) ∧
      ∀ c, p.engine.ctx = some c → c.phase = .suspended →
        (f.param 0 = 1 →
          Completes .continueSweep s
            ((leaves { c with phase := .running, suspendTimer := none, redo := none, suspension := none }).engineRun.withAnswer o i f a
              .ok [] none)) ∧
        (f.param 0 = 2 →
          Completes .continueSweep s
            ((leaves { c with phase := .running, suspendTimer := none, redo := c.suspension, suspension := none }).engineRun.withAnswer
              o i f a .ok [] none))) ∧
    (Decides s .abandonSweep o i f a →
      ((∀ c, p.engine.ctx = some c → c.phase = .draining) → Completes .abandonSweep s state) ∧
      ∀ c, p.engine.ctx = some c → c.phase ≠ .draining →
        Completes .abandonSweep s ((leaves (drained c .abandoned)).engineRun.withAnswer o i f a .ok [] none)) ∧
    (Decides s .abortSweep o i f a →
      (p.engine.ctx = none → Completes .abortSweep s state) ∧
      ∀ c, p.engine.ctx = some c →
        let atOnce (n : EntryNo) (e : WorkEntry) : Bool :=
          e.outstanding = .nothing ||
            e.outstanding = .request && !((p.line (p.lineOf e.door)).queue.any fun r => r.source = some (.entry n) && r.inFlight)
        let marked : Part :=
          { p with
            engine :=
              { p.engine with
                ctx := some (drained c .aborted)
                workSet :=
                  Vector.ofFn fun n => (p.engine.workSet[n]).map fun e => if atOnce n e then e else { e with aborting := true } } }
        let ended := (List.finRange 16).filter fun n => (p.entry n).any (atOnce n)
        Completes .abortSweep s
          ((ended.foldl (fun q n => q.endEntry n .aborted) marked.completeSteps).engineRun.withAnswer o i f a .ok [] none))

/-- CLOSE_WAIT_DEADLINE ends a waiting entry HELD_OPEN (R70), and SUSPEND_TIMER_EXPIRY continues as SKIP does and queues SUSPEND TIMED
OUT (R94), after the notices of the continuation (log 24); each moves time to its moment (log 4). A redo door that still waits is dropped
at the suspend timeout (log 41). Where the door has no entry, or one that does not wait for its leaf, and where there is no sweep or one
whose suspend timer is stopped, they change nothing (log 1). -/
def Obligations.TheSweepTimersAct : Prop :=
  ∀ s : State, s.part.working = true →
    let p := s.part
    (∀ d,
      (p.entryOf d = none → Completes (.closeWaitDeadline d) s p) ∧
      (∀ n e, p.entryOf d = some (n, e) → e.stage ≠ .close ∨ e.outstanding ≠ .nothing ∨ e.deadline = none →
        Completes (.closeWaitDeadline d) s p) ∧
      ∀ n e t, p.entryOf d = some (n, e) → e.stage = .close → e.outstanding = .nothing → e.deadline = some t →
        Completes (.closeWaitDeadline d) s ({ p with now := max p.now t }.endEntry n .heldOpen).engineRun) ∧
    (p.engine.ctx = none → Completes .suspendTimerExpiry s p) ∧
    (∀ c, p.engine.ctx = some c → c.suspendTimer = none ∨ c.suspension = none ∨ c.kind = .catchUp →
      Completes .suspendTimerExpiry s p) ∧
    ∀ c t d k plan number length, p.engine.ctx = some c → c.suspendTimer = some t → c.suspension = some (d, k) →
      c.kind = .plan plan number length →
        Completes .suspendTimerExpiry s
          ({ p with
              now := max p.now t
              engine :=
                { p.engine with
                  ctx := some { c with phase := .running, suspendTimer := none, redo := none, suspension := none } } }.engineRun.raise
            (.suspendTimedOut number d k))

/-- Steps and their doors. The tests of R64 on a door that a step reaches, the admission into the lowest free entry (R66, R122), and the
search for the next member (R57, R63). What a step's beginning writes of its groups and the catch-up list, the admission of a step with
no members being done at once, so that the steps after it begin before any redo (R22, R59, R62), what the handling of its first
door and of every door writes (R22, R59, R63), and the redo door (R92, R93; the note it takes back is the one its earlier outcome made, in
the group noted then, log 34). The order of the engine's small actions in a plan sweep: a complete step completes
(R79), a drain ends (R98), a step begins in its turn (R62), the redo door and then the cursor are handled (R65, R92), the sweep completes
(R80); none in SUSPENDED but the completion of a step (R89). Read by inference: a cursor that waited searches anew (log 48), and after a
redo that is dropped the attempt goes on (log 49). -/
def Obligations.DoorsAreHandledInOrder : Prop :=
  (∀ (p : Part) (c : SweepContext) (plan : PlanNo) (number length : Nat), p.engine.ctx = some c → c.kind = .plan plan number length →
    let idle := ∀ n, p.entry n = none
    let complete (r : StepRecord) :=
      r.admissionDone = true ∧ r.ended = r.handled ∧ (∀ d, c.suspension ≠ some (d, r.index)) ∧ ∀ d, c.redo ≠ some (d, r.index)
    let due :=
      ∀ r, (c.records.find? fun r => r.index + 1 = c.begun) = some r →
        r.admissionDone = true ∧ ∃ step, p.banks.active[plan][r.index]? = some step ∧ step.overlap = true
    (∀ before r after, c.records = before ++ r :: after → (∀ r' ∈ before, ¬complete r') → complete r →
      p.engineAction = some (p.completeStep plan number r)) ∧
    ((∀ r ∈ c.records, ¬complete r) →
      (c.phase = .suspended → p.engineAction = none) ∧
      (c.phase = .draining →
        (∀ why, idle → c.drain = some why →
          p.engineAction = some (p.endSweep c (match why with | .abandoned => .abandoned | .aborted => .aborted))) ∧
        (¬idle → p.engineAction = none)) ∧
      (c.phase = .running →
        (∀ step, c.begun < length → due → p.banks.active[plan][c.begun]? = some step →
          p.engineAction = some (p.beginStep c.begun step)) ∧
        (¬(c.begun < length ∧ due) →
          (∀ d k, c.redo = some (d, k) → p.engineAction = p.redoMove plan d k) ∧
          (c.redo = none → c.begun = length ∧ c.records = [] ∧ idle → p.engineAction = some (p.endSweep c .complete)) ∧
          (c.redo = none → ¬(c.begun = length ∧ c.records = [] ∧ idle) → p.engineAction = p.cursorMove c plan))))) ∧
  (∀ (p : Part) (c : SweepContext) (k : Nat) (step : PlanStep), p.engine.ctx = some c →
    let covers (g : GroupNo) := step.group.val = 32 ∨ step.group.val = g.val
    let night (b : Bool) : Vector GroupRecord 32 := Vector.ofFn fun g => if covers g then { p.group g with night := b } else p.group g
    let begun (memberless : Bool) (groups : Vector GroupRecord 32) (catchUp : List DoorNo) : Part :=
      { p with
        groups := groups
        catchUp := catchUp
        engine :=
          { p.engine with
            ctx :=
              some
                { c with
                  records := c.records ++ [{ index := k, admissionDone := memberless, handled := 0, ended := 0, unclean := [] }]
                  begun := k + 1, cursorStep := if memberless = true then none else some k, cursorPos := none } } }
    let members := ∃ d, (p.config d).configured = true ∧ (step.group.val = 32 ∨ step.group.val = (p.config d).group.val)
    let kept := p.catchUp.filter fun d => ¬covers (p.config d).group
    (step.action = .release → ¬members → p.beginStep k step = begun true (night false) kept) ∧
    (step.action = .release → members → p.beginStep k step = begun false (night false) kept) ∧
    (step.action = .secure → ¬members → p.beginStep k step = begun true (night true) p.catchUp) ∧
    (step.action = .secure → members → p.beginStep k step = begun false p.groups p.catchUp)) ∧
  (∀ (p : Part) (c : SweepContext) (plan : PlanNo) (k : Nat) (step : PlanStep), p.engine.ctx = some c → c.cursorStep = some k →
    p.banks.active[plan][k]? = some step →
      let leaves (y : SweepContext) : Part := { p with engine := { p.engine with ctx := some y } }
      let edited (f : StepRecord → StepRecord) := c.records.map fun r => if r.index = k then f r else r
      (p.nextMember step c.cursorPos = none →
        p.cursorMove c plan =
          some
            (leaves
              { c with
                records := edited fun r => { r with admissionDone := true }, cursorStep := none, cursorPos := none })) ∧
      ∀ d, p.nextMember step c.cursorPos = some d →
        let first := step.action = .secure ∧ ∃ r ∈ c.records, r.index = k ∧ r.handled = 0
        let counted : Part :=
          { leaves { c with records := edited fun r => { r with handled := r.handled + 1 }, cursorPos := some d } with
            groups :=
              Vector.ofFn fun g =>
                if first ∧ (step.group.val = 32 ∨ step.group.val = g.val) then { p.group g with night := true } else p.group g }
        (p.handling step.action d = .wait → p.cursorMove c plan = none) ∧
        (∀ x, p.handling step.action d = .outcome x → p.cursorMove c plan = some (counted.record d x (some k) 0)) ∧
        ∀ n, p.handling step.action d = .enlist n →
          p.cursorMove c plan = some (counted.enlist n d (some k) step.action step.retries)) ∧
  (∀ (p : Part) (c : SweepContext) (plan : PlanNo) (d : DoorNo) (k : Nat) (step : PlanStep), p.engine.ctx = some c →
    p.banks.active[plan][k]? = some step →
      let leaves (y : SweepContext) : Part := { p with engine := { p.engine with ctx := some y } }
      let member := (p.config d).configured = true ∧ (step.group.val = 32 ∨ step.group.val = (p.config d).group.val)
      let reopened : Part :=
        leaves
          { c with
            redo := none
            records :=
              c.records.map fun r =>
                if r.index = k then { r with ended := r.ended - 1, unclean := r.unclean.filter fun x => x.1 ≠ d } else r }
      (¬member → p.redoMove plan d k = some (leaves { c with redo := none })) ∧
      (member →
        (p.handling step.action d = .wait → p.redoMove plan d k = none) ∧
        (∀ x, p.handling step.action d = .outcome x → p.redoMove plan d k = some (reopened.record d x (some k) 0)) ∧
        ∀ n, p.handling step.action d = .enlist n →
          p.redoMove plan d k = some (reopened.enlist n d (some k) step.action step.retries))) ∧
  (∀ (p : Part) (action : Action) (d : DoorNo),
    p.handling action d =
      if (p.config d).withdrawn = true then .outcome .withdrawn
      else if action = .secure ∧ (p.image d).claim ≠ none then .outcome .excepted
      else if (p.line (p.config d).line).state ≠ .active then .outcome .lineDown
      else if ∃ n e, p.entry n = some e ∧ e.door = d then .wait
      else
        match (List.finRange 16).find? fun n => (p.entry n).isNone with
        | none => .wait
        | some n => .enlist n) ∧
  (∀ (p : Part) (step : PlanStep) (pos : Option DoorNo) (d : DoorNo),
    p.nextMember step pos = some d ↔
      ((p.config d).configured = true ∧ (step.group.val = 32 ∨ step.group.val = (p.config d).group.val) ∧ ∀ x ∈ pos, x < d) ∧
        ∀ d' < d, (p.config d').configured = true → step.group.val = 32 ∨ step.group.val = (p.config d').group.val →
          ∃ x ∈ pos, d' ≤ x) ∧
  (∀ (p : Part) (n : EntryNo) (d : DoorNo) (step : Option Nat) (action : Action) (retries : Nat),
    let e : WorkEntry :=
      { door := d, step := step, action := action, retries := retries, stage := .check, attempt := 0, deadline := none
        outstanding := .nothing, finalRetract := false, aborting := false }
    let admitted : Part :=
      { p with
        catchUp := p.catchUp.filter fun x => x ≠ d
        engine := { p.engine with workSet := p.engine.workSet.set n (some e) } }
    p.enlist n d step action retries =
      match admitted.check n e with
      | (q, none) => q
      | (q, some x) => q.endEntry n x) ∧
  ∀ (p : Part) (n : EntryNo) (d : DoorNo) (step : Option Nat) (action : Action) (retries : Nat), p.entry n = none →
    (∀ m e, p.entry m = some e → e.door ≠ d) →
      d ∉ (p.enlist n d step action retries).catchUp ∧
        ∀ e, (p.enlist n d step action retries).entry n = some e →
          e.door = d ∧ e.step = step ∧ e.action = action ∧ e.retries = retries ∧ e.attempt = 0 ∧ e.aborting = false

/-- The recording of an outcome of a plan sweep, any but NOT_REACHED (R78): the door's last outcome, the report's count and failure list
(R101), the step's record (R59; that a note keeps its door is log 34), and the suspension test with the report's suspension door (R88).
The recording of an outcome of a catch-up sweep, which has no step and is not suspended (R78, R101). The end of an entry: its outcome, the
withdrawal from what is outstanding (R67), the freed entry, then the test that completes every complete step, in step order (R78, R79).
What the completion of a step writes of its groups (R23, R79), and what a sweep's end writes for a step that it cuts short, its doors not
reached counted among the unclean (R23, R98). -/
def Obligations.OutcomesAreRecorded : Prop :=
  (∀ (p : Part) (n : EntryNo) (x : SweepOutcome),
    (p.entry n = none → p.endEntry n x = p) ∧
    ∀ e, p.entry n = some e →
      p.endEntry n x =
        (((p.record e.door x e.step e.attempt).withdraw (p.config e.door).line (.entry n)).setEntry n none).completeSteps) ∧
  (∀ p : Part,
    (p.engine.ctx = none → p.completeSteps = p) ∧
    ∀ c, p.engine.ctx = some c →
      (c.kind = .catchUp → p.completeSteps = p) ∧
      ∀ plan number length, c.kind = .plan plan number length →
        let complete (r : StepRecord) :=
          r.admissionDone = true ∧ r.ended = r.handled ∧ c.suspension.map (·.2) ≠ some r.index ∧ c.redo.map (·.2) ≠ some r.index
        p.completeSteps = (c.records.filter fun r => complete r).foldl (fun q r => q.completeStep plan number r) p) ∧
  (∀ (p : Part) (c : SweepContext) (plan : PlanNo) (number : Nat) (r : StepRecord) (step : PlanStep), p.engine.ctx = some c →
    p.banks.active[plan][r.index]? = some step →
      let written (unclean : GroupNo → Prop) [DecidablePred unclean] : Vector GroupRecord 32 :=
        Vector.ofFn fun g =>
          if step.group.val = 32 ∨ step.group.val = g.val then
            { p.group g with lastResult := if unclean g then .partly else .clean, resultSweep := some number }
          else p.group g
      let notReached (d : DoorNo) :=
        r.admissionDone = false ∧ (∀ x ∈ c.cursorPos, x < d) ∧ (p.config d).configured = true ∧
          (step.group.val = 32 ∨ step.group.val = (p.config d).group.val)
      p.completeStep plan number r =
          { p with
            groups := written fun g => ∃ x ∈ r.unclean, x.2 = g
            engine := { p.engine with ctx := some { c with records := c.records.filter fun y => y.index ≠ r.index } } } ∧
        p.cutStep c plan number r =
          { p with groups := written fun g => (∃ x ∈ r.unclean, x.2 = g) ∨ ∃ d, notReached d ∧ (p.config d).group = g }) ∧
  (∀ (p : Part) (c : SweepContext) (plan : PlanNo) (number length : Nat) (r : SweepReport) (d : DoorNo) (x : SweepOutcome) (k attempt : Nat),
    p.engine.ctx = some c → c.kind = .plan plan number length → p.engine.planReport = some r → x ≠ .notReached →
      let q := p.record d x (some k) attempt
      let unclean := x ≠ .secured ∧ x ≠ .released ∧ x ≠ .withdrawn ∧ x ≠ .excepted
      let failure := x = .heldOpen ∨ x = .boltFault ∨ x = .noReply ∨ x = .lineDown ∨ x = .aborted ∨ x = .fire
      let strict := ∃ step, p.banks.active[plan][k]? = some step ∧ step.strict = true
      let records :=
        c.records.map fun y =>
          if y.index = k then
            { y with ended := y.ended + 1, unclean := if unclean then (d, (p.config d).group) :: y.unclean else y.unclean }
          else y
      (∀ d', q.image d' = if d' = d then { p.image d with lastOutcome := some x } else p.image d') ∧
      (∀ n, q.entry n = p.entry n) ∧ (∀ l, q.line l = p.line l) ∧ (∀ g, q.group g = p.group g) ∧
      (∃ y, q.engine.planReport = some y ∧ y.counts = r.counts.set x.place (min 65535 (r.counts[x.place] + 1)) ∧
        y.status = r.status ∧ y.endMinute = r.endMinute ∧
        (c.phase = .running ∧ unclean ∧ strict → y.suspension = some (d, k)) ∧
        (¬(c.phase = .running ∧ unclean ∧ strict) → y.suspension = r.suspension) ∧
        y.failures =
          (if failure ∧ r.failures.length < 48 then
            r.failures ++ [{ door := d, outcome := x, step := some k, attempt := attempt }]
          else r.failures) ∧
        y.overflow = (if failure ∧ 48 ≤ r.failures.length then min 255 (r.overflow + 1) else r.overflow)) ∧
      (c.phase = .running ∧ unclean ∧ strict →
        q.engine.ctx =
            some
              { c with
                records := records, phase := .suspended, suspension := some (d, k), suspendTimer := some (p.now + 900 * 576000) } ∧
          q.notices = p.notices.raise (.sweepSuspended number k d x)) ∧
      (¬(c.phase = .running ∧ unclean ∧ strict) → q.engine.ctx = some { c with records := records } ∧ q.notices = p.notices)) ∧
  ∀ (p : Part) (c : SweepContext) (d : DoorNo) (x : SweepOutcome) (attempt : Nat), p.engine.ctx = some c → c.kind = .catchUp →
    let failure := x = .heldOpen ∨ x = .boltFault ∨ x = .noReply ∨ x = .lineDown ∨ x = .aborted ∨ x = .fire
    p.record d x none attempt =
      { p with
        doors := p.doors.set d { p.door d with image := { p.image d with lastOutcome := some x } }
        engine :=
          { p.engine with
            catchUpReport :=
              p.engine.catchUpReport.map fun r =>
                { r with
                  counts := r.counts.set x.place (min 65535 (r.counts[x.place] + 1))
                  failures :=
                    if failure ∧ r.failures.length < 48 then
                      r.failures ++ [{ door := d, outcome := x, step := none, attempt := attempt }]
                    else r.failures
                  overflow := if failure ∧ 48 ≤ r.failures.length then min 255 (r.overflow + 1) else r.overflow } } }

/-- The stages of a work-set entry. CHECK (R68); the close evaluation with the motion carried back to it (R69, R70; that an entry which
waits is evaluated like any other is log 23); THROW and CONFIRM of a SECURE entry with the return to CLOSE and the final retract (R71,
R72); RETRACT, CONFIRM and ENGAGE of a RELEASE entry (R74 to R76); the attempts (R73); an aborting entry (R97). What a line event gives
an entry ends it and lets the engine go on. -/
def Obligations.SecureEntriesCloseThenThrow : Prop :=
  (∀ (p : Part) (n : EntryNo) (e : WorkEntry) (ev : EntryEvent), p.entry n = some e →
    p.entryEvent n ev =
      match p.entryActs n e ev with
      | (q, none) => q
      | (q, some x) => (q.endEntry n x).engineRun) ∧
  ∀ (p : Part) (n : EntryNo) (e : WorkEntry),
    let m := p.image e.door
    let l := (p.config e.door).line
    let asks (stage : Stage) (cmd : LineCmd) (e : WorkEntry) : StageResult :=
      let r :=
        (p.setEntry n (some { e with stage := stage, outstanding := .request, deadline := none })).submit cmd e.door (.entry n)
      (r.1, if r.2 = true then none else some .lineDown)
    let rest : WorkEntry := { e with outstanding := .nothing }
    let again : WorkEntry := { rest with attempt := e.attempt + 1 }
    let waiting := e.stage = .close ∧ e.outstanding = .nothing ∧ e.deadline ≠ none
    let inFlight := ∃ r ∈ (p.line l).queue, r.source = some (.entry n) ∧ r.inFlight = true
    let afterCheck : StageResult :=
      match e.action with
      | .secure => p.closeEvaluation n rest
      | .release => asks .retract .driveRetract e
    (m.settled = .current → p.check n e = afterCheck) ∧
    (m.settled ≠ .current → p.check n e = asks e.stage .pollNow e) ∧
    (e.outstanding = .motion ∨ e.outstanding = .carriedMotion →
      p.closeEvaluation n e =
        (p.setEntry n (some { e with stage := .close, outstanding := .carriedMotion, deadline := none }), none)) ∧
    (e.outstanding = .nothing ∨ e.outstanding = .request →
      p.closeEvaluation n e =
        if m.bolt = .thrown ∧ m.position ≠ .closed then asks .close .driveRetract e
        else if m.holder = .holding then asks .close .holderRelease e
        else if m.position = .closed then asks .throwing .driveThrow e
        else
          (p.setEntry n
            (some
              { e with
                stage := .close, outstanding := .nothing
                deadline := some (e.deadline.getD (p.now + (p.config e.door).closeWait * 576000)) }), none)) ∧
    (e.aborting = true →
      p.entryActs n e .reply = (p, none) ∧ p.entryActs n e .silent = (p, none) ∧
        ∀ ev, ev ≠ .reply → ev ≠ .silent → p.entryActs n e ev = (p, some .aborted)) ∧
    (e.aborting = false →
      p.entryActs n e .polled = afterCheck ∧
      p.entryActs n e .acceptDrive =
        (p.setEntry n
          (some { e with outstanding := .motion, stage := if e.stage = .close then .close else .confirm }), none) ∧
      p.entryActs n e .acceptHolder = (if e.stage = .engage then (p, some .released) else p.closeEvaluation n rest) ∧
      p.entryActs n e .refuseMoving = (p, none) ∧
      (∀ (ev : EntryEvent) (x : SweepOutcome), (ev, x) ∈ [(EntryEvent.refused, SweepOutcome.boltFault), (.noReply, .noReply)] →
        p.entryActs n e ev =
          (p, some (if e.finalRetract = true then .heldOpen else if e.stage = .engage then .released else x))) ∧
      p.entryActs n e .silent = (p, if waiting then some .noReply else none) ∧
      (waiting → p.entryActs n e .reply = p.closeEvaluation n e) ∧
      (¬waiting →
        (m.position = .closed → p.entryActs n e .reply = (p, none)) ∧
        (m.position ≠ .closed →
          (e.stage = .throwing →
            (inFlight → p.entryActs n e .reply = (p, none)) ∧
            (¬inFlight → p.entryActs n e .reply = (p.withdraw l (.entry n)).closeEvaluation n rest)) ∧
          (e.stage = .confirm → e.action = .secure → e.finalRetract = false →
            p.entryActs n e .reply = p.closeEvaluation n e) ∧
          (e.stage ≠ .throwing → ¬(e.stage = .confirm ∧ e.action = .secure ∧ e.finalRetract = false) →
            p.entryActs n e .reply = (p, none)))) ∧
      ∀ b : Option (Bolt × Position),
        (e.finalRetract = true → p.entryActs n e (.motionEnd b) = (p, some .heldOpen)) ∧
        (e.finalRetract = false →
          (e.stage = .close →
            (e.outstanding = .carriedMotion ∨ b.map (·.1) = some .retracted →
              p.entryActs n e (.motionEnd b) = p.closeEvaluation n rest) ∧
            (e.outstanding ≠ .carriedMotion → b.map (·.1) ≠ some .retracted →
              p.entryActs n e (.motionEnd b) = (p, some .boltFault))) ∧
          (e.stage ≠ .close → e.action = .secure →
            (b = some (.thrown, .closed) → p.entryActs n e (.motionEnd b) = (p, some .secured)) ∧
            (∀ position, position ≠ .closed → b = some (.thrown, position) →
              (e.attempt < e.retries → p.entryActs n e (.motionEnd b) = p.closeEvaluation n again) ∧
              (e.retries ≤ e.attempt →
                p.entryActs n e (.motionEnd b) = asks e.stage .driveRetract { e with finalRetract := true })) ∧
            (b.map (·.1) ≠ some .thrown →
              (e.attempt < e.retries → p.entryActs n e (.motionEnd b) = asks .throwing .driveThrow again) ∧
              (e.retries ≤ e.attempt → p.entryActs n e (.motionEnd b) = (p, some .boltFault)))) ∧
          (e.stage ≠ .close → e.action = .release →
            let held := (p.config e.door).holderFitted = true ∧ (p.config e.door).holdAtRelease = true
            (b.map (·.1) = some .retracted →
              (held → p.entryActs n e (.motionEnd b) = asks .engage .holderEngage e) ∧
              (¬held → p.entryActs n e (.motionEnd b) = (p, some .released))) ∧
            (b.map (·.1) ≠ some .retracted →
              (e.attempt < e.retries → p.entryActs n e (.motionEnd b) = asks .retract .driveRetract again) ∧
              (e.retries ≤ e.attempt → p.entryActs n e (.motionEnd b) = (p, some .boltFault))))))

/-! ## Exceptions and watches -/

/-- CREATE EXCEPTION: the checks of R108 in order, then the lowest FREE slot written, the doors claimed and out of the catch-up list
(R109), and EXCEPTED given to each SECURE entry of a claimed door (R110), all of them before the engine's next admission (log 12). -/
def Obligations.CreateExceptionClaimsItsDoors : Prop :=
  ∀ (s : State) (o : OriginatorNo) (i : SlotNo) (f : Frame) (a : Time), Decides s .createException o i f a →
    let p := s.part
    let ds := p.doorsOf f.doorSet
    let expiry := f.param 0 * 256 + f.param 1
    let ahead := forwardDistance p.clock.minute expiry
    let refused (c : Completion) (detail : Nat) := Completes .createException s (p.withAnswer o i f a c [] (some detail))
    let repeats := f.param 2 = 2 ∧ ¬ds.Nodup
    (∀ d, d ∈ ds ↔
      (f.param 2 = 1 ∧ (p.config d).configured = true ∧ (p.config d).group.val = f.param 3) ∨
        (f.param 2 = 2 ∧ byte d.val ∈ f.params.drop 4)) ∧
    (p.clock.set = false → refused .clockUnset i.val) ∧
    (p.clock.set = true →
      (ahead < 1 ∨ 720 < ahead ∨ repeats → refused .range i.val) ∧
      (1 ≤ ahead → ahead ≤ 720 → ¬repeats →
        ((∃ d ∈ ds, (p.config d).configured = false) → refused .notConfigured i.val) ∧
        ((∀ d ∈ ds, (p.config d).configured = true) →
          (∀ d x, d ∈ ds → (p.image d).claim = some x → (∀ d' ∈ ds, d' < d → (p.image d').claim = none) → refused .claimed x.val) ∧
          ((∀ d ∈ ds, (p.image d).claim = none) →
            ((∀ x : ExceptionNo, p.exceptions[x] ≠ none) → refused .noSlot i.val) ∧
            ∀ x : ExceptionNo, p.exceptions[x] = none → (∀ y < x, p.exceptions[y] ≠ none) →
              let claimed : Part :=
                { p with
                  exceptions :=
                    p.exceptions.set x (some { owner := o, expiry := expiry, doors := f.doorSet, created := p.clock.minute })
                  doors :=
                    Vector.ofFn fun d =>
                      if d ∈ ds then { p.door d with image := { p.image d with claim := some x } } else p.door d
                  catchUp := p.catchUp.filter fun d => d ∉ ds }
              let ended := (List.finRange 16).filter fun n => (p.entry n).any fun e => e.action = .secure && ds.contains e.door
              let excepted : Part := if ended = [] then claimed else (ended.foldl (fun q n => q.endEntry n .excepted) claimed).engineRun
              Completes .createException s (excepted.withAnswer o i f a .ok [byte x, byte ds.length] none)))))

/-- EXTEND EXCEPTION and END EXCEPTION: their checks in order (R111, R112) and effects, and the one action by which an exception ends
(R115): its doors unclaimed, appended where R120 allows, its notice, its slot FREE; the engine is offered the list if anything was
appended (R120). -/
def Obligations.ExceptionsAreExtendedAndEnded : Prop :=
  (∀ (s : State) (o : OriginatorNo) (i : SlotNo) (f : Frame) (a : Time) (x : ExceptionNo), x.val = f.param 0 →
    let p := s.part
    let expiry := f.param 1 * 256 + f.param 2
    let ahead := forwardDistance p.clock.minute expiry
    let mayAct (e : ExceptionRecord) := o = e.owner ∨ p.originator o = { enabled := true, authority := .administer }
    (Decides s .extendException o i f a →
      (p.exceptions[x] = none → Completes .extendException s (p.withAnswer o i f a .state [] (some i.val))) ∧
      ∀ e, p.exceptions[x] = some e →
        (¬mayAct e → Completes .extendException s (p.withAnswer o i f a .authority [] (some i.val))) ∧
        (mayAct e → ahead < 1 ∨ 720 < ahead → Completes .extendException s (p.withAnswer o i f a .range [] (some i.val))) ∧
        (mayAct e → 1 ≤ ahead → ahead ≤ 720 →
          Completes .extendException s
            ({ p with exceptions := p.exceptions.set x (some { e with expiry := expiry }) }.withAnswer o i f a .ok [] none))) ∧
    (Decides s .endException o i f a →
      (p.exceptions[x] = none → Completes .endException s (p.withAnswer o i f a .state [] (some i.val))) ∧
      ∀ e, p.exceptions[x] = some e →
        (¬mayAct e → Completes .endException s (p.withAnswer o i f a .authority [] (some i.val))) ∧
        (mayAct e →
          let ended := p.endException x .ended
          let offered := if p.catchUp.length < ended.catchUp.length then ended.offerCatchUp else ended
          Completes .endException s (offered.withAnswer o i f a .ok [] none)))) ∧
  (∀ a b, a < 10080 → b < 10080 → forwardDistance a b = (b + 10080 - a) % 10080) ∧
  ∀ (p : Part) (x : ExceptionNo) (e : ExceptionRecord) (cause : ExceptionCause), p.exceptions[x] = some e →
    let released := (List.finRange 240).filter fun d => (p.image d).claim = some x
    let appended :=
      released.filter fun d =>
        (p.config d).configured && !(p.config d).withdrawn && (p.group (p.config d).group).night && (p.entryOf d).isNone &&
          !p.catchUp.contains d
    p.endException x cause =
      { p with
        doors :=
          Vector.ofFn fun d =>
            if (p.image d).claim = some x then { p.door d with image := { p.image d with claim := none } } else p.door d
        catchUp := p.catchUp ++ appended
        notices := p.notices.raise (.exceptionEnded x e.owner e.expiry cause released.length appended.length)
        exceptions := p.exceptions.set x none }

/-- R174: DISARM WATCH's level and range, its checks in order, and the slot it empties with no notice. -/
def Obligations.DisarmWatchEmptiesItsSlot : Prop :=
  ∀ (s : State) (o : OriginatorNo) (i : SlotNo) (f : Frame) (a : Time), Asks s .disarmWatch o i f a →
    let p := s.part
    let operates := (p.originator o).enabled = true ∧ (p.originator o).authority ≠ .view
    (¬operates → Completes .disarmWatch s (p.withAnswer o i f a .authority [] (some i.val))) ∧
    (operates → 7 < f.param 0 → Completes .disarmWatch s (p.withAnswer o i f a .range [] (some i.val))) ∧
    ∀ k : Fin 8, operates → k.val = f.param 0 →
      (p.watches[k] = none → Completes .disarmWatch s (p.withAnswer o i f a .state [] (some i.val))) ∧
      ∀ w, p.watches[k] = some w →
        (o ≠ w.owner → (p.originator o).authority ≠ .administer →
          Completes .disarmWatch s (p.withAnswer o i f a .authority [] (some i.val))) ∧
        (o = w.owner ∨ (p.originator o).authority = .administer →
          Completes .disarmWatch s ({ p with watches := p.watches.set k none }.withAnswer o i f a .ok [] none))

/-- ARM WATCH: an unconfigured door NOT_CONFIGURED, no EMPTY slot NO_SLOT, and the lowest EMPTY slot written, its number returned
(R170). The watch fires on the first door change that matches it, and its slot is then EMPTY (R171, R172); a door change is tested
against the eight slots in ascending order (R172). -/
def Obligations.WatchesAreArmedAndFireOnce : Prop :=
  (∀ (s : State) (o : OriginatorNo) (i : SlotNo) (f : Frame) (a : Time) (target : WatchTarget) (condition : WatchCondition),
    Decides s .armWatch o i f a →
      (match target with
        | .door d => f.param 0 = 1 ∧ f.param 1 = d.val
        | .group g => f.param 0 = 2 ∧ f.param 1 = g.val) →
      f.param 2 = (match condition with | .change => 1 | .opens => 2 | .secures => 3) →
        let p := s.part
        let missing := ∃ d, target = .door d ∧ (p.config d).configured = false
        (missing → Completes .armWatch s (p.withAnswer o i f a .notConfigured [] (some i.val))) ∧
        (¬missing →
          ((∀ k : Fin 8, p.watches[k] ≠ none) → Completes .armWatch s (p.withAnswer o i f a .noSlot [] (some i.val))) ∧
          ∀ k : Fin 8, p.watches[k] = none → (∀ j < k, p.watches[j] ≠ none) →
            Completes .armWatch s
              ({ p with watches := p.watches.set k (some { owner := o, target := target, condition := condition }) }.withAnswer o i f a
                .ok [byte k] none))) ∧
  (∀ (p : Part) (d : DoorNo) (ev : DoorEvent) (shown : ShortImage),
    p.testWatches d ev shown =
      ([0, 1, 2, 3, 4, 5, 6, 7] : List (Fin 8)).foldl (fun q k => q.testWatch d ev shown k) p) ∧
  ∀ (p : Part) (d : DoorNo) (ev : DoorEvent) (shown : ShortImage) (k : Fin 8),
    (p.watches[k] = none → p.testWatch d ev shown k = p) ∧
    ∀ w, p.watches[k] = some w →
      let new := p.image d
      let named := w.target = .door d ∨ w.target = .group (p.config d).group
      let matched :=
        match ev with
        | .silent => w.condition = .change
        | .reply old =>
          (w.condition = .change ∧ old.settled ≠ .absent ∧
              (old.bolt ≠ new.bolt ∨ old.position ≠ new.position ∨ old.holder ≠ new.holder)) ∨
            (w.condition = .opens ∧ old.settled ≠ .absent ∧ old.position = .closed ∧ new.position = .opened) ∨
            (w.condition = .secures ∧ (new.bolt = .thrown ∧ new.position = .closed) ∧ ¬(old.bolt = .thrown ∧ old.position = .closed))
      (named ∧ matched →
        p.testWatch d ev shown k =
          { p with
            watches := p.watches.set k none
            notices :=
              p.notices.raise
                (.watchFired w.owner k w.target w.condition (if ev = .silent then .silent else .condition) (some (d, shown))) }) ∧
      (¬(named ∧ matched) → p.testWatch d ev shown k = p)

/-! ## Fire -/

/-- FIRE_INPUT_CHANGE and FILTERED_INPUT_CHANGE: the candidate of R140, the change of the filtered input (R141), and the setting of
the latch (R142): the release-pending set filled (R146), an empty one confirmed at once (R149), each line purged of its bolt-throws for
FREE doors, whose door commands complete FIRE_HOLD (R37), and given a pending broadcast, the sweep ended with status FIRE (R81), the
pending start dropped with its notice (R130) and every watch fired with its own (R173), these three in an order that is an operand
(log 6). The model's own: an unchanged reading or an absent candidate does nothing (log 1), time moves to the filter's end (log 4), a part
that does not work only notes the raw reading (log 10), the entries among the purged sources are left to the sweep's end (log 32), a
FIRE_HOLD response reads its image before held requests fill the freed places (log 45) and before the entries end (log 50), and the
commands of one originator complete in the order of the queue and then the held submissions (log 51), line 0 first and line 3 last
(log 57). -/
def Obligations.TheFireInputSetsTheLatch : Prop :=
  (∀ (s : State) (v : FireInput),
    let p := s.part
    let candidate :=
      if p.working = false then p.fire.candidate else if v = p.fire.filtered then none else some (v, p.now)
    (v = p.fire.raw → exec (.fireInputChange v) s = .next s) ∧
    (v ≠ p.fire.raw →
      exec (.fireInputChange v) s =
        .next { s with part := { p with fire := { p.fire with raw := v, candidate := candidate } } })) ∧
  (∀ (p : Part) (l : LineNo),
    let x := p.line l
    let doomed (r : LineRequest) : Bool := r.cmd = .driveThrow && (p.config r.door).fireAction = .free
    let gone := (x.queue.filter fun r => doomed r && !r.inFlight) ++ x.held.filter doomed
    let purged : Part :=
      { p with
        lines :=
          p.lines.set l
            { x with
              queue :=
                (x.queue.filter fun r => !doomed r || r.inFlight).map fun r => if doomed r then { r with purged := true } else r
              held := x.held.filter fun r => !doomed r } }
    p.purgeLine l =
      (gone.foldl (fun q r => match r.source with | some (.slot o i) => q.completeCommand o i .fireHold | _ => q) purged).placeHeld l) ∧
  ∀ (s : State) (order : List Block), s.part.working = true →
    let p := s.part
    (p.fire.candidate = none → Completes (.filteredInputChange order) s p) ∧
    ∀ v began, p.fire.candidate = some (v, began) →
      let now := max p.now (began + 500 * 576)
      let changed : Part := { p with now := now, fire := { p.fire with filtered := v, candidate := none } }
      let count := p.fire.releasePending.length
      (v = .normal → Completes (.filteredInputChange order) s changed) ∧
      (p.fire.latch = true → v = .alarm →
        Completes (.filteredInputChange order) s { changed with notices := p.notices.raise (.fireAlarm .alarm true count) }) ∧
      (p.fire.latch = true → v = .loopFault →
        Completes (.filteredInputChange order) s { changed with notices := p.notices.raise (.fireLoopFault .loopFault true count) }) ∧
      let doors :=
        (List.finRange 240).filter fun d =>
          (p.config d).configured && !(p.config d).withdrawn && (p.config d).fireAction = .free
      let alarmed := p.notices.raise (if v = .alarm then .fireAlarm v false doors.length else .fireLoopFault v false doors.length)
      let latched : Part :=
        { p with
          now := now
          fire :=
            { raw := p.fire.raw, filtered := v, candidate := none, latch := true, latchTime := some now, releasePending := doors
              confirmed := 0, removed := 0, repeatTimer := some (now + 10 * 576000), incompleteTimer := some (now + 30 * 576000) }
          notices := if doors = [] then alarmed.raise (.fireReleaseConfirmed 0 0 0) else alarmed }
      let broadcasting : Part := ([0, 1, 2, 3] : List LineNo).foldl (fun q l => (q.purgeLine l).makeBroadcast l) latched
      let acts (q : Part) (b : Block) : Part :=
        match b with
        | .sweepEngine => q.fireEndsSweep
        | .pendingStart =>
          match q.engine.pendingStart with
          | none => q
          | some x =>
            { q with engine := { q.engine with pendingStart := none }, notices := q.notices.raise (.startDropped .fire x) }
        | .watchTable =>
          ([0, 1, 2, 3, 4, 5, 6, 7] : List (Fin 8)).foldl
            (fun q k =>
              match q.watches[k] with
              | none => q
              | some w =>
                { q with
                  watches := q.watches.set k none
                  notices := q.notices.raise (.watchFired w.owner k w.target w.condition .fire none) }) q
        | _ => q
      (p.fire.latch = false → v ≠ .normal →
        Completes (.filteredInputChange order) s
          ((arrange [.sweepEngine, .pendingStart, .watchTable] order).foldl acts broadcasting)) ∧
      (p.fire.latch = false → v ≠ .normal → p.FireSafe →
        ∃ t, exec (.filteredInputChange order) s = .next t ∧ t.pending = s.pending ∧
          t.part.fire = latched.fire ∧ t.part.engine.ctx = none ∧ t.part.engine.pendingStart = none ∧ (∀ n, t.part.entry n = none) ∧
          (∀ k : Fin 8, t.part.watches[k] = none) ∧
          (∀ l,
            (t.part.line l).broadcast = some { maps := p.fireMaps l, sends := 3 } ∧
              (∀ r ∈ (t.part.line l).held, ¬(r.cmd = .driveThrow ∧ (p.config r.door).fireAction = .free)) ∧
              ∀ r ∈ (t.part.line l).queue, r.cmd = .driveThrow → (p.config r.door).fireAction = .free → r.inFlight = true) ∧
          (∀ d, t.part.config d = p.config d) ∧ t.part.clock = p.clock ∧ t.part.schedule = p.schedule ∧
          t.part.exceptions = p.exceptions ∧
          (p.uplink.sending = none → p.notices.urgent = [] →
            t.part.uplink.sending =
              some
                (.notice (if v = .alarm then .fireAlarm v false doors.length else .fireLoopFault v false doors.length)
                  p.notices.urgentOverflow now)))

/-- FIRE RESTORE is taken while the latch is set and the filtered input NORMAL (R151): the latch clear, the set empty, the timers
stopped, the broadcasts withdrawn, the FREE doors offered to the catch-up list, the notice (R152); an IDLE engine then tests for a
catch-up sweep whatever was appended (R82), any other is offered what was (R120). A broadcast send on the wire is marked as no longer
pending (`Wire.outdated`, log 14). -/
def Obligations.FireRestoreClearsTheLatch : Prop :=
  ∀ (s : State) (o : OriginatorNo) (i : SlotNo) (f : Frame) (a : Time), Decides s .fireRestore o i f a →
    let p := s.part
    let appended :=
      (List.finRange 240).filter fun d =>
        (p.config d).fireAction = .free && (p.config d).configured && !(p.config d).withdrawn && (p.image d).claim.isNone &&
          (p.group (p.config d).group).night && (p.entryOf d).isNone && !p.catchUp.contains d
    let restored : Part :=
      { p with
        fire := { p.fire with latch := false, releasePending := [], repeatTimer := none, incompleteTimer := none }
        lines := p.lines.map fun x => { x with broadcast := none, wire := x.wire.outdated }
        catchUp := p.catchUp ++ appended
        notices := p.notices.raise (.fireRestored p.fire.releasePending.length appended.length) }
    (p.fire.latch = false ∨ p.fire.filtered ≠ .normal →
      Completes .fireRestore s (p.withAnswer o i f a .state [] (some i.val))) ∧
    (p.fire.latch = true → p.fire.filtered = .normal →
      Completes .fireRestore s
        ((if p.engine.ctx = none ∨ appended ≠ [] then restored.offerCatchUp else restored).withAnswer o i f a .ok [] none))

/-- REPEAT_TIMER_EXPIRY and INCOMPLETE_TIMER_EXPIRY (R144, R148); each moves time to its moment (log 4), a stopped timer does nothing
(log 1), and a broadcast send on the wire is not counted against the broadcast that replaces its own (log 14). -/
def Obligations.TheFireTimersAct : Prop :=
  ∀ s : State, s.part.working = true →
    let p := s.part
    (p.fire.repeatTimer = none → Completes .repeatTimerExpiry s p) ∧
    (∀ t, p.fire.repeatTimer = some t →
      let again : Part := { p with now := max p.now t, fire := { p.fire with repeatTimer := some (t + 10 * 576000) } }
      (p.fire.releasePending = [] → Completes .repeatTimerExpiry s again) ∧
      (p.fire.releasePending ≠ [] →
        Completes .repeatTimerExpiry s
          ((((again.makeBroadcast 0).makeBroadcast 1).makeBroadcast 2).makeBroadcast 3))) ∧
    (p.fire.incompleteTimer = none → Completes .incompleteTimerExpiry s p) ∧
    ∀ t, p.fire.incompleteTimer = some t →
      let stopped : Part := { p with now := max p.now t, fire := { p.fire with incompleteTimer := none } }
      let on (l : LineNo) : Nat := (p.fire.releasePending.filter fun d => (p.config d).line = l).length
      (p.fire.releasePending = [] → Completes .incompleteTimerExpiry s stopped) ∧
      (p.fire.releasePending ≠ [] →
        Completes .incompleteTimerExpiry s
          { stopped with
            notices := p.notices.raise (.fireReleaseIncomplete p.fire.releasePending.length #v[on 0, on 1, on 2, on 3]) })

/-! ## Door lines -/

/-- R53: CLEAR LINE FAULT's level and lines, the record it empties whatever it held, and the lock of the next fault offered; a fault
offered to a locked record is noted in it as one that came again. -/
def Obligations.ClearLineFaultEmptiesTheRecord : Prop :=
  (∀ (s : State) (o : OriginatorNo) (i : SlotNo) (f : Frame) (a : Time), Asks s .clearLineFault o i f a →
    let p := s.part
    (p.originator o ≠ { enabled := true, authority := .administer } →
      Completes .clearLineFault s (p.withAnswer o i f a .authority [] (some i.val))) ∧
    (p.originator o = { enabled := true, authority := .administer } →
      (3 < f.param 0 → Completes .clearLineFault s (p.withAnswer o i f a .range [] (some i.val))) ∧
      ∀ l : LineNo, l.val = f.param 0 →
        Completes .clearLineFault s
          ({ p with lines := p.lines.set l { p.line l with fault := none } }.withAnswer o i f a .ok [] none))) ∧
  (∀ (p : Part) (l : LineNo) (kind : FaultKind) (node : Option Nat) (fn : Option LineFunction), (p.line l).fault = none →
    let r : FaultRecord := { kind := kind, node := node, function := fn, minute := p.minute, again := false }
    p.offerFault l kind node fn =
      { p with
        lines := p.lines.set l { p.line l with fault := some r }
        notices := p.notices.raise (.lineFault l r) }) ∧
  ∀ (p : Part) (l : LineNo) (kind : FaultKind) (node : Option Nat) (fn : Option LineFunction) (r : FaultRecord),
    (p.line l).fault = some r →
      p.offerFault l kind node fn =
        { p with lines := p.lines.set l { p.line l with fault := some { r with again := true } } }

/-- QUIET LINE (R48) and RESUME LINE (R50, R51) in each line state. A RESUME LINE that needs a probe waits until it is sent (log 31). -/
def Obligations.LinesAreQuietedAndResumed : Prop :=
  ∀ (s : State) (o : OriginatorNo) (i : SlotNo) (f : Frame) (a : Time) (order : List Block) (l : LineNo), l.val = f.param 0 →
    let p := s.part
    let x := p.line l
    let leaves (y : Line) : Part := { p with lines := p.lines.set l y }
    let probing := ∃ t, x.wire = .transaction t ∧ t.kind = .probe ∧ t.cut = false
    (Decides s .quietLine o i f a →
      (x.state = .active → Completes (.quietLine order) s ((p.goDown l .quiet false order).withAnswer o i f a .ok [] none)) ∧
      (x.state = .faulted →
        Completes (.quietLine order) s
          ((leaves { x with state := .quiet, probeTimer := none, probeDue := false }).withAnswer o i f a .ok [] none)) ∧
      (x.state = .quiet → Completes (.quietLine order) s (p.withAnswer o i f a .state [] (some i.val)))) ∧
    (Decides s .resumeLine o i f a →
      (x.state = .quiet →
        Completes .resumeLine s
          ((leaves
              { x with
                state := .active, probeTimer := none, probeDue := false, conflicts := 0, queuedSends := 0, cursor := 0 }).withAnswer o i f
            a .ok [] none)) ∧
      (x.state = .faulted → probing → Completes .resumeLine s (p.withAnswer o i f a .ok [] none)) ∧
      (x.state = .faulted → ¬probing →
        Completes .resumeLine s
          ((leaves
              { x with probeTimer := none, probeDue := true, probeWaiters := x.probeWaiters ++ [(o, i)] }).setSlot o i
            (.inProgress f a none))) ∧
      (x.state = .active → Completes .resumeLine s (p.withAnswer o i f a .state [] (some i.val))))

/-- A line that leaves ACTIVE (R47): what it drops and keeps, the images of its doors, and the door commands it ends LINE_DOWN (R166);
each door whose image enters SUSPECT is handed to the watch table (R14, R172), and the entries of its doors end (R77, R97), all of them
before the engine's next admission (log 12), the two in an order that is an operand (log 6). The model's own: a transaction in its
reply window goes with a character failure it has seen (log 38), the LINE_DOWN responses show the images as the going down has left them
(log 43), two of one originator leave the later one's code in its sense record (log 51), and the doors are handed on in ascending
number (log 44). -/
def Obligations.ALineGoesDown : Prop :=
  (∀ (p : Part) (l : LineNo) (state : LineState) (overload : Bool) (order : List Block), state ≠ .active →
    let x := p.line l
    let q := p.goDown l state overload order
    (q.line l).state = state ∧ (q.line l).queue = [] ∧ (q.line l).held = [] ∧ (q.line l).motions = [] ∧
      (q.line l).conflicts = 0 ∧ (q.line l).queuedSends = 0 ∧ (q.line l).broadcast = x.broadcast ∧ (q.line l).fault = x.fault ∧
      (q.line l).probeTimer = (if state = .faulted then some (p.now + 30 * 576000) else none) ∧ (q.line l).probeDue = false ∧
      (q.line l).wire =
        (match x.wire with
          | .free => .free
          | .transaction t => if t.phase = .sending ∧ overload = false then .transaction { t with cut := true } else .free
          | .broadcast m b y => if overload = true then .free else .broadcast m b y) ∧
      (∀ l', l' ≠ l → (q.line l').state = (p.line l').state ∧ (q.line l').wire = (p.line l').wire) ∧
      (∀ d, q.config d = p.config d ∧ (q.image d).bolt = (p.image d).bolt ∧ (q.image d).position = (p.image d).position ∧
        (q.image d).silence = (p.image d).silence ∧ (q.image d).claim = (p.image d).claim ∧
        (q.image d).settled =
          if (p.config d).configured = true ∧ (p.config d).withdrawn = false ∧ (p.config d).line = l then .suspect
          else (p.image d).settled) ∧
      ∀ o i f a g, p.slot o i = .inProgress f a (some g) →
        (∃ r ∈ x.queue ++ x.held, r.source = some (.slot o i)) ∨ (∃ m ∈ x.motions, m.source = some (.slot o i)) →
          ∃ results, q.slot o i = .answered f a
            { originator := o, tag := f.tag, code := f.code, door := f.door, completion := .lineDown, results := results }) ∧
  (∀ (p : Part) (l : LineNo) (state : LineState) (overload : Bool) (order : List Block),
    let x := p.line l
    let below (d : DoorNo) : Bool := (p.config d).configured && !(p.config d).withdrawn && (p.config d).line = l
    let entering := (List.finRange 240).filter fun d => below d && (p.image d).settled ≠ .suspect
    let dropped : Part :=
      { p with
        doors := Vector.ofFn fun d => if below d then { p.door d with image := { p.image d with settled := .suspect } } else p.door d
        lines :=
          p.lines.set l
            { x with
              state := state, queue := [], held := [], motions := [], queuedSends := 0, conflicts := 0
              wire :=
                match x.wire with
                | .free => .free
                | .transaction t => if t.phase = .sending ∧ overload = false then .transaction { t with cut := true } else .free
                | .broadcast m b y => if overload = true then .free else .broadcast m b y
              probeTimer := if state = .faulted then some (p.now + 30 * 576000) else none
              probeDue := false } }
    let sources := x.queue.map (fun r => r.source) ++ x.held.map (fun r => r.source) ++ x.motions.map fun m => m.source
    let answered : Part :=
      sources.foldl (fun q y => match y with | some (.slot o i) => q.completeCommand o i .lineDown | _ => q) dropped
    p.goDown l state overload order =
      (arrange [.watchTable, .sweepEngine] order).foldl
        (fun q b =>
          match b with
          | .watchTable => entering.foldl (fun q d => q.testWatches d .silent (q.shortImage d)) q
          | .sweepEngine => q.lineDownEntries l
          | _ => q) answered) ∧
  ∀ (p : Part) (l : LineNo),
    let ended : List (EntryNo × SweepOutcome) :=
      (List.finRange 16).filterMap fun n =>
        match p.entry n with
        | some e => if (p.config e.door).line = l then some (n, if e.aborting then .aborted else .lineDown) else none
        | none => none
    p.lineDownEntries l = if ended = [] then p else (ended.foldl (fun q x => q.endEntry x.1 x.2) p).engineRun

/-- The line arbiter's choice (R38 to R41): nothing on a busy line; on a free one a pending broadcast, then on an ACTIVE line the confirm
poll that is due, the oldest sendable request unless a routine poll's turn has come, a routine poll; on a FAULTED line a due probe
(R49), whose RESUME LINE is answered (R50). -/
def Obligations.TheLineArbiterChooses : Prop :=
  ∀ (p : Part) (l : LineNo),
    let x := p.line l
    let starts (y : Line) (kind : TransactionKind) (cmd : LineCmd) (door : Option DoorNo) (node : Nat) : Part :=
      { p with
        lines :=
          p.lines.set l
            { y with
              wire :=
                .transaction
                  { kind := kind, cmd := cmd, door := door, node := node, began := p.now, phase := .sending, secondSend := false
                    conflicted := false, anyConflict := false, detached := false, cut := false } } }
    let polled (d : DoorNo) := (p.config d).configured = true ∧ (p.config d).withdrawn = false ∧ (p.config d).line = l
    let ready (r : LineRequest) :=
      ¬(r.cmd ≠ .pollNow ∧ ∃ m ∈ x.motions, m.door = r.door) ∧ ¬(r.cmd.function = .drive ∧ 8 ≤ x.motions.length)
    let next (d : DoorNo) :=
      polled d ∧
        ((x.cursor < (p.config d).node ∧
            ∀ d', polled d' → x.cursor < (p.config d').node → (p.config d).node ≤ (p.config d').node) ∨
          ((∀ d', polled d' → (p.config d').node ≤ x.cursor) ∧ ∀ d', polled d' → (p.config d).node ≤ (p.config d').node))
    (x.wire ≠ .free → p.lineChoice l = p) ∧
    (x.wire = .free →
      (∀ b, x.state ≠ .faulted → x.broadcast = some b →
        p.lineChoice l = { p with lines := p.lines.set l { x with wire := .broadcast b.maps p.now true } }) ∧
      (x.state = .quiet → x.broadcast = none → p.lineChoice l = p) ∧
      (x.state = .faulted → x.probeDue = false → p.lineChoice l = p) ∧
      (x.state = .faulted → x.probeDue = true →
        (∀ o i f a, (o, i) ∈ x.probeWaiters → p.slot o i = .inProgress f a none →
          (p.lineChoice l).slot o i =
            .answered f a { originator := o, tag := f.tag, code := f.code, door := f.door, completion := .ok, results := [] }) ∧
        ((p.lineChoice l).line l).probeDue = false ∧ ((p.lineChoice l).line l).probeTimer = none ∧
        ((p.lineChoice l).line l).probeWaiters = [] ∧
        ∃ t, ((p.lineChoice l).line l).wire = .transaction t ∧ t.kind = .probe ∧ t.cmd = .pollNow ∧ t.began = p.now ∧
          ((∀ d, ¬polled d) → t.door = none ∧ t.node = 1) ∧
          ((∃ d, polled d) →
            ∃ d, t.door = some d ∧ t.node = (p.config d).node ∧ polled d ∧
              ∀ d', polled d' → (p.config d).node ≤ (p.config d').node)) ∧
      (x.state = .active → x.broadcast = none →
        ((∃ m ∈ x.motions, m.lastPoll + 200 * 576 < p.now) →
          ∃ m ∈ x.motions, (∀ m' ∈ x.motions, m.lastPoll ≤ m'.lastPoll) ∧
            p.lineChoice l = starts x .confirm .pollNow (some m.door) (p.config m.door).node) ∧
        ((∀ m ∈ x.motions, p.now ≤ m.lastPoll + 200 * 576) →
          (∀ before r after, x.queue = before ++ r :: after → (∀ r' ∈ before, ¬ready r') → ready r →
            x.queuedSends ≠ 3 ∨ (∀ d, ¬polled d) →
              p.lineChoice l =
                (starts
                    { x with
                      queue := before ++ { r with inFlight := true } :: after, queuedSends := min 3 (x.queuedSends + 1) }
                    .queued r.cmd (some r.door) (p.config r.door).node).setProgress r.source .onLine) ∧
          ((∃ d, polled d) → x.queuedSends = 3 ∨ (∀ r ∈ x.queue, ¬ready r) →
            ∃ d, next d ∧
              p.lineChoice l =
                starts { x with cursor := (p.config d).node, queuedSends := 0 } .routine .pollNow (some d) (p.config d).node) ∧
          ((∀ r ∈ x.queue, ¬ready r) → (∀ d, ¬polled d) → p.lineChoice l = p))))

/-- LINE_FRAME_SENT opens the reply window, a conflicted send offering its fault (R28, R30). A valid reply ends the transaction with it; a
reply that fails CHECK or STRAY, the close of the window, and after a character failure the earlier of the window's close and 2 ms of
mark end the send, its fault offered (R27, R29, R30, R52): the frame is sent again, or the transaction ends with no valid reply where it
was the second send, a probe, or a request that the fire purge reached (R30, R37, R49). A conflicted send discards its reply (R28). The
model's own: the time moved to at each end, and a command for the later of the two moments, which changes nothing (log 4), a reply that
begins after the close (log 28), a reply that fails CHECK ending with its last character (log 39), the characters that follow a
character failure, each putting off the mark (log 47), LINE FAULT offered before the notices of the transaction's end (log 53), and the
frame of a transaction that was cut off, which frees the wire (log 40). -/
def Obligations.FramesAreSentAndSentAgain : Prop :=
  ∀ (s : State) (l : LineNo) (t : Transaction), s.part.working = true → (s.part.line l).wire = .transaction t →
    let p := s.part
    let put (q : Part) (w : Wire) : Part := { q with lines := q.lines.set l { q.line l with wire := w } }
    let at' (now : Time) : Part := { p with now := max p.now now }
    let fails (q : Part) (k : FaultKind) : Part := q.offerFault l k (some t.node) (some t.cmd.function)
    let again (q : Part) : Part :=
      put q (.transaction { t with began := q.now, phase := .sending, secondSend := true, conflicted := false })
    let purged : Bool := t.kind = .queued && ((p.line l).queue.find? fun r => r.inFlight).any fun r => r.purged
    let ends (q : Part) (order : List Block) : Part :=
      if t.secondSend = true ∨ t.kind = .probe ∨ purged = true then q.transactionEnd l t none order else again q
    let discards (q : Part) (k : FaultKind) (failed mark closes : Time) (chars : List LineChar) : Part :=
      let since := markSince mark chars
      put { q with now := max q.now (if failed ≤ closes then min since closes else since) }
        (.transaction { t with phase := .charFailed k failed since closes })
    (∀ readback, t.phase = .sending →
      let sent := at' (t.began + 330 * t.frame.length)
      let differs : Bool :=
        match readback with
        | .asSent => false
        | .chars read =>
          read.map (fun c => (c.startHeld, c.data, c.parity, c.stopAtMark)) ≠
            t.frame.map fun b => (true, b, decide (ones b % 2 = 1), true)
      let q := if differs = true then fails sent .conflict else sent
      (t.cut = true → Completes (.lineFrameSent l readback) s (put q .free)) ∧
      (t.cut = false →
        Completes (.lineFrameSent l readback) s
          (put q
            (.transaction
              { t with
                phase := .window (sent.now + 20 * 576), conflicted := differs
                anyConflict := t.anyConflict || differs })))) ∧
    (∀ closes order, t.phase = .window closes → Completes (.replyWindowClosed l order) s (ends (at' closes) order)) ∧
    (∀ k failed mark closes order, t.phase = .charFailed k failed mark closes →
      (failed ≤ closes → closes ≤ mark + 2 * 576 →
        Completes (.replyWindowClosed l order) s (ends (fails (at' closes) k) order)) ∧
      (closes < failed ∨ mark + 2 * 576 < closes → Completes (.replyWindowClosed l order) s p) ∧
      (closes < failed ∨ mark + 2 * 576 ≤ closes →
        Completes (.receiverMark2ms l order) s (ends (fails (at' (mark + 2 * 576)) k) order)) ∧
      (failed ≤ closes → closes < mark + 2 * 576 → Completes (.receiverMark2ms l order) s p) ∧
      ∀ c chars, Completes (.lineReplyReceived l (c :: chars) order) s (discards p k failed mark closes (c :: chars))) ∧
    ∀ c chars closes order, t.phase = .window closes →
      (t.conflicted = true ∨ 20 * 576 < c.pause → Completes (.lineReplyReceived l (c :: chars) order) s p) ∧
      (t.conflicted = false → c.pause ≤ 20 * 576 →
        let heard := at' (closes - 20 * 576 + ((charsTaken (c :: chars)).map fun c => c.pause + 330).sum)
        (∀ r, judgeReply t.node t.cmd.function (c :: chars) = .valid r →
          Completes (.lineReplyReceived l (c :: chars) order) s (heard.transactionEnd l t (some r) order)) ∧
        (∀ k, judgeReply t.node t.cmd.function (c :: chars) = .failed k →
          Completes (.lineReplyReceived l (c :: chars) order) s (ends (fails heard k) order)) ∧
        ∀ k, judgeReply t.node t.cmd.function (c :: chars) = .charFailed k →
          Completes (.lineReplyReceived l (c :: chars) order) s
            (discards heard k heard.now heard.now closes (charsDropped (c :: chars))))

/-- The end of a transaction (R31): a probe decides its line's state (R49), the result is applied to the door unless no door has
it, and the transaction is counted (R32). A STATE reply writes the image (R11, R12), answers a POLL NOW OK, ends a motion entry at rest,
whose command completes OK or JAMMED (R45, R161, R162), and is handed on to the blocks in an order that is an operand (R14, log 6). An
ACCEPT and a REFUSE write the image, the motion entry with its source and the command's progress, and are returned (R11, R43, R44, R163).
LINE_REPLY_RECEIVED with a valid reply in a transaction none of whose sends was conflicted leaves what these give. The model's own: the
line is ACTIVE again before its probe's reply is applied (log 18), the response is built before the blocks act (log 30), its image and
the one handed on are read before held requests fill the freed place (log 36, log 45), a conflicted probe's timer runs again from the end
of its window (log 37), a probe that ends on a line no longer FAULTED is applied and counted and decides no line state (log 19), the
catch-up test goes with the sweep engine (log 54), and one order serves the transaction's end and a line that then goes FAULTED
(log 46). -/
def Obligations.ValidRepliesAreApplied : Prop :=
  (∀ (p : Part) (l : LineNo) (t : Transaction) (result : Option Reply) (order : List Block),
    let x := p.line l
    let leaves (y : Line) : Part := { p with lines := p.lines.set l { y with wire := .free } }
    let decided : Part :=
      if t.kind = .probe ∧ x.state = .faulted then
        if t.anyConflict = true then leaves { x with probeTimer := some (p.now + 30 * 576000) }
        else
          leaves
            { x with state := .active, probeTimer := none, probeDue := false, conflicts := 0, queuedSends := 0, cursor := 0 }
      else leaves x
    let y := decided.line l
    let dropped : Part := { decided with lines := decided.lines.set l { y with queue := y.queue.filter fun r => !r.inFlight } }
    let applied : Part :=
      match t.door, t.detached with
      | some d, false => decided.applyResult l t d result order
      | _, _ => if t.kind = .queued then dropped.placeHeld l else decided
    p.transactionEnd l t result order = applied.countConflict l t.anyConflict order) ∧
  (∀ (p : Part) (l : LineNo) (t : Transaction) (d : DoorNo) (order : List Block),
    (∀ r, p.applyResult l t d (some (.state r)) order = p.applyState l t d r order) ∧
    p.applyResult l t d (some .accept) order = p.applyAccept l t d ∧
    p.applyResult l t d (some (.refuse false)) order = p.applyRefused l d ∧
    p.applyResult l t d (some (.refuse true)) order =
      if t.cmd.function = .drive then p.applyMoving l t d else p.applyRefused l d) ∧
  (∀ (p : Part) (l : LineNo) (t : Transaction) (d : DoorNo) (r : StateReply) (order : List Block),
    let x := p.line l
    let c := p.config d
    let old := p.image d
    let atRest : Bool := !r.moving && (r.bolt = .thrown || r.bolt = .retracted || r.bolt = .jammed)
    let ended : Option MotionEntry := if atRest = true then x.motions.find? fun m => m.door = d else none
    let polled : Option Source := if t.kind = .queued then (x.queue.find? fun r => r.inFlight).bind fun r => r.source else none
    let written : Part :=
      { p with
        doors :=
          p.doors.set d
            { config := c
              image :=
                { old with
                  settled := .current, silence := 0, bolt := if r.moving then .moving else r.bolt, position := r.position
                  holder := if c.holderFitted then (if r.holding then .holding else .released) else .none
                  pulseActive := r.pulse } }
        lines :=
          p.lines.set l
            { x with
              queue := if t.kind = .queued then x.queue.filter fun r => !r.inFlight else x.queue
              motions :=
                if atRest = true then x.motions.filter fun m => m.door ≠ d
                else x.motions.map fun m => if m.door = d then { m with lastPoll := p.now } else m } }
    let shown := written.shortImage d
    let answered := written.returnSlot polled .ok
    let completed : Part :=
      match ended with
      | none => answered
      | some m =>
        answered.returnSlot m.source
          (if m.direction = .throwing ∧ r.bolt = .thrown ∨ m.direction = .retracting ∧ r.bolt = .retracted then .ok else .jammed)
    let event : EntryEvent :=
      match polled, ended.bind fun m => m.source with
      | some (.entry _), _ => .polled
      | _, some (.entry _) => .motionEnd (some (r.bolt, r.position))
      | _, _ => .reply
    p.applyState l t d r order =
      (arrange [.lineController, .watchTable, .fireUnit, .sweepEngine] order).foldl
        (fun q b =>
          match b with
          | .lineController => q.replyNotices l d r old (p.group c.group).night shown
          | .watchTable => q.testWatches d (.reply old) shown
          | .fireUnit => if !r.moving && r.bolt = .retracted then q.confirmRelease d else q
          | .sweepEngine => q.engineHears d r event
          | _ => q) (completed.placeHeld l)) ∧
  (∀ (p : Part) (l : LineNo) (t : Transaction) (d : DoorNo),
    let x := p.line l
    let m : DoorImage := { p.image d with settled := .current, silence := 0 }
    let flying := x.queue.find? fun r => r.inFlight
    let source := flying.bind fun r => r.source
    let purged := ∃ r, flying = some r ∧ r.purged = true
    let leaves (image : DoorImage) (queue : List LineRequest) (motions : List MotionEntry) : Part :=
      { p with
        doors := p.doors.set d { config := p.config d, image := image }
        lines := p.lines.set l { x with queue := queue, motions := motions } }
    let rest := x.queue.filter fun r => !r.inFlight
    let motion (dir : Direction) (s : Option Source) (wait : Bool) : List MotionEntry :=
      x.motions ++
        [{ door := d, direction := dir, deadline := p.now + (p.config d).boltTime * 57600, source := s, wait := wait, lastPoll := p.now }]
    let moves (image : DoorImage) (dir : Direction) : Part :=
      (((leaves image rest (motion dir source false)).setProgress source .inMotion).placeHeld l).returnEntry source .acceptDrive
    let holds (holder : Holder) : Part :=
      (((leaves { m with holder := holder } rest x.motions).returnSlot source .ok).placeHeld l).returnEntry source .acceptHolder
    let direction : Direction := if t.cmd = .driveThrow then .throwing else .retracting
    (t.cmd = .driveThrow → p.applyAccept l t d = moves { m with bolt := .moving } .throwing) ∧
    (t.cmd = .driveRetract → p.applyAccept l t d = moves { m with bolt := .moving } .retracting) ∧
    (∀ n, t.cmd = .drivePulse n → p.applyAccept l t d = moves { m with bolt := .moving, pulseActive := true } .retracting) ∧
    (t.cmd = .holderEngage → p.applyAccept l t d = holds .holding) ∧
    (t.cmd = .holderRelease → p.applyAccept l t d = holds .released) ∧
    p.applyRefused l d = (((leaves m rest x.motions).returnSlot source .refused).placeHeld l).returnEntry source .refused ∧
    (source = none ∨ purged →
      p.applyMoving l t d =
        ((leaves { m with bolt := .moving } rest (motion direction none true)).returnSlot source .fireHold).placeHeld l) ∧
    (source ≠ none → ¬purged →
      p.applyMoving l t d =
        ((leaves { m with bolt := .moving } (x.queue.map fun r => { r with inFlight := false }) (motion direction none true)).setProgress
          source .queued).returnEntry source .refuseMoving)) ∧
  (∀ (p : Part) (x : Option Source) (c : Completion) (ev : EntryEvent),
    p.returnSlot x c = (match x with | some (.slot o i) => p.completeCommand o i c | _ => p) ∧
      p.returnEntry x ev = match x with | some (.entry n) => p.entryEvent n ev | _ => p) ∧
  ∀ (s : State) (l : LineNo) (t : Transaction) (d : DoorNo) (first : LineChar) (rest : List LineChar) (order : List Block)
      (closes : Time), s.part.working = true →
    (s.part.line l).wire = .transaction t → t.phase = .window closes → t.anyConflict = false → t.conflicted = false →
    t.door = some d → t.detached = false → first.pause ≤ 20 * 576 →
      let p := s.part
      let m := p.image d
      let answered (u : State) (o : OriginatorNo) (i : SlotNo) (f : Frame) (b : Time) (c : Completion) :=
        ∃ results, Answers u o i f b c results
      let commands (o : OriginatorNo) (i : SlotNo) (f : Frame) (b : Time) :=
        t.kind = .queued ∧ (∃ r, (p.line l).flying = some r ∧ r.source = some (.slot o i)) ∧ ∃ g, p.slot o i = .inProgress f b (some g)
      let others (u : State) :=
        (∀ x, x ≠ d → { u.part.image x with lastOutcome := (p.image x).lastOutcome } = p.image x) ∧
          (∀ x, u.part.config x = p.config x) ∧ u.part.clock = p.clock ∧ u.part.exceptions = p.exceptions ∧
          (u.part.image d).settled = .current ∧ (u.part.image d).silence = 0 ∧ (u.part.image d).claim = m.claim ∧
          ((p.line l).state = .active → (u.part.line l).state = .active ∧ (u.part.line l).conflicts = 0)
      let keeps (u : State) := (u.part.image d).position = m.position ∧ (u.part.image d).holder = m.holder
      (∀ r, judgeReply t.node t.cmd.function (first :: rest) = .valid (.state r) →
        ∃ u, exec (.lineReplyReceived l (first :: rest) order) s = .next u ∧ others u ∧
          (u.part.image d).bolt = (if r.moving then .moving else r.bolt) ∧ (u.part.image d).position = r.position ∧
          (u.part.image d).holder =
            (if (p.config d).holderFitted then (if r.holding then .holding else .released) else .none) ∧
          (u.part.image d).pulseActive = r.pulse ∧
          (t.kind = .probe → (p.line l).state = .faulted →
            (u.part.line l).state = .active ∧ (u.part.line l).conflicts = 0 ∧ (u.part.line l).probeTimer = none) ∧
          (r.moving = false → r.bolt = .thrown ∨ r.bolt = .retracted ∨ r.bolt = .jammed →
            ∀ x ∈ (u.part.line l).motions, x.door ≠ d) ∧
          ∀ o i f b, commands o i f b → answered u o i f b .ok) ∧
      (judgeReply t.node t.cmd.function (first :: rest) = .valid .accept → t.kind = .queued →
        ∃ u, exec (.lineReplyReceived l (first :: rest) order) s = .next u ∧ others u ∧
          (t.cmd.function = .drive →
            (u.part.image d).bolt = .moving ∧ keeps u ∧
              (u.part.image d).pulseActive = (m.pulseActive || !(t.cmd = .driveThrow || t.cmd = .driveRetract)) ∧
              ∃ x ∈ (u.part.line l).motions,
                x.door = d ∧ x.direction = (if t.cmd = .driveThrow then .throwing else .retracting) ∧ x.wait = false ∧
                  x.deadline = u.part.now + (p.config d).boltTime * 57600) ∧
          (t.cmd.function = .holder →
            (u.part.image d).holder = (if t.cmd = .holderEngage then .holding else .released) ∧ (u.part.image d).bolt = m.bolt ∧
              ∀ o i f b, commands o i f b → answered u o i f b .ok)) ∧
      ∀ moving, judgeReply t.node t.cmd.function (first :: rest) = .valid (.refuse moving) → t.kind = .queued →
        ∃ u, exec (.lineReplyReceived l (first :: rest) order) s = .next u ∧ others u ∧ keeps u ∧
          (moving = true → t.cmd.function = .drive →
            (u.part.image d).bolt = .moving ∧
              ∃ x ∈ (u.part.line l).motions,
                x.door = d ∧ x.wait = true ∧ x.source = none ∧ x.deadline = u.part.now + (p.config d).boltTime * 57600) ∧
          (moving = false ∨ t.cmd.function ≠ .drive →
            (u.part.image d).bolt = m.bolt ∧ ∀ o i f b, commands o i f b → answered u o i f b .refused)

/-- A transaction that ends with no valid reply: a request that the fire purge reached completes FIRE_HOLD, its silence not counted
(R37); a probe counts none (R49); any other ends NO_REPLY, a silence is counted, the third makes the image SUSPECT (R11, R13, R31) and is
reported, and an image that enters SUSPECT is handed on (R14) in an order that is an operand (log 6). The conflict count of an ACTIVE line
goes up by one for a transaction with a conflicted send and to 0 for a clean one, and at 3 the line goes FAULTED (R32).
REPLY_WINDOW_CLOSED on a second send and on a probe, FIRE_BROADCAST_SENT and OVERLOAD_REPORT (R32, R33, R49, R51, R52). The model's own:
the times (log 4), the broadcast send that carries no pending broadcast and is not counted (log 14), what an overload stops on a line
that is not ACTIVE (log 17), a probe that ends on a line that has left FAULTED (log 19), the images read before held requests fill the
freed place (log 36, log 45), the response built before the blocks act (log 30), the moment from which the probe timer runs again
(log 37), one order of the blocks for both events of a command that holds two (log 46), and LINE FAULT offered first (log 53). -/
def Obligations.SilencesBroadcastsAndOverloads : Prop :=
  (∀ (p : Part) (l : LineNo) (t : Transaction) (d : DoorNo) (order : List Block),
    let x := p.line l
    let m := p.image d
    let flying := x.queue.find? fun r => r.inFlight
    let purged := t.kind = .queued ∧ ∃ r, flying = some r ∧ r.purged = true
    let source : Option Source := if t.kind = .queued then flying.bind fun r => r.source else none
    let dropped : Line := { x with queue := if t.kind = .queued then x.queue.filter fun r => !r.inFlight else x.queue }
    let silenced : Part :=
      { p with
        doors :=
          p.doors.set d
            { config := p.config d
              image := { m with silence := min 3 (m.silence + 1), settled := if m.silence = 2 then .suspect else m.settled } }
        lines :=
          p.lines.set l
            { dropped with motions := x.motions.map fun m => if m.door = d then { m with lastPoll := p.now } else m } }
    let shown := silenced.shortImage d
    let entered : Bool := m.silence = 2 && m.settled ≠ .suspect
    (purged →
      p.applyResult l t d none order = (({ p with lines := p.lines.set l dropped } : Part).returnSlot source .fireHold).placeHeld l) ∧
    (t.kind = .probe → p.applyResult l t d none order = p) ∧
    (¬purged → t.kind ≠ .probe →
      p.applyResult l t d none order =
        (arrange [.lineController, .watchTable, .sweepEngine] order).foldl
          (fun q b =>
            match b with
            | .lineController => if m.silence = 2 then { q with notices := q.notices.raise (.doorSilent d l) } else q
            | .watchTable => if entered = true then q.testWatches d .silent shown else q
            | .sweepEngine =>
              match source, q.entryOf d with
              | some (.entry n), _ => q.entryEvent n .noReply
              | _, some (n, _) => if entered = true then q.entryEvent n .silent else q
              | _, none => q
            | _ => q) ((silenced.returnSlot source .noReply).placeHeld l))) ∧
  (∀ (p : Part) (l : LineNo) (conflicted : Bool) (order : List Block),
    let x := p.line l
    let counts (n : Nat) : Part := { p with lines := p.lines.set l { x with conflicts := n } }
    (x.state ≠ .active → p.countConflict l conflicted order = p) ∧
    (x.state = .active → conflicted = false → p.countConflict l conflicted order = counts 0) ∧
    (x.state = .active → conflicted = true → x.conflicts < 2 → p.countConflict l conflicted order = counts (x.conflicts + 1)) ∧
    (x.state = .active → conflicted = true → 2 ≤ x.conflicts →
      p.countConflict l conflicted order = (counts 3).goDown l .faulted false order)) ∧
  (∀ (s : State) (l : LineNo) (t : Transaction) (d : DoorNo) (order : List Block) (closes : Time), s.part.working = true →
    (s.part.line l).wire = .transaction t → t.phase = .window closes → t.secondSend = true → t.kind ≠ .probe →
    t.anyConflict = true ∧ (s.part.line l).state = .active ∧ 2 ≤ (s.part.line l).conflicts →
    t.door = some d → t.detached = false → (∀ r, (s.part.line l).flying = some r → r.purged = false) →
      ∃ u, exec (.replyWindowClosed l order) s = .next u ∧ (u.part.line l).state = .faulted ∧ (u.part.line l).conflicts = 0 ∧
        (u.part.line l).probeTimer = some (max s.part.now closes + 30 * 576000) ∧
        (u.part.image d).silence = min 3 ((s.part.image d).silence + 1)) ∧
  (∀ (s : State) (l : LineNo) (t : Transaction) (order : List Block) (closes : Time), s.part.working = true →
    (s.part.line l).wire = .transaction t → t.phase = .window closes → t.kind = .probe →
      let p := s.part
      let x := p.line l
      let now := max p.now closes
      let leaves (y : Line) : Part := { p with now := now, lines := p.lines.set l { y with wire := .free } }
      (x.state = .faulted → t.anyConflict = false →
        Completes (.replyWindowClosed l order) s
          (leaves
            { x with state := .active, probeTimer := none, probeDue := false, conflicts := 0, queuedSends := 0, cursor := 0 })) ∧
      (x.state = .faulted → t.anyConflict = true →
        Completes (.replyWindowClosed l order) s (leaves { x with probeTimer := some (now + 30 * 576000) })) ∧
      (x.state = .quiet → Completes (.replyWindowClosed l order) s (leaves x)) ∧
      (x.state = .active → t.anyConflict = false → Completes (.replyWindowClosed l order) s (leaves { x with conflicts := 0 })) ∧
      (x.state = .active → t.anyConflict = true → x.conflicts < 2 →
        Completes (.replyWindowClosed l order) s (leaves { x with conflicts := x.conflicts + 1 })) ∧
      (x.state = .active → t.anyConflict = true → 2 ≤ x.conflicts →
        Completes (.replyWindowClosed l order) s ((leaves { x with conflicts := 3 }).goDown l .faulted false order))) ∧
  (∀ (s : State) (l : LineNo) (t : Transaction) (d : DoorNo) (order : List Block) (closes : Time), s.part.working = true →
    (s.part.line l).wire = .transaction t → t.phase = .window closes → t.secondSend = true → t.kind ≠ .probe →
    ¬(t.anyConflict = true ∧ (s.part.line l).state = .active ∧ 2 ≤ (s.part.line l).conflicts) →
    t.door = some d → t.detached = false → (∀ r, (s.part.line l).flying = some r → r.purged = false) →
      let p := s.part
      let m := p.image d
      ∃ u, exec (.replyWindowClosed l order) s = .next u ∧ u.part.now = max p.now closes ∧
        (u.part.line l).state = (p.line l).state ∧
        (u.part.line l).conflicts =
          (if (p.line l).state ≠ .active then (p.line l).conflicts
          else if t.anyConflict = true then (p.line l).conflicts + 1 else 0) ∧
        (u.part.image d).silence = min 3 (m.silence + 1) ∧
        (u.part.image d).settled = (if m.silence = 2 then .suspect else m.settled) ∧ (u.part.image d).bolt = m.bolt ∧
        (u.part.image d).position = m.position ∧ (u.part.image d).holder = m.holder ∧
        (∀ x, x ≠ d → { u.part.image x with lastOutcome := (p.image x).lastOutcome } = p.image x) ∧
        (∀ x, u.part.config x = p.config x) ∧
        ∀ r o i f b g, t.kind = .queued → (p.line l).flying = some r → r.source = some (.slot o i) →
          p.slot o i = .inProgress f b (some g) → ∃ results, Answers u o i f b .noReply results) ∧
  (∀ (s : State) (l : LineNo) (maps : FireMaps) (began : Time) (present : Bool) (readback : Readback) (order : List Block),
    s.part.working = true → (s.part.line l).wire = .broadcast maps began present →
      let p := s.part
      let differs : Bool :=
        match readback with
        | .asSent => false
        | .chars read =>
          read.map (fun c => (c.startHeld, c.data, c.parity, c.stopAtMark)) ≠
            maps.frame.map fun b => (true, b, decide (ones b % 2 = 1), true)
      let sent : Part := { p with now := max p.now (began + 330 * maps.frame.length) }
      let q := if differs = true then sent.offerFault l .conflict (some 0) (some .fireBroadcast) else sent
      let x := q.line l
      let ended (n : Nat) : Part :=
        { q with
          lines :=
            q.lines.set l
              { x with
                wire := .free, conflicts := n
                broadcast :=
                  match x.broadcast with
                  | none => none
                  | some b =>
                    if present = false then some b else if b.sends ≤ 1 then none else some { b with sends := b.sends - 1 } } }
      (x.state ≠ .active → Completes (.fireBroadcastSent l readback order) s (ended x.conflicts)) ∧
      (x.state = .active → differs = false → Completes (.fireBroadcastSent l readback order) s (ended 0)) ∧
      (x.state = .active → differs = true → x.conflicts < 2 →
        Completes (.fireBroadcastSent l readback order) s (ended (x.conflicts + 1))) ∧
      (x.state = .active → differs = true → 2 ≤ x.conflicts →
        Completes (.fireBroadcastSent l readback order) s ((ended 3).goDown l .faulted false order))) ∧
  ∀ (s : State) (l : LineNo) (order : List Block), s.part.working = true →
    let p := s.part
    let sending : Option (Nat × LineFunction) :=
      match (p.line l).wire with
      | .free => none
      | .transaction t => if t.phase = .sending then some (t.node, t.cmd.function) else none
      | .broadcast _ _ _ => some (0, .fireBroadcast)
    let q := p.offerFault l .overload (sending.map (·.1)) (sending.map (·.2))
    let x := q.line l
    (x.state = .active → Completes (.overloadReport l order) s (q.goDown l .faulted true order)) ∧
    (x.state ≠ .active → sending = none → (∀ t, x.state = .faulted → x.wire ≠ .transaction t) →
      Completes (.overloadReport l order) s q) ∧
    (x.state ≠ .active → sending ≠ none → (∀ t, x.state = .faulted → x.wire ≠ .transaction t) →
      Completes (.overloadReport l order) s { q with lines := q.lines.set l { x with wire := .free } }) ∧
    ∀ t, x.state = .faulted → x.wire = .transaction t →
      Completes (.overloadReport l order) s
        { q with lines := q.lines.set l { x with wire := .free, probeTimer := some (p.now + 30 * 576000) } }

/-- CONFIRM_POLL_DUE, MOTION_DEADLINE and PROBE_TIMER_EXPIRY: each moves time to its moment (log 4); a confirm poll (R42) and a probe (R49)
are then sent on a free line, and a motion entry whose deadline passes ends BOLT_TIMEOUT, its door's bolt UNKNOWN (R46). Where no
motion entry stands or no probe timer runs, nothing changes (log 1). -/
def Obligations.TheLineTimersAct : Prop :=
  (∀ (s : State) (l : LineNo), s.part.working = true →
    let p := s.part
    let x := p.line l
    (x.motions = [] → Completes (.confirmPollDue l) s p) ∧
    ∀ m ∈ x.motions, (∀ m' ∈ x.motions, m.lastPoll ≤ m'.lastPoll) →
      let due : Part := { p with now := max p.now (m.lastPoll + 200 * 576 + 1) }
      Completes (.confirmPollDue l) s due ∧
        (x.state = .active → x.wire = .free → x.broadcast = none →
          ∃ u, exec (.confirmPollDue l) s = .next u ∧
            ∃ t, (u.part.line l).wire = .transaction t ∧ t.kind = .confirm ∧ t.cmd = .pollNow ∧ t.began = due.now ∧
              ∃ m' ∈ x.motions, m'.lastPoll = m.lastPoll ∧ t.door = some m'.door ∧ t.node = (p.config m'.door).node)) ∧
  (∀ (s : State) (d : DoorNo), s.part.working = true →
    let p := s.part
    let l := (p.config d).line
    let x := p.line l
    (∀ m, x.motions.find? (fun m => m.door = d) = some m →
      let ended : Part :=
        { p with
          now := max p.now m.deadline
          doors := p.doors.set d { p.door d with image := { p.image d with bolt := .unknown } }
          lines := p.lines.set l { x with motions := x.motions.filter fun m => m.door ≠ d } }
      (m.source = none → Completes (.motionDeadline d) s ended) ∧
      (∀ n, m.source = some (.entry n) → Completes (.motionDeadline d) s (ended.entryEvent n (.motionEnd none))) ∧
      ∀ o i f b g, m.source = some (.slot o i) → p.slot o i = .inProgress f b (some g) →
        ∃ u, exec (.motionDeadline d) s = .next u ∧ (u.part.image d).bolt = .unknown ∧
          ∃ results, Answers u o i f b .boltTimeout results) ∧
    ((∀ m ∈ x.motions, m.door ≠ d) → Completes (.motionDeadline d) s p)) ∧
  ∀ (s : State) (l : LineNo), s.part.working = true →
    let p := s.part
    let x := p.line l
    (∀ t, x.state = .faulted → x.probeTimer = some t →
      Completes (.probeTimerExpiry l) s
        { p with now := max p.now t, lines := p.lines.set l { x with probeTimer := none, probeDue := true } }) ∧
    (x.state ≠ .faulted ∨ x.probeTimer = none → Completes (.probeTimerExpiry l) s p)

/-- What a STATE reply makes the L4 report (R15 to R18, R168) and whether it puts its door in the catch-up list (R19); both read the
image as the reply has left it. What the sweep engine makes of the reply: the event of the door's entry, then the catch-up test, whose
append is offered to the engine (R14, R19, R67, R120); that the test is made directly after the engine has heard the reply, before any
other block acts, is the model's choice (log 54). -/
def Obligations.RepliesAreReportedAndTested : Prop :=
  (∀ (p : Part) (l : LineNo) (d : DoorNo) (r : StateReply) (old : DoorImage) (night : Bool) (shown : ShortImage),
    let c := p.config d
    let new := p.image d
    let known := old.settled ≠ .absent
    let bolt := if known ∧ c.mask.bolt = true ∧ old.bolt ≠ new.bolt then some (old.bolt, new.bolt) else none
    let position :=
      if known ∧ c.mask.position = true ∧ old.position ≠ new.position then some (old.position, new.position) else none
    let holder := if known ∧ c.mask.holder = true ∧ old.holder ≠ new.holder then some (old.holder, new.holder) else none
    let exit := r.exit && c.mask.exit
    let forced := r.forced && !night
    let reported := bolt ≠ none ∨ position ≠ none ∨ holder ≠ none ∨ exit = true ∨ forced = true
    p.replyNotices l d r old night shown =
      { p with
        notices :=
          ((if r.forced = true ∧ night = true then [Notice.forcedDoor d c.group shown] else []) ++
            (if r.tamper = true then [Notice.tamper d shown] else []) ++
            (if r.restarted = true then [Notice.nodeRestarted d l c.node shown] else []) ++
            (if reported then [Notice.doorChange d l bolt position holder exit forced shown] else [])).foldl NoticeQueues.raise p.notices }) ∧
  (∀ (p : Part) (d : DoorNo) (r : StateReply) (ev : EntryEvent),
    let told : Part := match p.entryOf d with | none => p | some (n, _) => p.entryEvent n ev
    p.engineHears d r ev =
      if told.catchUpTest d r = true then ({ told with catchUp := told.catchUp ++ [d] } : Part).offerCatchUp else told) ∧
  ∀ (p : Part) (d : DoorNo) (r : StateReply),
    p.catchUpTest d r = true ↔
      (p.config d).configured = true ∧ (p.config d).withdrawn = false ∧ (p.image d).claim = none ∧
        (p.group (p.config d).group).night = true ∧ p.entryOf d = none ∧ d ∉ p.catchUp ∧ (p.image d).position = .closed ∧
        (p.image d).bolt ≠ .thrown ∧
        ((p.image d).lastOutcome = some .heldOpen ∨ (p.image d).lastOutcome = some .noReply ∨
          (p.image d).lastOutcome = some .lineDown ∨ (r.restarted = true ∧ r.bolt = .retracted))

/-! ## Reads, SENSE and RESTART PART -/

/-- READ GROUP's level, and the fields it returns for a group with members or without, changing nothing (R24), in the order and bytes
that R199 and 11.4 lead to (log 22). -/
def Obligations.ReadGroupCountsTheMembers : Prop :=
  ∀ (s : State) (o : OriginatorNo) (i : SlotNo) (f : Frame) (a : Time), Asks s .readGroup o i f a →
    let p := s.part
    ((p.originator o).enabled = false → Completes .readGroup s (p.withAnswer o i f a .authority [] (some i.val))) ∧
    ((p.originator o).enabled = true → 31 < f.param 0 →
      Completes .readGroup s (p.withAnswer o i f a .range [] (some i.val))) ∧
    ((p.originator o).enabled = true → ∀ g : GroupNo, g.val = f.param 0 →
      let members := (List.finRange 240).filter fun d => (p.config d).configured && (p.config d).group = g
      let count (test : DoorNo → Bool) : Byte := byte (members.filter test).length
      let r := p.group g
      Completes .readGroup s
        (p.withAnswer o i f a .ok
          [if r.night then 1#8 else 0#8, match r.lastResult with | .none => 0#8 | .clean => 1#8 | .partly => 2#8,
            byte (r.resultSweep.getD 0 / 256), byte (r.resultSweep.getD 0), byte members.length,
            count fun d => (p.config d).withdrawn, count fun d => (p.image d).claim.isSome, count fun d => p.catchUp.contains d,
            count fun d => p.imageState d = .suspect] none))

/-- The other reads return what they name and change nothing (R6, R54, R103, R116, R123, R132, R137, R192), READ DOOR, READ LINE and READ
SWEEP REPORT in the layouts of 11.3 and R200, the rest in the order of their rules as R199 gives it, which the model reads by inference
(log 22), an empty fault record, report, exception slot or pending start its state byte alone. -/
def Obligations.ReadsReturnAndChangeNothing : Prop :=
  ∀ (s : State) (o : OriginatorNo) (i : SlotNo) (f : Frame) (a : Time),
    let p := s.part
    let returns (c : Instr) (results : List Byte) := Completes c s (p.withAnswer o i f a .ok results none)
    let yes (b : Bool) : Byte := if b then 1#8 else 0#8
    let wide (n : Nat) : List Byte := [byte (n / 256), byte n]
    let time : Option Nat → List Byte
      | none => [0xFF#8, 0xFF#8]
      | some m => wide m
    let source : Option Source → Byte
      | none => 0xFF#8
      | some (.entry n) => byte n
      | some (.slot o i) => byte (0x80 + 2 * o.val + i.val)
    let request (r : LineRequest) : List Byte :=
      (match r.cmd with
        | .pollNow => [1#8, byte r.door, 0#8, 0#8]
        | .driveThrow => [2#8, byte r.door, 1#8, 0#8]
        | .driveRetract => [2#8, byte r.door, 2#8, 0#8]
        | .drivePulse n => [2#8, byte r.door, 3#8, byte n]
        | .holderEngage => [3#8, byte r.door, 1#8, 0#8]
        | .holderRelease => [3#8, byte r.door, 2#8, 0#8]) ++ [source r.source, yes r.inFlight]
    let motion (m : MotionEntry) : List Byte :=
      [byte m.door, match m.direction with | .throwing => 1#8 | .retracting => 2#8, yes m.wait] ++ wide ((m.deadline - p.now) / 57600) ++
        [source m.source]
    let report (x : Option SweepReport) (page : Nat) : List Byte :=
      match x with
      | none => [0#8]
      | some r =>
        [1#8] ++ wide (r.number.getD 0) ++ [match r.plan with | none => 0xFF#8 | some k => byte k] ++ time r.startMinute ++
          (match r.endMinute with | none => [0xFF#8, 0xFE#8] | some m => time m) ++ [byte r.status.code] ++ r.counts.toList.flatMap wide ++
          [byte r.overflow, match r.suspension with | none => 0xFF#8 | some x => byte x.1,
            match r.suspension with | none => 0xFF#8 | some x => byte x.2, byte r.failures.length] ++
          ((r.failures.drop (8 * page)).take 8).flatMap fun x =>
            [byte x.door, byte x.outcome.code, match x.step with | none => 0xFF#8 | some k => byte k, byte x.attempt]
    let clock : List Byte :=
      if p.clock.set then [1#8, byte (p.clock.minute / 256), byte p.clock.minute, byte p.clock.second]
      else [0#8, 0xFF#8, 0xFF#8, 0xFF#8]
    (Decides s .readDoor o i f a → ∀ d : DoorNo, d.val = f.door.toNat →
      let c := p.config d
      let m := p.image d
      returns .readDoor
        [yes c.configured, byte c.line, byte c.node, byte c.group,
          match c.fireAction with | .none => 0#8 | .free => 1#8 | .close => 2#8,
          byte (c.holderFitted.toNat + 2 * c.holdAtRelease.toNat + 4 * c.nightPass.toNat + 8 * c.withdrawn.toNat),
          byte (c.mask.bolt.toNat + 2 * c.mask.position.toNat + 4 * c.mask.holder.toNat + 8 * c.mask.exit.toNat), byte c.boltTime,
          byte (c.closeWait / 256), byte c.closeWait,
          match p.imageState d with | .absent => 0#8 | .current => 1#8 | .pending => 2#8 | .suspect => 3#8,
          match m.bolt with | .unknown => 0#8 | .thrown => 1#8 | .retracted => 2#8 | .moving => 3#8 | .jammed => 4#8,
          match m.position with | .unknown => 0#8 | .closed => 1#8 | .opened => 2#8,
          match m.holder with | .none => 0#8 | .holding => 1#8 | .released => 2#8 | .unknown => 3#8, yes m.pulseActive,
          byte m.silence, match m.lastOutcome with | none => 0#8 | some x => byte (x.place + 1),
          match m.claim with | none => 0xFF#8 | some x => byte x, yes (p.catchUp.contains d)]) ∧
    (Decides s .readStatus o i f a →
      returns .readStatus
        ([match p.uplink.restartCause with | .power => 1#8 | .resetInput => 2#8 | .requested => 3#8, yes p.uplink.requestedFlag] ++ clock ++
          [match p.engine.ctx with
            | none => 0#8
            | some c => match c.phase with | .running => 1#8 | .suspended => 2#8 | .draining => 3#8,
            match p.engine.ctx with
            | none => 0#8
            | some c => match c.kind with | .plan _ _ _ => 1#8 | .catchUp => 2#8,
            byte (p.engine.counter / 256), byte p.engine.counter,
            match p.fire.filtered with | .normal => 0#8 | .alarm => 1#8 | .loopFault => 2#8, yes p.fire.latch,
            byte p.fire.releasePending.length, byte p.catchUp.length, yes p.notices.urgentOverflow, yes p.notices.faultOverflow,
            yes p.notices.stateOverflow])) ∧
    (Decides s .readCatchUpList o i f a →
      let page := (p.catchUp.drop (16 * f.param 0)).take 16
      returns .readCatchUpList (byte p.catchUp.length :: byte page.length :: page.map fun d : DoorNo => byte d)) ∧
    (Decides s .readLine o i f a → ∀ l : LineNo, l.val = f.param 0 →
      let x := p.line l
      returns .readLine
        ([match x.state with | .active => 0#8 | .quiet => 1#8 | .faulted => 2#8, byte x.conflicts, byte x.queuedSends,
            match x.broadcast with | none => 0#8 | some b => byte b.sends, byte x.queue.length] ++ x.queue.flatMap request ++
          [byte x.held.length, byte x.motions.length] ++ x.motions.flatMap motion ++ [byte x.cursor] ++
          match x.fault with
          | none => [0#8]
          | some r =>
            [1#8, byte r.kind.code, match r.node with | none => 0xFF#8 | some n => byte n,
                match r.function with | none => 0xFF#8 | some n => byte n.code] ++ time r.minute ++ [yes r.again])) ∧
    (Decides s .readSweepReport o i f a →
      (f.param 0 = 0 → returns .readSweepReport (report p.engine.planReport (f.param 1))) ∧
      (f.param 0 = 1 → returns .readSweepReport (report p.engine.catchUpReport (f.param 1)))) ∧
    (Decides s .readException o i f a → ∀ x : ExceptionNo, x.val = f.param 0 →
      (p.exceptions[x] = none → returns .readException [0#8]) ∧
      ∀ e, p.exceptions[x] = some e →
        returns .readException
          ([1#8, byte e.owner] ++ wide e.expiry ++ wide e.created ++
            (match e.doors with
              | .group g => [1#8, byte g]
              | .list ds => [2#8, byte ds.length] ++ ds.map fun d : DoorNo => byte d) ++
            [byte ((List.finRange 240).filter fun d => (p.image d).claim = some x).length,
              byte (forwardDistance p.clock.minute e.expiry / 256), byte (forwardDistance p.clock.minute e.expiry)])) ∧
    (Decides s .readPlan o i f a → ∀ k : PlanNo, k.val = f.param 1 →
      let shown (plan : Plan) : List Byte :=
        yes p.banks.commitPending :: byte plan.length ::
          plan.flatMap fun x => [byte x.group, byte x.action.code, yes x.strict, byte x.retries, yes x.overlap]
      (f.param 0 = 0 → returns .readPlan (shown p.banks.staged[k])) ∧ (f.param 0 = 1 → returns .readPlan (shown p.banks.active[k]))) ∧
    (Decides s .readSchedule o i f a → ∀ k : Fin 16, k.val = f.param 0 →
      let e := p.schedule[k]
      returns .readSchedule
        ([yes e.enabled, byte (e.minute / 256), byte e.minute, byte e.plan,
            match e.repetition with | .weekly => 1#8 | .once => 2#8] ++ clock ++
          match p.engine.pendingStart with
          | none => [0#8]
          | some x => [1#8, byte x.plan, byte x.entry] ++ wide x.minute))

/-- R106: SENSE's level, the requester's own record returned and emptied, and NONE for an empty one; the other records stay. -/
def Obligations.SenseReturnsAndEmptiesTheRecord : Prop :=
  ∀ (s : State) (o : OriginatorNo) (i : SlotNo) (f : Frame) (a : Time), Asks s .sense o i f a →
    let p := s.part
    ((p.originator o).enabled = false →
      Completes .sense s (p.withAnswer o i f a .authority [] (some i.val)) ∧
        ∃ t, exec .sense s = .next t ∧ t.part.uplink.senses = p.uplink.senses) ∧
    ((p.originator o).enabled = true →
      (p.uplink.senses[o] = none → Completes .sense s (p.withAnswer o i f a .none [] none)) ∧
      ∀ r, p.uplink.senses[o] = some r →
        Completes .sense s
            ({ p with uplink := { p.uplink with senses := p.uplink.senses.set o none } }.withAnswer o i f a .ok
              [byte r.completion.code, r.request, if r.door.isSome then 1#8 else 0#8,
                match r.door with | none => 0xFF#8 | some d => byte d, match r.detail with | none => 0xFF#8 | some n => byte n] none) ∧
          ∃ t, exec .sense s = .next t ∧ t.part.uplink.senses[o] = none ∧
            ∀ n : OriginatorNo, n ≠ o → t.part.uplink.senses[n] = p.uplink.senses[n])

/-- The handler takes the oldest WAITING frame (R189); RESTART PART answers OK and marks a restart pending, and no further frame is
taken or decided then (R189, R193). -/
def Obligations.TheOldestFrameIsDecidedUntilARestart : Prop :=
  (∀ p : Part, p.uplink.restartPending = false →
    (∀ o i f, p.nextFrame = some (o, i, f) →
      ∃ a, p.slot o i = .waiting f a ∧ ∀ o' i' f' a', p.slot o' i' = .waiting f' a' → a ≤ a') ∧
    ∀ o i f a, p.slot o i = .waiting f a → ∃ x, p.nextFrame = some x) ∧
  (∀ (s : State) (o : OriginatorNo) (i : SlotNo) (f : Frame) (a : Time), Decides s .restartPart o i f a →
    Completes .restartPart s
      ({ s.part with uplink := { s.part.uplink with restartPending := true } }.withAnswer o i f a .ok [] none)) ∧
  ∀ (s : State) (c : Code) (order : List Block), s.part.working = true → s.part.uplink.restartPending = true →
    s.part.nextFrame = none ∧ Completes (c.command order) s s.part ∧ Completes .unknownRequest s s.part

/-! ## Door commands -/

/-- The six door commands: the checks of R157 in order with the details of R105 and R158, and the taking of R159: the request placed in
the line's queue, or held where the queue is full (R34, R35). The completion of a taken command: its response carries the door image
(R165), its sense record the detail of R105. The transmit queue: held submissions fill freed places, oldest first (R35), a source
withdraws from what it has on a line (R36), and a command's progress follows its request (R160). -/
def Obligations.DoorCommandsAreCheckedAndTaken : Prop :=
  (∀ (p : Part) (o : OriginatorNo) (i : SlotNo) (c : Completion),
    (∀ f a g, p.slot o i = .inProgress f a (some g) →
      let d := f.doorNo
      let m := p.image d
      let line := c = .refused ∨ c = .noReply ∨ c = .boltTimeout ∨ c = .jammed ∨ c = .lineDown
      p.completeCommand o i c =
        p.withAnswer o i f a c
          [byte (p.imageState d).code, byte m.bolt.code, byte m.position.code, byte m.holder.code, if m.pulseActive then 1#8 else 0#8,
            byte m.silence, match m.lastOutcome with | none => 0#8 | some x => byte x.code,
            match m.claim with | none => 0xFF#8 | some x => byte x, if p.catchUp.contains d then 1#8 else 0#8]
          (some (if line then (p.config d).line.val else i.val))) ∧
    ((∀ f a g, p.slot o i ≠ .inProgress f a (some g)) → p.completeCommand o i c = p)) ∧
  (∀ (p : Part) (x : Option Source) (g : Progress),
    (∀ o i f a g', x = some (.slot o i) → p.slot o i = .inProgress f a (some g') →
      p.setProgress x g = p.setSlot o i (.inProgress f a (some g))) ∧
    ((∀ o i f a g', x = some (.slot o i) → p.slot o i ≠ .inProgress f a (some g')) → p.setProgress x g = p)) ∧
  (∀ (p : Part) (l : LineNo),
    let x := p.line l
    let free := 8 - x.queue.length
    p.placeHeld l =
      (x.held.take free).foldl (fun q r => q.setProgress r.source .queued)
        { p with lines := p.lines.set l { x with queue := x.queue ++ x.held.take free, held := x.held.drop free } }) ∧
  (∀ (p : Part) (l : LineNo) (s : Source),
    let x := p.line l
    p.withdraw l s =
      ({ p with
          lines :=
            p.lines.set l
              { x with
                held := x.held.filter fun r => r.source ≠ some s
                queue :=
                  (x.queue.filter fun r => r.source ≠ some s || r.inFlight).map fun r =>
                    if r.source = some s then { r with source := none } else r
                motions := x.motions.map fun m => if m.source = some s then { m with source := none } else m } } : Part).placeHeld l) ∧
  ∀ (s : State) (c : Code) (o : OriginatorNo) (i : SlotNo) (f : Frame) (a : Time) (d : DoorNo),
    c ∈ [.throwBolt, .retractBolt, .pulse, .holderEngage, .holderRelease, .pollNow] → Decides s c o i f a → d.val = f.door.toNat →
      let p := s.part
      let record := p.config d
      let admin := p.originator o = { enabled := true, authority := .administer }
      let claimedByAnother := ∃ x e, (p.image d).claim = some x ∧ p.exceptions[x] = some e ∧ e.owner ≠ o
      let refusal : Option (Completion × Option Nat) :=
        if record.configured = false then some (.notConfigured, some i.val)
        else if record.withdrawn = true then some (.withdrawn, some i.val)
        else
          match p.entryOf d with
          | some (_, e) => some (.inSweep, e.step)
          | none =>
            if (p.line record.line).state ≠ .active then some (.lineDown, some record.line.val)
            else if c = .throwBolt ∧ p.fire.latch = true ∧ record.fireAction = .free then some (.fireHold, some i.val)
            else none
      let policy :=
        (c = .throwBolt ∧ claimedByAnother ∧ ¬admin) ∨
          ((c = .retractBolt ∨ c = .pulse) ∧ (p.group record.group).night = true ∧ record.nightPass = false ∧ ¬admin)
      let cmd : LineCmd :=
        if c = .throwBolt then .driveThrow
        else if c = .retractBolt then .driveRetract
        else if c = .pulse then .drivePulse (f.param 0)
        else if c = .holderEngage then .holderEngage
        else if c = .holderRelease then .holderRelease
        else .pollNow
      let request : LineRequest := { cmd := cmd, door := d, source := some (.slot o i), inFlight := false, purged := false }
      let x := p.line record.line
      let leaves (y : Line) : Part := { p with lines := p.lines.set record.line y }
      (∀ k detail, refusal = some (k, detail) → Completes (c.command []) s (p.withAnswer o i f a k [] detail)) ∧
      (refusal = none → c = .throwBolt → claimedByAnother → ¬admin →
        Completes (c.command []) s (p.withAnswer o i f a .claimed [] ((p.image d).claim.map (·.val)))) ∧
      (refusal = none → c = .retractBolt ∨ c = .pulse → policy →
        Completes (c.command []) s (p.withAnswer o i f a .nightPolicy [] (some i.val))) ∧
      (refusal = none → ¬policy →
        (x.queue.length < 8 →
          Completes (c.command []) s
            ((leaves { x with queue := x.queue ++ [request] }).setSlot o i (.inProgress f a (some .queued)))) ∧
        (8 ≤ x.queue.length →
          Completes (c.command []) s
            ((leaves { x with held := x.held ++ [request] }).setSlot o i (.inProgress f a (some .held)))))

/-! ## The clock -/

/-- TIMEBASE_SECOND and CLOCK_ADVANCE while the clock is SET (R125): the second, the minute and its wrap, the exceptions that expire in
ascending slot order (R113) with what each end writes (R115) and the offer of the appends (R120), the entries of the schedule that fire in
ascending number (R128), and what a firing does: dropped, started, or placed in the pending-start slot, where it displaces the start that
waits and lets a catch-up sweep yield (R129, R130); nothing while the clock is UNSET. The model's own: the second's beginning is its own
field (log 3), both commands move time to the second's end (log 4), CLOCK_ADVANCE is taken in any second and TIMEBASE_SECOND at second 59
changes nothing (log 5), and `order` says which blocks act first: those it names, as it names them, then the others (log 6). -/
def Obligations.TheClockCounts : Prop :=
  (∀ own order : List Block, own.Nodup →
    (∀ b, b ∈ arrange own order ↔ b ∈ own) ∧ (arrange own order).Nodup ∧ arrange own [] = own ∧
    (∀ b, b ∈ own → arrange own (b :: order) = b :: (arrange own order).filter fun x => x ≠ b) ∧
    ∀ b, b ∉ own → arrange own (b :: order) = arrange own order) ∧
  (∀ (p : Part) (x : PendingStart),
    (p.fire.latch = true → p.firing x = { p with notices := p.notices.raise (.startDropped .fire x) }) ∧
    (p.fire.latch = false → p.banks.active[x.plan] = [] →
      p.firing x = { p with notices := p.notices.raise (.startDropped .emptyPlan x) }) ∧
    (p.fire.latch = false → p.banks.active[x.plan] ≠ [] →
      (p.engine.ctx = none → p.firing x = (p.startPlan x.plan).engineRun) ∧
      ∀ c, p.engine.ctx = some c →
        p.firing x =
          { p with
            engine :=
              { p.engine with
                pendingStart := some x
                ctx := some { c with yielding := c.yielding || decide (c.kind = .catchUp) } }
            notices :=
              match p.engine.pendingStart with
              | none => p.notices
              | some old => p.notices.raise (.startDisplaced old x) })) ∧
  ∀ (s : State) (order : List Block), s.part.working = true →
    let p := s.part
    (p.clock.set = true → 59 ≤ p.clock.second → Completes .timebaseSecond s p) ∧
    (p.clock.set = false → Completes .timebaseSecond s p ∧ Completes (.clockAdvance order) s p) ∧
    (p.clock.set = true →
      (p.clock.second < 59 →
        Completes .timebaseSecond s
          { p with
            now := max p.now (p.secondBegan + 576000), secondBegan := p.secondBegan + 576000
            clock := { p.clock with second := p.clock.second + 1 } }) ∧
      (let minute := (p.clock.minute + 1) % 10080
       let began := p.secondBegan + (60 - p.clock.second) * 576000
       let advanced : Part :=
         { p with
           now := max p.now began, secondBegan := began, clock := { set := true, minute := minute, second := 0 } }
       let ends (q : Part) (x : ExceptionNo) : Part :=
         match q.exceptions[x] with
         | none => q
         | some e =>
           let released := (List.finRange 240).filter fun d => (q.image d).claim = some x
           let appended :=
             released.filter fun d =>
               (q.config d).configured && !(q.config d).withdrawn && (q.group (q.config d).group).night && (q.entryOf d).isNone &&
                 !q.catchUp.contains d
           { q with
             doors :=
               Vector.ofFn fun d =>
                 if (q.image d).claim = some x then { q.door d with image := { q.image d with claim := none } } else q.door d
             catchUp := q.catchUp ++ appended
             notices := q.notices.raise (.exceptionEnded x e.owner e.expiry .expired released.length appended.length)
             exceptions := q.exceptions.set x none }
       let exceptions (q : Part) : Part :=
         let ended := ((List.finRange 16).filter fun x => (p.exceptions[x]).any fun e => e.expiry = minute).foldl ends q
         if q.catchUp.length < ended.catchUp.length then ended.offerCatchUp else ended
       let fires (q : Part) (k : Fin 16) : Part :=
         Part.firing
           (match p.schedule[k].repetition with
             | .weekly => q
             | .once => { q with schedule := q.schedule.set k { p.schedule[k] with enabled := false } })
           { plan := p.schedule[k].plan, entry := k, minute := minute }
       let schedule (q : Part) : Part :=
         ((List.finRange 16).filter fun k => p.schedule[k].enabled && p.schedule[k].minute = minute).foldl fires q
       ((∀ k : Fin 16, ¬(p.schedule[k].enabled = true ∧ p.schedule[k].minute = minute)) →
          (∀ (x : ExceptionNo) e, p.exceptions[x] = some e → e.expiry ≠ minute) →
            Completes (.clockAdvance order) s advanced) ∧
       let first := order.find? fun b => b = .schedule ∨ b = .exceptionTable
       (first ≠ some .exceptionTable → Completes (.clockAdvance order) s (exceptions (schedule advanced))) ∧
       (first = some .exceptionTable → Completes (.clockAdvance order) s (schedule (exceptions advanced))) ∧
       ∃ t, exec (.clockAdvance order) s = .next t ∧ t.part.clock = { set := true, minute := minute, second := 0 } ∧
         t.part.fire = p.fire ∧ t.part.watches = p.watches ∧ (∀ d, t.part.config d = p.config d) ∧
         (∀ (x : ExceptionNo) e, p.exceptions[x] = some e →
           (e.expiry = minute → t.part.exceptions[x] = none) ∧ (e.expiry ≠ minute → t.part.exceptions[x] = some e)) ∧
         (∀ x : ExceptionNo, p.exceptions[x] = none → t.part.exceptions[x] = none) ∧
         (∀ d,
           ((∃ (x : ExceptionNo) (e : ExceptionRecord),
                (p.image d).claim = some x ∧ p.exceptions[x] = some e ∧ e.expiry = minute) → (t.part.image d).claim = none) ∧
           ((∀ (x : ExceptionNo) e, (p.image d).claim = some x → p.exceptions[x] = some e → e.expiry ≠ minute) →
             (t.part.image d).claim = (p.image d).claim)) ∧
         ∀ k : Fin 16,
           (p.schedule[k].enabled = true ∧ p.schedule[k].minute = minute ∧ p.schedule[k].repetition = .once →
             t.part.schedule[k] = { p.schedule[k] with enabled := false }) ∧
           (¬(p.schedule[k].enabled = true ∧ p.schedule[k].minute = minute ∧ p.schedule[k].repetition = .once) →
             t.part.schedule[k] = p.schedule[k])))

/-! ## Invariants -/

/-- The machine right after power-up meets every invariant below. -/
def Obligations.ResetMeetsTheInvariants : Prop :=
  State.reset.part.Bounded ∧ State.reset.part.FireSafe ∧ State.reset.part.WorkSound ∧ State.reset.part.TablesSound ∧
    State.reset.part.ResponsesKept

/-- Every step keeps the queues, lists and counts in their ranges (R13, R33 to R35, R39, R43, R176). -/
def Obligations.EveryStepKeepsTheRanges : Prop :=
  ∀ s t : State, s.part.Bounded → step s = .next t → t.part.Bounded

/-- Every step keeps an IDLE engine empty, the engine IDLE under the fire latch, and a clear latch at rest (R81, R130, R141, R146,
R152). -/
def Obligations.EveryStepKeepsTheFireLatchSafe : Prop :=
  ∀ s t : State, s.part.FireSafe → step s = .next t → t.part.FireSafe

/-- Every step keeps the catch-up list, the work set and the claims sound (R66, R107, R110, R119). -/
def Obligations.EveryStepKeepsTheWorkSound : Prop :=
  ∀ s t : State, s.part.WorkSound → step s = .next t → t.part.WorkSound

/-- Every step keeps the tables sound (R1, R107, R125, R184). -/
def Obligations.EveryStepKeepsTheTablesSound : Prop :=
  ∀ s t : State, s.part.TablesSound → step s = .next t → t.part.TablesSound

/-- No step loses a built response (R178, R188, R191). -/
def Obligations.EveryStepKeepsTheResponses : Prop :=
  ∀ s t : State, s.part.ResponsesKept → step s = .next t → t.part.ResponsesKept

end
end

