-- ==== Sys2Proof/Laws/State.lean ====
section
/-! SUPPORT. One lemma per field per update of the part, each true by definition, so that no later proof unfolds a record update. -/
namespace Sys2Proof.Machine.Part

variable (p : Part)

/-! ## setDoor -/

@[simp] theorem setDoor_powered (d : DoorNo) (r : DoorRecord) : (p.setDoor d r).powered = p.powered := rfl
@[simp] theorem setDoor_resetAsserted (d : DoorNo) (r : DoorRecord) : (p.setDoor d r).resetAsserted = p.resetAsserted := rfl
@[simp] theorem setDoor_now (d : DoorNo) (r : DoorRecord) : (p.setDoor d r).now = p.now := rfl
@[simp] theorem setDoor_doors (d : DoorNo) (r : DoorRecord) : (p.setDoor d r).doors = p.doors.set d r := rfl
@[simp] theorem setDoor_groups (d : DoorNo) (r : DoorRecord) : (p.setDoor d r).groups = p.groups := rfl
@[simp] theorem setDoor_lines (d : DoorNo) (r : DoorRecord) : (p.setDoor d r).lines = p.lines := rfl
@[simp] theorem setDoor_engine (d : DoorNo) (r : DoorRecord) : (p.setDoor d r).engine = p.engine := rfl
@[simp] theorem setDoor_exceptions (d : DoorNo) (r : DoorRecord) : (p.setDoor d r).exceptions = p.exceptions := rfl
@[simp] theorem setDoor_catchUp (d : DoorNo) (r : DoorRecord) : (p.setDoor d r).catchUp = p.catchUp := rfl
@[simp] theorem setDoor_clock (d : DoorNo) (r : DoorRecord) : (p.setDoor d r).clock = p.clock := rfl
@[simp] theorem setDoor_secondBegan (d : DoorNo) (r : DoorRecord) : (p.setDoor d r).secondBegan = p.secondBegan := rfl
@[simp] theorem setDoor_schedule (d : DoorNo) (r : DoorRecord) : (p.setDoor d r).schedule = p.schedule := rfl
@[simp] theorem setDoor_banks (d : DoorNo) (r : DoorRecord) : (p.setDoor d r).banks = p.banks := rfl
@[simp] theorem setDoor_fire (d : DoorNo) (r : DoorRecord) : (p.setDoor d r).fire = p.fire := rfl
@[simp] theorem setDoor_watches (d : DoorNo) (r : DoorRecord) : (p.setDoor d r).watches = p.watches := rfl
@[simp] theorem setDoor_notices (d : DoorNo) (r : DoorRecord) : (p.setDoor d r).notices = p.notices := rfl
@[simp] theorem setDoor_uplink (d : DoorNo) (r : DoorRecord) : (p.setDoor d r).uplink = p.uplink := rfl

/-! ## setImage -/

@[simp] theorem setImage_powered (d : DoorNo) (m : DoorImage) : (p.setImage d m).powered = p.powered := rfl
@[simp] theorem setImage_resetAsserted (d : DoorNo) (m : DoorImage) : (p.setImage d m).resetAsserted = p.resetAsserted := rfl
@[simp] theorem setImage_now (d : DoorNo) (m : DoorImage) : (p.setImage d m).now = p.now := rfl
@[simp] theorem setImage_doors (d : DoorNo) (m : DoorImage) : (p.setImage d m).doors = p.doors.set d { p.door d with image := m } := rfl
@[simp] theorem setImage_groups (d : DoorNo) (m : DoorImage) : (p.setImage d m).groups = p.groups := rfl
@[simp] theorem setImage_lines (d : DoorNo) (m : DoorImage) : (p.setImage d m).lines = p.lines := rfl
@[simp] theorem setImage_engine (d : DoorNo) (m : DoorImage) : (p.setImage d m).engine = p.engine := rfl
@[simp] theorem setImage_exceptions (d : DoorNo) (m : DoorImage) : (p.setImage d m).exceptions = p.exceptions := rfl
@[simp] theorem setImage_catchUp (d : DoorNo) (m : DoorImage) : (p.setImage d m).catchUp = p.catchUp := rfl
@[simp] theorem setImage_clock (d : DoorNo) (m : DoorImage) : (p.setImage d m).clock = p.clock := rfl
@[simp] theorem setImage_secondBegan (d : DoorNo) (m : DoorImage) : (p.setImage d m).secondBegan = p.secondBegan := rfl
@[simp] theorem setImage_schedule (d : DoorNo) (m : DoorImage) : (p.setImage d m).schedule = p.schedule := rfl
@[simp] theorem setImage_banks (d : DoorNo) (m : DoorImage) : (p.setImage d m).banks = p.banks := rfl
@[simp] theorem setImage_fire (d : DoorNo) (m : DoorImage) : (p.setImage d m).fire = p.fire := rfl
@[simp] theorem setImage_watches (d : DoorNo) (m : DoorImage) : (p.setImage d m).watches = p.watches := rfl
@[simp] theorem setImage_notices (d : DoorNo) (m : DoorImage) : (p.setImage d m).notices = p.notices := rfl
@[simp] theorem setImage_uplink (d : DoorNo) (m : DoorImage) : (p.setImage d m).uplink = p.uplink := rfl

/-! ## setConfig -/

@[simp] theorem setConfig_powered (d : DoorNo) (c : DoorConfig) : (p.setConfig d c).powered = p.powered := rfl
@[simp] theorem setConfig_resetAsserted (d : DoorNo) (c : DoorConfig) : (p.setConfig d c).resetAsserted = p.resetAsserted := rfl
@[simp] theorem setConfig_now (d : DoorNo) (c : DoorConfig) : (p.setConfig d c).now = p.now := rfl
@[simp] theorem setConfig_doors (d : DoorNo) (c : DoorConfig) : (p.setConfig d c).doors = p.doors.set d { p.door d with config := c } := rfl
@[simp] theorem setConfig_groups (d : DoorNo) (c : DoorConfig) : (p.setConfig d c).groups = p.groups := rfl
@[simp] theorem setConfig_lines (d : DoorNo) (c : DoorConfig) : (p.setConfig d c).lines = p.lines := rfl
@[simp] theorem setConfig_engine (d : DoorNo) (c : DoorConfig) : (p.setConfig d c).engine = p.engine := rfl
@[simp] theorem setConfig_exceptions (d : DoorNo) (c : DoorConfig) : (p.setConfig d c).exceptions = p.exceptions := rfl
@[simp] theorem setConfig_catchUp (d : DoorNo) (c : DoorConfig) : (p.setConfig d c).catchUp = p.catchUp := rfl
@[simp] theorem setConfig_clock (d : DoorNo) (c : DoorConfig) : (p.setConfig d c).clock = p.clock := rfl
@[simp] theorem setConfig_secondBegan (d : DoorNo) (c : DoorConfig) : (p.setConfig d c).secondBegan = p.secondBegan := rfl
@[simp] theorem setConfig_schedule (d : DoorNo) (c : DoorConfig) : (p.setConfig d c).schedule = p.schedule := rfl
@[simp] theorem setConfig_banks (d : DoorNo) (c : DoorConfig) : (p.setConfig d c).banks = p.banks := rfl
@[simp] theorem setConfig_fire (d : DoorNo) (c : DoorConfig) : (p.setConfig d c).fire = p.fire := rfl
@[simp] theorem setConfig_watches (d : DoorNo) (c : DoorConfig) : (p.setConfig d c).watches = p.watches := rfl
@[simp] theorem setConfig_notices (d : DoorNo) (c : DoorConfig) : (p.setConfig d c).notices = p.notices := rfl
@[simp] theorem setConfig_uplink (d : DoorNo) (c : DoorConfig) : (p.setConfig d c).uplink = p.uplink := rfl

/-! ## setGroup -/

@[simp] theorem setGroup_powered (g : GroupNo) (r : GroupRecord) : (p.setGroup g r).powered = p.powered := rfl
@[simp] theorem setGroup_resetAsserted (g : GroupNo) (r : GroupRecord) : (p.setGroup g r).resetAsserted = p.resetAsserted := rfl
@[simp] theorem setGroup_now (g : GroupNo) (r : GroupRecord) : (p.setGroup g r).now = p.now := rfl
@[simp] theorem setGroup_doors (g : GroupNo) (r : GroupRecord) : (p.setGroup g r).doors = p.doors := rfl
@[simp] theorem setGroup_groups (g : GroupNo) (r : GroupRecord) : (p.setGroup g r).groups = p.groups.set g r := rfl
@[simp] theorem setGroup_lines (g : GroupNo) (r : GroupRecord) : (p.setGroup g r).lines = p.lines := rfl
@[simp] theorem setGroup_engine (g : GroupNo) (r : GroupRecord) : (p.setGroup g r).engine = p.engine := rfl
@[simp] theorem setGroup_exceptions (g : GroupNo) (r : GroupRecord) : (p.setGroup g r).exceptions = p.exceptions := rfl
@[simp] theorem setGroup_catchUp (g : GroupNo) (r : GroupRecord) : (p.setGroup g r).catchUp = p.catchUp := rfl
@[simp] theorem setGroup_clock (g : GroupNo) (r : GroupRecord) : (p.setGroup g r).clock = p.clock := rfl
@[simp] theorem setGroup_secondBegan (g : GroupNo) (r : GroupRecord) : (p.setGroup g r).secondBegan = p.secondBegan := rfl
@[simp] theorem setGroup_schedule (g : GroupNo) (r : GroupRecord) : (p.setGroup g r).schedule = p.schedule := rfl
@[simp] theorem setGroup_banks (g : GroupNo) (r : GroupRecord) : (p.setGroup g r).banks = p.banks := rfl
@[simp] theorem setGroup_fire (g : GroupNo) (r : GroupRecord) : (p.setGroup g r).fire = p.fire := rfl
@[simp] theorem setGroup_watches (g : GroupNo) (r : GroupRecord) : (p.setGroup g r).watches = p.watches := rfl
@[simp] theorem setGroup_notices (g : GroupNo) (r : GroupRecord) : (p.setGroup g r).notices = p.notices := rfl
@[simp] theorem setGroup_uplink (g : GroupNo) (r : GroupRecord) : (p.setGroup g r).uplink = p.uplink := rfl

/-! ## setLine -/

@[simp] theorem setLine_powered (l : LineNo) (x : Line) : (p.setLine l x).powered = p.powered := rfl
@[simp] theorem setLine_resetAsserted (l : LineNo) (x : Line) : (p.setLine l x).resetAsserted = p.resetAsserted := rfl
@[simp] theorem setLine_now (l : LineNo) (x : Line) : (p.setLine l x).now = p.now := rfl
@[simp] theorem setLine_doors (l : LineNo) (x : Line) : (p.setLine l x).doors = p.doors := rfl
@[simp] theorem setLine_groups (l : LineNo) (x : Line) : (p.setLine l x).groups = p.groups := rfl
@[simp] theorem setLine_lines (l : LineNo) (x : Line) : (p.setLine l x).lines = p.lines.set l x := rfl
@[simp] theorem setLine_engine (l : LineNo) (x : Line) : (p.setLine l x).engine = p.engine := rfl
@[simp] theorem setLine_exceptions (l : LineNo) (x : Line) : (p.setLine l x).exceptions = p.exceptions := rfl
@[simp] theorem setLine_catchUp (l : LineNo) (x : Line) : (p.setLine l x).catchUp = p.catchUp := rfl
@[simp] theorem setLine_clock (l : LineNo) (x : Line) : (p.setLine l x).clock = p.clock := rfl
@[simp] theorem setLine_secondBegan (l : LineNo) (x : Line) : (p.setLine l x).secondBegan = p.secondBegan := rfl
@[simp] theorem setLine_schedule (l : LineNo) (x : Line) : (p.setLine l x).schedule = p.schedule := rfl
@[simp] theorem setLine_banks (l : LineNo) (x : Line) : (p.setLine l x).banks = p.banks := rfl
@[simp] theorem setLine_fire (l : LineNo) (x : Line) : (p.setLine l x).fire = p.fire := rfl
@[simp] theorem setLine_watches (l : LineNo) (x : Line) : (p.setLine l x).watches = p.watches := rfl
@[simp] theorem setLine_notices (l : LineNo) (x : Line) : (p.setLine l x).notices = p.notices := rfl
@[simp] theorem setLine_uplink (l : LineNo) (x : Line) : (p.setLine l x).uplink = p.uplink := rfl

/-! ## setEntry -/

@[simp] theorem setEntry_powered (n : EntryNo) (e : Option WorkEntry) : (p.setEntry n e).powered = p.powered := rfl
@[simp] theorem setEntry_resetAsserted (n : EntryNo) (e : Option WorkEntry) : (p.setEntry n e).resetAsserted = p.resetAsserted := rfl
@[simp] theorem setEntry_now (n : EntryNo) (e : Option WorkEntry) : (p.setEntry n e).now = p.now := rfl
@[simp] theorem setEntry_doors (n : EntryNo) (e : Option WorkEntry) : (p.setEntry n e).doors = p.doors := rfl
@[simp] theorem setEntry_groups (n : EntryNo) (e : Option WorkEntry) : (p.setEntry n e).groups = p.groups := rfl
@[simp] theorem setEntry_lines (n : EntryNo) (e : Option WorkEntry) : (p.setEntry n e).lines = p.lines := rfl
@[simp] theorem setEntry_engine (n : EntryNo) (e : Option WorkEntry) : (p.setEntry n e).engine = { p.engine with workSet := p.engine.workSet.set n e } := rfl
@[simp] theorem setEntry_exceptions (n : EntryNo) (e : Option WorkEntry) : (p.setEntry n e).exceptions = p.exceptions := rfl
@[simp] theorem setEntry_catchUp (n : EntryNo) (e : Option WorkEntry) : (p.setEntry n e).catchUp = p.catchUp := rfl
@[simp] theorem setEntry_clock (n : EntryNo) (e : Option WorkEntry) : (p.setEntry n e).clock = p.clock := rfl
@[simp] theorem setEntry_secondBegan (n : EntryNo) (e : Option WorkEntry) : (p.setEntry n e).secondBegan = p.secondBegan := rfl
@[simp] theorem setEntry_schedule (n : EntryNo) (e : Option WorkEntry) : (p.setEntry n e).schedule = p.schedule := rfl
@[simp] theorem setEntry_banks (n : EntryNo) (e : Option WorkEntry) : (p.setEntry n e).banks = p.banks := rfl
@[simp] theorem setEntry_fire (n : EntryNo) (e : Option WorkEntry) : (p.setEntry n e).fire = p.fire := rfl
@[simp] theorem setEntry_watches (n : EntryNo) (e : Option WorkEntry) : (p.setEntry n e).watches = p.watches := rfl
@[simp] theorem setEntry_notices (n : EntryNo) (e : Option WorkEntry) : (p.setEntry n e).notices = p.notices := rfl
@[simp] theorem setEntry_uplink (n : EntryNo) (e : Option WorkEntry) : (p.setEntry n e).uplink = p.uplink := rfl

/-! ## setCtx -/

@[simp] theorem setCtx_powered (c : Option SweepContext) : (p.setCtx c).powered = p.powered := rfl
@[simp] theorem setCtx_resetAsserted (c : Option SweepContext) : (p.setCtx c).resetAsserted = p.resetAsserted := rfl
@[simp] theorem setCtx_now (c : Option SweepContext) : (p.setCtx c).now = p.now := rfl
@[simp] theorem setCtx_doors (c : Option SweepContext) : (p.setCtx c).doors = p.doors := rfl
@[simp] theorem setCtx_groups (c : Option SweepContext) : (p.setCtx c).groups = p.groups := rfl
@[simp] theorem setCtx_lines (c : Option SweepContext) : (p.setCtx c).lines = p.lines := rfl
@[simp] theorem setCtx_engine (c : Option SweepContext) : (p.setCtx c).engine = { p.engine with ctx := c } := rfl
@[simp] theorem setCtx_exceptions (c : Option SweepContext) : (p.setCtx c).exceptions = p.exceptions := rfl
@[simp] theorem setCtx_catchUp (c : Option SweepContext) : (p.setCtx c).catchUp = p.catchUp := rfl
@[simp] theorem setCtx_clock (c : Option SweepContext) : (p.setCtx c).clock = p.clock := rfl
@[simp] theorem setCtx_secondBegan (c : Option SweepContext) : (p.setCtx c).secondBegan = p.secondBegan := rfl
@[simp] theorem setCtx_schedule (c : Option SweepContext) : (p.setCtx c).schedule = p.schedule := rfl
@[simp] theorem setCtx_banks (c : Option SweepContext) : (p.setCtx c).banks = p.banks := rfl
@[simp] theorem setCtx_fire (c : Option SweepContext) : (p.setCtx c).fire = p.fire := rfl
@[simp] theorem setCtx_watches (c : Option SweepContext) : (p.setCtx c).watches = p.watches := rfl
@[simp] theorem setCtx_notices (c : Option SweepContext) : (p.setCtx c).notices = p.notices := rfl
@[simp] theorem setCtx_uplink (c : Option SweepContext) : (p.setCtx c).uplink = p.uplink := rfl

/-! ## setSlot -/

@[simp] theorem setSlot_powered (o : OriginatorNo) (i : SlotNo) (x : Slot) : (p.setSlot o i x).powered = p.powered := rfl
@[simp] theorem setSlot_resetAsserted (o : OriginatorNo) (i : SlotNo) (x : Slot) : (p.setSlot o i x).resetAsserted = p.resetAsserted := rfl
@[simp] theorem setSlot_now (o : OriginatorNo) (i : SlotNo) (x : Slot) : (p.setSlot o i x).now = p.now := rfl
@[simp] theorem setSlot_doors (o : OriginatorNo) (i : SlotNo) (x : Slot) : (p.setSlot o i x).doors = p.doors := rfl
@[simp] theorem setSlot_groups (o : OriginatorNo) (i : SlotNo) (x : Slot) : (p.setSlot o i x).groups = p.groups := rfl
@[simp] theorem setSlot_lines (o : OriginatorNo) (i : SlotNo) (x : Slot) : (p.setSlot o i x).lines = p.lines := rfl
@[simp] theorem setSlot_engine (o : OriginatorNo) (i : SlotNo) (x : Slot) : (p.setSlot o i x).engine = p.engine := rfl
@[simp] theorem setSlot_exceptions (o : OriginatorNo) (i : SlotNo) (x : Slot) : (p.setSlot o i x).exceptions = p.exceptions := rfl
@[simp] theorem setSlot_catchUp (o : OriginatorNo) (i : SlotNo) (x : Slot) : (p.setSlot o i x).catchUp = p.catchUp := rfl
@[simp] theorem setSlot_clock (o : OriginatorNo) (i : SlotNo) (x : Slot) : (p.setSlot o i x).clock = p.clock := rfl
@[simp] theorem setSlot_secondBegan (o : OriginatorNo) (i : SlotNo) (x : Slot) : (p.setSlot o i x).secondBegan = p.secondBegan := rfl
@[simp] theorem setSlot_schedule (o : OriginatorNo) (i : SlotNo) (x : Slot) : (p.setSlot o i x).schedule = p.schedule := rfl
@[simp] theorem setSlot_banks (o : OriginatorNo) (i : SlotNo) (x : Slot) : (p.setSlot o i x).banks = p.banks := rfl
@[simp] theorem setSlot_fire (o : OriginatorNo) (i : SlotNo) (x : Slot) : (p.setSlot o i x).fire = p.fire := rfl
@[simp] theorem setSlot_watches (o : OriginatorNo) (i : SlotNo) (x : Slot) : (p.setSlot o i x).watches = p.watches := rfl
@[simp] theorem setSlot_notices (o : OriginatorNo) (i : SlotNo) (x : Slot) : (p.setSlot o i x).notices = p.notices := rfl
@[simp] theorem setSlot_uplink (o : OriginatorNo) (i : SlotNo) (x : Slot) : (p.setSlot o i x).uplink = { p.uplink with slots := p.uplink.slots.set (slotPlace o i) x } := rfl

/-! ## setSense -/

@[simp] theorem setSense_powered (o : OriginatorNo) (x : Option SenseRecord) : (p.setSense o x).powered = p.powered := rfl
@[simp] theorem setSense_resetAsserted (o : OriginatorNo) (x : Option SenseRecord) : (p.setSense o x).resetAsserted = p.resetAsserted := rfl
@[simp] theorem setSense_now (o : OriginatorNo) (x : Option SenseRecord) : (p.setSense o x).now = p.now := rfl
@[simp] theorem setSense_doors (o : OriginatorNo) (x : Option SenseRecord) : (p.setSense o x).doors = p.doors := rfl
@[simp] theorem setSense_groups (o : OriginatorNo) (x : Option SenseRecord) : (p.setSense o x).groups = p.groups := rfl
@[simp] theorem setSense_lines (o : OriginatorNo) (x : Option SenseRecord) : (p.setSense o x).lines = p.lines := rfl
@[simp] theorem setSense_engine (o : OriginatorNo) (x : Option SenseRecord) : (p.setSense o x).engine = p.engine := rfl
@[simp] theorem setSense_exceptions (o : OriginatorNo) (x : Option SenseRecord) : (p.setSense o x).exceptions = p.exceptions := rfl
@[simp] theorem setSense_catchUp (o : OriginatorNo) (x : Option SenseRecord) : (p.setSense o x).catchUp = p.catchUp := rfl
@[simp] theorem setSense_clock (o : OriginatorNo) (x : Option SenseRecord) : (p.setSense o x).clock = p.clock := rfl
@[simp] theorem setSense_secondBegan (o : OriginatorNo) (x : Option SenseRecord) : (p.setSense o x).secondBegan = p.secondBegan := rfl
@[simp] theorem setSense_schedule (o : OriginatorNo) (x : Option SenseRecord) : (p.setSense o x).schedule = p.schedule := rfl
@[simp] theorem setSense_banks (o : OriginatorNo) (x : Option SenseRecord) : (p.setSense o x).banks = p.banks := rfl
@[simp] theorem setSense_fire (o : OriginatorNo) (x : Option SenseRecord) : (p.setSense o x).fire = p.fire := rfl
@[simp] theorem setSense_watches (o : OriginatorNo) (x : Option SenseRecord) : (p.setSense o x).watches = p.watches := rfl
@[simp] theorem setSense_notices (o : OriginatorNo) (x : Option SenseRecord) : (p.setSense o x).notices = p.notices := rfl
@[simp] theorem setSense_uplink (o : OriginatorNo) (x : Option SenseRecord) : (p.setSense o x).uplink = { p.uplink with senses := p.uplink.senses.set o x } := rfl

/-! ## raise -/

@[simp] theorem raise_powered (n : Notice) : (p.raise n).powered = p.powered := rfl
@[simp] theorem raise_resetAsserted (n : Notice) : (p.raise n).resetAsserted = p.resetAsserted := rfl
@[simp] theorem raise_now (n : Notice) : (p.raise n).now = p.now := rfl
@[simp] theorem raise_doors (n : Notice) : (p.raise n).doors = p.doors := rfl
@[simp] theorem raise_groups (n : Notice) : (p.raise n).groups = p.groups := rfl
@[simp] theorem raise_lines (n : Notice) : (p.raise n).lines = p.lines := rfl
@[simp] theorem raise_engine (n : Notice) : (p.raise n).engine = p.engine := rfl
@[simp] theorem raise_exceptions (n : Notice) : (p.raise n).exceptions = p.exceptions := rfl
@[simp] theorem raise_catchUp (n : Notice) : (p.raise n).catchUp = p.catchUp := rfl
@[simp] theorem raise_clock (n : Notice) : (p.raise n).clock = p.clock := rfl
@[simp] theorem raise_secondBegan (n : Notice) : (p.raise n).secondBegan = p.secondBegan := rfl
@[simp] theorem raise_schedule (n : Notice) : (p.raise n).schedule = p.schedule := rfl
@[simp] theorem raise_banks (n : Notice) : (p.raise n).banks = p.banks := rfl
@[simp] theorem raise_fire (n : Notice) : (p.raise n).fire = p.fire := rfl
@[simp] theorem raise_watches (n : Notice) : (p.raise n).watches = p.watches := rfl
@[simp] theorem raise_notices (n : Notice) : (p.raise n).notices = p.notices.raise n := rfl
@[simp] theorem raise_uplink (n : Notice) : (p.raise n).uplink = p.uplink := rfl

/-! ## reach -/

@[simp] theorem reach_powered (t : Time) : (p.reach t).powered = p.powered := rfl
@[simp] theorem reach_resetAsserted (t : Time) : (p.reach t).resetAsserted = p.resetAsserted := rfl
@[simp] theorem reach_now (t : Time) : (p.reach t).now = max p.now t := rfl
@[simp] theorem reach_doors (t : Time) : (p.reach t).doors = p.doors := rfl
@[simp] theorem reach_groups (t : Time) : (p.reach t).groups = p.groups := rfl
@[simp] theorem reach_lines (t : Time) : (p.reach t).lines = p.lines := rfl
@[simp] theorem reach_engine (t : Time) : (p.reach t).engine = p.engine := rfl
@[simp] theorem reach_exceptions (t : Time) : (p.reach t).exceptions = p.exceptions := rfl
@[simp] theorem reach_catchUp (t : Time) : (p.reach t).catchUp = p.catchUp := rfl
@[simp] theorem reach_clock (t : Time) : (p.reach t).clock = p.clock := rfl
@[simp] theorem reach_secondBegan (t : Time) : (p.reach t).secondBegan = p.secondBegan := rfl
@[simp] theorem reach_schedule (t : Time) : (p.reach t).schedule = p.schedule := rfl
@[simp] theorem reach_banks (t : Time) : (p.reach t).banks = p.banks := rfl
@[simp] theorem reach_fire (t : Time) : (p.reach t).fire = p.fire := rfl
@[simp] theorem reach_watches (t : Time) : (p.reach t).watches = p.watches := rfl
@[simp] theorem reach_notices (t : Time) : (p.reach t).notices = p.notices := rfl
@[simp] theorem reach_uplink (t : Time) : (p.reach t).uplink = p.uplink := rfl

/-! ## appendCatchUp -/

@[simp] theorem appendCatchUp_powered (d : DoorNo) : (p.appendCatchUp d).powered = p.powered := rfl
@[simp] theorem appendCatchUp_resetAsserted (d : DoorNo) : (p.appendCatchUp d).resetAsserted = p.resetAsserted := rfl
@[simp] theorem appendCatchUp_now (d : DoorNo) : (p.appendCatchUp d).now = p.now := rfl
@[simp] theorem appendCatchUp_doors (d : DoorNo) : (p.appendCatchUp d).doors = p.doors := rfl
@[simp] theorem appendCatchUp_groups (d : DoorNo) : (p.appendCatchUp d).groups = p.groups := rfl
@[simp] theorem appendCatchUp_lines (d : DoorNo) : (p.appendCatchUp d).lines = p.lines := rfl
@[simp] theorem appendCatchUp_engine (d : DoorNo) : (p.appendCatchUp d).engine = p.engine := rfl
@[simp] theorem appendCatchUp_exceptions (d : DoorNo) : (p.appendCatchUp d).exceptions = p.exceptions := rfl
@[simp] theorem appendCatchUp_catchUp (d : DoorNo) : (p.appendCatchUp d).catchUp = p.catchUp ++ [d] := rfl
@[simp] theorem appendCatchUp_clock (d : DoorNo) : (p.appendCatchUp d).clock = p.clock := rfl
@[simp] theorem appendCatchUp_secondBegan (d : DoorNo) : (p.appendCatchUp d).secondBegan = p.secondBegan := rfl
@[simp] theorem appendCatchUp_schedule (d : DoorNo) : (p.appendCatchUp d).schedule = p.schedule := rfl
@[simp] theorem appendCatchUp_banks (d : DoorNo) : (p.appendCatchUp d).banks = p.banks := rfl
@[simp] theorem appendCatchUp_fire (d : DoorNo) : (p.appendCatchUp d).fire = p.fire := rfl
@[simp] theorem appendCatchUp_watches (d : DoorNo) : (p.appendCatchUp d).watches = p.watches := rfl
@[simp] theorem appendCatchUp_notices (d : DoorNo) : (p.appendCatchUp d).notices = p.notices := rfl
@[simp] theorem appendCatchUp_uplink (d : DoorNo) : (p.appendCatchUp d).uplink = p.uplink := rfl

/-! ## removeCatchUp -/

@[simp] theorem removeCatchUp_powered (d : DoorNo) : (p.removeCatchUp d).powered = p.powered := rfl
@[simp] theorem removeCatchUp_resetAsserted (d : DoorNo) : (p.removeCatchUp d).resetAsserted = p.resetAsserted := rfl
@[simp] theorem removeCatchUp_now (d : DoorNo) : (p.removeCatchUp d).now = p.now := rfl
@[simp] theorem removeCatchUp_doors (d : DoorNo) : (p.removeCatchUp d).doors = p.doors := rfl
@[simp] theorem removeCatchUp_groups (d : DoorNo) : (p.removeCatchUp d).groups = p.groups := rfl
@[simp] theorem removeCatchUp_lines (d : DoorNo) : (p.removeCatchUp d).lines = p.lines := rfl
@[simp] theorem removeCatchUp_engine (d : DoorNo) : (p.removeCatchUp d).engine = p.engine := rfl
@[simp] theorem removeCatchUp_exceptions (d : DoorNo) : (p.removeCatchUp d).exceptions = p.exceptions := rfl
@[simp] theorem removeCatchUp_catchUp (d : DoorNo) : (p.removeCatchUp d).catchUp = p.catchUp.filter fun x => x ≠ d := rfl
@[simp] theorem removeCatchUp_clock (d : DoorNo) : (p.removeCatchUp d).clock = p.clock := rfl
@[simp] theorem removeCatchUp_secondBegan (d : DoorNo) : (p.removeCatchUp d).secondBegan = p.secondBegan := rfl
@[simp] theorem removeCatchUp_schedule (d : DoorNo) : (p.removeCatchUp d).schedule = p.schedule := rfl
@[simp] theorem removeCatchUp_banks (d : DoorNo) : (p.removeCatchUp d).banks = p.banks := rfl
@[simp] theorem removeCatchUp_fire (d : DoorNo) : (p.removeCatchUp d).fire = p.fire := rfl
@[simp] theorem removeCatchUp_watches (d : DoorNo) : (p.removeCatchUp d).watches = p.watches := rfl
@[simp] theorem removeCatchUp_notices (d : DoorNo) : (p.removeCatchUp d).notices = p.notices := rfl
@[simp] theorem removeCatchUp_uplink (d : DoorNo) : (p.removeCatchUp d).uplink = p.uplink := rfl

end Sys2Proof.Machine.Part
end

