-- ==== Sys2Proof/Laws/Access.lean ====
section
/-! SUPPORT. What each reading operation gives after each writing one: the field written, and every other as before. -/
namespace Sys2Proof.Machine.Part

variable (p : Part)

/-! ## setDoor -/

@[simp] theorem setDoor_group (d : DoorNo) (r : DoorRecord) (x : GroupNo) : (p.setDoor d r).group x = p.group x := rfl
@[simp] theorem setDoor_line (d : DoorNo) (r : DoorRecord) (x : LineNo) : (p.setDoor d r).line x = p.line x := rfl
@[simp] theorem setDoor_entry (d : DoorNo) (r : DoorRecord) (x : EntryNo) : (p.setDoor d r).entry x = p.entry x := rfl
@[simp] theorem setDoor_slot (d : DoorNo) (r : DoorRecord) (x : OriginatorNo) (y : SlotNo) : (p.setDoor d r).slot x y = p.slot x y := rfl
@[simp] theorem setDoor_minute (d : DoorNo) (r : DoorRecord) : (p.setDoor d r).minute = p.minute := rfl
@[simp] theorem setDoor_working (d : DoorNo) (r : DoorRecord) : (p.setDoor d r).working = p.working := rfl

/-! ## setImage -/

@[simp] theorem setImage_group (d : DoorNo) (m : DoorImage) (x : GroupNo) : (p.setImage d m).group x = p.group x := rfl
@[simp] theorem setImage_line (d : DoorNo) (m : DoorImage) (x : LineNo) : (p.setImage d m).line x = p.line x := rfl
@[simp] theorem setImage_entry (d : DoorNo) (m : DoorImage) (x : EntryNo) : (p.setImage d m).entry x = p.entry x := rfl
@[simp] theorem setImage_slot (d : DoorNo) (m : DoorImage) (x : OriginatorNo) (y : SlotNo) : (p.setImage d m).slot x y = p.slot x y := rfl
@[simp] theorem setImage_minute (d : DoorNo) (m : DoorImage) : (p.setImage d m).minute = p.minute := rfl
@[simp] theorem setImage_working (d : DoorNo) (m : DoorImage) : (p.setImage d m).working = p.working := rfl

/-! ## setConfig -/

@[simp] theorem setConfig_group (d : DoorNo) (c : DoorConfig) (x : GroupNo) : (p.setConfig d c).group x = p.group x := rfl
@[simp] theorem setConfig_line (d : DoorNo) (c : DoorConfig) (x : LineNo) : (p.setConfig d c).line x = p.line x := rfl
@[simp] theorem setConfig_entry (d : DoorNo) (c : DoorConfig) (x : EntryNo) : (p.setConfig d c).entry x = p.entry x := rfl
@[simp] theorem setConfig_slot (d : DoorNo) (c : DoorConfig) (x : OriginatorNo) (y : SlotNo) : (p.setConfig d c).slot x y = p.slot x y := rfl
@[simp] theorem setConfig_minute (d : DoorNo) (c : DoorConfig) : (p.setConfig d c).minute = p.minute := rfl
@[simp] theorem setConfig_working (d : DoorNo) (c : DoorConfig) : (p.setConfig d c).working = p.working := rfl

/-! ## setGroup -/

@[simp] theorem setGroup_door (g : GroupNo) (r : GroupRecord) (x : DoorNo) : (p.setGroup g r).door x = p.door x := rfl
@[simp] theorem setGroup_config (g : GroupNo) (r : GroupRecord) (x : DoorNo) : (p.setGroup g r).config x = p.config x := rfl
@[simp] theorem setGroup_image (g : GroupNo) (r : GroupRecord) (x : DoorNo) : (p.setGroup g r).image x = p.image x := rfl
@[simp] theorem setGroup_lineOf (g : GroupNo) (r : GroupRecord) (x : DoorNo) : (p.setGroup g r).lineOf x = p.lineOf x := rfl
@[simp] theorem setGroup_line (g : GroupNo) (r : GroupRecord) (x : LineNo) : (p.setGroup g r).line x = p.line x := rfl
@[simp] theorem setGroup_entry (g : GroupNo) (r : GroupRecord) (x : EntryNo) : (p.setGroup g r).entry x = p.entry x := rfl
@[simp] theorem setGroup_slot (g : GroupNo) (r : GroupRecord) (x : OriginatorNo) (y : SlotNo) : (p.setGroup g r).slot x y = p.slot x y := rfl
@[simp] theorem setGroup_minute (g : GroupNo) (r : GroupRecord) : (p.setGroup g r).minute = p.minute := rfl
@[simp] theorem setGroup_working (g : GroupNo) (r : GroupRecord) : (p.setGroup g r).working = p.working := rfl

/-! ## setLine -/

@[simp] theorem setLine_door (l : LineNo) (v : Line) (x : DoorNo) : (p.setLine l v).door x = p.door x := rfl
@[simp] theorem setLine_config (l : LineNo) (v : Line) (x : DoorNo) : (p.setLine l v).config x = p.config x := rfl
@[simp] theorem setLine_image (l : LineNo) (v : Line) (x : DoorNo) : (p.setLine l v).image x = p.image x := rfl
@[simp] theorem setLine_lineOf (l : LineNo) (v : Line) (x : DoorNo) : (p.setLine l v).lineOf x = p.lineOf x := rfl
@[simp] theorem setLine_group (l : LineNo) (v : Line) (x : GroupNo) : (p.setLine l v).group x = p.group x := rfl
@[simp] theorem setLine_entry (l : LineNo) (v : Line) (x : EntryNo) : (p.setLine l v).entry x = p.entry x := rfl
@[simp] theorem setLine_slot (l : LineNo) (v : Line) (x : OriginatorNo) (y : SlotNo) : (p.setLine l v).slot x y = p.slot x y := rfl
@[simp] theorem setLine_minute (l : LineNo) (v : Line) : (p.setLine l v).minute = p.minute := rfl
@[simp] theorem setLine_working (l : LineNo) (v : Line) : (p.setLine l v).working = p.working := rfl

/-! ## setEntry -/

@[simp] theorem setEntry_door (n : EntryNo) (e : Option WorkEntry) (x : DoorNo) : (p.setEntry n e).door x = p.door x := rfl
@[simp] theorem setEntry_config (n : EntryNo) (e : Option WorkEntry) (x : DoorNo) : (p.setEntry n e).config x = p.config x := rfl
@[simp] theorem setEntry_image (n : EntryNo) (e : Option WorkEntry) (x : DoorNo) : (p.setEntry n e).image x = p.image x := rfl
@[simp] theorem setEntry_lineOf (n : EntryNo) (e : Option WorkEntry) (x : DoorNo) : (p.setEntry n e).lineOf x = p.lineOf x := rfl
@[simp] theorem setEntry_group (n : EntryNo) (e : Option WorkEntry) (x : GroupNo) : (p.setEntry n e).group x = p.group x := rfl
@[simp] theorem setEntry_line (n : EntryNo) (e : Option WorkEntry) (x : LineNo) : (p.setEntry n e).line x = p.line x := rfl
@[simp] theorem setEntry_slot (n : EntryNo) (e : Option WorkEntry) (x : OriginatorNo) (y : SlotNo) : (p.setEntry n e).slot x y = p.slot x y := rfl
@[simp] theorem setEntry_minute (n : EntryNo) (e : Option WorkEntry) : (p.setEntry n e).minute = p.minute := rfl
@[simp] theorem setEntry_working (n : EntryNo) (e : Option WorkEntry) : (p.setEntry n e).working = p.working := rfl

/-! ## setCtx -/

@[simp] theorem setCtx_door (c : Option SweepContext) (x : DoorNo) : (p.setCtx c).door x = p.door x := rfl
@[simp] theorem setCtx_config (c : Option SweepContext) (x : DoorNo) : (p.setCtx c).config x = p.config x := rfl
@[simp] theorem setCtx_image (c : Option SweepContext) (x : DoorNo) : (p.setCtx c).image x = p.image x := rfl
@[simp] theorem setCtx_lineOf (c : Option SweepContext) (x : DoorNo) : (p.setCtx c).lineOf x = p.lineOf x := rfl
@[simp] theorem setCtx_group (c : Option SweepContext) (x : GroupNo) : (p.setCtx c).group x = p.group x := rfl
@[simp] theorem setCtx_line (c : Option SweepContext) (x : LineNo) : (p.setCtx c).line x = p.line x := rfl
@[simp] theorem setCtx_slot (c : Option SweepContext) (x : OriginatorNo) (y : SlotNo) : (p.setCtx c).slot x y = p.slot x y := rfl
@[simp] theorem setCtx_minute (c : Option SweepContext) : (p.setCtx c).minute = p.minute := rfl
@[simp] theorem setCtx_working (c : Option SweepContext) : (p.setCtx c).working = p.working := rfl
@[simp] theorem setCtx_entry (c : Option SweepContext) (x : EntryNo) : (p.setCtx c).entry x = p.entry x := rfl

/-! ## setSlot -/

@[simp] theorem setSlot_door (o : OriginatorNo) (i : SlotNo) (v : Slot) (x : DoorNo) : (p.setSlot o i v).door x = p.door x := rfl
@[simp] theorem setSlot_config (o : OriginatorNo) (i : SlotNo) (v : Slot) (x : DoorNo) : (p.setSlot o i v).config x = p.config x := rfl
@[simp] theorem setSlot_image (o : OriginatorNo) (i : SlotNo) (v : Slot) (x : DoorNo) : (p.setSlot o i v).image x = p.image x := rfl
@[simp] theorem setSlot_lineOf (o : OriginatorNo) (i : SlotNo) (v : Slot) (x : DoorNo) : (p.setSlot o i v).lineOf x = p.lineOf x := rfl
@[simp] theorem setSlot_group (o : OriginatorNo) (i : SlotNo) (v : Slot) (x : GroupNo) : (p.setSlot o i v).group x = p.group x := rfl
@[simp] theorem setSlot_line (o : OriginatorNo) (i : SlotNo) (v : Slot) (x : LineNo) : (p.setSlot o i v).line x = p.line x := rfl
@[simp] theorem setSlot_entry (o : OriginatorNo) (i : SlotNo) (v : Slot) (x : EntryNo) : (p.setSlot o i v).entry x = p.entry x := rfl
@[simp] theorem setSlot_minute (o : OriginatorNo) (i : SlotNo) (v : Slot) : (p.setSlot o i v).minute = p.minute := rfl
@[simp] theorem setSlot_working (o : OriginatorNo) (i : SlotNo) (v : Slot) : (p.setSlot o i v).working = p.working := rfl

/-! ## setSense -/

@[simp] theorem setSense_door (o : OriginatorNo) (v : Option SenseRecord) (x : DoorNo) : (p.setSense o v).door x = p.door x := rfl
@[simp] theorem setSense_config (o : OriginatorNo) (v : Option SenseRecord) (x : DoorNo) : (p.setSense o v).config x = p.config x := rfl
@[simp] theorem setSense_image (o : OriginatorNo) (v : Option SenseRecord) (x : DoorNo) : (p.setSense o v).image x = p.image x := rfl
@[simp] theorem setSense_lineOf (o : OriginatorNo) (v : Option SenseRecord) (x : DoorNo) : (p.setSense o v).lineOf x = p.lineOf x := rfl
@[simp] theorem setSense_group (o : OriginatorNo) (v : Option SenseRecord) (x : GroupNo) : (p.setSense o v).group x = p.group x := rfl
@[simp] theorem setSense_line (o : OriginatorNo) (v : Option SenseRecord) (x : LineNo) : (p.setSense o v).line x = p.line x := rfl
@[simp] theorem setSense_entry (o : OriginatorNo) (v : Option SenseRecord) (x : EntryNo) : (p.setSense o v).entry x = p.entry x := rfl
@[simp] theorem setSense_minute (o : OriginatorNo) (v : Option SenseRecord) : (p.setSense o v).minute = p.minute := rfl
@[simp] theorem setSense_working (o : OriginatorNo) (v : Option SenseRecord) : (p.setSense o v).working = p.working := rfl
@[simp] theorem setSense_slot (o : OriginatorNo) (v : Option SenseRecord) (x : OriginatorNo) (y : SlotNo) : (p.setSense o v).slot x y = p.slot x y := rfl

/-! ## raise -/

@[simp] theorem raise_door (n : Notice) (x : DoorNo) : (p.raise n).door x = p.door x := rfl
@[simp] theorem raise_config (n : Notice) (x : DoorNo) : (p.raise n).config x = p.config x := rfl
@[simp] theorem raise_image (n : Notice) (x : DoorNo) : (p.raise n).image x = p.image x := rfl
@[simp] theorem raise_lineOf (n : Notice) (x : DoorNo) : (p.raise n).lineOf x = p.lineOf x := rfl
@[simp] theorem raise_group (n : Notice) (x : GroupNo) : (p.raise n).group x = p.group x := rfl
@[simp] theorem raise_line (n : Notice) (x : LineNo) : (p.raise n).line x = p.line x := rfl
@[simp] theorem raise_entry (n : Notice) (x : EntryNo) : (p.raise n).entry x = p.entry x := rfl
@[simp] theorem raise_slot (n : Notice) (x : OriginatorNo) (y : SlotNo) : (p.raise n).slot x y = p.slot x y := rfl
@[simp] theorem raise_minute (n : Notice) : (p.raise n).minute = p.minute := rfl
@[simp] theorem raise_working (n : Notice) : (p.raise n).working = p.working := rfl

/-! ## reach -/

@[simp] theorem reach_door (t : Time) (x : DoorNo) : (p.reach t).door x = p.door x := rfl
@[simp] theorem reach_config (t : Time) (x : DoorNo) : (p.reach t).config x = p.config x := rfl
@[simp] theorem reach_image (t : Time) (x : DoorNo) : (p.reach t).image x = p.image x := rfl
@[simp] theorem reach_lineOf (t : Time) (x : DoorNo) : (p.reach t).lineOf x = p.lineOf x := rfl
@[simp] theorem reach_group (t : Time) (x : GroupNo) : (p.reach t).group x = p.group x := rfl
@[simp] theorem reach_line (t : Time) (x : LineNo) : (p.reach t).line x = p.line x := rfl
@[simp] theorem reach_entry (t : Time) (x : EntryNo) : (p.reach t).entry x = p.entry x := rfl
@[simp] theorem reach_slot (t : Time) (x : OriginatorNo) (y : SlotNo) : (p.reach t).slot x y = p.slot x y := rfl
@[simp] theorem reach_minute (t : Time) : (p.reach t).minute = p.minute := rfl
@[simp] theorem reach_working (t : Time) : (p.reach t).working = p.working := rfl

/-! ## appendCatchUp -/

@[simp] theorem appendCatchUp_door (d : DoorNo) (x : DoorNo) : (p.appendCatchUp d).door x = p.door x := rfl
@[simp] theorem appendCatchUp_config (d : DoorNo) (x : DoorNo) : (p.appendCatchUp d).config x = p.config x := rfl
@[simp] theorem appendCatchUp_image (d : DoorNo) (x : DoorNo) : (p.appendCatchUp d).image x = p.image x := rfl
@[simp] theorem appendCatchUp_lineOf (d : DoorNo) (x : DoorNo) : (p.appendCatchUp d).lineOf x = p.lineOf x := rfl
@[simp] theorem appendCatchUp_group (d : DoorNo) (x : GroupNo) : (p.appendCatchUp d).group x = p.group x := rfl
@[simp] theorem appendCatchUp_line (d : DoorNo) (x : LineNo) : (p.appendCatchUp d).line x = p.line x := rfl
@[simp] theorem appendCatchUp_entry (d : DoorNo) (x : EntryNo) : (p.appendCatchUp d).entry x = p.entry x := rfl
@[simp] theorem appendCatchUp_slot (d : DoorNo) (x : OriginatorNo) (y : SlotNo) : (p.appendCatchUp d).slot x y = p.slot x y := rfl
@[simp] theorem appendCatchUp_minute (d : DoorNo) : (p.appendCatchUp d).minute = p.minute := rfl
@[simp] theorem appendCatchUp_working (d : DoorNo) : (p.appendCatchUp d).working = p.working := rfl

/-! ## removeCatchUp -/

@[simp] theorem removeCatchUp_door (d : DoorNo) (x : DoorNo) : (p.removeCatchUp d).door x = p.door x := rfl
@[simp] theorem removeCatchUp_config (d : DoorNo) (x : DoorNo) : (p.removeCatchUp d).config x = p.config x := rfl
@[simp] theorem removeCatchUp_image (d : DoorNo) (x : DoorNo) : (p.removeCatchUp d).image x = p.image x := rfl
@[simp] theorem removeCatchUp_lineOf (d : DoorNo) (x : DoorNo) : (p.removeCatchUp d).lineOf x = p.lineOf x := rfl
@[simp] theorem removeCatchUp_group (d : DoorNo) (x : GroupNo) : (p.removeCatchUp d).group x = p.group x := rfl
@[simp] theorem removeCatchUp_line (d : DoorNo) (x : LineNo) : (p.removeCatchUp d).line x = p.line x := rfl
@[simp] theorem removeCatchUp_entry (d : DoorNo) (x : EntryNo) : (p.removeCatchUp d).entry x = p.entry x := rfl
@[simp] theorem removeCatchUp_slot (d : DoorNo) (x : OriginatorNo) (y : SlotNo) : (p.removeCatchUp d).slot x y = p.slot x y := rfl
@[simp] theorem removeCatchUp_minute (d : DoorNo) : (p.removeCatchUp d).minute = p.minute := rfl
@[simp] theorem removeCatchUp_working (d : DoorNo) : (p.removeCatchUp d).working = p.working := rfl

/-! ## Reading back what was written -/

theorem setDoor_door (d : DoorNo) (r : DoorRecord) (x : DoorNo) : (p.setDoor d r).door x = if x = d then r else p.door x := by
  unfold door setDoor
  by_cases h : x = d
  · subst h; simp
  · have : d.val ≠ x.val := fun e => h (Fin.ext e.symm)
    simp [h, Vector.getElem_set_ne _ _ this]

@[simp] theorem setImage_config (d : DoorNo) (m : DoorImage) (x : DoorNo) : (p.setImage d m).config x = p.config x := by
  unfold config setImage
  rw [setDoor_door]
  by_cases h : x = d
  · subst h; simp
  · simp [h]

@[simp] theorem setImage_lineOf (d : DoorNo) (m : DoorImage) (x : DoorNo) : (p.setImage d m).lineOf x = p.lineOf x := by
  simp [lineOf]

theorem setImage_image (d : DoorNo) (m : DoorImage) (x : DoorNo) :
    (p.setImage d m).image x = if x = d then m else p.image x := by
  unfold image setImage
  rw [setDoor_door]
  by_cases h : x = d
  · subst h; simp
  · simp [h]

@[simp] theorem setImage_image_self (d : DoorNo) (m : DoorImage) : (p.setImage d m).image d = m := by simp [setImage_image]

theorem setConfig_config (d : DoorNo) (c : DoorConfig) (x : DoorNo) :
    (p.setConfig d c).config x = if x = d then c else p.config x := by
  unfold config setConfig
  rw [setDoor_door]
  by_cases h : x = d
  · subst h; simp
  · simp [h]

@[simp] theorem setConfig_config_self (d : DoorNo) (c : DoorConfig) : (p.setConfig d c).config d = c := by simp [setConfig_config]

@[simp] theorem setConfig_image (d : DoorNo) (c : DoorConfig) (x : DoorNo) : (p.setConfig d c).image x = p.image x := by
  unfold image setConfig
  rw [setDoor_door]
  by_cases h : x = d
  · subst h; simp
  · simp [h]

theorem setGroup_group (g : GroupNo) (r : GroupRecord) (x : GroupNo) :
    (p.setGroup g r).group x = if x = g then r else p.group x := by
  unfold group setGroup
  by_cases h : x = g
  · subst h; simp
  · have : g.val ≠ x.val := fun e => h (Fin.ext e.symm)
    simp [h, Vector.getElem_set_ne _ _ this]

theorem setLine_line (l : LineNo) (v : Line) (x : LineNo) : (p.setLine l v).line x = if x = l then v else p.line x := by
  unfold line setLine
  by_cases h : x = l
  · subst h; simp
  · have : l.val ≠ x.val := fun e => h (Fin.ext e.symm)
    simp [h, Vector.getElem_set_ne _ _ this]

@[simp] theorem setLine_line_self (l : LineNo) (v : Line) : (p.setLine l v).line l = v := by simp [setLine_line]

theorem setEntry_entry (n : EntryNo) (e : Option WorkEntry) (x : EntryNo) :
    (p.setEntry n e).entry x = if x = n then e else p.entry x := by
  unfold entry setEntry
  by_cases h : x = n
  · subst h; simp
  · have : n.val ≠ x.val := fun e => h (Fin.ext e.symm)
    simp [h, Vector.getElem_set_ne _ _ this]

@[simp] theorem setEntry_entry_self (n : EntryNo) (e : Option WorkEntry) : (p.setEntry n e).entry n = e := by
  simp [setEntry_entry]

end Sys2Proof.Machine.Part

namespace Sys2Proof.Machine

/-- Two request slots have different places in the table (10.3). -/
theorem slotPlace_inj (o o' : OriginatorNo) (i i' : SlotNo) : slotPlace o i = slotPlace o' i' ↔ o = o' ∧ i = i' := by
  unfold slotPlace
  constructor
  · intro h
    have := congrArg Fin.val h
    simp only at this
    exact ⟨Fin.ext (by omega), Fin.ext (by omega)⟩
  · rintro ⟨rfl, rfl⟩; rfl

theorem Part.setSlot_slot (p : Part) (o : OriginatorNo) (i : SlotNo) (v : Slot) (x : OriginatorNo) (y : SlotNo) :
    (p.setSlot o i v).slot x y = if x = o ∧ y = i then v else p.slot x y := by
  unfold Part.slot Part.setSlot
  by_cases h : x = o ∧ y = i
  · obtain ⟨rfl, rfl⟩ := h; simp
  · have hne : slotPlace o i ≠ slotPlace x y := fun e => h (by obtain ⟨a, b⟩ := (slotPlace_inj ..).1 e; exact ⟨a.symm, b.symm⟩)
    have : (slotPlace o i).val ≠ (slotPlace x y).val := fun e => hne (Fin.ext e)
    simp [h, Vector.getElem_set_ne _ _ this]

@[simp] theorem Part.setSlot_slot_self (p : Part) (o : OriginatorNo) (i : SlotNo) (v : Slot) :
    (p.setSlot o i v).slot o i = v := by simp [Part.setSlot_slot]

end Sys2Proof.Machine
end

