-- ==== Sys2Proof/Laws/Moves.lean ====
section
/-! SUPPORT. All that the sweep engine can do to the part, said once. `Part.Frames`: it writes its own state, last outcomes, group
records, the catch-up list and the active bank, queues notices, and changes lines and slots only through submissions and
withdrawals. `Part.Moves`: and with an empty pending-start slot it starts no plan sweep of its own. -/
namespace Sys2Proof.Machine

/-- What submissions and withdrawals can do to a line. -/
structure Line.Moves (x y : Line) : Prop where
  same : { y with queue := x.queue, held := x.held, motions := x.motions } = x
  queue : x.queue.length ≤ 8 → y.queue.length ≤ 8
  motions : y.motions.map (fun m => { m with source := none }) = x.motions.map fun m => { m with source := none }
  down : x.state ≠ .active → x.queue = [] → x.held = [] → y.queue = [] ∧ y.held = []

/-- What they can do to a request slot: move a door command's progress. -/
def Slot.Moves (x y : Slot) : Prop := y = x ∨ ∃ f t a b, x = .inProgress f t (some a) ∧ y = .inProgress f t (some b)

/-- What raising notices can do to the queues. -/
structure NoticeQueues.Grows (x y : NoticeQueues) : Prop where
  urgent : x.urgent <+: y.urgent
  fault : x.fault <+: y.fault
  state : x.state <+: y.state
  bounded : x.Bounded → y.Bounded

/-- What a report is opened with (R100). -/
def SweepReport.heading (r : SweepReport) : Option Nat × Option PlanNo × Option Nat := (r.number, r.plan, r.startMinute)

/-- What the engine can do to the part beside its own state. -/
structure Part.Frames (p q : Part) : Prop where
  powered : q.powered = p.powered
  resetAsserted : q.resetAsserted = p.resetAsserted
  now : q.now = p.now
  clock : q.clock = p.clock
  secondBegan : q.secondBegan = p.secondBegan
  schedule : q.schedule = p.schedule
  exceptions : q.exceptions = p.exceptions
  fire : q.fire = p.fire
  watches : q.watches = p.watches
  staged : q.banks.staged = p.banks.staged
  config : ∀ d, q.config d = p.config d
  image : ∀ d, { q.image d with lastOutcome := (p.image d).lastOutcome } = p.image d
  uplink : { q.uplink with slots := p.uplink.slots } = p.uplink
  slot : ∀ o i, (p.slot o i).Moves (q.slot o i)
  line : ∀ l, (p.line l).Moves (q.line l)
  catchUp : q.catchUp.Sublist p.catchUp
  notices : p.notices.Grows q.notices

/-- What the engine can do to the part, its pending-start slot being empty or taken up. -/
structure Part.Moves (p q : Part) : Prop extends Part.Frames p q where
  start :
    p.engine.pendingStart = none →
      q.engine.pendingStart = none ∧ q.engine.counter = p.engine.counter ∧
        q.engine.planReport.map SweepReport.heading = p.engine.planReport.map SweepReport.heading

theorem NoticeQueues.Grows.refl (x : NoticeQueues) : x.Grows x :=
  ⟨List.prefix_rfl, List.prefix_rfl, List.prefix_rfl, id⟩

theorem NoticeQueues.Grows.trans {x y z : NoticeQueues} (a : x.Grows y) (b : y.Grows z) : x.Grows z :=
  ⟨a.urgent.trans b.urgent, a.fault.trans b.fault, a.state.trans b.state, fun h => b.bounded (a.bounded h)⟩

theorem Line.Moves.refl (x : Line) : x.Moves x := ⟨rfl, id, rfl, fun _ q h => ⟨q, h⟩⟩

theorem Line.Moves.trans {x y z : Line} (a : x.Moves y) (b : y.Moves z) : x.Moves z where
  same := by
    have ha := a.same; have hb := b.same
    cases x; cases y; cases z; simp_all
  queue h := b.queue (a.queue h)
  motions := b.motions.trans a.motions
  down hs hq hh := by
    have k := a.down hs hq hh
    have : y.state = x.state := by rw [← a.same]
    exact b.down (this ▸ hs) k.1 k.2

theorem Slot.Moves.refl (x : Slot) : x.Moves x := .inl rfl

theorem Slot.Moves.trans {x y z : Slot} (a : x.Moves y) (b : y.Moves z) : x.Moves z := by
  rcases a with rfl | ⟨f, t, a, b', rfl, rfl⟩
  · exact b
  · rcases b with rfl | ⟨f', t', a', c, h, rfl⟩
    · exact .inr ⟨f, t, a, b', rfl, rfl⟩
    · cases h; exact .inr ⟨f, t, a, c, rfl, rfl⟩

theorem Part.Frames.refl (p : Part) : p.Frames p :=
  ⟨rfl, rfl, rfl, rfl, rfl, rfl, rfl, rfl, rfl, rfl, fun _ => rfl, fun _ => rfl, rfl, fun _ _ => .refl _, fun _ => .refl _,
    List.Sublist.refl _, .refl _⟩

theorem Part.Moves.refl (p : Part) : p.Moves p := ⟨.refl p, fun h => ⟨h, rfl, rfl⟩⟩

theorem Part.Frames.trans {p q r : Part} (a : p.Frames q) (b : q.Frames r) : p.Frames r where
  powered := b.powered.trans a.powered
  resetAsserted := b.resetAsserted.trans a.resetAsserted
  now := b.now.trans a.now
  clock := b.clock.trans a.clock
  secondBegan := b.secondBegan.trans a.secondBegan
  schedule := b.schedule.trans a.schedule
  exceptions := b.exceptions.trans a.exceptions
  fire := b.fire.trans a.fire
  watches := b.watches.trans a.watches
  staged := b.staged.trans a.staged
  config d := (b.config d).trans (a.config d)
  image d := by
    have h := a.image d; have k := b.image d
    rw [← k] at h
    exact h
  uplink := by
    have h := a.uplink; have k := b.uplink
    rw [← k] at h
    exact h
  slot o i := (a.slot o i).trans (b.slot o i)
  line l := (a.line l).trans (b.line l)
  catchUp := b.catchUp.trans a.catchUp
  notices := a.notices.trans b.notices

theorem Part.Moves.trans {p q r : Part} (a : p.Moves q) (b : q.Moves r) : p.Moves r :=
  ⟨a.toFrames.trans b.toFrames, fun h => by
    obtain ⟨h1, h2, h3⟩ := a.start h
    obtain ⟨k1, k2, k3⟩ := b.start h1
    exact ⟨k1, k2.trans h2, k3.trans h3⟩⟩

/-- A chain of moves over a list. -/
theorem Part.Moves.foldl {α : Type} (f : Part → α → Part) (h : ∀ (p : Part) x, p.Moves (f p x)) (xs : List α) (p : Part) :
    p.Moves (xs.foldl f p) := by
  induction xs generalizing p with
  | nil => exact .refl p
  | cons x xs ih => exact (h p x).trans (ih (f p x))

/-! ## The small updates -/

theorem NoticeQueues.raise_bounded (q : NoticeQueues) (n : Notice) (h : q.Bounded) : (q.raise n).Bounded := by
  obtain ⟨a, b, c⟩ := h
  unfold NoticeQueues.raise
  split <;> split <;> simp_all [NoticeQueues.Bounded] <;> omega

theorem NoticeQueues.raise_grows (q : NoticeQueues) (n : Notice) : q.Grows (q.raise n) where
  urgent := by unfold NoticeQueues.raise; split <;> split <;> simp
  fault := by unfold NoticeQueues.raise; split <;> split <;> simp
  state := by unfold NoticeQueues.raise; split <;> split <;> simp
  bounded := q.raise_bounded n

theorem Part.raise_moves (p : Part) (n : Notice) : p.Moves (p.raise n) :=
  { Part.Moves.refl p with notices := p.notices.raise_grows n }

/-- A write of the engine's own state. -/
theorem Part.engine_frames (p : Part) (e : Engine) : p.Frames { p with engine := e } := { Part.Frames.refl p with }

/-- A write of the engine's context, work set and catch-up report. -/
theorem Part.engine_moves (p : Part) (e : Engine) (h : e.pendingStart = p.engine.pendingStart) (hc : e.counter = p.engine.counter)
    (hr : e.planReport.map SweepReport.heading = p.engine.planReport.map SweepReport.heading) : p.Moves { p with engine := e } :=
  ⟨p.engine_frames e, fun k => ⟨h.trans k, hc, hr⟩⟩

theorem Part.setEntry_moves (p : Part) (n : EntryNo) (e : Option WorkEntry) : p.Moves (p.setEntry n e) :=
  p.engine_moves _ rfl rfl rfl

theorem Part.setCtx_moves (p : Part) (c : Option SweepContext) : p.Moves (p.setCtx c) := p.engine_moves _ rfl rfl rfl

theorem Part.editCtx_moves (p : Part) (f : SweepContext → SweepContext) : p.Moves (p.editCtx f) := p.engine_moves _ rfl rfl rfl

theorem Part.editReport_moves (p : Part) (k : SweepKind) (f : SweepReport → SweepReport) (h : ∀ r, (f r).heading = r.heading) :
    p.Moves (p.editReport k f) := by
  cases k
  · refine p.engine_moves _ rfl rfl ?_
    simp only [Option.map_map]
    congr 1
    funext r
    exact h r
  · exact p.engine_moves _ rfl rfl rfl

theorem Part.setGroup_moves (p : Part) (g : GroupNo) (r : GroupRecord) : p.Moves (p.setGroup g r) := { Part.Moves.refl p with }

theorem Part.removeCatchUp_moves (p : Part) (d : DoorNo) : p.Moves (p.removeCatchUp d) :=
  { Part.Moves.refl p with catchUp := List.filter_sublist }

theorem Part.filterCatchUp_moves (p : Part) (f : DoorNo → Bool) : p.Moves { p with catchUp := p.catchUp.filter f } :=
  { Part.Moves.refl p with catchUp := List.filter_sublist }

/-- A write of a door's last outcome (R7). -/
theorem Part.setOutcome_moves (p : Part) (d : DoorNo) (o : Option SweepOutcome) :
    p.Moves (p.setImage d { p.image d with lastOutcome := o }) :=
  { Part.Moves.refl p with
    config := fun x => by simp
    image := fun x => by
      rw [Part.setImage_image]
      by_cases h : x = d
      · subst h; simp
      · simp [h] }

theorem Part.takeCommit_moves (p : Part) : p.Moves p.takeCommit := by
  unfold Part.takeCommit
  split
  · exact { Part.Moves.refl p with }
  · exact .refl p

/-! ## Lines and slots -/

theorem Part.setProgress_moves (p : Part) (s : Option Source) (g : Progress) : p.Moves (p.setProgress s g) := by
  unfold Part.setProgress
  split
  · next o i =>
    split
    · next f t a h =>
      exact
        { Part.Moves.refl p with
          uplink := rfl
          slot := fun x y => by
            rw [Part.setSlot_slot]
            split
            · next e => obtain ⟨rfl, rfl⟩ := e; exact .inr ⟨f, t, _, g, h, rfl⟩
            · exact .refl _ }
    · exact .refl p
  · exact .refl p

/-- A write of one line that is one of the line's moves. -/
theorem Part.setLine_moves (p : Part) (l : LineNo) (x : Line) (h : (p.line l).Moves x) : p.Moves (p.setLine l x) :=
  { Part.Moves.refl p with
    line := fun k => by
      rw [Part.setLine_line]
      split
      · next e => subst e; exact h
      · exact .refl _ }

theorem Part.placeHeld_moves (p : Part) (l : LineNo) : p.Moves (p.placeHeld l) := by
  unfold Part.placeHeld
  refine Part.Moves.trans ?_ (Part.Moves.foldl _ (fun q r => q.setProgress_moves _ _) _ _)
  refine p.setLine_moves l _ ⟨rfl, fun h => ?_, rfl, fun _ hq hh => by simp [hq, hh]⟩
  simp only [List.length_append, List.length_take, Config.queuePlaces]
  omega

theorem Part.submit_moves (p : Part) (cmd : LineCmd) (d : DoorNo) (s : Source) : p.Moves (p.submit cmd d s).1 := by
  unfold Part.submit
  simp only
  split
  · exact .refl p
  · next ha =>
    have ha : (p.line (p.lineOf d)).state = .active := by simpa using ha
    split
    · next h =>
      refine Part.Moves.trans ?_ (Part.setProgress_moves _ _ _)
      refine p.setLine_moves _ _ ⟨rfl, fun _ => ?_, rfl, fun k => absurd ha k⟩
      simp only [List.length_append, List.length_singleton, Config.queuePlaces] at h ⊢
      omega
    · refine Part.Moves.trans ?_ (Part.setProgress_moves _ _ _)
      exact p.setLine_moves _ _ ⟨rfl, id, rfl, fun k => absurd ha k⟩

theorem Part.withdraw_moves (p : Part) (l : LineNo) (s : Source) : p.Moves (p.withdraw l s) := by
  unfold Part.withdraw
  refine Part.Moves.trans ?_ (Part.placeHeld_moves _ _)
  refine p.setLine_moves l _ ⟨rfl, fun h => ?_, ?_, fun _ hq hh => by simp [hq, hh]⟩
  · simp only [List.length_map]
    exact Nat.le_trans (List.length_filter_le _ _) h
  · simp only [List.map_map]
    congr 1
    funext m
    simp only [Function.comp]
    split <;> rfl

end Sys2Proof.Machine
end

