-- ==== Sys2Proof/Laws/Engine.lean ====
section
/-! SUPPORT. Every operation of the sweep engine is one of the engine's moves. -/
namespace Sys2Proof.Machine.Part

theorem suspendTest_moves (p : Part) (c : SweepContext) (plan : PlanNo) (number : Nat) (d : DoorNo) (o : SweepOutcome) (k : Nat) :
    p.Moves (p.suspendTest c plan number d o k) := by
  unfold suspendTest
  split
  · refine Part.Moves.trans ?_ (raise_moves _ _)
    refine Part.Moves.trans ?_ (editReport_moves _ _ _ ?_)
    · exact editCtx_moves _ _
    · exact fun _ => rfl
  · exact .refl p

theorem record_heading (r : SweepReport) (d : DoorNo) (o : SweepOutcome) (step : Option Nat) (attempt : Nat) :
    (r.record d o step attempt).heading = r.heading := by
  unfold SweepReport.record
  simp only
  split
  · split <;> rfl
  · rfl

theorem record_moves (p : Part) (d : DoorNo) (o : SweepOutcome) (step : Option Nat) (attempt : Nat) :
    p.Moves (p.record d o step attempt) := by
  unfold record
  split
  · exact .refl p
  · next c _ =>
    have h : p.Moves ((p.setImage d { p.image d with lastOutcome := some o }).editReport c.kind fun r => r.record d o step attempt) :=
      (setOutcome_moves p d (some o)).trans (editReport_moves _ _ _ fun r => record_heading r _ _ _ _)
    simp only
    split
    · exact h.trans ((editCtx_moves _ _).trans (suspendTest_moves _ _ _ _ _ _ _))
    · exact h

theorem writeResults_moves (p : Part) (s : PlanStep) (number : Nat) (r : StepRecord) : p.Moves (p.writeResults s number r) :=
  .foldl _ (fun _ _ => setGroup_moves _ _ _) _ _

theorem completeStep_moves (p : Part) (plan : PlanNo) (number : Nat) (r : StepRecord) :
    p.Moves (p.completeStep plan number r) := by
  unfold completeStep
  simp only
  split
  · exact (writeResults_moves _ _ _ _).trans (editCtx_moves _ _)
  · exact editCtx_moves _ _

theorem completeSteps_moves (p : Part) : p.Moves p.completeSteps := by
  unfold completeSteps
  split
  · exact .refl p
  · split
    · exact .refl p
    · exact .foldl _ (fun _ _ => completeStep_moves _ _ _ _) _ _

theorem endEntry_moves (p : Part) (n : EntryNo) (o : SweepOutcome) : p.Moves (p.endEntry n o) := by
  unfold endEntry
  split
  · exact .refl p
  · exact (((record_moves _ _ _ _ _).trans (withdraw_moves _ _ _)).trans (setEntry_moves _ _ _)).trans (completeSteps_moves _)

theorem entrySubmit_moves (p : Part) (n : EntryNo) (e : WorkEntry) (cmd : LineCmd) : p.Moves (p.entrySubmit n e cmd).1 :=
  (setEntry_moves _ _ _).trans (submit_moves _ _ _ _)

theorem enterThrow_moves (p : Part) (n : EntryNo) (e : WorkEntry) : p.Moves (p.enterThrow n e).1 := entrySubmit_moves _ _ _ _

theorem enterRetract_moves (p : Part) (n : EntryNo) (e : WorkEntry) : p.Moves (p.enterRetract n e).1 := entrySubmit_moves _ _ _ _

theorem closeEvaluation_moves (p : Part) (n : EntryNo) (e : WorkEntry) : p.Moves (p.closeEvaluation n e).1 := by
  unfold closeEvaluation
  simp only
  split
  · exact setEntry_moves _ _ _
  · split
    · exact entrySubmit_moves _ _ _ _
    · split
      · exact entrySubmit_moves _ _ _ _
      · split
        · exact enterThrow_moves _ _ _
        · exact setEntry_moves _ _ _

theorem afterCheck_moves (p : Part) (n : EntryNo) (e : WorkEntry) : p.Moves (p.afterCheck n e).1 := by
  unfold afterCheck
  split
  · exact closeEvaluation_moves _ _ _
  · exact enterRetract_moves _ _ _

theorem check_moves (p : Part) (n : EntryNo) (e : WorkEntry) : p.Moves (p.check n e).1 := by
  unfold check
  split
  · exact afterCheck_moves _ _ _
  · exact entrySubmit_moves _ _ _ _
  · exact entrySubmit_moves _ _ _ _

theorem admit_moves (p : Part) (n : EntryNo) (d : DoorNo) (step : Option Nat) (action : Action) (retries : Nat) :
    p.Moves (p.enlist n d step action retries) := by
  unfold enlist
  have h (e : WorkEntry) : p.Moves (((p.removeCatchUp d).setEntry n (some e)).check n e).1 :=
    ((removeCatchUp_moves _ _).trans (setEntry_moves _ _ _)).trans (check_moves _ _ _)
  simp only
  split
  · exact (h _).trans (endEntry_moves _ _ _)
  · exact h _

theorem judgeThrow_moves (p : Part) (n : EntryNo) (e : WorkEntry) (b : Option (Bolt × Position)) :
    p.Moves (p.judgeThrow n e b).1 := by
  unfold judgeThrow
  simp only
  split
  · exact .refl p
  · split
    · exact closeEvaluation_moves _ _ _
    · exact entrySubmit_moves _ _ _ _
  · split
    · exact enterThrow_moves _ _ _
    · exact .refl p

theorem judgeRelease_moves (p : Part) (n : EntryNo) (e : WorkEntry) (b : Option (Bolt × Position)) :
    p.Moves (p.judgeRelease n e b).1 := by
  unfold judgeRelease
  simp only
  split
  · split
    · exact entrySubmit_moves _ _ _ _
    · exact .refl p
  · split
    · exact enterRetract_moves _ _ _
    · exact .refl p

theorem judgeMotion_moves (p : Part) (n : EntryNo) (e : WorkEntry) (b : Option (Bolt × Position)) :
    p.Moves (p.judgeMotion n e b).1 := by
  unfold judgeMotion
  simp only
  split
  · exact .refl p
  · split
    · split
      · exact closeEvaluation_moves _ _ _
      · exact .refl p
    · split
      · exact judgeThrow_moves _ _ _ _
      · exact judgeRelease_moves _ _ _ _

theorem judgeReplyFor_moves (p : Part) (n : EntryNo) (e : WorkEntry) : p.Moves (p.judgeReplyFor n e).1 := by
  unfold judgeReplyFor
  split
  · exact closeEvaluation_moves _ _ _
  · split
    · exact .refl p
    · split
      · split
        · exact .refl p
        · exact (withdraw_moves _ _ _).trans (closeEvaluation_moves _ _ _)
      · split
        · exact closeEvaluation_moves _ _ _
        · exact .refl p

theorem entryActs_moves (p : Part) (n : EntryNo) (e : WorkEntry) (ev : EntryEvent) : p.Moves (p.entryActs n e ev).1 := by
  unfold entryActs
  split
  · split <;> exact .refl p
  · split
    · exact afterCheck_moves _ _ _
    · exact judgeReplyFor_moves _ _ _
    · exact setEntry_moves _ _ _
    · split
      · exact .refl p
      · exact closeEvaluation_moves _ _ _
    · exact .refl p
    · exact .refl p
    · exact .refl p
    · exact judgeMotion_moves _ _ _ _
    · exact .refl p

theorem handEntry_moves (p : Part) (n : EntryNo) (ev : EntryEvent) : p.Moves (p.handEntry n ev).1 := by
  unfold handEntry
  split
  · exact .refl p
  · next e _ =>
    simp only
    split
    · exact (entryActs_moves _ _ _ _).trans (endEntry_moves _ _ _)
    · exact entryActs_moves _ _ _ _

/-- The start of a plan sweep writes the engine's own state and queues a notice. -/
theorem startPlan_frames (p : Part) (plan : PlanNo) : p.Frames (p.startPlan plan) :=
  (engine_frames _ _).trans (raise_moves _ _).toFrames

theorem tryCatchUp_moves (p : Part) : p.Moves p.tryCatchUp := by
  unfold tryCatchUp
  split
  · refine Part.Moves.trans ?_ (raise_moves _ _)
    exact engine_moves _ _ rfl rfl rfl
  · exact .refl p

theorem takePendingStart_moves (p : Part) : p.Moves p.takePendingStart := by
  unfold takePendingStart
  split
  · exact .refl p
  · next s hs =>
    have some {q : Part} (h : p.Frames q) : p.Moves q := ⟨h, fun k => by rw [hs] at k; cases k⟩
    simp only
    split
    · exact some ((engine_frames _ _).trans (raise_moves _ _).toFrames)
    · split
      · exact some ((engine_frames _ _).trans (raise_moves _ _).toFrames)
      · exact some ((engine_frames _ _).trans (startPlan_frames _ _))

theorem returnToIdle_moves (p : Part) : p.Moves p.returnToIdle :=
  ((takeCommit_moves _).trans (takePendingStart_moves _)).trans (tryCatchUp_moves _)

theorem setNight_moves (p : Part) (gs : List GroupNo) (b : Bool) : p.Moves (p.setNight gs b) :=
  .foldl _ (fun _ _ => setGroup_moves _ _ _) _ _

theorem beginStep_moves (p : Part) (k : Nat) (s : PlanStep) : p.Moves (p.beginStep k s) := by
  unfold beginStep
  simp only
  split
  · refine Part.Moves.trans ?_ (filterCatchUp_moves _ _)
    exact (editCtx_moves _ _).trans (setNight_moves _ _ _)
  · split
    · exact (editCtx_moves _ _).trans (setNight_moves _ _ _)
    · exact editCtx_moves _ _

theorem handled_moves (p : Part) (h : Handling) (d : DoorNo) (k : Nat) (s : PlanStep) : p.Moves (p.handled h d k s) := by
  unfold handled
  split
  · exact record_moves _ _ _ _ _
  · exact .refl p
  · exact admit_moves _ _ _ _ _ _

theorem countHandled_moves (p : Part) (c : SweepContext) (k : Nat) (s : PlanStep) (d : DoorNo) :
    p.Moves (p.countHandled c k s d) := by
  unfold countHandled
  simp only
  split
  · exact (setNight_moves _ _ _).trans (editCtx_moves _ _)
  · exact editCtx_moves _ _

theorem cursorMove_moves (p q : Part) (c : SweepContext) (plan : PlanNo) (h : p.cursorMove c plan = some q) : p.Moves q := by
  unfold cursorMove at h
  simp only [Option.bind_eq_bind, Option.bind_eq_some_iff] at h
  obtain ⟨k, -, s, -, h⟩ := h
  split at h
  · cases h; exact editCtx_moves _ _
  · split at h
    · cases h
    · cases h
      exact (countHandled_moves _ _ _ _ _).trans (handled_moves _ _ _ _ _)

theorem redoMove_moves (p q : Part) (plan : PlanNo) (d : DoorNo) (k : Nat) (h : p.redoMove plan d k = some q) : p.Moves q := by
  unfold redoMove at h
  simp only [Option.bind_eq_bind, Option.bind_eq_some_iff] at h
  obtain ⟨s, -, h⟩ := h
  split at h
  · split at h
    · cases h
    · cases h
      exact (editCtx_moves _ _).trans (handled_moves _ _ _ _ _)
  · cases h; exact editCtx_moves _ _

theorem cutStep_moves (p : Part) (c : SweepContext) (plan : PlanNo) (number : Nat) (r : StepRecord) :
    p.Moves (p.cutStep c plan number r) := by
  unfold cutStep
  split
  · exact writeResults_moves _ _ _ _
  · exact .refl p

theorem endSweep_moves (p : Part) (c : SweepContext) (status : FinalStatus) : p.Moves (p.endSweep c status) := by
  unfold endSweep
  split
  · refine Part.Moves.trans ?_ (returnToIdle_moves _)
    refine Part.Moves.trans ?_ (setCtx_moves _ _)
    refine Part.Moves.trans ?_ (raise_moves _ _)
    refine Part.Moves.trans ?_ (editReport_moves _ _ _ ?_)
    · exact Part.Moves.foldl _ (fun _ _ => cutStep_moves _ _ _ _ _) _ _
    · exact fun _ => rfl
  · refine Part.Moves.trans ?_ (returnToIdle_moves _)
    refine Part.Moves.trans ?_ (setCtx_moves _ _)
    refine Part.Moves.trans ?_ (raise_moves _ _)
    exact editReport_moves _ _ _ fun _ => rfl

theorem planAction_moves (p q : Part) (c : SweepContext) (plan : PlanNo) (number length : Nat)
    (h : p.planAction c plan number length = some q) : p.Moves q := by
  unfold planAction at h
  split at h
  · cases h; exact completeStep_moves _ _ _ _
  · split at h
    · cases h
    · split at h
      · cases h; exact endSweep_moves _ _ _
      · cases h
    · split at h
      · simp only [Option.map_eq_some_iff] at h
        obtain ⟨s, -, rfl⟩ := h
        exact beginStep_moves _ _ _
      · split at h
        · exact redoMove_moves _ _ _ _ _ h
        · split at h
          · cases h; exact endSweep_moves _ _ _
          · exact cursorMove_moves _ _ _ _ h

theorem catchUpAction_moves (p q : Part) (c : SweepContext) (h : p.catchUpAction c = some q) : p.Moves q := by
  unfold catchUpAction at h
  split at h
  · split at h
    · cases h; exact endSweep_moves _ _ _
    · cases h
  · split at h
    · cases h; exact endSweep_moves _ _ _
    · split at h
      · cases h
      · split at h
        · cases h
        · split at h
          · cases h; exact (removeCatchUp_moves _ _).trans (record_moves _ _ _ _ _)
          · simp only [Option.map_eq_some_iff] at h
            obtain ⟨n, -, rfl⟩ := h
            exact admit_moves _ _ _ _ _ _

theorem engineAction_moves (p q : Part) (h : p.engineAction = some q) : p.Moves q := by
  unfold engineAction at h
  split at h
  · cases h
  · split at h
    · exact planAction_moves _ _ _ _ _ _ h
    · exact catchUpAction_moves _ _ _ h

theorem engineLoop_moves (n : Nat) (p : Part) : p.Moves (p.engineLoop n) := by
  induction n generalizing p with
  | zero => exact .refl p
  | succ n ih =>
    unfold engineLoop
    split
    · exact .refl p
    · next q h => exact (engineAction_moves _ _ h).trans (ih q)

theorem engineRun_moves (p : Part) : p.Moves p.engineRun := engineLoop_moves _ p

theorem entryEvent_moves (p : Part) (n : EntryNo) (ev : EntryEvent) : p.Moves (p.entryEvent n ev) := by
  unfold entryEvent
  simp only
  split
  · exact (handEntry_moves _ _ _).trans (engineRun_moves _)
  · exact handEntry_moves _ _ _

theorem endEntries_moves (p : Part) (ends : List (EntryNo × SweepOutcome)) : p.Moves (p.endEntries ends) := by
  unfold endEntries
  split
  · exact .refl p
  · exact (Part.Moves.foldl _ (fun _ _ => endEntry_moves _ _ _) _ _).trans (engineRun_moves _)

theorem lineDownEntries_moves (p : Part) (l : LineNo) : p.Moves (p.lineDownEntries l) := endEntries_moves _ _

theorem claimEntries_moves (p : Part) (ds : List DoorNo) : p.Moves (p.claimEntries ds) := endEntries_moves _ _

theorem fireEndsSweep_moves (p : Part) : p.Moves p.fireEndsSweep := by
  unfold fireEndsSweep
  split
  · exact .refl p
  · have h (q : Part) (xs : List (EntryNo × SweepOutcome)) : q.Moves (xs.foldl (fun q x => q.endEntry x.1 x.2) q) :=
      Part.Moves.foldl _ (fun _ _ => endEntry_moves _ _ _) _ _
    have k : p.Moves (p.editCtx fun c => { c with phase := .draining, suspension := none, suspendTimer := none, redo := none }).completeSteps :=
      (editCtx_moves _ _).trans (completeSteps_moves _)
    simp only
    split
    · exact ((k.trans (h _ _)).trans (endSweep_moves _ _ _)).trans (engineRun_moves _)
    · exact k.trans (h _ _)

theorem offerCatchUp_moves (p : Part) : p.Moves p.offerCatchUp := by
  unfold offerCatchUp
  split
  · exact (tryCatchUp_moves _).trans (engineRun_moves _)
  · split
    · exact engineRun_moves _
    · exact .refl p

theorem offerIfGrown_moves (p : Part) (n : Nat) : p.Moves (p.offerIfGrown n) := by
  unfold offerIfGrown
  split
  · exact offerCatchUp_moves _
  · exact .refl p

theorem continueSweep_moves (p : Part) (redo : Bool) : p.Moves (p.continueSweep redo) :=
  (editCtx_moves _ _).trans (engineRun_moves _)

theorem markAborting_moves (p : Part) : p.Moves p.markAborting := engine_moves _ _ rfl rfl rfl

theorem abortSweep_moves (p : Part) : p.Moves p.abortSweep := by
  unfold abortSweep
  refine Part.Moves.trans ?_ (engineRun_moves _)
  refine Part.Moves.trans ?_ (Part.Moves.foldl _ (fun _ _ => endEntry_moves _ _ _) _ _)
  exact ((editCtx_moves _ _).trans (markAborting_moves _)).trans (completeSteps_moves _)

/-- An IDLE engine has nothing to do. -/
theorem engineRun_idle (p : Part) (h : p.engine.ctx = none) : p.engineRun = p := by
  unfold engineRun
  have : ∀ n, p.engineLoop n = p := fun n => by
    cases n with
    | zero => rfl
    | succ n => simp [engineLoop, engineAction, h]
  exact this _

end Sys2Proof.Machine.Part
end

