-- ==== Sys2Proof/Laws/Exceptions.lean ====
section
/-! SUPPORT. What the claims of many doors, the offers of many doors to the catch-up list and the end of an exception come to. -/
namespace Sys2Proof.Machine.Part

/-- A door's record after its claim is written. -/
theorem setClaim_door (p : Part) (d d' : DoorNo) (c : Option ExceptionNo) :
    (p.setClaim d c).door d' = if d' = d then { p.door d with image := { p.image d with claim := c } } else p.door d' := by
  by_cases h : d' = d
  · subst h
    simp [setClaim, setImage, setDoor, door]
  · simp [setClaim, setImage, setDoor, door, Fin.val_ne_of_ne (Ne.symm h), h]

/-- The claims of several doors written one after another. -/
theorem setClaims_eq (x : Option ExceptionNo) (ds : List DoorNo) :
    ∀ p : Part,
      ds.foldl (fun q d => q.setClaim d x) p =
        { p with
          doors :=
            Vector.ofFn fun d => if d ∈ ds then { p.door d with image := { p.image d with claim := x } } else p.door d } := by
  induction ds with
  | nil =>
    intro p
    have : (Vector.ofFn fun d : DoorNo => p.door d) = p.doors := by
      ext i hi; simp [door]
    simp only [List.foldl_nil, List.not_mem_nil, if_false, this]
  | cons d ds ih =>
    intro p
    rw [List.foldl_cons, ih]
    have hv :
        (Vector.ofFn fun e =>
            if e ∈ ds then { (p.setClaim d x).door e with image := { (p.setClaim d x).image e with claim := x } }
            else (p.setClaim d x).door e) =
          Vector.ofFn fun e =>
            if e ∈ d :: ds then { p.door e with image := { p.image e with claim := x } } else p.door e := by
      apply congrArg Vector.ofFn
      funext e
      simp only [image, setClaim_door, List.mem_cons]
      by_cases h : e = d
      · subst h
        simp
      · simp [h]
    simp only [hv]
    rfl

/-- An append of another door leaves the append conditions of a door as they were (R120). -/
theorem appendCatchUp_mayAppend (p : Part) (d x : DoorNo) (h : d ≠ x) : (p.appendCatchUp x).mayAppend d = p.mayAppend d := by
  have : (p.appendCatchUp x).inCatchUp d = p.inCatchUp d := by
    simp [appendCatchUp, inCatchUp, List.contains_eq_mem, h]
  unfold mayAppend
  rw [this]
  rfl

/-- Offering different doors appends those that meet the conditions, in order (R115, R120). -/
theorem offerDoors_eq (ds : List DoorNo) (hn : ds.Nodup) :
    ∀ p : Part, p.offerDoors ds = { p with catchUp := p.catchUp ++ ds.filter p.mayAppend } := by
  induction ds with
  | nil =>
    intro p
    simp [offerDoors]
  | cons d ds ih =>
    intro p
    have ih' := ih (List.nodup_cons.1 hn).2
    unfold offerDoors at ih' ⊢
    rw [List.foldl_cons, ih']
    cases h : p.mayAppend d
    · simp [h]
    · have : ds.filter (p.appendCatchUp d).mayAppend = ds.filter p.mayAppend := by
        apply List.filter_congr
        intro y hy
        exact appendCatchUp_mayAppend p y d fun e => (List.nodup_cons.1 hn).1 (e ▸ hy)
      simp only [if_true]
      rw [this]
      simp [h, appendCatchUp]

/-- The end of an exception, whole (R115). -/
theorem endException_eq (p : Part) (x : ExceptionNo) (e : ExceptionRecord) (cause : ExceptionCause)
    (hx : p.exceptions[x] = some e) :
    p.endException x cause =
      { p with
        doors :=
          Vector.ofFn fun d =>
            if d ∈ p.claimedBy x then { p.door d with image := { p.image d with claim := none } } else p.door d
        catchUp :=
          p.catchUp ++
            (p.claimedBy x).filter fun d =>
              (p.config d).configured && !(p.config d).withdrawn && (p.group (p.config d).group).night && !p.inWorkSet d &&
                !p.inCatchUp d
        notices :=
          p.notices.raise
            (.exceptionEnded x e.owner e.expiry cause (p.claimedBy x).length
              ((p.claimedBy x).filter fun d =>
                (p.config d).configured && !(p.config d).withdrawn && (p.group (p.config d).group).night && !p.inWorkSet d &&
                  !p.inCatchUp d).length)
        exceptions := p.exceptions.set x none } := by
  have hnd : (p.claimedBy x).Nodup := (List.nodup_finRange 240).filter _
  generalize hr : p.claimedBy x = ds at hnd ⊢
  have happ :
      ds.filter
          (Part.mayAppend
            { p with
              doors :=
                Vector.ofFn fun d => if d ∈ ds then { p.door d with image := { p.image d with claim := none } } else p.door d }) =
        ds.filter fun d =>
          (p.config d).configured && !(p.config d).withdrawn && (p.group (p.config d).group).night && !p.inWorkSet d &&
            !p.inCatchUp d := by
    apply List.filter_congr
    intro d hd
    simp [mayAppend, config, image, door, hd, group, inWorkSet, entryOf, entry, inCatchUp]
  unfold endException
  rw [hx]
  simp only [hr]
  rw [setClaims_eq, offerDoors_eq _ hnd, happ]
  simp only [List.length_append, Nat.add_sub_cancel_left, raise, setException]

end Sys2Proof.Machine.Part
end

