-- ==== Sys2Proof/Laws/Lines.lean ====
section
/-! SUPPORT. What the receiver of a door line takes and discards of a reply, and what an order of blocks comes to, each said once. -/
namespace Sys2Proof.Machine

/-- A character fails no check of R27. -/
theorem charFailure_eq_none (c : LineChar) :
    charFailure c = none ↔ c.startHeld = true ∧ (ones c.data + c.parity.toNat) % 2 = 0 ∧ c.stopAtMark = true := by
  unfold charFailure parityHolds
  cases c.startHeld <;> cases c.stopAtMark <;> by_cases h : (ones c.data + c.parity.toNat) % 2 = 0 <;> simp [h]

/-- A reply of characters that all pass is taken whole. -/
theorem charsTaken_passes : ∀ chars : List LineChar, (∀ c ∈ chars, charFailure c = none) → charsTaken chars = chars
  | [], _ => rfl
  | c :: cs, h => by
    have hc := h c List.mem_cons_self
    simp [charsTaken, hc, charsTaken_passes cs fun x hx => h x (List.mem_cons_of_mem _ hx)]

/-- A reply is taken to its first failing character, that one with it. -/
theorem charsTaken_failing (c : LineChar) (after : List LineChar) (hc : charFailure c ≠ none) :
    ∀ before : List LineChar, (∀ x ∈ before, charFailure x = none) → charsTaken (before ++ c :: after) = before ++ [c]
  | [], _ => by simp [charsTaken, Option.isSome_iff_ne_none, hc]
  | x :: xs, h => by
    have hx := h x List.mem_cons_self
    simp [charsTaken, hx, charsTaken_failing c after hc xs fun y hy => h y (List.mem_cons_of_mem _ hy)]

/-- What follows the first failing character is discarded (R27). -/
theorem charsDropped_failing (c : LineChar) (before after : List LineChar) (hc : charFailure c ≠ none)
    (hb : ∀ x ∈ before, charFailure x = none) : charsDropped (before ++ c :: after) = after := by
  unfold charsDropped
  rw [charsTaken_failing c after hc before hb]
  simp

@[simp] theorem markSince_nil (t : Time) : markSince t [] = t := rfl

theorem markSince_cons (t : Time) (c : LineChar) (cs : List LineChar) :
    markSince t (c :: cs) = if c.pause < Config.lineGap then markSince (t + c.pause + Config.lineCharTicks) cs else t := rfl

/-- The mark is never put back. -/
theorem le_markSince : ∀ (t : Time) (cs : List LineChar), t ≤ markSince t cs
  | t, [] => Nat.le_refl t
  | t, c :: cs => by
    rw [markSince_cons]
    split
    · exact Nat.le_trans (Nat.le_trans (Nat.le_add_right t c.pause) (Nat.le_add_right _ _)) (le_markSince _ cs)
    · exact Nat.le_refl t

/-- An order of blocks names the blocks it is of, whatever the operand names (log 6). -/
theorem mem_arrange (own order : List Block) (b : Block) : b ∈ arrange own order ↔ b ∈ own := by
  unfold arrange
  simp only [List.mem_append, List.mem_eraseDups, List.mem_filter, List.contains_iff_mem, Bool.not_eq_eq_eq_not,
    Bool.not_true]
  constructor
  · rintro (⟨_, h⟩ | ⟨h, _⟩) <;> exact h
  · intro h
    by_cases ho : b ∈ order
    · exact .inl ⟨ho, h⟩
    · exact .inr ⟨h, by simpa using ho⟩

/-- With no operand the blocks act in the model's own order. -/
@[simp] theorem arrange_nil (own : List Block) : arrange own [] = own := by
  simp [arrange]

end Sys2Proof.Machine
end

