-- ==== Sys2Proof/WellFormed.lean ====
section
/-! DEFINITION. What makes a command well formed: the shapes the types of `Instr` do not already force. The meanings are
total and answer for ill-formed commands too. -/
namespace Sys2Proof

/-- An order of blocks names no block twice (log 6). -/
def orderWellFormed (order : List Block) : Bool := order.Nodup

/-- A line frame is at most 3 bytes, 17 data bytes and the CRC-8 (11.7), each read back as one character. -/
def Readback.wellFormed : Readback → Bool
  | .asSent => true
  | .chars cs => 1 ≤ cs.length && cs.length ≤ 21

/-- A reply received has at least one character (R29, R30). -/
def charsWellFormed (chars : List LineChar) : Bool := 1 ≤ chars.length

/-- A whole inbound frame begins with the start byte 0xC3 and is at most 244 bytes on the wire (11.1). -/
def frameBytesWellFormed (bytes : List Byte) : Bool := bytes.head? = some 0xC3#8 && bytes.length ≤ 244

/-- The check of a command's operands. -/
def Instr.wellFormed : Instr → Bool
  | .frameAssembled bytes => frameBytesWellFormed bytes
  | .lineFrameSent _ readback => readback.wellFormed
  | .lineReplyReceived _ chars order => charsWellFormed chars && orderWellFormed order
  | .replyWindowClosed _ order => orderWellFormed order
  | .receiverMark2ms _ order => orderWellFormed order
  | .fireBroadcastSent _ readback order => readback.wellFormed && orderWellFormed order
  | .overloadReport _ order => orderWellFormed order
  | .quietLine order => orderWellFormed order
  | .filteredInputChange order => orderWellFormed order
  | .clockAdvance order => orderWellFormed order
  | .powerUp => true
  | .resetInputAsserted => true
  | .resetInputReleased => true
  | .unknownRequest => true
  | .uplinkFrameSent => true
  | .loadDoor => true
  | .withdrawDoor => true
  | .restoreDoor => true
  | .loadPlanStep => true
  | .clearStagedPlan => true
  | .commitPlans => true
  | .loadScheduleEntry => true
  | .setOriginator => true
  | .setClock => true
  | .startSweep => true
  | .continueSweep => true
  | .abandonSweep => true
  | .abortSweep => true
  | .createException => true
  | .extendException => true
  | .endException => true
  | .armWatch => true
  | .disarmWatch => true
  | .fireRestore => true
  | .clearLineFault => true
  | .resumeLine => true
  | .readDoor => true
  | .readGroup => true
  | .readLine => true
  | .readSweepReport => true
  | .readCatchUpList => true
  | .readException => true
  | .readPlan => true
  | .readSchedule => true
  | .readStatus => true
  | .sense => true
  | .restartPart => true
  | .throwBolt => true
  | .retractBolt => true
  | .pulse => true
  | .holderEngage => true
  | .holderRelease => true
  | .pollNow => true
  | .confirmPollDue _ => true
  | .motionDeadline _ => true
  | .probeTimerExpiry _ => true
  | .fireInputChange _ => true
  | .repeatTimerExpiry => true
  | .incompleteTimerExpiry => true
  | .closeWaitDeadline _ => true
  | .suspendTimerExpiry => true
  | .uplinkCharacterReceived _ _ _ => true
  | .powerFails => true
  | .timebaseSecond => true

end Sys2Proof
end

