-- ==== Sys2Proof/Laws/PerInstr.lean ====
section
/-! SUPPORT. For every command: the order of blocks that a well-formed command carries names no block twice (log 6). -/
namespace Sys2Proof.Laws.Orders

/-- The order of blocks a command carries, empty where it carries none. -/
def orderOf : Instr → List Block
  | .powerUp => []
  | .resetInputAsserted => []
  | .resetInputReleased => []
  | .frameAssembled _ => []
  | .unknownRequest => []
  | .uplinkFrameSent => []
  | .loadDoor => []
  | .withdrawDoor => []
  | .restoreDoor => []
  | .loadPlanStep => []
  | .clearStagedPlan => []
  | .commitPlans => []
  | .loadScheduleEntry => []
  | .setOriginator => []
  | .setClock => []
  | .startSweep => []
  | .continueSweep => []
  | .abandonSweep => []
  | .abortSweep => []
  | .createException => []
  | .extendException => []
  | .endException => []
  | .armWatch => []
  | .disarmWatch => []
  | .fireRestore => []
  | .clearLineFault => []
  | .quietLine order => order
  | .resumeLine => []
  | .readDoor => []
  | .readGroup => []
  | .readLine => []
  | .readSweepReport => []
  | .readCatchUpList => []
  | .readException => []
  | .readPlan => []
  | .readSchedule => []
  | .readStatus => []
  | .sense => []
  | .restartPart => []
  | .throwBolt => []
  | .retractBolt => []
  | .pulse => []
  | .holderEngage => []
  | .holderRelease => []
  | .pollNow => []
  | .lineFrameSent _ _ => []
  | .lineReplyReceived _ _ order => order
  | .replyWindowClosed _ order => order
  | .receiverMark2ms _ order => order
  | .fireBroadcastSent _ _ order => order
  | .overloadReport _ order => order
  | .confirmPollDue _ => []
  | .motionDeadline _ => []
  | .probeTimerExpiry _ => []
  | .fireInputChange _ => []
  | .filteredInputChange order => order
  | .repeatTimerExpiry => []
  | .incompleteTimerExpiry => []
  | .clockAdvance order => order
  | .closeWaitDeadline _ => []
  | .suspendTimerExpiry => []
  | .uplinkCharacterReceived _ _ _ => []
  | .powerFails => []
  | .timebaseSecond => []

/-- A well-formed command's order names no block twice. -/
def Statement (i : Instr) : Prop := i.wellFormed = true → (orderOf i).Nodup

theorem powerUp : Statement (.powerUp) := fun _ => .nil
theorem resetInputAsserted : Statement (.resetInputAsserted) := fun _ => .nil
theorem resetInputReleased : Statement (.resetInputReleased) := fun _ => .nil
theorem frameAssembled (bytes : List Byte) : Statement (.frameAssembled bytes) := fun _ => .nil
theorem unknownRequest : Statement (.unknownRequest) := fun _ => .nil
theorem uplinkFrameSent : Statement (.uplinkFrameSent) := fun _ => .nil
theorem loadDoor : Statement (.loadDoor) := fun _ => .nil
theorem withdrawDoor : Statement (.withdrawDoor) := fun _ => .nil
theorem restoreDoor : Statement (.restoreDoor) := fun _ => .nil
theorem loadPlanStep : Statement (.loadPlanStep) := fun _ => .nil
theorem clearStagedPlan : Statement (.clearStagedPlan) := fun _ => .nil
theorem commitPlans : Statement (.commitPlans) := fun _ => .nil
theorem loadScheduleEntry : Statement (.loadScheduleEntry) := fun _ => .nil
theorem setOriginator : Statement (.setOriginator) := fun _ => .nil
theorem setClock : Statement (.setClock) := fun _ => .nil
theorem startSweep : Statement (.startSweep) := fun _ => .nil
theorem continueSweep : Statement (.continueSweep) := fun _ => .nil
theorem abandonSweep : Statement (.abandonSweep) := fun _ => .nil
theorem abortSweep : Statement (.abortSweep) := fun _ => .nil
theorem createException : Statement (.createException) := fun _ => .nil
theorem extendException : Statement (.extendException) := fun _ => .nil
theorem endException : Statement (.endException) := fun _ => .nil
theorem armWatch : Statement (.armWatch) := fun _ => .nil
theorem disarmWatch : Statement (.disarmWatch) := fun _ => .nil
theorem fireRestore : Statement (.fireRestore) := fun _ => .nil
theorem clearLineFault : Statement (.clearLineFault) := fun _ => .nil
theorem quietLine (order : List Block) : Statement (.quietLine order) :=
  by simp [Statement, orderOf, Instr.wellFormed, orderWellFormed]
theorem resumeLine : Statement (.resumeLine) := fun _ => .nil
theorem readDoor : Statement (.readDoor) := fun _ => .nil
theorem readGroup : Statement (.readGroup) := fun _ => .nil
theorem readLine : Statement (.readLine) := fun _ => .nil
theorem readSweepReport : Statement (.readSweepReport) := fun _ => .nil
theorem readCatchUpList : Statement (.readCatchUpList) := fun _ => .nil
theorem readException : Statement (.readException) := fun _ => .nil
theorem readPlan : Statement (.readPlan) := fun _ => .nil
theorem readSchedule : Statement (.readSchedule) := fun _ => .nil
theorem readStatus : Statement (.readStatus) := fun _ => .nil
theorem sense : Statement (.sense) := fun _ => .nil
theorem restartPart : Statement (.restartPart) := fun _ => .nil
theorem throwBolt : Statement (.throwBolt) := fun _ => .nil
theorem retractBolt : Statement (.retractBolt) := fun _ => .nil
theorem pulse : Statement (.pulse) := fun _ => .nil
theorem holderEngage : Statement (.holderEngage) := fun _ => .nil
theorem holderRelease : Statement (.holderRelease) := fun _ => .nil
theorem pollNow : Statement (.pollNow) := fun _ => .nil
theorem lineFrameSent (line : LineNo) (readback : Readback) : Statement (.lineFrameSent line readback) := fun _ => .nil
theorem lineReplyReceived (line : LineNo) (chars : List LineChar) (order : List Block) : Statement (.lineReplyReceived line chars order) :=
  by simp [Statement, orderOf, Instr.wellFormed, orderWellFormed]
theorem replyWindowClosed (line : LineNo) (order : List Block) : Statement (.replyWindowClosed line order) :=
  by simp [Statement, orderOf, Instr.wellFormed, orderWellFormed]
theorem receiverMark2ms (line : LineNo) (order : List Block) : Statement (.receiverMark2ms line order) :=
  by simp [Statement, orderOf, Instr.wellFormed, orderWellFormed]
theorem fireBroadcastSent (line : LineNo) (readback : Readback) (order : List Block) : Statement (.fireBroadcastSent line readback order) :=
  by simp [Statement, orderOf, Instr.wellFormed, orderWellFormed]
theorem overloadReport (line : LineNo) (order : List Block) : Statement (.overloadReport line order) :=
  by simp [Statement, orderOf, Instr.wellFormed, orderWellFormed]
theorem confirmPollDue (line : LineNo) : Statement (.confirmPollDue line) := fun _ => .nil
theorem motionDeadline (door : DoorNo) : Statement (.motionDeadline door) := fun _ => .nil
theorem probeTimerExpiry (line : LineNo) : Statement (.probeTimerExpiry line) := fun _ => .nil
theorem fireInputChange (reading : FireInput) : Statement (.fireInputChange reading) := fun _ => .nil
theorem filteredInputChange (order : List Block) : Statement (.filteredInputChange order) :=
  by simp [Statement, orderOf, Instr.wellFormed, orderWellFormed]
theorem repeatTimerExpiry : Statement (.repeatTimerExpiry) := fun _ => .nil
theorem incompleteTimerExpiry : Statement (.incompleteTimerExpiry) := fun _ => .nil
theorem clockAdvance (order : List Block) : Statement (.clockAdvance order) :=
  by simp [Statement, orderOf, Instr.wellFormed, orderWellFormed]
theorem closeWaitDeadline (door : DoorNo) : Statement (.closeWaitDeadline door) := fun _ => .nil
theorem suspendTimerExpiry : Statement (.suspendTimerExpiry) := fun _ => .nil
theorem uplinkCharacterReceived (byte : Byte) (stopAtMark : Bool) (pause : Time) : Statement (.uplinkCharacterReceived byte stopAtMark pause) :=
  fun _ => .nil
theorem powerFails : Statement (.powerFails) := fun _ => .nil
theorem timebaseSecond : Statement (.timebaseSecond) := fun _ => .nil

end Sys2Proof.Laws.Orders
end

