-- ==== Sys2Proof/Laws/Settle.lean ====
section
/-! SUPPORT. What the free transmitters can do after a command (`Part.settle`), said once, and the shape of every meaning: a decision
of the handler and an answer built. -/
namespace Sys2Proof.Machine

/-! ## Chosen is a preorder -/

theorem Line.Chosen.refl (x : Line) : x.Chosen x := ⟨fun _ => rfl, rfl, rfl, fun _ => ⟨rfl, rfl, rfl⟩⟩

theorem Slot.Chosen.refl (x : Slot) (o : OriginatorNo) : x.Chosen x o := .inl rfl

theorem NoticeQueues.Chosen.refl (x : NoticeQueues) : x.Chosen x := .inl rfl

theorem Slot.Chosen.trans {x y z : Slot} {o : OriginatorNo} (a : x.Chosen y o) (b : y.Chosen z o) : x.Chosen z o := by
  rcases a with rfl | ⟨f, t, g, rfl, rfl⟩ | ⟨f, t, rfl, rfl⟩
  · exact b
  · rcases b with rfl | ⟨f', t', g', h, rfl⟩ | ⟨f', t', h, rfl⟩
    · exact .inr (.inl ⟨f, t, g, rfl, rfl⟩)
    · cases h; exact .inr (.inl ⟨f, t, g, rfl, rfl⟩)
    · cases h
  · rcases b with rfl | ⟨f', t', g', h, rfl⟩ | ⟨f', t', h, rfl⟩
    · exact .inr (.inr ⟨f, t, rfl, rfl⟩)
    · cases h
    · cases h

/-- A choice that touches one line, some slots and the waiting responses: what the line arbiter does. -/
structure Part.LineChosen (p q : Part) (l : LineNo) : Prop where
  tables : p.SameTables q
  notices : q.notices = p.notices
  own : (p.line l).Chosen (q.line l)
  others : ∀ k, k ≠ l → q.line k = p.line k
  slot : ∀ o i, (p.slot o i).Chosen (q.slot o i) o
  uplink : { q.uplink with slots := p.uplink.slots, waiting := p.uplink.waiting } = p.uplink
  waiting : ∃ xs, q.uplink.waiting = p.uplink.waiting ++ xs

theorem Part.LineChosen.refl (p : Part) (l : LineNo) : p.LineChosen p l :=
  ⟨rfl, rfl, .refl _, fun _ _ => rfl, fun _ _ => .refl _ _, rfl, [], by simp⟩

namespace Part

theorem SameTables.trans {p q r : Part} (a : p.SameTables q) (b : q.SameTables r) : p.SameTables r := by
  unfold SameTables at *
  rw [← b] at a
  exact a

/-- A write of the line itself. -/
theorem setLine_lineChosen (p : Part) (l : LineNo) (x : Line) (h : (p.line l).Chosen x) : p.LineChosen (p.setLine l x) l where
  tables := rfl
  notices := rfl
  own := by simpa using h
  others k hk := by rw [setLine_line, if_neg hk]
  slot _ _ := .refl _ _
  uplink := rfl
  waiting := ⟨[], by simp⟩

/-- Writes that leave the lines alone, after writes of the line. -/
theorem LineChosen.slots {p q r : Part} {l : LineNo} (h : p.LineChosen q l) (tables : q.SameTables r)
    (notices : r.notices = q.notices) (line : ∀ k, r.line k = q.line k) (slot : ∀ o i, (q.slot o i).Chosen (r.slot o i) o)
    (uplink : { r.uplink with slots := q.uplink.slots, waiting := q.uplink.waiting } = q.uplink)
    (waiting : ∃ xs, r.uplink.waiting = q.uplink.waiting ++ xs) : p.LineChosen r l where
  tables := h.tables.trans tables
  notices := notices.trans h.notices
  own := by rw [line]; exact h.own
  others k hk := (line k).trans (h.others k hk)
  slot o i := (h.slot o i).trans (slot o i)
  uplink := by
    have a := h.uplink
    rw [← uplink] at a
    exact a
  waiting := by
    obtain ⟨xs, a⟩ := h.waiting
    obtain ⟨ys, b⟩ := waiting
    exact ⟨xs ++ ys, by rw [b, a, List.append_assoc]⟩

theorem setProgress_lineChosen {p q : Part} {l : LineNo} (h : p.LineChosen q l) (s : Option Source) :
    p.LineChosen (q.setProgress s .onLine) l := by
  unfold setProgress
  split
  · next o i =>
    split
    · next f t g e =>
      refine h.slots rfl rfl (fun _ => rfl) (fun x y => ?_) rfl ⟨[], by simp⟩
      rw [setSlot_slot]
      split
      · next e' => obtain ⟨rfl, rfl⟩ := e'; exact .inr (.inl ⟨f, t, g, e, rfl⟩)
      · exact .refl _ _
    · exact h
  · exact h

/-- What an answer does to an occupied slot. -/
theorem answer_eq (p : Part) (o : OriginatorNo) (i : SlotNo) (c : Completion) (results : List Byte) (detail : Option Nat)
    {f : Frame} {t : Time} (h : p.slot o i = .waiting f t ∨ ∃ g, p.slot o i = .inProgress f t g) :
    p.answer o i c results detail = p.withAnswer o i f t c results detail := by
  have hs : f.isSense = true ↔ f.kind = 0x01#8 ∧ f.code = 0x39#8 := by
    simp only [Frame.isSense, Bool.and_eq_true, decide_eq_true_eq]; rfl
  have key : p.answer o i c results detail =
      { (p.setSlot o i (.answered f t (f.respond o c results))).noteSense o f c detail with
        uplink :=
          { ((p.setSlot o i (.answered f t (f.respond o c results))).noteSense o f c detail).uplink with
            waiting := ((p.setSlot o i (.answered f t (f.respond o c results))).noteSense o f c detail).uplink.waiting ++
              [.slot o i] } } := by
    unfold answer
    rcases h with h | ⟨g, h⟩ <;> rw [h]
  rw [key]
  unfold noteSense withAnswer
  by_cases h : c = .ok ∨ c = .commitPending ∨ (f.kind = 0x01#8 ∧ f.code = 0x39#8)
  · simp only [hs, h, if_true, setSlot, Frame.respond]
  · simp only [hs, h, if_false, setSlot, setSense, Frame.respond]

theorem answerResume_lineChosen {p q : Part} {l : LineNo} (h : p.LineChosen q l) (x : OriginatorNo × SlotNo) :
    p.LineChosen (q.answerResume x) l := by
  obtain ⟨o, i⟩ := x
  unfold answerResume
  split
  · next f t e =>
    unfold answerOk
    rw [answer_eq q o i _ _ _ (.inr ⟨_, e⟩)]
    refine h.slots rfl rfl (fun _ => rfl) (fun x y => ?_) (by simp [withAnswer]) ⟨[.slot o i], rfl⟩
    have : (q.withAnswer o i f t .ok [] none).slot x y = (q.setSlot o i (.answered f t (f.respond o .ok []))).slot x y := rfl
    rw [this, setSlot_slot]
    split
    · next e' => obtain ⟨rfl, rfl⟩ := e'; exact .inr (.inr ⟨f, t, e, rfl⟩)
    · exact .refl _ _
  · exact h

theorem answerProbe_lineChosen {p q : Part} {l : LineNo} (h : p.LineChosen (q.setLine l { q.line l with probeWaiters := [] }) l) :
    p.LineChosen (q.answerProbe l) l := by
  unfold answerProbe
  generalize (q.line l).probeWaiters = xs
  generalize q.setLine l { q.line l with probeWaiters := [] } = r at h
  induction xs generalizing r with
  | nil => exact h
  | cons x xs ih => exact ih _ (answerResume_lineChosen h x)

end Part

theorem markInFlight_map (ok : LineRequest → Bool) (rs : List LineRequest) :
    ((markInFlight ok rs).map fun r => { r with inFlight := false }) = rs.map fun r => { r with inFlight := false } := by
  induction rs with
  | nil => rfl
  | cons r rs ih =>
    unfold markInFlight
    split
    · rfl
    · simp [ih]

namespace Part

theorem LineChosen.write {p q : Part} {l : LineNo} (h : p.LineChosen q l) {x : Line} (hx : (p.line l).Chosen x) :
    p.LineChosen (q.setLine l x) l where
  tables := h.tables
  notices := h.notices
  own := by simpa using hx
  others k hk := by rw [setLine_line, if_neg hk]; exact h.others k hk
  slot := h.slot
  uplink := h.uplink
  waiting := h.waiting

theorem begin_lineChosen {p q : Part} {l : LineNo} (h : p.LineChosen q l) (hw : (p.line l).wire = .free) (k : TransactionKind)
    (c : LineCmd) (d : Option DoorNo) (n : Nat) : p.LineChosen (q.begin l k c d n) l :=
  h.write ⟨fun e => absurd hw e, h.own.rest, h.own.queue, h.own.probe⟩

theorem beginRoutine_lineChosen {p : Part} {l : LineNo} (hw : (p.line l).wire = .free) (d : DoorNo) :
    p.LineChosen (p.beginRoutine l d) l :=
  begin_lineChosen
    (setLine_lineChosen p l { p.line l with cursor := (p.config d).node, queuedSends := 0 }
      ⟨fun e => absurd hw e, rfl, rfl, fun _ => ⟨rfl, rfl, rfl⟩⟩) hw _ _ _ _

theorem beginQueued_lineChosen {p : Part} {l : LineNo} (hw : (p.line l).wire = .free) (r : LineRequest) :
    p.LineChosen (p.beginQueued l r) l :=
  begin_lineChosen
    (setProgress_lineChosen
      (setLine_lineChosen p l
        { p.line l with
          queue := markInFlight (p.line l).sendable (p.line l).queue, queuedSends := raiseTo 3 (p.line l).queuedSends }
        ⟨fun e => absurd hw e, rfl, markInFlight_map _ _, fun _ => ⟨rfl, rfl, rfl⟩⟩) _) hw _ _ _ _

theorem beginProbe_lineChosen {p : Part} {l : LineNo} (hw : (p.line l).wire = .free) (hs : (p.line l).state = .faulted) :
    p.LineChosen (p.beginProbe l) l := by
  have h : p.LineChosen (p.setLine l { p.line l with probeDue := false, probeTimer := none }) l :=
    setLine_lineChosen _ _ _ ⟨fun e => absurd hw e, rfl, rfl, fun e => absurd hs e⟩
  have key (q : Part) (hq : p.LineChosen q l) : p.LineChosen (q.answerProbe l) l :=
    answerProbe_lineChosen (hq.write ⟨fun e => absurd hw e, hq.own.rest, hq.own.queue, fun e => absurd hs e⟩)
  unfold beginProbe
  simp only
  refine key _ ?_
  split
  · exact begin_lineChosen h hw _ _ _ _
  · exact begin_lineChosen h hw _ _ _ _

/-- The line arbiter's choice changes only its line, the progress of a slot and the answers of RESUME LINEs. -/
theorem lineChoice_lineChosen (p : Part) (l : LineNo) : p.LineChosen (p.lineChoice l) l := by
  unfold lineChoice
  simp only
  split
  · exact .refl _ _
  · next hw =>
    have hw : (p.line l).wire = .free := by simpa using hw
    split
    · exact setLine_lineChosen _ _ _ ⟨fun h => absurd hw h, rfl, rfl, fun _ => ⟨rfl, rfl, rfl⟩⟩
    · exact setLine_lineChosen _ _ _ ⟨fun h => absurd hw h, rfl, rfl, fun _ => ⟨rfl, rfl, rfl⟩⟩
    · exact .refl _ _
    · split
      · exact begin_lineChosen (.refl _ _) hw _ _ _ _
      · unfold chooseQueued
        simp only
        split
        · exact beginQueued_lineChosen hw _
        · split
          · exact beginRoutine_lineChosen hw _
          · exact beginQueued_lineChosen hw _
        · exact beginRoutine_lineChosen hw _
        · exact .refl _ _
    · split
      · exact beginProbe_lineChosen hw (by assumption)
      · exact .refl _ _

/-! ## The whole of the choices -/

/-- The choices of the lines in `ls`, one after another. -/
structure LinesChosen (p q : Part) (ls : List LineNo) : Prop where
  tables : p.SameTables q
  notices : q.notices = p.notices
  line : ∀ k, (p.line k).Chosen (q.line k)
  others : ∀ k, k ∉ ls → q.line k = p.line k
  slot : ∀ o i, (p.slot o i).Chosen (q.slot o i) o
  uplink : { q.uplink with slots := p.uplink.slots, waiting := p.uplink.waiting } = p.uplink
  waiting : ∃ xs, q.uplink.waiting = p.uplink.waiting ++ xs

theorem linesChosen_foldl (ls : List LineNo) (hn : ls.Nodup) (p : Part) : p.LinesChosen (ls.foldl lineChoice p) ls := by
  induction ls generalizing p with
  | nil => exact ⟨rfl, rfl, fun _ => .refl _, fun _ _ => rfl, fun _ _ => .refl _ _, rfl, [], by simp⟩
  | cons l ls ih =>
    have hl := List.nodup_cons.1 hn
    have a := lineChoice_lineChosen p l
    have b := ih hl.2 (p.lineChoice l)
    simp only [List.foldl_cons]
    exact
      { tables := a.tables.trans b.tables
        notices := b.notices.trans a.notices
        line := fun k => by
          by_cases h : k = l
          · subst h; rw [b.others _ hl.1]; exact a.own
          · have := b.line k; rwa [a.others k h] at this
        others := fun k hk => by
          have hk' : k ≠ l ∧ k ∉ ls := by simpa using hk
          rw [b.others k hk'.2, a.others k hk'.1]
        slot := fun o i => (a.slot o i).trans (b.slot o i)
        uplink := by
          have h := a.uplink
          rw [← b.uplink] at h
          exact h
        waiting := by
          obtain ⟨xs, h⟩ := a.waiting
          obtain ⟨ys, k⟩ := b.waiting
          exact ⟨xs ++ ys, by rw [k, h, List.append_assoc]⟩ }

end Part

theorem mem_insertPlace (x y : ResponsePlace) (xs : List ResponsePlace) : y ∈ insertPlace x xs ↔ y = x ∨ y ∈ xs := by
  induction xs with
  | nil => simp [insertPlace]
  | cons z zs ih =>
    unfold insertPlace
    split
    · simp
    · simp only [List.mem_cons, ih]; exact or_left_comm

theorem mem_orderBuilt (n : Nat) (x : ResponsePlace) (xs : List ResponsePlace) : x ∈ orderBuilt n xs ↔ x ∈ xs := by
  have h (ys : List ResponsePlace) : x ∈ ys.foldr insertPlace [] ↔ x ∈ ys := by
    induction ys with
    | nil => simp
    | cons y ys ih => simp [mem_insertPlace, ih]
  unfold orderBuilt
  rw [List.mem_append, h, ← List.mem_append, List.take_append_drop]

theorem insertPlace_perm (x : ResponsePlace) (xs : List ResponsePlace) : (insertPlace x xs).Perm (x :: xs) := by
  induction xs with
  | nil => exact .refl _
  | cons y ys ih =>
    unfold insertPlace
    split
    · exact .refl _
    · exact (ih.cons y).trans (.swap x y ys)

/-- The order of R178: by key, so by originator and then by slot. -/
theorem insertPlace_sorted (x : ResponsePlace) (xs : List ResponsePlace) (h : xs.Pairwise fun a b => a.key ≤ b.key) :
    (insertPlace x xs).Pairwise fun a b => a.key ≤ b.key := by
  induction xs with
  | nil => simp [insertPlace]
  | cons y ys ih =>
    have hy := List.pairwise_cons.1 h
    unfold insertPlace
    split
    · next hxy =>
      exact List.pairwise_cons.2 ⟨fun z hz => by
        rcases List.mem_cons.1 hz with rfl | hz
        · exact hxy
        · exact Nat.le_trans hxy (hy.1 z hz), h⟩
    · next hxy =>
      exact List.pairwise_cons.2 ⟨fun z hz => by
        rcases (mem_insertPlace x z ys).1 hz with rfl | hz
        · omega
        · exact hy.1 z hz, ih hy.2⟩

/-- All that `orderBuilt` does: the first `n` stay, the others are put in order. -/
theorem orderBuilt_spec (n : Nat) (xs : List ResponsePlace) :
    ∃ ys, orderBuilt n xs = xs.take n ++ ys ∧ ys.Perm (xs.drop n) ∧ ys.Pairwise fun a b => a.key ≤ b.key := by
  refine ⟨(xs.drop n).foldr insertPlace [], rfl, ?_⟩
  induction xs.drop n with
  | nil => exact ⟨.refl _, .nil⟩
  | cons y ys ih => exact ⟨(insertPlace_perm y _).trans (ih.1.cons y), insertPlace_sorted y _ ih.2⟩

namespace Part

theorem uplinkChoice_line (p : Part) (l : LineNo) : p.uplinkChoice.line l = p.line l := by
  unfold uplinkChoice
  split
  · rfl
  · split
    · rfl
    · split
      · next q e =>
        unfold sendResponse at e
        split at e
        · cases e
        · simp only [Option.map_eq_some_iff] at e
          obtain ⟨r, -, rfl⟩ := e
          rfl
      · split
        · rfl
        · split <;> rfl

/-- The uplink's choice: at most one frame begins to be sent, and it leaves where it waited. -/
theorem uplinkChoice_chosen (p : Part) : p.Chosen p.uplinkChoice := by
  have refl : p.Chosen p :=
    ⟨rfl, fun _ => .refl _, fun _ _ => .refl _ _, .refl _, rfl, fun _ h => h, fun _ h => .inl h⟩
  have hn (n : Notice) (mark : Bool) (q : NoticeQueues) (hs : p.uplink.sending = none) (h : p.notices.Chosen q) :
      p.Chosen ({ p with notices := q }.send (.notice n mark p.now)) :=
    ⟨rfl, fun _ => .refl _, fun _ _ => .refl _ _, h, rfl, fun _ e => by simp [hs] at e, fun _ e => .inl e⟩
  unfold uplinkChoice
  split
  · exact refl
  · next hs =>
    split
    · next n rest e => exact hn _ _ _ hs (.inr (.inl (by simp [e])))
    · split
      · next q e =>
        unfold sendResponse at e
        split at e
        · cases e
        · next x xs ew =>
          simp only [Option.map_eq_some_iff] at e
          obtain ⟨r, -, rfl⟩ := e
          exact
            ⟨rfl, fun _ => .refl _, fun _ _ => .refl _ _, .refl _, rfl, fun _ e => by simp [hs] at e, fun y hy => by
              rw [ew] at hy
              rcases List.mem_cons.1 hy with rfl | hy
              · exact .inr ⟨r, p.now, rfl⟩
              · exact .inl hy⟩
      · split
        · next n rest e => exact hn _ _ _ hs (.inr (.inr (.inl (by simp [e]))))
        · split
          · next n rest e => exact hn _ _ _ hs (.inr (.inr (.inr (by simp [e]))))
          · exact refl

/-- Everything that the free transmitters can do after a command. -/
theorem settle_chosen (p : Part) (n : Nat) : p.Chosen (p.settle n) := by
  have a := linesChosen_foldl (List.finRange 4) (List.nodup_finRange 4) p
  unfold settle
  simp only
  generalize (List.finRange 4).foldl lineChoice p = q at a
  have b := uplinkChoice_chosen { q with uplink := { q.uplink with waiting := orderBuilt n q.uplink.waiting } }
  obtain ⟨xs, hx⟩ := a.waiting
  exact
    { tables := (show p.SameTables { q with uplink := { q.uplink with waiting := orderBuilt n q.uplink.waiting } } from a.tables).trans
        b.tables
      line := fun l => by
        have h := a.line l
        rw [uplinkChoice_line]
        exact h
      slot := fun o i => (a.slot o i).trans (b.slot o i)
      notices := by have := b.notices; rwa [← a.notices]
      uplink := by
        have h := a.uplink
        have k := b.uplink
        generalize uplinkChoice _ = r at k
        dsimp only at k
        revert h k
        generalize p.uplink = u
        generalize q.uplink = v
        generalize r.uplink = w
        intro h k
        cases u; cases v; cases w
        simp_all
      sending := fun x hx => b.sending x (by have := congrArg Uplink.sending a.uplink; simp at this; rw [← hx, ← this])
      waiting := fun x hx' => b.waiting x ((mem_orderBuilt _ _ _).2 (by rw [hx]; simp [hx'])) }

end Part
end Sys2Proof.Machine
end

