-- ==== Sys2Proof/Laws/Port.lean ====
section
/-! SUPPORT. The shape of a meaning, said once: a command of a working part leaves its effect and the transmitters' choices, a
decision runs its owner's action, and an answer builds the response. -/
namespace Sys2Proof.Machine

/-- A command of a working part answers the next state that its effect and the transmitters' choices leave. -/
theorem act_reaches (f : Part → Part) (s : State) (h : s.part.working = true) : ∃ t, act f s = .next t ∧ Reaches s (f s.part) t :=
  have e : s.part.after f = (f s.part).settle s.part.uplink.waiting.length := if_pos h
  ⟨{ s with part := s.part.after f }, rfl, rfl, e, e ▸ Part.settle_chosen _ _⟩

/-- The same with the effect rewritten. -/
theorem act_reaches_of {f : Part → Part} {s : State} {q : Part} (h : s.part.working = true) (e : f s.part = q) :
    ∃ t, act f s = .next t ∧ Reaches s q t := e ▸ act_reaches f s h

/-- A part that does not work is left alone. -/
theorem act_held (f : Part → Part) (s : State) (h : s.part.working = false) : act f s = .next s := by
  simp [act, Part.after, h]

/-- A frame that passes checks 1 to 4 is given to its owner (R190). -/
theorem Decides.owner {s : State} {c : Code} {o : OriginatorNo} {i : SlotNo} {f : Frame} {a : Time} (h : Decides s c o i f a)
    (own : OriginatorNo → SlotNo → Frame → Part → Part) : s.part.decide c own = own o i f s.part := by
  simp [Part.decide, h.next, h.verdict, h.authority, h.range]

/-- An answer to a frame that is being decided, in a part whose slot still waits. -/
theorem Decides.answer {s : State} {c : Code} {o : OriginatorNo} {i : SlotNo} {f : Frame} {a : Time} (h : Decides s c o i f a)
    {q : Part} (hq : q.slot o i = s.part.slot o i) (k : Completion) (results : List Byte) (detail : Option Nat) :
    q.answer o i k results detail = q.withAnswer o i f a k results detail :=
  q.answer_eq o i k results detail (.inl (hq.trans h.waits))

/-- A slot that holds a response keeps it through the transmitters' choices. -/
theorem Part.Chosen.answered {p q : Part} (h : p.Chosen q) {o : OriginatorNo} {i : SlotNo} {f : Frame} {a : Time} {r : Response}
    (e : p.slot o i = .answered f a r) : q.slot o i = .answered f a r := by
  rcases h.slot o i with k | ⟨f', t, g, k, -⟩ | ⟨f', t, k, -⟩
  · rw [k, e]
  · rw [e] at k; cases k
  · rw [e] at k; cases k

/-- The slot of an answer. -/
theorem Part.withAnswer_slot (p : Part) (o : OriginatorNo) (i : SlotNo) (f : Frame) (a : Time) (c : Completion)
    (results : List Byte) (detail : Option Nat) :
    (p.withAnswer o i f a c results detail).slot o i = .answered f a (f.respond o c results) := by
  simp [Part.withAnswer, Part.slot, Frame.respond]

/-- A command that leaves an answer has its response in its slot. -/
theorem Reaches.answers {s t : State} {p : Part} {o : OriginatorNo} {i : SlotNo} {f : Frame} {a : Time} {c : Completion}
    {results : List Byte} {detail : Option Nat} (h : Reaches s (p.withAnswer o i f a c results detail) t) :
    Answers t o i f a c results := h.part.answered (p.withAnswer_slot o i f a c results detail)

end Sys2Proof.Machine
end

