-- ==== Sys2Proof/Laws/Requests.lean ====
section
/-! SUPPORT. A decision of the request handler, said once for every code: its owner's action, or the refusal of checks 3 and 4
(R190); and what the door table's own checks and effects come to. -/
namespace Sys2Proof.Machine

/-- A command that acts on a working part completes with its effect. -/
theorem completes_of {c : Instr} {f : Part → Part} {s : State} {q : Part} (hc : exec c s = act f s) (h : s.part.working = true)
    (e : f s.part = q) : Completes c s q := by
  unfold Completes
  rw [hc]
  exact act_reaches_of h e

/-- A decision completes with what its owner's action leaves. -/
theorem Decides.completes {c : Code} {cmd : Instr} {s : State} {o : OriginatorNo} {i : SlotNo} {f : Frame} {a : Time}
    {own : OriginatorNo → SlotNo → Frame → Part → Part} {q : Part} (h : Decides s c o i f a)
    (hx : exec cmd s = act (fun p => p.decide c own) s) (e : own o i f s.part = q) : Completes cmd s q :=
  completes_of hx h.working ((h.owner own).trans e)

/-- A frame of too low an authority is refused by check 3. -/
theorem Asks.authority {c : Code} {cmd : Instr} {s : State} {o : OriginatorNo} {i : SlotNo} {f : Frame} {a : Time}
    {own : OriginatorNo → SlotNo → Frame → Part → Part} (h : Asks s c o i f a)
    (hx : exec cmd s = act (fun p => p.decide c own) s) (ha : s.part.holds o c.authority = false) :
    Completes cmd s (s.part.withAnswer o i f a .authority [] (some i.val)) := by
  refine completes_of hx h.working ?_
  simp only [Part.decide, h.next, h.verdict, ha, if_true, Bool.not_false]
  exact s.part.answer_eq o i .authority [] (some i.val) (.inl h.waits)

/-- A frame out of range is refused by check 4. -/
theorem Asks.range {c : Code} {cmd : Instr} {s : State} {o : OriginatorNo} {i : SlotNo} {f : Frame} {a : Time}
    {own : OriginatorNo → SlotNo → Frame → Part → Part} (h : Asks s c o i f a)
    (hx : exec cmd s = act (fun p => p.decide c own) s) (ha : s.part.holds o c.authority = true) (hr : c.inRange f = false) :
    Completes cmd s (s.part.withAnswer o i f a .range [] (some i.val)) := by
  refine completes_of hx h.working ?_
  simp only [Part.decide, h.next, h.verdict, ha, hr, if_true, Bool.not_false, Bool.not_true, Bool.false_eq_true, if_false]
  exact s.part.answer_eq o i .range [] (some i.val) (.inl h.waits)

/-- The door a frame in range names. -/
theorem Frame.doorNo_eq {f : Frame} {d : DoorNo} (h : d.val = f.door.toNat) : f.doorNo = d := by
  apply Fin.ext
  simp [Frame.doorNo, Fin.ofNat, ← h]

/-- Some slot of the table of eight is the slot of some originator. -/
theorem Part.slots_exists (p : Part) (t : Slot → Prop) : (∃ x ∈ p.uplink.slots.toList, t x) ↔ ∃ o i, t (p.slot o i) := by
  constructor
  · rintro ⟨x, hx, ht⟩
    obtain ⟨k, hk, rfl⟩ := List.getElem_of_mem hx
    have hk8 : k < 8 := by simpa using hk
    refine ⟨⟨k / 2, by omega⟩, ⟨k % 2, by omega⟩, ?_⟩
    have : slotPlace ⟨k / 2, by omega⟩ ⟨k % 2, by omega⟩ = ⟨k, hk8⟩ := by
      apply Fin.ext
      simp [slotPlace]
      omega
    unfold Part.slot
    simp only [this]
    simpa using ht
  · rintro ⟨o, i, h⟩
    refine ⟨p.slot o i, ?_, h⟩
    unfold Part.slot
    simp [Vector.getElem_mem]

/-- What keeps a door's record from LOAD DOOR and WITHDRAW DOOR (R2, R4). -/
theorem Part.doorBusy_iff (p : Part) (d : DoorNo) :
    p.doorBusy d = true ↔
      p.imageState d = .pending ∨ ∃ o i f b g, p.slot o i = .inProgress f b (some g) ∧ f.doorNo = d := by
  unfold Part.doorBusy Part.commandOutstanding
  simp only [Bool.or_eq_true, decide_eq_true_eq, List.any_eq_true]
  rw [show (∃ x ∈ p.uplink.slots.toList, x.commands d = true) ↔ _ from p.slots_exists fun x => x.commands d = true]
  refine or_congr Iff.rfl ?_
  constructor
  · rintro ⟨o, i, h⟩
    unfold Slot.commands at h
    split at h
    · rename_i f t g hs
      exact ⟨o, i, f, t, g, hs, by simpa using h⟩
    · cases h
  · rintro ⟨o, i, f, b, g, hs, h⟩
    exact ⟨o, i, by simp [Slot.commands, hs, h]⟩

/-- Another configured record holds a line and node (R1, R2). -/
theorem Part.nodeTaken_iff (p : Part) (d : DoorNo) (l : LineNo) (n : Nat) :
    p.nodeTaken d l n = true ↔ ∃ x, x ≠ d ∧ (p.config x).configured = true ∧ (p.config x).line = l ∧ (p.config x).node = n := by
  unfold Part.nodeTaken
  simp [List.any_eq_true, allDoors, and_assoc]

theorem Part.confirmIfEmpty_slot (p : Part) (o : OriginatorNo) (i : SlotNo) : p.confirmIfEmpty.slot o i = p.slot o i := by
  unfold Part.confirmIfEmpty
  split <;> rfl

theorem Part.removeRelease_slot (p : Part) (d : DoorNo) (o : OriginatorNo) (i : SlotNo) :
    (p.removeRelease d).slot o i = p.slot o i := by
  unfold Part.removeRelease
  split
  · rw [Part.confirmIfEmpty_slot]
    rfl
  · rfl

theorem Part.joinRelease_slot (p : Part) (d : DoorNo) (o : OriginatorNo) (i : SlotNo) :
    (p.joinRelease d).slot o i = p.slot o i := by
  unfold Part.joinRelease
  split <;> rfl

theorem Part.fireReconfigured_slot (p : Part) (d : DoorNo) (o : OriginatorNo) (i : SlotNo) :
    (p.fireReconfigured d).slot o i = p.slot o i := by
  unfold Part.fireReconfigured
  split
  · simp only [Part.makeBroadcast, Part.setLine_slot]
    split
    · exact removeRelease_slot ..
    · split
      · exact joinRelease_slot ..
      · rfl
  · rfl

/-- The bits of a map of node addresses (11.7). -/
theorem nodeMap_bit (ns : List Nat) (hn : ∀ n ∈ ns, 1 ≤ n ∧ n ≤ 60) (n : Nat) (h1 : 1 ≤ n) (h2 : n ≤ 64) :
    (nodeMap ns).getLsbD (n - 1) = true ↔ n ∈ ns := by
  have key : ∀ (xs : List Nat) (m : BitVec 64), (∀ n ∈ xs, 1 ≤ n ∧ n ≤ 60) →
      ((xs.foldl (fun m n => m ||| (1#64 <<< (n - 1))) m).getLsbD (n - 1) = true ↔ m.getLsbD (n - 1) = true ∨ n ∈ xs) := by
    intro xs
    induction xs with
    | nil => simp
    | cons x xs ih =>
      intro m hx
      rw [List.foldl_cons, ih _ fun n h => hx n (by simp [h])]
      have := hx x (by simp)
      simp only [BitVec.getLsbD_or, List.mem_cons, Bool.or_eq_true, BitVec.getLsbD_shiftLeft]
      have : (decide (n - 1 < 64) && !decide (n - 1 < x - 1) && (1#64).getLsbD (n - 1 - (x - 1))) = true ↔ n = x := by
        simp [BitVec.getLsbD_one]
        omega
      rw [this, or_assoc]
  unfold nodeMap
  rw [key ns _ hn]
  simp

end Sys2Proof.Machine
end

