-- ==== Sys2Proof/Laws/Sweeps.lean ====
section
/-! SUPPORT. What the sweep engine writes of the group records and of its own records, each operation said once. -/
namespace Sys2Proof.Machine.Part

/-- The records of several groups written one after another, each from what it held. -/
theorem setGroups_eq (f : GroupNo → GroupRecord → GroupRecord) (gs : List GroupNo) (hn : gs.Nodup) :
    ∀ p : Part,
      gs.foldl (fun q g => q.setGroup g (f g (q.group g))) p =
        { p with groups := Vector.ofFn fun g => if g ∈ gs then f g (p.group g) else p.group g } := by
  induction gs with
  | nil =>
    intro p
    have : (Vector.ofFn fun g : GroupNo => p.group g) = p.groups := by
      ext i hi : 1
      simp [group]
    simp only [List.foldl_nil, List.not_mem_nil, if_false, this]
  | cons x xs ih =>
    intro p
    obtain ⟨hx, hxs⟩ := List.nodup_cons.1 hn
    rw [List.foldl_cons, ih hxs]
    have : (Vector.ofFn fun g => if g ∈ xs then f g ((p.setGroup x (f x (p.group x))).group g)
          else (p.setGroup x (f x (p.group x))).group g) =
        Vector.ofFn fun g => if g ∈ x :: xs then f g (p.group g) else p.group g := by
      congr 1
      funext g
      rw [setGroup_group]
      by_cases hg : g = x
      · subst hg
        simp [hx]
      · simp [hg]
    rw [this]
    rfl

/-- The groups a step covers are all, or the one it names (R23). -/
theorem mem_groups (s : PlanStep) (g : GroupNo) : g ∈ s.groups ↔ s.group.val = 32 ∨ s.group.val = g.val := by
  simp [PlanStep.groups]

theorem groups_nodup (s : PlanStep) : s.groups.Nodup := (List.nodup_finRange 32).filter _

/-- The night flags of a step's groups written (R22). -/
theorem setNight_eq (p : Part) (s : PlanStep) (b : Bool) :
    p.setNight s.groups b =
      { p with
        groups :=
          Vector.ofFn fun g =>
            if s.group.val = 32 ∨ s.group.val = g.val then { p.group g with night := b } else p.group g } := by
  unfold setNight
  rw [setGroups_eq (fun _ r => { r with night := b }) _ (groups_nodup s)]
  simp only [mem_groups]

/-- A step's results written from its record (R23, R79). -/
theorem writeResults_eq (p : Part) (s : PlanStep) (number : Nat) (r : StepRecord) :
    p.writeResults s number r =
      { p with
        groups :=
          Vector.ofFn fun g =>
            if s.group.val = 32 ∨ s.group.val = g.val then
              { p.group g with lastResult := if ∃ x ∈ r.unclean, x.2 = g then .partly else .clean, resultSweep := some number }
            else p.group g } := by
  unfold writeResults
  rw [setGroups_eq (fun g x => { x with lastResult := if r.unclean.any fun y => y.2 = g then .partly else .clean, resultSweep := some number }) _
    (groups_nodup s)]
  simp only [mem_groups, List.any_eq_true, decide_eq_true_eq]

/-- Whether a door is a member of a step (R57). -/
theorem isMember_iff (p : Part) (s : PlanStep) (d : DoorNo) :
    p.isMember s d = true ↔ (p.config d).configured = true ∧ (s.group.val = 32 ∨ s.group.val = (p.config d).group.val) := by
  simp [isMember]

/-- A step has no member above a cursor position (R63). -/
theorem nextMember_none (p : Part) (s : PlanStep) (pos : Option DoorNo) :
    p.nextMember s pos = none ↔ ∀ d, (∀ x ∈ pos, x < d) → p.isMember s d = false := by
  unfold nextMember
  rw [List.find?_eq_none]
  constructor
  · intro h d hd
    have := h d (List.mem_finRange d)
    simp only [Bool.and_eq_true, not_and, Bool.not_eq_true] at this
    apply this
    cases pos with
    | none => rfl
    | some x => simpa using hd x rfl
  · intro h d _
    simp only [Bool.and_eq_true, not_and, Bool.not_eq_true]
    intro hp
    apply h
    intro x hx
    subst hx
    simpa using hp

/-- Whether a record is complete and nothing holds it (R79, R89, R93). -/
theorem completes_iff (c : SweepContext) (r : StepRecord) :
    c.completes r = true ↔
      r.admissionDone = true ∧ r.ended = r.handled ∧ c.suspension.map (·.2) ≠ some r.index ∧ c.redo.map (·.2) ≠ some r.index := by
  unfold SweepContext.completes
  cases c.suspension <;> cases c.redo <;> simp [and_assoc]

/-- No entry is at work. -/
theorem workSetEmpty_iff (p : Part) : p.workSetEmpty = true ↔ ∀ n, p.entry n = none := by
  unfold workSetEmpty entry
  simp only [List.all_eq_true, Option.isNone_iff_eq_none]
  constructor
  · intro h n
    exact h _ (Vector.mem_toList_iff.2 (Vector.getElem_mem _))
  · intro h x hx
    obtain ⟨i, hi, rfl⟩ := List.getElem_of_mem hx
    simpa using h ⟨i, by simpa using hi⟩

/-- What a step's beginning writes (R22, R62): the context; for RELEASE the night flags cleared and the doors taken from the catch-up list,
for SECURE the flags set where the step has no members. -/
theorem beginStep_eq (p : Part) (c : SweepContext) (k : Nat) (s : PlanStep) (hc : p.engine.ctx = some c) :
    let memberless := (p.nextMember s none).isNone
    let night (b : Bool) : Vector GroupRecord 32 :=
      Vector.ofFn fun g => if s.group.val = 32 ∨ s.group.val = g.val then { p.group g with night := b } else p.group g
    p.beginStep k s =
      { p with
        groups := if s.action = .release then night false else if memberless then night true else p.groups
        catchUp :=
          if s.action = .release then p.catchUp.filter fun d => ¬(s.group.val = 32 ∨ s.group.val = (p.config d).group.val) else p.catchUp
        engine :=
          { p.engine with
            ctx :=
              some
                { c with
                  records := c.records ++ [{ index := k, admissionDone := memberless, handled := 0, ended := 0, unclean := [] }]
                  begun := k + 1, cursorStep := if memberless then none else some k, cursorPos := none } } } := by
  intro memberless night
  unfold beginStep
  simp only [editCtx, setCtx, hc, Option.map_some]
  cases ha : s.action
  · cases hm : (p.nextMember s none).isNone
    · simp [memberless, hm]
    · simp only [memberless, hm, setNight_eq]
      simp [night, group]
  · simp only [setNight_eq, memberless]
    simp [night, group, config, door, mem_groups]
end Sys2Proof.Machine.Part
end

