-- ==== Sys2Proof/Tests/Slice0.lean ====
section
/-! SUPPORT. The model's own tests, on fixed values: the well-formedness checks, each command's step on a small state, and for every
statement with hypotheses a state and operands that meet them. -/
-- One thread is enough, and a kernel evaluation on a thread of its own asks for a large stack each time.
set_option Elab.async false

namespace Sys2Proof.Tests
open Sys2Proof Sys2Proof.Machine

/-! ## Small states -/

/-- A line with nothing on it, QUIET. -/
def quietLine : Line := { Line.blank with state := .quiet }

/-- An ACTIVE line with a fire broadcast on its wire. -/
def busyLine : Line := { Line.blank with wire := .broadcast ⟨0, 0⟩ 0 true }

/-- The part right after power-up, its lines quieted. -/
def fresh : Part := { State.reset.part with lines := Vector.replicate 4 quietLine }

/-- A REQUEST frame of originator 0. -/
def req (c : Code) (door : Nat) (params : List Nat) : Frame := ⟨0x01#8, 0#8, 7#8, c.value, byte door, params.map byte⟩

/-- A DOOR COMMAND frame of originator 0. -/
def cmd (c : Code) (door : Nat) (params : List Nat) : Frame := ⟨0x02#8, 0#8, 7#8, c.value, byte door, params.map byte⟩

/-- A part whose oldest WAITING frame is `f`, in slot 0 of originator 0, with no command queued. -/
def ask (p : Part) (f : Frame) : State := { part := p.setSlot 0 0 (.waiting f 0), pending := [] }

/-- The part that a command leaves. -/
def after (c : Instr) (s : State) : Part :=
  match exec c s with
  | .next t => t.part
  | .fault _ => s.part
  | .refused _ => s.part

/-- The response that stands in slot 0 of originator 0. -/
def answerIn (p : Part) : Option (Completion × List Byte) :=
  match p.slot 0 0 with
  | .answered _ _ r => some (r.completion, r.results)
  | _ => none

/-- The completion code a command gives to `f`. -/
def answer (c : Instr) (p : Part) (f : Frame) : Option Completion := (answerIn (after c (ask p f))).map (·.1)

/-- The hypotheses of `Asks`, computed. -/
def asksCheck (c : Code) (p : Part) (f : Frame) : Bool :=
  (ask p f).part.working && decide ((ask p f).part.nextFrame = some (0, 0, f)) && decide ((ask p f).part.slot 0 0 = .waiting f 0) &&
    match f.verdict with
    | .ok x => decide (x = c)
    | .error _ => false

/-- The hypotheses of `Decides`, computed. -/
def decidesCheck (c : Code) (p : Part) (f : Frame) : Bool := asksCheck c p f && ((ask p f).part.holds 0 c.authority && c.inRange f)

theorem asks_of {c : Code} {p : Part} {f : Frame} (h : asksCheck c p f = true) : Asks (ask p f) c 0 0 f 0 := by
  simp only [asksCheck, Bool.and_eq_true, decide_eq_true_eq] at h
  obtain ⟨⟨⟨working, next⟩, waits⟩, verdict⟩ := h
  refine ⟨working, next, waits, ?_⟩
  cases hv : f.verdict with
  | error _ => rw [hv] at verdict; exact absurd verdict (by simp)
  | ok x => rw [hv] at verdict; simp_all

theorem decides_of {c : Code} {p : Part} {f : Frame} (h : decidesCheck c p f = true) : Decides (ask p f) c 0 0 f 0 := by
  simp only [decidesCheck, Bool.and_eq_true] at h
  exact ⟨asks_of h.1, h.2.1, h.2.2⟩

/-- A frame that the handler takes next and that passes checks 1 to 4, in a part of which `facts` holds, is answered `out` by its
command. -/
def Case (c : Instr) (k : Code) (p : Part) (f : Frame) (facts : Bool) (out : Option Completion) : Prop :=
  Decides (ask p f) k 0 0 f 0 ∧ facts = true ∧ answer c p f = out

theorem case_of {c : Instr} {k : Code} {p : Part} {f : Frame} {facts : Bool} {out : Option Completion}
    (h : (decidesCheck k p f && facts && decide (answer c p f = out)) = true) : Case c k p f facts out := by
  simp only [Bool.and_eq_true, decide_eq_true_eq] at h
  exact ⟨decides_of h.1.1, h.1.2, h.2⟩

/-- Door 5 on line 1, node 2, group 3, a FREE door with a holder. -/
def config5 : DoorConfig :=
  { configured := true, line := 1, node := 2, group := 3, fireAction := .free, holderFitted := true, holdAtRelease := false,
    nightPass := false, mask := ⟨true, true, true, true⟩, boltTime := 10, closeWait := 60, withdrawn := false }

/-- The parameters of the LOAD DOOR that writes it. -/
def load5 : List Nat := [1, 1, 2, 3, 1, 1, 15, 10, 0, 60]

/-- The image of a known door with its leaf closed. -/
def closed5 : DoorImage :=
  { settled := .current, bolt := .retracted, position := .closed, holder := .released, pulseActive := false, silence := 0
    lastOutcome := none, claim := none }

/-- A part in which door 5 is configured and its image known. -/
def withDoor : Part := fresh.setDoor 5 { config := config5, image := closed5 }

/-- The same part with door 5's line ACTIVE, its wire busy. -/
def lively : Part := withDoor.setLine 1 busyLine

/-- The same part with a change to door 5's configuration. -/
def withConfig (c : DoorConfig) : Part := fresh.setDoor 5 { config := c, image := closed5 }

/-- A strict SECURE step of group 3. -/
def step3 : PlanStep := { group := 3, action := .secure, strict := true, retries := 1, overlap := false }

/-- Plan 2 is in the active bank. -/
def withPlan (p : Part) : Part := { p with banks := { p.banks with active := p.banks.active.set 2 [step3] } }

/-- The context of sweep 1 of plan 2, its one step admitted to the end. -/
def ctx (phase : SweepPhase) (suspension : Option (DoorNo × Nat)) : SweepContext :=
  { kind := .plan 2 1 1, phase := phase, records := [{ index := 0, admissionDone := true, handled := 1, ended := 0, unclean := [] }]
    begun := 1, cursorStep := none, cursorPos := none, yielding := false, suspension := suspension
    suspendTimer := suspension.map fun _ => 900, redo := none, drain := none }

/-- The report of that sweep. -/
def report : SweepReport :=
  { number := some 1, plan := some 2, startMinute := none, endMinute := none, status := .inProgress
    counts := Vector.replicate 11 0, failures := [], overflow := 0, suspension := none }

/-- Door 5's entry, waiting in CLOSE. -/
def entry5 : WorkEntry :=
  { door := 5, step := some 0, action := .secure, retries := 1, stage := .close, attempt := 0, deadline := some 700
    outstanding := .nothing, finalRetract := false, aborting := false }

/-- Door 5 in entry 0 of a sweep. -/
def sweeping (p : Part) (c : SweepContext) : Part :=
  { ((withPlan p).setEntry 0 (some entry5)).setCtx (some c) with
    engine := { ((withPlan p).setEntry 0 (some entry5)).engine with ctx := some c, planReport := some report, counter := 1 } }

/-- The clock is SET, at minute 10079 and second 58. -/
def timed (p : Part) : Part := { p with clock := { set := true, minute := 10079, second := 58 } }

/-- An exception of originator 0 to minute 200. -/
def exception5 : ExceptionRecord := { owner := 0, expiry := 200, doors := .list [5], created := 100 }

/-- Exception 0 of `owner` claims door 5, in a part whose clock is SET. -/
def claimed (owner : OriginatorNo) (p : Part) : Part :=
  { (timed p).setImage 5 { closed5 with claim := some 0 } with
    exceptions := p.exceptions.set 0 (some { exception5 with owner := owner }) }

/-- The fire latch is set, door 5 release-pending. -/
def latched (p : Part) : Part :=
  { p with
    fire :=
      { p.fire with
        latch := true, latchTime := some 0, releasePending := [5], repeatTimer := some 5760000, incompleteTimer := some 17280000 } }

/-- Originator 0's record is written. -/
def ranked (e : Bool) (a : Authority) (p : Part) : Part :=
  { p with uplink := { p.uplink with originators := p.uplink.originators.set 0 { enabled := e, authority := a } } }

/-! ## Ill-formed commands -/

theorem test_wellFormed_frame :
    Instr.wellFormed (.frameAssembled [0xC3#8]) = true ∧ Instr.wellFormed (.frameAssembled []) = false ∧
      Instr.wellFormed (.frameAssembled [0xC2#8]) = false ∧
      Instr.wellFormed (.frameAssembled (0xC3#8 :: List.replicate 243 0#8)) = true ∧
      Instr.wellFormed (.frameAssembled (0xC3#8 :: List.replicate 244 0#8)) = false := by
  decide +kernel

theorem test_wellFormed_readback :
    Instr.wellFormed (.lineFrameSent 0 .asSent) = true ∧ Instr.wellFormed (.lineFrameSent 0 (.chars [])) = false ∧
      Instr.wellFormed (.lineFrameSent 0 (.chars (List.replicate 21 (sentChar 0#8)))) = true ∧
      Instr.wellFormed (.lineFrameSent 0 (.chars (List.replicate 22 (sentChar 0#8)))) = false ∧
      Instr.wellFormed (.fireBroadcastSent 0 (.chars []) []) = false ∧
      Instr.wellFormed (.fireBroadcastSent 0 .asSent [.fireUnit, .fireUnit]) = false := by
  decide +kernel

theorem test_wellFormed_reply :
    Instr.wellFormed (.lineReplyReceived 0 [sentChar 0#8] []) = true ∧ Instr.wellFormed (.lineReplyReceived 0 [] []) = false ∧
      Instr.wellFormed (.lineReplyReceived 0 [sentChar 0#8] [.watchTable, .watchTable]) = false := by
  decide +kernel

theorem test_wellFormed_order :
    let twice : List Block := [.sweepEngine, .fireUnit, .sweepEngine]
    Instr.wellFormed (.replyWindowClosed 0 twice) = false ∧ Instr.wellFormed (.receiverMark2ms 0 twice) = false ∧
      Instr.wellFormed (.overloadReport 0 twice) = false ∧ Instr.wellFormed (.quietLine twice) = false ∧
      Instr.wellFormed (.filteredInputChange twice) = false ∧ Instr.wellFormed (.clockAdvance twice) = false ∧
      Instr.wellFormed (.clockAdvance [.sweepEngine, .fireUnit]) = true := by
  decide +kernel

/-! ## The door table -/

theorem witness_loadDoor :
    Case .loadDoor .loadDoor fresh (req .loadDoor 5 load5) (decide (fresh.entryOf 5 = none)) (some .ok) ∧
      Case .loadDoor .loadDoor fresh (req .loadDoor 239 [0, 3, 60, 31, 0, 0, 0, 50, 2, 88]) (decide (fresh.entryOf 239 = none)) (some .ok) ∧
      Case .loadDoor .loadDoor withDoor (req .loadDoor 6 load5)
        (decide ((withDoor.config 5).line = 1 ∧ (withDoor.config 5).node = 2)) (some .conflict) ∧
      Case .loadDoor .loadDoor (sweeping withDoor (ctx .running none)) (req .loadDoor 5 load5)
        (((sweeping withDoor (ctx .running none)).entryOf 5).isSome) (some .inSweep) ∧
      Case .loadDoor .loadDoor
        (withDoor.setLine 1
          { quietLine with queue := [{ cmd := .driveThrow, door := 5, source := none, inFlight := false, purged := false }] })
        (req .loadDoor 5 load5) true (some .busy) :=
  ⟨case_of (by decide +kernel), case_of (by decide +kernel), case_of (by decide +kernel), case_of (by decide +kernel),
    case_of (by decide +kernel)⟩

theorem test_loadDoor :
    let p := after .loadDoor (ask fresh (req .loadDoor 5 load5))
    p.config 5 = config5 ∧ (p.image 5).settled = .absent ∧ (p.image 5).holder = .unknown := by
  decide +kernel

theorem witness_withdrawDoor :
    Case .withdrawDoor .withdrawDoor withDoor (req .withdrawDoor 5 []) (config5.configured && !config5.withdrawn) (some .ok) ∧
      Case .withdrawDoor .withdrawDoor withDoor (req .withdrawDoor 0 []) (!(withDoor.config 0).configured) (some .notConfigured) ∧
      Case .withdrawDoor .withdrawDoor (withConfig { config5 with withdrawn := true }) (req .withdrawDoor 5 []) true (some .state) ∧
      Case .withdrawDoor .withdrawDoor (sweeping withDoor (ctx .running none)) (req .withdrawDoor 5 []) true (some .inSweep) ∧
      Case .withdrawDoor .withdrawDoor
        (withDoor.setLine 1
          { quietLine with queue := [{ cmd := .holderEngage, door := 5, source := none, inFlight := false, purged := false }] })
        (req .withdrawDoor 5 []) true (some .busy) :=
  ⟨case_of (by decide +kernel), case_of (by decide +kernel), case_of (by decide +kernel), case_of (by decide +kernel),
    case_of (by decide +kernel)⟩

theorem test_withdrawDoor :
    let p := after .withdrawDoor (ask { withDoor with catchUp := [5] } (req .withdrawDoor 5 []))
    (p.config 5).withdrawn = true ∧ (p.image 5).settled = .absent ∧ p.catchUp = [] := by
  decide +kernel

theorem witness_restoreDoor :
    Case .restoreDoor .restoreDoor (withConfig { config5 with withdrawn := true }) (req .restoreDoor 5 []) true (some .ok) ∧
      Case .restoreDoor .restoreDoor withDoor (req .restoreDoor 5 []) true (some .state) ∧
      Case .restoreDoor .restoreDoor withDoor (req .restoreDoor 239 []) true (some .notConfigured) :=
  ⟨case_of (by decide +kernel), case_of (by decide +kernel), case_of (by decide +kernel)⟩

theorem test_restoreDoor :
    ((after .restoreDoor (ask (withConfig { config5 with withdrawn := true }) (req .restoreDoor 5 []))).config 5).withdrawn = false := by
  decide +kernel

/-- The clauses of `Obligations.TheReleasePendingSetFollowsTheRecords`. -/
theorem witness_releasePending :
    withDoor.fire.latch = false ∧ (latched withDoor).fire.latch = true ∧ (5 : DoorNo) ∈ (latched withDoor).fire.releasePending ∧
      (0 : DoorNo) ∉ (latched withDoor).fire.releasePending ∧ ((latched withDoor).config 0).configured = false ∧
      ((latched withDoor).config 5).fireAction = .free ∧ ((latched withDoor).config 5).configured = true ∧
      { latched withDoor with fire := { (latched withDoor).fire with releasePending := [] } }.fire.releasePending = [] := by
  decide +kernel

theorem test_releasePending :
    ((latched withDoor).confirmRelease 5).fire.releasePending = [] ∧ ((latched withDoor).confirmRelease 5).fire.confirmed = 1 ∧
      ((latched withDoor).confirmRelease 5).notices.state = [.fireReleaseConfirmed 1 0 0] ∧
      ((latched withDoor).removeRelease 5).fire.removed = 1 := by
  decide +kernel


/-! ## Plans, the schedule, the originators and the clock -/

theorem witness_loadPlanStep :
    Case .loadPlanStep .loadPlanStep fresh (req .loadPlanStep 255 [2, 0, 3, 1, 1, 1, 0])
        (decide (fresh.banks.commitPending = false ∧ fresh.banks.staged[(2 : PlanNo)].length = 0)) (some .ok) ∧
      Case .loadPlanStep .loadPlanStep fresh (req .loadPlanStep 255 [7, 23, 32, 2, 0, 3, 1]) true (some .range) ∧
      Case .loadPlanStep .loadPlanStep { fresh with banks := { fresh.banks with staged := Vector.replicate 8 [step3, step3] } }
        (req .loadPlanStep 255 [0, 1, 32, 2, 0, 3, 1]) true (some .ok) ∧
      Case .loadPlanStep .loadPlanStep { fresh with banks := { fresh.banks with commitPending := true } }
        (req .loadPlanStep 255 [0, 0, 0, 1, 0, 0, 0]) true (some .pendingCommit) :=
  ⟨case_of (by decide +kernel), case_of (by decide +kernel), case_of (by decide +kernel), case_of (by decide +kernel)⟩

theorem test_loadPlanStep :
    (after .loadPlanStep (ask fresh (req .loadPlanStep 255 [2, 0, 3, 1, 1, 1, 0]))).banks.staged[(2 : PlanNo)] = [step3] := by
  decide +kernel

theorem witness_clearStagedPlan :
    Case .clearStagedPlan .clearStagedPlan fresh (req .clearStagedPlan 255 [7]) true (some .ok) ∧
      Case .clearStagedPlan .clearStagedPlan { fresh with banks := { fresh.banks with commitPending := true } }
        (req .clearStagedPlan 255 [0]) true (some .pendingCommit) :=
  ⟨case_of (by decide +kernel), case_of (by decide +kernel)⟩

theorem test_clearStagedPlan :
    let p := { fresh with banks := { fresh.banks with staged := Vector.replicate 8 [step3] } }
    (after .clearStagedPlan (ask p (req .clearStagedPlan 255 [7]))).banks.staged.toList.map List.length = [1, 1, 1, 1, 1, 1, 1, 0] := by
  decide +kernel

theorem witness_commitPlans :
    Case .commitPlans .commitPlans fresh (req .commitPlans 255 []) (decide (fresh.engine.ctx = none)) (some .ok) ∧
      Case .commitPlans .commitPlans (sweeping withDoor (ctx .running none)) (req .commitPlans 255 []) true (some .commitPending) :=
  ⟨case_of (by decide +kernel), case_of (by decide +kernel)⟩

theorem test_commitPlans :
    let p := { fresh with banks := { fresh.banks with staged := fresh.banks.staged.set 1 [step3] } }
    (after .commitPlans (ask p (req .commitPlans 255 []))).banks.active[(1 : PlanNo)] = [step3] := by
  decide +kernel

/-- The entry that the frame below carries. -/
def entry15 : ScheduleEntry := { enabled := true, minute := 10079, plan := 7, repetition := .once }

theorem witness_loadScheduleEntry :
    Case .loadScheduleEntry .loadScheduleEntry fresh (req .loadScheduleEntry 255 [15, 1, 39, 95, 7, 2])
      (decide (entry15.minute = 39 * 256 + 95)) (some .ok) :=
  case_of (by decide +kernel)

theorem test_loadScheduleEntry :
    (after .loadScheduleEntry (ask fresh (req .loadScheduleEntry 255 [15, 1, 39, 95, 7, 2]))).schedule[(15 : Fin 16)] = entry15 := by
  decide +kernel

theorem witness_setOriginator :
    Case .setOriginator .setOriginator fresh (req .setOriginator 255 [3, 1, 3]) true (some .ok) ∧
      Case .setOriginator .setOriginator fresh (req .setOriginator 255 [0, 0, 1]) true (some .state) ∧
      Asks (ask (ranked true .operate fresh) (req .setOriginator 255 [3, 1, 3])) .setOriginator 0 0 (req .setOriginator 255 [3, 1, 3]) 0 ∧
      Asks (ask fresh (req .setOriginator 255 [4, 1, 3])) .setOriginator 0 0 (req .setOriginator 255 [4, 1, 3]) 0 ∧
      Asks (ask fresh (req .setOriginator 255 [3, 2, 3])) .setOriginator 0 0 (req .setOriginator 255 [3, 2, 3]) 0 ∧
      Asks (ask fresh (req .setOriginator 255 [3, 1, 0])) .setOriginator 0 0 (req .setOriginator 255 [3, 1, 0]) 0 ∧
      Asks (ask fresh (req .setOriginator 255 [3, 1, 4])) .setOriginator 0 0 (req .setOriginator 255 [3, 1, 4]) 0 :=
  ⟨case_of (by decide +kernel), case_of (by decide +kernel), asks_of (by decide +kernel), asks_of (by decide +kernel),
    asks_of (by decide +kernel), asks_of (by decide +kernel), asks_of (by decide +kernel)⟩

theorem test_setOriginator :
    (after .setOriginator (ask fresh (req .setOriginator 255 [3, 1, 2]))).originator 3 = { enabled := true, authority := .operate } ∧
      answer .setOriginator fresh (req .setOriginator 255 [3, 1, 4]) = some .range ∧
      answer .setOriginator (ranked true .operate fresh) (req .setOriginator 255 [3, 1, 3]) = some .authority := by
  decide +kernel

theorem witness_setClock :
    Case .setClock .setClock fresh (req .setClock 255 [39, 95, 59]) (!fresh.clock.set) (some .ok) ∧
      Case .setClock .setClock (claimed 0 fresh) (req .setClock 255 [0, 200, 0])
        (decide (forwardDistance 10079 200 ≤ 5040 ∧ (claimed 0 fresh).clock.set = true)) (some .ok) ∧
      Case .setClock .setClock (claimed 0 fresh) (req .setClock 255 [0, 199, 0])
        (decide (forwardDistance 10079 199 < forwardDistance 10079 200)) (some .ok) :=
  ⟨case_of (by decide +kernel), case_of (by decide +kernel), case_of (by decide +kernel)⟩

theorem test_setClock :
    let p := after .setClock (ask (claimed 0 fresh) (req .setClock 255 [0, 200, 0]))
    let q := after .setClock (ask (claimed 0 fresh) (req .setClock 255 [0, 199, 0]))
    p.exceptions[(0 : ExceptionNo)] = none ∧ (p.image 5).claim = none ∧ p.clock = { set := true, minute := 200, second := 0 } ∧
      q.exceptions[(0 : ExceptionNo)] = some exception5 := by
  decide +kernel

/-- The door that a set of the clock releases is appended, and a catch-up sweep starts in the new minute (R114, R115, R120). -/
theorem test_setClock_appends :
    let night := withDoor.setGroup 3 { night := true, lastResult := .none, resultSweep := none }
    let part := (claimed 0 night).setDoor 5 { config := config5, image := { closed5 with claim := some 0 } }
    (after .setClock (ask part (req .setClock 255 [0, 200, 0]))).notices.state =
      [.exceptionEnded 0 0 200 .clockSet 1 1, .sweepStarted none none (some 200), .sweepEnded none none .complete] := by
  decide +kernel

/-! ## Sweeps -/

/-- A part in which no sweep runs and the latch is clear meets `FireSafe`. -/
theorem fireSafe_of {p : Part} (entries : (p.entry 0).isNone && decide (∀ n, p.entry n = none) = true)
    (rest : (p.engine.pendingStart.isNone && !p.fire.latch && decide (p.fire.filtered = .normal) && p.fire.releasePending.isEmpty &&
      p.fire.repeatTimer.isNone && p.fire.incompleteTimer.isNone) = true) : p.FireSafe := by
  simp only [Bool.and_eq_true, decide_eq_true_eq, Bool.not_eq_true', Option.isNone_iff_eq_none, List.isEmpty_iff] at entries rest
  obtain ⟨⟨⟨⟨⟨start, latch⟩, filtered⟩, set⟩, again⟩, late⟩ := rest
  exact ⟨fun _ => ⟨entries.2, start⟩, fun h => absurd h (by simp [latch]), fun _ => ⟨filtered, set, again, late⟩⟩

theorem witness_startSweep :
    Case .startSweep .startSweep (withPlan fresh) (req .startSweep 255 [2]) (!fresh.fire.latch) (some .ok) ∧
      (ask (withPlan fresh) (req .startSweep 255 [2])).part.FireSafe ∧
      Case .startSweep .startSweep (latched fresh) (req .startSweep 255 [7]) true (some .fireHold) ∧
      Case .startSweep .startSweep (sweeping withDoor (ctx .running none)) (req .startSweep 255 [2]) true (some .busy) ∧
      Case .startSweep .startSweep fresh (req .startSweep 255 [0]) true (some .range) :=
  ⟨case_of (by decide +kernel), fireSafe_of (by decide +kernel) (by decide +kernel), case_of (by decide +kernel),
    case_of (by decide +kernel), case_of (by decide +kernel)⟩

theorem test_startSweep :
    let p := after .startSweep (ask (withPlan withDoor) (req .startSweep 255 [2]))
    answerIn p = some (.ok, [0#8, 1#8]) ∧ p.engine.counter = 1 ∧ (p.image 5).lastOutcome = some .lineDown := by
  decide +kernel

theorem witness_continueSweep :
    Case .continueSweep .continueSweep (sweeping withDoor (ctx .suspended (some (5, 0)))) (req .continueSweep 255 [1])
        (decide ((ctx .suspended (some (5, 0))).phase = .suspended)) (some .ok) ∧
      Case .continueSweep .continueSweep (sweeping withDoor (ctx .suspended (some (5, 0)))) (req .continueSweep 255 [2]) true
        (some .ok) ∧
      Case .continueSweep .continueSweep fresh (req .continueSweep 255 [2]) true (some .state) ∧
      Case .continueSweep .continueSweep (sweeping withDoor (ctx .running none)) (req .continueSweep 255 [1]) true (some .state) :=
  ⟨case_of (by decide +kernel), case_of (by decide +kernel), case_of (by decide +kernel), case_of (by decide +kernel)⟩

theorem test_continueSweep :
    let p := after .continueSweep (ask (sweeping withDoor (ctx .suspended (some (5, 0)))) (req .continueSweep 255 [1]))
    p.engineState = .running ∧ (p.engine.ctx.bind fun c => c.suspendTimer) = none := by
  decide +kernel

theorem witness_abandonSweep :
    Case .abandonSweep .abandonSweep (sweeping withDoor (ctx .running none)) (req .abandonSweep 255 []) true (some .ok) ∧
      Case .abandonSweep .abandonSweep (sweeping withDoor (ctx .draining none)) (req .abandonSweep 255 []) true (some .state) ∧
      Case .abandonSweep .abandonSweep fresh (req .abandonSweep 255 []) true (some .state) :=
  ⟨case_of (by decide +kernel), case_of (by decide +kernel), case_of (by decide +kernel)⟩

/-- A step that only the dropped redo held completes at once (log 56). -/
theorem test_abandonSweep_redo :
    let c :=
      { ctx .running none with
        records := [{ index := 0, admissionDone := true, handled := 1, ended := 1, unclean := [] }], redo := some (6, 0) }
    let p := after .abandonSweep (ask (sweeping withDoor c) (req .abandonSweep 255 []))
    p.engineState = .draining ∧ (p.group 3).lastResult = .clean := by
  decide +kernel

theorem test_abandonSweep :
    (after .abandonSweep (ask (sweeping withDoor (ctx .running none)) (req .abandonSweep 255 []))).engineState = .draining := by
  decide +kernel

theorem witness_abortSweep :
    Case .abortSweep .abortSweep (sweeping withDoor (ctx .running none)) (req .abortSweep 255 []) true (some .ok) ∧
      Case .abortSweep .abortSweep (sweeping withDoor (ctx .draining none)) (req .abortSweep 255 []) true (some .ok) ∧
      Case .abortSweep .abortSweep fresh (req .abortSweep 255 []) true (some .state) :=
  ⟨case_of (by decide +kernel), case_of (by decide +kernel), case_of (by decide +kernel)⟩

theorem test_abortSweep :
    let p := after .abortSweep (ask (sweeping withDoor (ctx .running none)) (req .abortSweep 255 []))
    p.engineState = .idle ∧ (p.image 5).lastOutcome = some .aborted ∧
      (p.engine.planReport.map fun r => r.status) = some .aborted := by
  decide +kernel

/-- A state that holds a part and no commands. -/
def only (p : Part) : State := { part := p, pending := [] }

/-- The clauses of `Obligations.TheSweepTimersAct`. -/
theorem witness_sweepTimers :
    let p := sweeping withDoor (ctx .suspended (some (5, 0)))
    fresh.working = true ∧ fresh.entryOf 5 = none ∧ p.working = true ∧ p.entryOf 5 = some (0, entry5) ∧ entry5.stage = .close ∧
      entry5.outstanding = .nothing ∧ entry5.deadline = some 700 ∧ fresh.engine.ctx = none ∧
      p.engine.ctx = some (ctx .suspended (some (5, 0))) ∧ (ctx .suspended (some (5, 0))).suspendTimer = some 900 ∧
      (ctx .suspended (some (5, 0))).kind = .plan 2 1 1 := by
  decide +kernel

/-- Its clauses on an entry that does not wait and on a stopped suspend timer: the hypotheses, and what is left. -/
theorem witness_sweepTimers_stopped :
    let p := sweeping withDoor (ctx .running none)
    let q := p.setEntry 0 (some { entry5 with outstanding := .request, deadline := none })
    let r := withDoor.setCtx (some (SweepContext.start .catchUp))
    p.working = true ∧ p.engine.ctx = some (ctx .running none) ∧ (ctx .running none).suspendTimer = none ∧
      q.entryOf 5 = some (0, { entry5 with outstanding := .request, deadline := none }) ∧
      r.engine.ctx = some (SweepContext.start .catchUp) ∧ (SweepContext.start .catchUp).kind = .catchUp ∧
      (after (.closeWaitDeadline 5) (only q)).entryOf 5 = q.entryOf 5 ∧ (after (.closeWaitDeadline 5) (only q)).now = 0 ∧
      (after .suspendTimerExpiry (only p)).engine.ctx = p.engine.ctx ∧ (after .suspendTimerExpiry (only r)).engine.ctx = r.engine.ctx := by
  decide +kernel

theorem test_closeWaitDeadline :
    let p := after (.closeWaitDeadline 5) (only (sweeping withDoor (ctx .running none)))
    p.now = 700 ∧ p.entryOf 5 = none ∧ (p.image 5).lastOutcome = some .heldOpen ∧ p.engineState = .suspended := by
  decide +kernel

theorem test_suspendTimerExpiry :
    let p := after .suspendTimerExpiry (only (sweeping withDoor (ctx .suspended (some (5, 0)))))
    p.now = 900 ∧ p.engineState = .running ∧ p.notices.fault = [.suspendTimedOut 1 5 0] := by
  decide +kernel

/-- The start in the pending-start slot. -/
def start2 : PendingStart := { plan := 2, entry := 15, minute := 0 }

/-- A part whose pending-start slot is filled. -/
def awaiting (p : Part) : Part := { p with engine := { p.engine with pendingStart := some start2 } }

/-- A part whose staged bank holds plan 2, its commit pending. -/
def committing (p : Part) : Part :=
  { p with banks := { staged := p.banks.staged.set 2 [step3], active := p.banks.active, commitPending := true } }

/-- The clauses of `Obligations.PlansAreCommittedAndScheduled` on the return to IDLE. -/
theorem witness_returnToIdle :
    fresh.engine.pendingStart = none ∧ (awaiting fresh).engine.pendingStart = some start2 ∧ (awaiting (latched fresh)).fire.latch = true ∧
      (awaiting fresh).banks.active[start2.plan] = [] ∧ (awaiting (withPlan fresh)).banks.active[start2.plan] ≠ [] ∧
      (awaiting fresh).fire.latch = false := by
  decide +kernel

theorem test_returnToIdle :
    let p := (awaiting (committing fresh)).returnToIdle
    p.banks.commitPending = false ∧ p.engine.pendingStart = none ∧ p.engineState = .running ∧
      p.notices.state = [.sweepStarted (some 1) (some 2) none] ∧
      (awaiting fresh).returnToIdle.notices.fault = [.startDropped .emptyPlan start2] ∧
      (awaiting (latched fresh)).returnToIdle.notices.fault = [.startDropped .fire start2] := by
  decide +kernel

/-- The context of a catch-up sweep. -/
def catchUpCtx (phase : SweepPhase) (yielding : Bool) (drain : Option DrainReason) : SweepContext :=
  { SweepContext.start .catchUp with phase := phase, yielding := yielding, drain := drain }

/-- A part in which a catch-up sweep runs, door 5 in the list. -/
def catching (p : Part) (c : SweepContext) : Part := { p.setCtx (some c) with catchUp := [5] }

/-- The clauses of `Obligations.StartSweepChecksThenStarts` on catch-up sweeps and on ends: an action that the engine has left and one
that it has not, the conditions of a start met and not, each phase, entries at work and none, the list empty and not, the head's line
down and ACTIVE, the lowest free entry and none. -/
theorem witness_sweepEnds :
    fresh.engineAction = none ∧ (catching fresh (catchUpCtx .running false none)).engineAction.isSome = true ∧
      fresh.engine.ctx = none ∧ fresh.fire.latch = false ∧ fresh.engine.pendingStart = none ∧ fresh.catchUp = [] ∧
      { fresh with catchUp := [5] }.catchUp ≠ [] ∧ (catchUpCtx .draining false (some .aborted)).kind = .catchUp ∧
      (catchUpCtx .draining false (some .aborted)).drain = some .aborted ∧ (catchUpCtx .running true none).yielding = true ∧
      (∀ n, (catching fresh (catchUpCtx .running false none)).entry n = none) ∧
      (sweeping withDoor (catchUpCtx .running false none)).entry 0 ≠ none ∧
      (withDoor.line (withDoor.config 5).line).state ≠ .active ∧ (lively.line (lively.config 5).line).state = .active ∧
      (∀ n, { lively.engine with workSet := Vector.replicate 16 (some entry5) }.workSet[(n : EntryNo)] ≠ none) := by
  decide +kernel

theorem test_catchUp_sweep :
    let p := { withDoor with catchUp := [5] }.tryCatchUp.engineRun
    let q := { lively with catchUp := [5] }.tryCatchUp.engineRun
    p.engine.ctx = none ∧ p.catchUp = [] ∧ (p.image 5).lastOutcome = some .lineDown ∧
      p.notices.state = [.sweepStarted none none none, .sweepEnded none none .complete] ∧
      (p.engine.catchUpReport.map fun r => r.status) = some .complete ∧ q.catchUp = [] ∧ q.engineState = .running ∧
      (q.entry 0).map (fun e => (e.door, e.step, e.retries)) = some (5, none, 2) := by
  decide +kernel

theorem test_catchUp_ends :
    (catching withDoor (catchUpCtx .running true none)).engineRun.engineState = .idle ∧
      ((catching withDoor (catchUpCtx .draining false (some .aborted))).engineRun.engine.ctx = none) ∧
      (catching withDoor (catchUpCtx .draining false (some .aborted))).engineRun.notices.state =
        [.sweepEnded none none .aborted, .sweepStarted none none none, .sweepEnded none none .complete] := by
  decide +kernel

/-- A catch-up sweep that is at its last entry is offered the list by an append, not by an advance of the clock that appends nothing
(R120). -/
theorem test_offerIfGrown :
    let p := catching withDoor (catchUpCtx .running false none)
    (p.exceptionsAdvance 0).catchUp = [5] ∧ (p.offerIfGrown 0).catchUp = [] ∧ (p.offerIfGrown 1) = p := by
  decide +kernel

/-- A sweep of plan 2 that has begun its only step, its cursor before door 5. -/
def cursorCtx (phase : SweepPhase) (handled : Nat) (redo : Option (DoorNo × Nat)) : SweepContext :=
  { ctx phase none with
    records := [{ index := 0, admissionDone := false, handled := handled, ended := handled, unclean := [] }], cursorStep := some 0
    redo := redo }

theorem test_endSweep :
    let p := (withPlan withDoor).setCtx (some (cursorCtx .running 0 none))
    let q := { p with engine := { p.engine with planReport := some report } }.endSweep (cursorCtx .running 0 none) .abandoned
    (q.engine.planReport.map fun r => (r.counts.toList, r.status)) = some ([0, 0, 0, 0, 0, 0, 0, 0, 0, 0, 1], .abandoned) ∧
      q.group 3 = { night := false, lastResult := .partly, resultSweep := some 1 } ∧ (q.group 0).resultSweep = none ∧
      q.engine.ctx = none := by
  decide +kernel

/-- The clauses of `Obligations.DoorsAreHandledInOrder` on the engine's order of action, steps, the cursor and the redo door. -/
theorem witness_steps :
    let release : PlanStep := { step3 with action := .release }
    let done : StepRecord := { index := 0, admissionDone := true, handled := 1, ended := 1, unclean := [] }
    (sweeping withDoor (ctx .running none)).engine.ctx = some (ctx .running none) ∧
      (ctx .running none).kind = .plan 2 1 1 ∧ done.ended = done.handled ∧ (∀ r ∈ (ctx .running none).records, r.ended ≠ r.handled) ∧
      (ctx .suspended (some (5, 0))).phase = .suspended ∧ { ctx .draining none with drain := some .abandoned }.drain = some .abandoned ∧
      (SweepContext.start (.plan 2 1 1)).begun < 1 ∧ (withPlan fresh).banks.active[(2 : PlanNo)][0]? = some step3 ∧
      (cursorCtx .running 0 (some (5, 0))).redo = some (5, 0) ∧ ¬(ctx .running none).begun < 1 ∧ release.action = .release ∧
      step3.action = .secure ∧ (withDoor.config 5).configured = true ∧ step3.group.val = (withDoor.config 5).group.val ∧
      (∀ d, (fresh.config d).configured = false) ∧ withDoor.nextMember step3 none = some 5 ∧ withDoor.nextMember step3 (some 5) = none ∧
      withDoor.handling .secure 5 = .outcome .lineDown ∧ lively.handling .secure 5 = .enlist 0 ∧
      (sweeping lively (ctx .running none)).handling .secure 5 = .wait := by
  decide +kernel

theorem test_beginStep :
    let p := { withDoor with catchUp := [5] }.setCtx (some (SweepContext.start (.plan 2 1 1)))
    ((p.beginStep 0 { step3 with action := .release }).catchUp = [] ∧ (p.beginStep 0 step3).catchUp = [5]) ∧
      ((p.beginStep 0 step3).group 3).night = false ∧ ((p.beginStep 0 { step3 with group := 4 }).group 4).night = true ∧
      ((p.beginStep 0 step3).engine.ctx.map fun c => (c.begun, c.cursorStep)) = some (1, some 0) ∧
      ((p.beginStep 0 { step3 with group := 4, action := .release }).engine.ctx.map fun c =>
        (c.begun, c.cursorStep, c.records.map fun r => r.admissionDone)) = some (1, none, [true]) := by
  decide +kernel

/-- A sweep of plan 2 suspended on door 5 of its first step, which lets the next begin; the second step has no members, the third has. -/
def memberlessNext : Part :=
  let doors := withDoor.setDoor 6 { config := { config5 with node := 3, group := 4 }, image := closed5 }
  let plan := [{ step3 with overlap := true }, { step3 with group := 9 }, { step3 with group := 4 }]
  let done : StepRecord := { index := 0, admissionDone := true, handled := 1, ended := 1, unclean := [(5, 3)] }
  { doors with banks := { doors.banks with active := doors.banks.active.set 2 plan } }.setCtx
    (some { ctx .suspended (some (5, 0)) with kind := .plan 2 1 3, records := [done] })

/-- With REDO a step with no members completes and the next begins before the redo door is handled, here by LINE_DOWN, which suspends
again (R62, R79, R90). -/
theorem test_continueSweep_memberless :
    let p := after .continueSweep (ask memberlessNext (req .continueSweep 255 [2]))
    (p.engine.ctx.map fun c => (c.begun, c.cursorStep, c.suspension)) = some (3, some 2, some (5, 0)) ∧
      (p.engine.ctx.map fun c => c.records.map fun r => (r.index, r.admissionDone)) = some [(0, true), (2, false)] ∧
      p.engineState = .suspended ∧
      (p.group 9).lastResult = .clean ∧ (p.group 9).night = true ∧ (p.image 5).lastOutcome = some .lineDown := by
  decide +kernel

theorem test_cursorMove :
    let p (q : Part) := (withPlan q).setCtx (some (cursorCtx .running 0 none))
    (((p withDoor).cursorMove (cursorCtx .running 0 none) 2).map fun q => ((q.group 3).night, (q.image 5).lastOutcome)) =
        some (true, some .lineDown) ∧
      (((p lively).cursorMove (cursorCtx .running 0 none) 2).bind fun q => (q.entry 0).map fun e => e.step) = some (some 0) ∧
      ((p fresh).cursorMove (cursorCtx .running 0 none) 2).map (fun q => q.engine.ctx.bind fun c => c.cursorStep) = some none := by
  decide +kernel

/-- The redo takes back the note of its own door, made while the door was in group 2, and leaves door 6's, in the group that door 5 is in now
(R23, R93). -/
theorem test_redoMove :
    let done : StepRecord := { index := 0, admissionDone := true, handled := 1, ended := 1, unclean := [(5, 2), (6, 3)] }
    let c := { ctx .running none with redo := some (5, 0), records := [done] }
    let p := (withPlan lively).setCtx (some c)
    ((p.redoMove 2 5 0).bind fun q => q.engine.ctx.map fun c => (c.redo, c.records.map fun r => (r.ended, r.unclean))) =
        some (none, [(0, [(6, 3)])]) ∧
      ((p.redoMove 2 239 0).bind fun q => q.engine.ctx.map fun c => (c.redo, c.records.map fun r => r.ended)) = some (none, [1]) := by
  decide +kernel

/-- Steps complete in the order in which their last doors end (R79): step 1, which covers all groups, ends with entry 0, before step 0,
which covers group 3, ends with entry 1; group 3 keeps step 0's result. -/
theorem test_completionOrder :
    let doors := withDoor.setDoor 6 { config := { config5 with node := 3, group := 4 }, image := closed5 }
    let record (k : Nat) : StepRecord := { index := k, admissionDone := true, handled := 1, ended := 0, unclean := [] }
    let c := { ctx .running none with kind := .plan 2 1 2, begun := 2, records := [record 0, record 1] }
    let plan := [{ step3 with strict := false }, { step3 with strict := false, group := 32 }]
    let p := { doors with banks := { doors.banks with active := doors.banks.active.set 2 plan } }.setCtx (some c)
    let q := (p.setEntry 0 (some { entry5 with door := 6, step := some 1 })).setEntry 1 (some entry5)
    let r := q.lineDownEntries 1
    (r.group 3).lastResult = .partly ∧ (r.group 4).lastResult = .partly ∧ (r.group 0).lastResult = .clean := by
  decide +kernel

/-- The hypotheses of the last clause of `Obligations.DoorsAreHandledInOrder`. -/
theorem witness_doorsHandled :
    lively.entry 0 = none ∧ (∀ m, lively.entry m = none) ∧ ∃ e, (lively.enlist 0 5 (some 0) .secure 1).entry 0 = some e := by
  refine ⟨by decide +kernel, by decide +kernel, ?_⟩
  have h : ((lively.enlist 0 5 (some 0) .secure 1).entry 0).isSome = true := by decide +kernel
  exact Option.isSome_iff_exists.1 h

/-- The hypotheses of `Obligations.OutcomesAreRecorded`, in its last clauses. -/
theorem witness_outcomes :
    let p := sweeping withDoor (ctx .running none)
    p.engine.ctx = some (ctx .running none) ∧ (ctx .running none).kind = .plan 2 1 1 ∧ p.engine.planReport = some report ∧
      p.banks.active[(2 : PlanNo)][0]? = some step3 ∧ step3.strict = true ∧ (ctx .running none).phase = .running ∧
      (ctx .draining none).phase ≠ .running ∧ SweepOutcome.heldOpen ≠ .secured ∧ SweepOutcome.heldOpen ≠ .notReached ∧
      fresh.entry 0 = none ∧ p.entry 0 = some entry5 ∧ fresh.engine.ctx = none ∧ (catchUpCtx .running false none).kind = .catchUp ∧
      (catching withDoor (catchUpCtx .running false none)).engine.ctx = some (catchUpCtx .running false none) := by
  decide +kernel

theorem test_endEntry :
    let c := { ctx .draining none with records := [{ index := 0, admissionDone := true, handled := 1, ended := 0, unclean := [] }] }
    let p := (sweeping withDoor c).endEntry 0 .secured
    p.entry 0 = none ∧ p.group 3 = { night := false, lastResult := .clean, resultSweep := some 1 } ∧
      (p.engine.ctx.map fun c => c.records) = some [] := by
  decide +kernel

theorem test_outcomes :
    let p := (sweeping withDoor (ctx .running none)).record 5 .boltFault (some 0) 1
    p.engineState = .suspended ∧ (p.image 5).lastOutcome = some .boltFault ∧ p.notices.fault = [.sweepSuspended 1 0 5 .boltFault] ∧
      (p.engine.planReport.map fun r => (r.counts.toList, r.failures.length)) = some ([0, 0, 0, 1, 0, 0, 0, 0, 0, 0, 0], 1) ∧
      (p.engine.ctx.map fun c => c.records.map fun r => r.unclean) = some [[(5, 3)]] := by
  decide +kernel

/-- The hypotheses of `Obligations.SecureEntriesCloseThenThrow`: an entry that waits on nothing or on a request, and each outcome of its
throw, with the attempts below and at the retries. -/
theorem witness_secureEntries :
    entry5.outstanding = .nothing ∧ { entry5 with outstanding := .request }.outstanding = .request ∧ entry5.attempt < entry5.retries ∧
      entry5.retries ≤ { entry5 with attempt := 1 }.attempt ∧ Position.opened ≠ .closed ∧
      (some (Bolt.jammed, Position.closed)).map (·.1) ≠ some .thrown ∧
      (some (Bolt.retracted, Position.closed)).map (·.1) = some .retracted ∧
      { entry5 with outstanding := .carriedMotion }.outstanding = .carriedMotion ∧ { entry5 with aborting := true }.aborting = true ∧
      entry5.aborting = false ∧ entry5.deadline ≠ none ∧ entry5.stage = .close ∧ { entry5 with stage := .throwing }.stage = .throwing ∧
      { entry5 with stage := .confirm }.finalRetract = false ∧ { entry5 with finalRetract := true }.finalRetract = true ∧
      (lively.image 5).settled = .current ∧ (fresh.image 5).settled ≠ .current ∧ (lively.image 5).position = .closed ∧
      (sweeping lively (ctx .running none)).entry 0 = some entry5 := by
  decide +kernel

theorem test_secureEntries :
    (lively.closeEvaluation 0 entry5).2 = none ∧
      (((lively.closeEvaluation 0 entry5).1.line 1).queue.map fun r => r.cmd) = [.driveThrow] ∧
      (lively.judgeThrow 0 { entry5 with attempt := 1 } (some (.jammed, .closed))).2 = some .boltFault := by
  decide +kernel

/-- What line 1 is asked by a stage's result, and the outcome. -/
def asked (r : StageResult) : List LineCmd × Option SweepOutcome := ((r.1.line 1).queue.map fun r => r.cmd, r.2)

theorem test_releaseEntries :
    let e : WorkEntry := { entry5 with action := .release, stage := .confirm, outstanding := .motion, deadline := none }
    let held := lively.setDoor 5 { config := { config5 with holdAtRelease := true }, image := closed5 }
    asked (lively.check 0 { e with stage := .check }) = ([.driveRetract], none) ∧
      asked (lively.entryActs 0 e (.motionEnd (some (.retracted, .closed)))) = ([], some .released) ∧
      asked (held.entryActs 0 e (.motionEnd (some (.retracted, .closed)))) = ([.holderEngage], none) ∧
      asked (lively.entryActs 0 e (.motionEnd none)) = ([.driveRetract], none) ∧
      asked (lively.entryActs 0 { e with attempt := 1 } (.motionEnd none)) = ([], some .boltFault) ∧
      asked (lively.entryActs 0 { e with stage := .engage } .refused) = ([], some .released) := by
  decide +kernel

theorem test_entryActs :
    let opened := lively.setImage 5 { closed5 with position := .opened, bolt := .thrown }
    asked (opened.closeEvaluation 0 { entry5 with outstanding := .nothing }) = ([.driveRetract], none) ∧
      asked (opened.entryActs 0 { entry5 with stage := .confirm, outstanding := .motion } .reply) = ([], none) ∧
      asked (opened.entryActs 0 { entry5 with outstanding := .carriedMotion } (.motionEnd none)) = ([.driveRetract], none) ∧
      asked (lively.entryActs 0 { entry5 with outstanding := .motion } (.motionEnd none)) = ([], some .boltFault) ∧
      asked (lively.entryActs 0 { entry5 with finalRetract := true, stage := .confirm } (.motionEnd none)) = ([], some .heldOpen) ∧
      asked (lively.entryActs 0 { entry5 with aborting := true } .acceptDrive) = ([], some .aborted) ∧
      asked (lively.entryActs 0 entry5 .silent) = ([], some .noReply) := by
  decide +kernel

/-! ## Exceptions and watches -/

/-- Every exception slot is ACTIVE, door 5 unclaimed. -/
def fullTable : Part := { timed withDoor with exceptions := Vector.replicate 16 (some exception5) }

theorem witness_createException :
    Case .createException .createException (timed withDoor) (req .createException 255 [0, 0, 2, 1, 5])
        (decide (forwardDistance 10079 0 = 1)) (some .ok) ∧
      Case .createException .createException (timed withDoor) (req .createException 255 [2, 207, 2, 1, 5])
        (decide (forwardDistance 10079 719 = 720)) (some .ok) ∧
      Case .createException .createException (timed withDoor) (req .createException 255 [2, 208, 2, 1, 5])
        (decide (forwardDistance 10079 720 = 721)) (some .range) ∧
      Case .createException .createException (timed withDoor) (req .createException 255 [39, 95, 2, 1, 5])
        (decide (forwardDistance 10079 10079 = 0)) (some .range) ∧
      Case .createException .createException (timed withDoor) (req .createException 255 [0, 200, 2, 2, 5, 5]) true (some .range) ∧
      Case .createException .createException withDoor (req .createException 255 [0, 200, 2, 1, 5]) true (some .clockUnset) ∧
      Case .createException .createException (timed withDoor) (req .createException 255 [0, 200, 2, 2, 5, 239])
        (!(withDoor.config 239).configured) (some .notConfigured) ∧
      Case .createException .createException ((claimed 1 withDoor).setDoor 5 { config := config5, image := { closed5 with claim := some 0 } })
        (req .createException 255 [0, 200, 2, 1, 5]) true (some .claimed) ∧
      Case .createException .createException fullTable (req .createException 255 [0, 200, 2, 1, 5]) true (some .noSlot) :=
  ⟨case_of (by decide +kernel), case_of (by decide +kernel), case_of (by decide +kernel), case_of (by decide +kernel),
    case_of (by decide +kernel), case_of (by decide +kernel), case_of (by decide +kernel), case_of (by decide +kernel),
    case_of (by decide +kernel)⟩

theorem test_createException :
    let p := after .createException (ask (timed withDoor) (req .createException 255 [0, 200, 1, 3]))
    answerIn p = some (.ok, [0#8, 1#8]) ∧ (p.image 5).claim = some 0 ∧
      p.exceptions[(0 : ExceptionNo)] = some { owner := 0, expiry := 200, doors := .group 3, created := 10079 } := by
  decide +kernel

theorem witness_extendException :
    Case .extendException .extendException (claimed 0 withDoor) (req .extendException 255 [0, 0, 0])
        (decide (forwardDistance 10079 0 = 1)) (some .ok) ∧
      Case .extendException .extendException (claimed 1 withDoor) (req .extendException 255 [0, 2, 207])
        (decide (forwardDistance 10079 719 = 720)) (some .ok) ∧
      Case .extendException .extendException (claimed 0 withDoor) (req .extendException 255 [0, 2, 208]) true (some .range) ∧
      Case .extendException .extendException (claimed 0 withDoor) (req .extendException 255 [15, 0, 0]) true (some .state) ∧
      Case .extendException .extendException (ranked true .operate (claimed 1 withDoor)) (req .extendException 255 [0, 0, 0]) true
        (some .authority) :=
  ⟨case_of (by decide +kernel), case_of (by decide +kernel), case_of (by decide +kernel), case_of (by decide +kernel),
    case_of (by decide +kernel)⟩

theorem test_extendException :
    (after .extendException (ask (claimed 0 withDoor) (req .extendException 255 [0, 0, 1]))).exceptions[(0 : ExceptionNo)] =
      some { exception5 with expiry := 1 } := by
  decide +kernel

theorem witness_endException :
    Case .endException .endException (claimed 0 withDoor) (req .endException 255 [0]) true (some .ok) ∧
      Case .endException .endException (claimed 0 withDoor) (req .endException 255 [15]) true (some .state) ∧
      Case .endException .endException (ranked true .operate (claimed 1 withDoor)) (req .endException 255 [0]) true
        (some .authority) ∧
      (claimed 0 withDoor).exceptions[(0 : ExceptionNo)] = some exception5 :=
  ⟨case_of (by decide +kernel), case_of (by decide +kernel), case_of (by decide +kernel), by decide +kernel⟩

theorem test_endException :
    let p := after .endException (ask (claimed 0 withDoor) (req .endException 255 [0]))
    p.exceptions[(0 : ExceptionNo)] = none ∧ (p.image 5).claim = none ∧
      p.notices.state = [.exceptionEnded 0 0 200 .ended 1 0] := by
  decide +kernel

/-- A watch on door 5. -/
def watch5 (owner : OriginatorNo) (c : WatchCondition) : Watch := { owner := owner, target := .door 5, condition := c }

/-- A part with that watch in slot 7. -/
def watching (owner : OriginatorNo) (c : WatchCondition) : Part :=
  { withDoor with watches := withDoor.watches.set 7 (some (watch5 owner c)) }

theorem witness_disarmWatch :
    Case .disarmWatch .disarmWatch (watching 0 .change) (req .disarmWatch 255 [7]) true (some .ok) ∧
      Case .disarmWatch .disarmWatch (watching 1 .change) (req .disarmWatch 255 [7]) true (some .ok) ∧
      Case .disarmWatch .disarmWatch (ranked true .operate (watching 1 .change)) (req .disarmWatch 255 [7]) true (some .authority) ∧
      Case .disarmWatch .disarmWatch (watching 0 .change) (req .disarmWatch 255 [0]) true (some .state) ∧
      Asks (ask fresh (req .disarmWatch 255 [8])) .disarmWatch 0 0 (req .disarmWatch 255 [8]) 0 ∧
      Asks (ask (ranked true .view fresh) (req .disarmWatch 255 [7])) .disarmWatch 0 0 (req .disarmWatch 255 [7]) 0 :=
  ⟨case_of (by decide +kernel), case_of (by decide +kernel), case_of (by decide +kernel), case_of (by decide +kernel),
    asks_of (by decide +kernel), asks_of (by decide +kernel)⟩

theorem test_disarmWatch :
    (after .disarmWatch (ask (watching 0 .change) (req .disarmWatch 255 [7]))).watches[(7 : Fin 8)] = none ∧
      answer .disarmWatch fresh (req .disarmWatch 255 [8]) = some .range ∧
      answer .disarmWatch (ranked true .view fresh) (req .disarmWatch 255 [7]) = some .authority := by
  decide +kernel

theorem witness_armWatch :
    Case .armWatch .armWatch withDoor (req .armWatch 255 [1, 5, 1]) true (some .ok) ∧
      Case .armWatch .armWatch withDoor (req .armWatch 255 [2, 31, 3]) true (some .ok) ∧
      Case .armWatch .armWatch withDoor (req .armWatch 255 [1, 239, 2]) (!(withDoor.config 239).configured) (some .notConfigured) ∧
      Case .armWatch .armWatch { withDoor with watches := Vector.replicate 8 (some (watch5 0 .opens)) } (req .armWatch 255 [2, 0, 1]) true
        (some .noSlot) :=
  ⟨case_of (by decide +kernel), case_of (by decide +kernel), case_of (by decide +kernel), case_of (by decide +kernel)⟩

theorem test_armWatch :
    (after .armWatch (ask withDoor (req .armWatch 255 [1, 5, 2]))).watches[(0 : Fin 8)] = some (watch5 0 .opens) := by
  decide +kernel

/-- The clauses on a door change of `Obligations.WatchesAreArmedAndFireOnce`: an empty slot, a watch that names the door and is
matched, and one that is not. -/
theorem witness_watches :
    withDoor.watches[(0 : Fin 8)] = none ∧ (watching 0 .change).watches[(7 : Fin 8)] = some (watch5 0 .change) ∧
      (watch5 0 .change).target = .door 5 ∧ (watch5 0 .secures).condition ≠ .change := by
  decide +kernel

theorem test_watches :
    let shown := withDoor.shortImage 5
    ((watching 0 .change).testWatch 5 .silent shown 7).watches[(7 : Fin 8)] = none ∧
      ((watching 0 .change).testWatch 5 .silent shown 7).notices.state =
        [.watchFired 0 7 (.door 5) .change .silent (some (5, shown))] ∧
      ((watching 0 .secures).testWatch 5 .silent shown 7).watches[(7 : Fin 8)] = some (watch5 0 .secures) := by
  decide +kernel

/-! ## Fire -/

/-- A candidate of the fire filter since time 0. -/
def filtering (v : FireInput) (p : Part) : Part := { p with fire := { p.fire with raw := v, candidate := some (v, 0) } }

/-- The clauses of `Obligations.TheFireInputSetsTheLatch`. -/
theorem witness_fireInput :
    fresh.fire.raw = .normal ∧ fresh.working = true ∧ fresh.fire.candidate = none ∧
      (filtering .alarm fresh).fire.candidate = some (.alarm, 0) ∧ (filtering .normal (latched fresh)).fire.candidate = some (.normal, 0) ∧
      (filtering .loopFault (latched fresh)).fire.latch = true ∧ (filtering .alarm fresh).fire.latch = false ∧
      (filtering .alarm fresh).FireSafe ∧ { fresh.uplink with sending := none }.sending = none ∧ fresh.notices.urgent = [] :=
  ⟨rfl, rfl, by decide +kernel, by decide +kernel, by decide +kernel, by decide +kernel, by decide +kernel,
    fireSafe_of (by decide +kernel) (by decide +kernel), rfl, by decide +kernel⟩

theorem test_fireInputChange :
    let p := after (.fireInputChange .alarm) (only fresh)
    p.fire.raw = .alarm ∧ p.fire.candidate = some (.alarm, 0) ∧ p.fire.filtered = .normal ∧
      (after (.fireInputChange .normal) (only p)).fire.candidate = none := by
  decide +kernel

theorem test_filteredInputChange :
    let p := after (.filteredInputChange []) (only (filtering .alarm (sweeping lively (ctx .running none))))
    p.now = 288000 ∧ p.fire.filtered = .alarm ∧ p.fire.latch = true ∧ p.fire.latchTime = some 288000 ∧ p.fire.releasePending = [5] ∧
      p.engineState = .idle ∧ (p.image 5).lastOutcome = some .fire := by
  decide +kernel

theorem test_filteredInputChange_latched :
    let p := after (.filteredInputChange []) (only (filtering .loopFault (latched fresh)))
    p.fire.filtered = .loopFault ∧ p.notices.urgent = [.fireLoopFault .loopFault true 1] := by
  decide +kernel

theorem witness_fireRestore :
    Case .fireRestore .fireRestore (latched withDoor) (req .fireRestore 255 []) ((latched withDoor).fire.latch) (some .ok) ∧
      Case .fireRestore .fireRestore withDoor (req .fireRestore 255 []) true (some .state) ∧
      Case .fireRestore .fireRestore { latched withDoor with fire := { (latched withDoor).fire with filtered := .alarm } }
        (req .fireRestore 255 []) true (some .state) :=
  ⟨case_of (by decide +kernel), case_of (by decide +kernel), case_of (by decide +kernel)⟩

theorem test_fireRestore :
    let p := after .fireRestore (ask (latched withDoor) (req .fireRestore 255 []))
    p.fire.latch = false ∧ p.fire.releasePending = [] ∧ p.fire.repeatTimer = none ∧ p.notices.state = [.fireRestored 1 0] := by
  decide +kernel

/-- The clauses of `Obligations.TheFireTimersAct`. -/
theorem witness_fireTimers :
    fresh.working = true ∧ fresh.fire.repeatTimer = none ∧ fresh.fire.incompleteTimer = none ∧
      (latched fresh).fire.repeatTimer = some 5760000 ∧ (latched fresh).fire.incompleteTimer = some 17280000 ∧
      fresh.fire.releasePending = [] ∧ (latched fresh).fire.releasePending ≠ [] := by
  decide +kernel

theorem test_repeatTimerExpiry :
    let p := after .repeatTimerExpiry (only (latched withDoor))
    p.now = 5760000 ∧ p.fire.repeatTimer = some 11520000 ∧ (p.line 1).wire = .broadcast ⟨2#64, 2#64⟩ 5760000 true := by
  decide +kernel

theorem test_incompleteTimerExpiry :
    let p := after .incompleteTimerExpiry (only (latched withDoor))
    p.fire.incompleteTimer = none ∧ p.notices.urgent = [.fireReleaseIncomplete 1 #v[0, 1, 0, 0]] := by
  decide +kernel

/-! ## Door lines -/

/-- A locked fault record. -/
def fault7 : FaultRecord := { kind := .overload, node := none, function := none, minute := none, again := true }

theorem witness_clearLineFault :
    Asks (ask fresh (req .clearLineFault 255 [3])) .clearLineFault 0 0 (req .clearLineFault 255 [3]) 0 ∧
      Asks (ask fresh (req .clearLineFault 255 [4])) .clearLineFault 0 0 (req .clearLineFault 255 [4]) 0 ∧
      Asks (ask (ranked true .operate fresh) (req .clearLineFault 255 [0])) .clearLineFault 0 0 (req .clearLineFault 255 [0]) 0 ∧
      (fresh.line 0).fault = none ∧ { quietLine with fault := some fault7 }.fault = some fault7 :=
  ⟨asks_of (by decide +kernel), asks_of (by decide +kernel), asks_of (by decide +kernel), by decide +kernel, rfl⟩

theorem test_clearLineFault :
    let p := fresh.setLine 3 { quietLine with fault := some fault7 }
    ((after .clearLineFault (ask p (req .clearLineFault 255 [3]))).line 3).fault = none ∧
      answer .clearLineFault fresh (req .clearLineFault 255 [4]) = some .range ∧
      answer .clearLineFault (ranked true .operate fresh) (req .clearLineFault 255 [0]) = some .authority := by
  decide +kernel

/-- A FAULTED line, its wire free. -/
def faultedLine : Line := { Line.blank with state := .faulted, probeTimer := some 17280000 }

/-- A transaction. -/
def transaction (kind : TransactionKind) (cmd : LineCmd) (phase : SendPhase) (secondSend : Bool) : Transaction :=
  { kind := kind, cmd := cmd, door := some 5, node := 2, began := 0, phase := phase, secondSend := secondSend, conflicted := false
    anyConflict := false, detached := false, cut := false }

theorem witness_quietLine :
    Case (.quietLine []) .quietLine lively (req .quietLine 255 [1]) (decide ((lively.line 1).state = .active)) (some .ok) ∧
      Case (.quietLine []) .quietLine (fresh.setLine 0 faultedLine) (req .quietLine 255 [0]) true (some .ok) ∧
      Case (.quietLine []) .quietLine fresh (req .quietLine 255 [3]) true (some .state) :=
  ⟨case_of (by decide +kernel), case_of (by decide +kernel), case_of (by decide +kernel)⟩

theorem test_quietLine :
    let p := after (.quietLine []) (ask lively (req .quietLine 255 [1]))
    (p.line 1).state = .quiet ∧ (p.image 5).settled = .suspect ∧ (p.image 0).settled = .absent := by
  decide +kernel

theorem witness_resumeLine :
    Case .resumeLine .resumeLine (fresh.setLine 3 { quietLine with wire := .broadcast ⟨0, 0⟩ 0 true }) (req .resumeLine 255 [3]) true
        (some .ok) ∧
      Case .resumeLine .resumeLine
        (withDoor.setLine 1 { faultedLine with wire := .transaction (transaction .probe .pollNow (.window 9) false) })
        (req .resumeLine 255 [1]) true (some .ok) ∧
      Case .resumeLine .resumeLine (fresh.setLine 0 { faultedLine with wire := .broadcast ⟨0, 0⟩ 0 true }) (req .resumeLine 255 [0]) true
        none ∧
      Case .resumeLine .resumeLine lively (req .resumeLine 255 [1]) true (some .state) :=
  ⟨case_of (by decide +kernel), case_of (by decide +kernel), case_of (by decide +kernel), case_of (by decide +kernel)⟩

theorem test_resumeLine :
    let p := after .resumeLine (ask (withDoor.setLine 1 { faultedLine with wire := .broadcast ⟨0, 0⟩ 0 true }) (req .resumeLine 255 [1]))
    (p.line 1).state = .faulted ∧ (p.line 1).probeDue = true ∧ (p.line 1).probeWaiters = [(0, 0)] := by
  decide +kernel

/-- The hypotheses of `Obligations.ALineGoesDown`: a new state, and a door command that waits on the line, in its queue or with the
source of a motion. -/
theorem witness_lineGoesDown :
    let r : LineRequest := { cmd := .driveThrow, door := 5, source := some (.slot 0 0), inFlight := true, purged := false }
    let m : MotionEntry := { door := 5, direction := .throwing, deadline := 9, source := some (.slot 0 0), wait := false, lastPoll := 0 }
    LineState.quiet ≠ .active ∧ LineState.faulted ≠ .active ∧
      (lively.setSlot 0 0 (.inProgress (cmd .throwBolt 5 []) 0 (some .onLine))).slot 0 0 =
        .inProgress (cmd .throwBolt 5 []) 0 (some .onLine) ∧
      r ∈ { busyLine with queue := [r] }.queue ++ busyLine.held ∧ r.source = some (.slot 0 0) ∧
      m ∈ { busyLine with motions := [m] }.motions ∧ m.source = some (.slot 0 0) :=
  ⟨by decide, by decide, by decide +kernel, by simp, rfl, by simp, rfl⟩

/-- A transaction on line 1's wire, which a pending broadcast will follow; the rest of the part is as in `withDoor`. -/
def onWire (t : Transaction) : Part :=
  withDoor.setLine 1
    { Line.blank with wire := .transaction t, broadcast := some { maps := ⟨0, 0⟩, sends := 3 } }

/-- The request in flight of a throw of door 5 for slot 1 of originator 0. -/
def throw5 : LineRequest := { cmd := .driveThrow, door := 5, source := some (.slot 0 1), inFlight := true, purged := false }

/-- That throw on line 1's wire. -/
def throwing (phase : SendPhase) (secondSend : Bool) : Part :=
  let p := onWire (transaction .queued .driveThrow phase secondSend)
  (p.setLine 1 { p.line 1 with queue := [throw5] }).setSlot 0 1 (.inProgress (cmd .throwBolt 5 []) 0 (some .onLine))

/-- Whether the transaction on line 1's wire is detached from its door. -/
def isDetached (p : Part) : Option Bool :=
  match (p.line 1).wire with
  | .transaction t => some t.detached
  | _ => none

/-- A routine poll of a door on line 1's wire. -/
def polling (d : DoorNo) : Part := onWire { transaction .routine .pollNow .sending false with door := some d }

/-- WITHDRAW DOOR detaches a poll of its door and no other frame (R4); LOAD DOOR with another node does too (R3). -/
theorem test_detach :
    isDetached (after .withdrawDoor (ask (polling 5) (req .withdrawDoor 5 []))) = some true ∧
      isDetached (after .loadDoor (ask (polling 5) (req .loadDoor 5 [1, 1, 3, 3, 1, 1, 15, 10, 0, 60]))) = some true ∧
      isDetached (after .loadDoor (ask (polling 5) (req .loadDoor 5 load5))) = some false ∧
      isDetached (after .withdrawDoor (ask (polling 6) (req .withdrawDoor 5 []))) = some false := by
  decide +kernel

/-- Responses built in one action wait in ascending originator and then slot, behind those that waited (R178). -/
theorem test_builtOrder :
    orderBuilt 1 [.slot 3 1, .slot 2 0, .holder 1, .slot 1 1, .slot 1 0, .slot 0 1] =
        [.slot 3 1, .slot 0 1, .slot 1 0, .slot 1 1, .holder 1, .slot 2 0] ∧
      (let r (o : OriginatorNo) : LineRequest := { throw5 with source := some (.slot o 1), inFlight := false }
       let g := Slot.inProgress (cmd .throwBolt 5 []) 0 (some .queued)
       let p := ((lively.setLine 1 { busyLine with queue := [r 2, r 0] }).setSlot 2 1 g).setSlot 0 1 g
       (after (.quietLine []) (ask p (req .quietLine 255 [1]))).uplink.waiting = [.slot 0 0, .slot 0 1, .slot 2 1]) := by
  decide +kernel

/-- The characters of a node's reply. -/
def chars (bytes : List Byte) : List LineChar := (bytes ++ [crc8 bytes]).map sentChar

/-- A STATE reply of node 2: bolt thrown, closed, released, no flags. -/
def stateReply : List LineChar := chars [2#8, 0x11#8, 4#8, 1#8, 1#8, 2#8, 0#8]

/-- What that reply says. -/
def stateOf : StateReply :=
  { bolt := .thrown, position := .closed, holding := false, exit := false, forced := false, tamper := false, pulse := false
    restarted := false, moving := false }

/-- A motion entry of door 5. -/
def motion5 (source : Option Source) : MotionEntry :=
  { door := 5, direction := .throwing, deadline := 576000, source := source, wait := false, lastPoll := 0 }

/-- The clauses of `Obligations.TheLineArbiterChooses`: each kind of choice has a line that offers it. -/
theorem witness_lineArbiter :
    busyLine.wire ≠ .free ∧ Line.blank.wire = .free ∧ Line.blank.state = .active ∧ quietLine.state = .quiet ∧
      faultedLine.state = .faulted ∧ faultedLine.probeDue = false ∧ { faultedLine with probeDue := true }.probeDue = true ∧
      { Line.blank with broadcast := some { maps := ⟨0, 0⟩, sends := 1 } }.broadcast = some { maps := ⟨0, 0⟩, sends := 1 } ∧
      (motion5 none).lastPoll + 200 * 576 < 115201 ∧ 115200 ≤ (motion5 none).lastPoll + 200 * 576 ∧
      (withDoor.config 5).configured = true ∧ (withDoor.config 5).withdrawn = false ∧ (withDoor.config 5).line = 1 := by
  decide +kernel

/-- A waiting RESUME LINE of `Obligations.TheLineArbiterChooses`, and a queue whose first sendable request is its second. -/
theorem witness_lineArbiter_queue :
    let x := { Line.blank with motions := [motion5 none], queue := [{ throw5 with inFlight := false }, { throw5 with door := 6, inFlight := false }] }
    (fresh.setSlot 0 0 (.inProgress (req .resumeLine 255 [0]) 0 none)).slot 0 0 = .inProgress (req .resumeLine 255 [0]) 0 none ∧
      x.queue = [{ throw5 with inFlight := false }] ++ { throw5 with door := 6, inFlight := false } :: [] ∧ x.queuedSends ≠ 3 ∧
      (∃ m ∈ x.motions, m.door = throw5.door) ∧ ¬(∃ m ∈ x.motions, m.door = 6) ∧ ¬8 ≤ x.motions.length := by
  decide +kernel

theorem test_lineArbiter :
    let p := (withDoor.setLine 1 { Line.blank with queue := [{ throw5 with inFlight := false }] }).lineChoice 1
    (p.line 1).wire = .transaction { transaction .queued .driveThrow .sending false with began := 0 } ∧
      (p.line 1).queue = [throw5] ∧ (p.line 1).queuedSends = 1 := by
  decide +kernel

/-- The clauses of `Obligations.FramesAreSentAndSentAgain` and of `Obligations.RepliesAreJudgedByTheFirstFailure`. -/
theorem witness_lineFrames :
    (throwing .sending false).working = true ∧
      ((throwing .sending false).line 1).wire = .transaction (transaction .queued .driveThrow .sending false) ∧
      (transaction .queued .driveThrow .sending false).cut = false ∧
      { transaction .queued .driveThrow .sending false with cut := true }.cut = true ∧
      ((throwing (.window 11520) false).line 1).flying = some throw5 ∧ throw5.purged = false ∧
      judgeReply 2 .drive [{ sentChar 2#8 with stopAtMark := false }] = .charFailed .stop ∧
      judgeReply 2 .drive [{ sentChar 2#8 with startHeld := false }] = .charFailed .start ∧
      judgeReply 2 .drive [{ sentChar 2#8 with parity := false }] = .charFailed .parity ∧
      judgeReply 2 .drive (chars [2#8, 0x11#8, 0#8]) = .failed .stray ∧ judgeReply 2 .drive [sentChar 2#8] = .failed .check ∧
      (sentChar 2#8).pause ≤ 20 * 576 ∧ 20 * 576 < { sentChar 2#8 with pause := 11521 }.pause ∧
      (transaction .queued .driveThrow (.window 11520) true).conflicted = false ∧
      { transaction .queued .driveThrow (.window 11520) true with conflicted := true }.conflicted = true ∧
      (transaction .queued .driveThrow (.charFailed .stop 330 10368 11520) false).phase = .charFailed .stop 330 10368 11520 := by
  decide +kernel

/-- The moments that decide what ends a send after a character failure: the mark's end before the close, with it, after it, and a failure
after the close. -/
theorem witness_markAndClose :
    let ends (failed mark closes : Time) : Bool × Bool :=
      (decide (failed ≤ closes ∧ closes ≤ mark + 2 * 576), decide (closes < failed ∨ mark + 2 * 576 ≤ closes))
    ends 330 10367 11520 = (false, true) ∧ ends 330 10368 11520 = (true, true) ∧ ends 330 10369 11520 = (true, false) ∧
      ends 11521 11521 11520 = (false, true) := by
  decide +kernel

/-- The clauses on a whole reply of `Obligations.RepliesAreJudgedByTheFirstFailure`, with no data and with 17 data bytes. -/
theorem witness_replies :
    (∀ c ∈ chars [2#8, 0x12#8, 0#8], c.startHeld = true ∧ (ones c.data + c.parity.toNat) % 2 = 0 ∧ c.stopAtMark = true) ∧
      ((chars [2#8, 0x12#8, 0#8]).map fun c => c.data) =
        2#8 :: 0x12#8 :: byte ([] : List Byte).length :: ([] : List Byte) ++ [crc8 [2#8, 0x12#8, 0#8]] ∧
      (∀ c ∈ chars (2#8 :: 0x12#8 :: 17#8 :: List.replicate 17 0#8),
        c.startHeld = true ∧ (ones c.data + c.parity.toNat) % 2 = 0 ∧ c.stopAtMark = true) ∧
      (List.replicate 17 (0#8 : Byte)).length = 17 ∧ (∃ c ∈ [sentChar 0#8, { sentChar 0#8 with pause := 1153 }], 2 * 576 < c.pause) ∧
      judgeReply 2 .drive (chars [2#8, 0x12#8, 0#8]) = .valid .accept ∧
      judgeReply 2 .drive (chars [2#8, 0x13#8, 1#8, 1#8]) = .valid (.refuse true) ∧
      judgeReply 2 .holder (chars [2#8, 0x13#8, 1#8, 2#8]) = .valid (.refuse false) ∧
      judgeReply 2 .poll stateReply = .valid (.state stateOf) := by
  decide +kernel

/-- The clauses of `Obligations.RepliesAreJudgedByTheFirstFailure` on lengths and layouts, at their bounds. -/
theorem witness_replyForms :
    ¬({ sentChar 2#8 with stopAtMark := false }.startHeld = true ∧ { sentChar 2#8 with stopAtMark := false }.stopAtMark = true) ∧
      [sentChar 0#8, sentChar 0#8, sentChar 0#8].length < 4 ∧ 17 < (18#8 : Byte).toNat ∧ ([0#8] : List Byte).length ≠ (1#8 : Byte).toNat + 1 ∧
      (4#8 : Byte) ∈ ([0#8, 1#8, 2#8, 4#8] : List Byte) ∧ (3#8 : Byte) ∉ ([0#8, 1#8, 2#8, 4#8] : List Byte) ∧ (2#8 : Byte).toNat ≤ 2 ∧
      2 < (3#8 : Byte).toNat ∧ (63#8 : Byte).toNat < 64 ∧ 64 ≤ (64#8 : Byte).toNat ∧
      ¬(0x11#8 = (0x11#8 : Byte) ∧ ([0#8] : List Byte).length = 4) ∧ (3#8 : Byte) ≠ 1#8 ∧ (3#8 : Byte) ≠ 2#8 := by
  decide +kernel

/-- A reply that is short, or longer than its length byte says, fails CHECK; characters after a failed one are discarded, and each puts
off the mark unless 2 ms of mark come first (R27, R29). -/
theorem test_replyForms :
    let bad : LineChar := { sentChar 2#8 with stopAtMark := false }
    let late (pause : Time) : LineChar := { sentChar 7#8 with pause := pause }
    judgeReply 2 .drive (chars [2#8, 0x12#8, 1#8]) = .failed .check ∧ judgeReply 2 .drive (chars [2#8, 0x12#8, 18#8]) = .failed .check ∧
      judgeReply 2 .poll (chars [2#8, 0x11#8, 4#8, 3#8, 1#8, 2#8, 0#8]) = .failed .check ∧
      charsDropped [sentChar 2#8, bad, late 9] = [late 9] ∧ markSince 660 [late 1151, late 1152, late 0] = 2141 := by
  decide +kernel

theorem test_lineFrameSent :
    let p := after (.lineFrameSent 1 .asSent) (only (throwing .sending false))
    let q := after (.lineFrameSent 1 (.chars [])) (only (throwing .sending false))
    p.now = 1980 ∧ (p.line 1).wire = .transaction (transaction .queued .driveThrow (.window 13500) false) ∧
      ((q.line 1).fault.map fun r => (r.kind, r.node)) = some (.conflict, some 2) := by
  decide +kernel

/-- One character read back with only its parity bit wrong is a conflict, whatever the pauses (R27, R28). -/
theorem test_readback :
    let sent := (transaction .queued .driveThrow .sending false).frame
    let read := sent.map sentChar
    readbackConflicts sent (.chars read) = false ∧ readbackConflicts sent (.chars (read.map fun c => { c with pause := 9 })) = false ∧
      readbackConflicts sent (.chars (read.modifyHead fun c => { c with parity := !c.parity })) = true ∧
      readbackConflicts sent (.chars (read.modifyHead fun c => { c with stopAtMark := false })) = true := by
  decide +kernel

/-- The hypotheses of `Obligations.ValidRepliesAreApplied`, for each kind of reply, with a door command that waits. -/
theorem witness_validReplies :
    let p := throwing (.window 11520) false
    let t := transaction .queued .driveThrow (.window 11520) false
    p.working = true ∧ (p.line 1).wire = .transaction t ∧ t.phase = .window 11520 ∧ t.anyConflict = false ∧ t.door = some 5 ∧
      t.detached = false ∧ t.kind = .queued ∧ (p.line 1).flying = some throw5 ∧ throw5.source = some (.slot 0 1) ∧
      p.slot 0 1 = .inProgress (cmd .throwBolt 5 []) 0 (some .onLine) ∧
      judgeReply 2 .drive (chars [2#8, 0x12#8, 0#8]) = .valid .accept ∧
      judgeReply 2 .drive (chars [2#8, 0x13#8, 1#8, 2#8]) = .valid (.refuse false) ∧
      ((onWire (transaction .queued .pollNow (.window 11520) false)).line 1).wire =
        .transaction (transaction .queued .pollNow (.window 11520) false) ∧
      judgeReply 2 .poll stateReply = .valid (.state stateOf) := by
  decide +kernel

/-- The clauses of `Obligations.ValidRepliesAreApplied` on what a door's transaction leaves: each command, a request with and without a
source, purged and not. -/
theorem witness_transactionEnds :
    let x (r : LineRequest) : Line := { Line.blank with queue := [r] }
    (transaction .queued .driveThrow .sending false).cmd = .driveThrow ∧ (transaction .queued (.drivePulse 30) .sending false).cmd = .drivePulse 30 ∧
      ((x throw5).queue.find? fun r => r.inFlight) = some throw5 ∧ throw5.source ≠ none ∧ { throw5 with source := none }.source = none ∧
      ((x { throw5 with purged := true }).queue.find? fun r => r.inFlight) = some { throw5 with purged := true } ∧
      (transaction .routine .pollNow .sending false).kind ≠ .probe := by
  decide +kernel

/-- A motion that ends in the other bolt state completes its command JAMMED, with door 5's line as detail (R105, R162). -/
theorem test_lineReplyReceived_jammed :
    let p := onWire (transaction .confirm .pollNow (.window 11520) false)
    let q :=
      after (.lineReplyReceived 1 (chars [2#8, 0x11#8, 4#8, 2#8, 1#8, 2#8, 0#8]) [])
        (only ((p.setLine 1 { p.line 1 with motions := [motion5 (some (.slot 0 1))] }).setSlot 0 1
          (.inProgress (cmd .throwBolt 5 []) 0 (some .inMotion))))
    (q.image 5).bolt = .retracted ∧ (q.line 1).motions = [] ∧
      q.uplink.senses[(0 : OriginatorNo)] = some { completion := .jammed, request := 0x40#8, door := some 5, detail := some 1 } := by
  decide +kernel

theorem test_lineReplyReceived_accept :
    let p := after (.lineReplyReceived 1 (chars [2#8, 0x12#8, 0#8]) []) (only (throwing (.window 11520) false))
    p.now = 1320 ∧ (p.image 5).bolt = .moving ∧ (p.line 1).queue = [] ∧
      (p.line 1).motions = [{ motion5 (some (.slot 0 1)) with deadline := 577320, lastPoll := 1320 }] ∧
      p.slot 0 1 = .inProgress (cmd .throwBolt 5 []) 0 (some .inMotion) := by
  decide +kernel

theorem test_lineReplyReceived_state :
    let p := onWire (transaction .confirm .pollNow (.window 11520) false)
    let q :=
      after (.lineReplyReceived 1 stateReply [])
        (only ((p.setLine 1 { p.line 1 with motions := [motion5 (some (.slot 0 1))] }).setSlot 0 1
          (.inProgress (cmd .throwBolt 5 []) 0 (some .inMotion))))
    (q.image 5).bolt = .thrown ∧ (q.line 1).motions = [] ∧
      q.slot 0 1 =
        .answered (cmd .throwBolt 5 []) 0
          ((cmd .throwBolt 5 []).respond 0 .ok [1#8, 1#8, 1#8, 2#8, 0#8, 0#8, 0#8, 0xFF#8, 0#8]) := by
  decide +kernel

/-- A probe in its reply window on a FAULTED line, its sends clean or conflicted. -/
def probing (state : LineState) (conflicted : Bool) (n : Nat) : Part :=
  withDoor.setLine 1
    { faultedLine with
      state := state, probeTimer := none, conflicts := n
      wire := .transaction { transaction .probe .pollNow (.window 11520) false with conflicted := conflicted, anyConflict := conflicted }
      broadcast := some { maps := ⟨0, 0⟩, sends := 3 } }

/-- The clauses of `Obligations.SilencesBroadcastsAndOverloads` on the end of a probe and on the third conflicted transaction, and of
`Obligations.ValidRepliesAreApplied` on a probe's reply. -/
theorem witness_probes :
    let t := transaction .probe .pollNow (.window 11520) false
    (probing .faulted false 0).working = true ∧ ((probing .faulted false 0).line 1).wire = .transaction t ∧ t.kind = .probe ∧
      t.anyConflict = false ∧ { t with anyConflict := true }.anyConflict = true ∧ t.door = some 5 ∧ t.detached = false ∧
      ((probing .faulted true 0).line 1).state = .faulted ∧ ((probing .quiet false 0).line 1).state = .quiet ∧
      ((probing .active true 1).line 1).conflicts < 2 ∧ 2 ≤ ((probing .active true 2).line 1).conflicts ∧
      judgeReply 2 .poll stateReply = .valid (.state stateOf) := by
  decide +kernel

theorem test_probes :
    let p := after (.replyWindowClosed 1 []) (only (probing .faulted false 0))
    let q := after (.replyWindowClosed 1 []) (only (probing .faulted true 0))
    let r := after (.lineReplyReceived 1 stateReply []) (only (probing .faulted false 0))
    (p.line 1).state = .active ∧ (p.image 5).silence = 0 ∧ (q.line 1).state = .faulted ∧ (q.line 1).probeTimer = some (11520 + 17280000) ∧
      (r.line 1).state = .active ∧ (r.image 5).bolt = .thrown ∧
      ((after (.replyWindowClosed 1 []) (only (probing .active true 2))).line 1).state = .faulted := by
  decide +kernel

theorem test_conflictCount :
    let t := { transaction .queued .driveThrow (.window 11520) true with conflicted := true, anyConflict := true }
    let p (n : Nat) := (throwing (.window 11520) true).setLine 1
      { (throwing (.window 11520) true).line 1 with wire := .transaction t, conflicts := n }
    let ended (n : Nat) := (after (.replyWindowClosed 1 []) (only (p n))).line 1
    ((ended 1).state, (ended 1).conflicts) = (.active, 2) ∧ ((ended 2).state, (ended 2).conflicts) = (.faulted, 0) := by
  decide +kernel

/-- The clauses of `Obligations.SilencesBroadcastsAndOverloads`. -/
theorem witness_silences :
    let p := throwing (.window 11520) true
    let b (state : LineState) (n : Nat) : Line := { busyLine with state := state, conflicts := n }
    p.working = true ∧ (p.line 1).wire = .transaction (transaction .queued .driveThrow (.window 11520) true) ∧
      (transaction .queued .driveThrow (.window 11520) true).secondSend = true ∧ (p.line 1).flying = some throw5 ∧
      throw5.purged = false ∧ (p.image 5).silence ≠ 2 ∧ { closed5 with silence := 2 }.silence = 2 ∧
      ((fresh.setLine 0 (b .active 1)).line 0).wire = .broadcast ⟨0, 0⟩ 0 true ∧ (b .active 1).conflicts < 2 ∧
      2 ≤ (b .active 2).conflicts ∧ (b .quiet 0).state ≠ .active ∧
      { faultedLine with wire := .transaction (transaction .probe .pollNow .sending false) }.state = .faulted ∧
      quietLine.wire = .free ∧ { busyLine with state := .quiet }.state ≠ .active ∧ Line.blank.state = .active := by
  decide +kernel

/-- The second send's reply fails CHECK: a silence is counted. A request that the purge reached: none is, and its command completes
FIRE_HOLD after the first send (R30, R37). -/
theorem test_failedReply :
    let reply (p : Part) := after (.lineReplyReceived 1 [sentChar 2#8] []) (only p)
    let p := throwing (.window 11520) false
    let q := reply (throwing (.window 11520) true)
    let r := reply (p.setLine 1 { p.line 1 with queue := [{ throw5 with purged := true }] })
    (q.image 5).silence = 1 ∧ ((q.line 1).fault.map fun x => x.kind) = some .check ∧ q.now = 330 ∧
      (q.uplink.senses[(0 : OriginatorNo)].map fun x => x.completion) = some .noReply ∧ (r.image 5).silence = 0 ∧ (r.line 1).queue = [] ∧
      (r.uplink.senses[(0 : OriginatorNo)].map fun x => x.completion) = some .fireHold := by
  decide +kernel

theorem test_replyWindowClosed :
    let p := after (.replyWindowClosed 1 []) (only (throwing (.window 11520) false))
    let q := after (.replyWindowClosed 1 []) (only (throwing (.window 11520) true))
    (p.line 1).wire = .transaction { transaction .queued .driveThrow .sending true with began := 11520 } ∧ p.now = 11520 ∧
      (q.image 5).silence = 1 ∧ (q.line 1).queue = [] ∧
      q.uplink.senses[(0 : OriginatorNo)] = some { completion := .noReply, request := 0x40#8, door := some 5, detail := some 1 } := by
  decide +kernel

theorem test_receiverMark2ms :
    let p := after (.receiverMark2ms 1 []) (only (throwing (.charFailed .stop 330 330 11520) false))
    p.now = 1482 ∧ ((p.line 1).fault.map fun r => r.kind) = some .stop ∧
      (p.line 1).wire = .transaction { transaction .queued .driveThrow .sending true with began := 1482 } := by
  decide +kernel

/-- A character that follows the failed one puts off the end of the send to 2 ms of mark after its own (R27). -/
theorem test_discardedCharacter :
    let bad : LineChar := { sentChar 2#8 with stopAtMark := false }
    let p := after (.lineReplyReceived 1 [bad, { sentChar 7#8 with pause := 576 }] []) (only (throwing (.window 11520) false))
    let q := after (.receiverMark2ms 1 []) (only p)
    (p.line 1).wire = .transaction (transaction .queued .driveThrow (.charFailed .stop 330 1236 11520) false) ∧ p.now = 1236 ∧
      after (.replyWindowClosed 1 []) (only p) = p ∧ q.now = 2388 := by
  decide +kernel

theorem test_fireBroadcastSent :
    let p := fresh.setLine 0 { busyLine with broadcast := some { maps := ⟨0, 0⟩, sends := 3 }, conflicts := 1 }
    let q := after (.fireBroadcastSent 0 .asSent []) (only p)
    q.now = 6600 ∧ (q.line 0).broadcast = some { maps := ⟨0, 0⟩, sends := 2 } ∧ (q.line 0).wire = .broadcast ⟨0, 0⟩ 6600 true ∧
      (q.line 0).conflicts = 0 := by
  decide +kernel

theorem test_overloadReport :
    let p := after (.overloadReport 1 []) (only (throwing .sending false))
    (p.line 1).state = .faulted ∧ (p.line 1).probeTimer = some 17280000 ∧ (p.line 1).queue = [] ∧
      ((p.line 1).fault.map fun r => (r.kind, r.node, r.function)) = some (.overload, some 2, some .drive) ∧
      (p.image 5).settled = .suspect ∧
      p.uplink.senses[(0 : OriginatorNo)] = some { completion := .lineDown, request := 0x40#8, door := some 5, detail := some 1 } := by
  decide +kernel

/-- The clauses of `Obligations.TheLineTimersAct`. -/
theorem witness_lineTimers :
    let p := lively.setLine 1 { busyLine with motions := [motion5 (some (.slot 0 1))] }
    fresh.working = true ∧ (fresh.line 1).motions = [] ∧ p.working = true ∧
      (p.line 1).motions.find? (fun m => m.door = 5) = some (motion5 (some (.slot 0 1))) ∧
      (motion5 (some (.slot 0 1))).source = some (.slot 0 1) ∧ (motion5 none).source = none ∧
      (motion5 (some (.entry 0))).source = some (.entry 0) ∧
      (p.setSlot 0 1 (.inProgress (cmd .throwBolt 5 []) 0 (some .inMotion))).slot 0 1 =
        .inProgress (cmd .throwBolt 5 []) 0 (some .inMotion) ∧
      (∀ m ∈ (fresh.line 1).motions, m.door ≠ 5) ∧ faultedLine.state = .faulted ∧ faultedLine.probeTimer = some 17280000 ∧
      Line.blank.state ≠ .faulted := by
  decide +kernel

theorem test_confirmPollDue :
    let p := after (.confirmPollDue 1) (only (withDoor.setLine 1 { Line.blank with motions := [motion5 none] }))
    p.now = 115201 ∧ (p.line 1).wire = .transaction { transaction .confirm .pollNow .sending false with began := 115201 } := by
  decide +kernel

theorem test_motionDeadline :
    let p :=
      after (.motionDeadline 5)
        (only ((lively.setLine 1 { busyLine with motions := [motion5 (some (.slot 0 1))] }).setSlot 0 1
          (.inProgress (cmd .throwBolt 5 []) 0 (some .inMotion))))
    p.now = 576000 ∧ (p.image 5).bolt = .unknown ∧ (p.line 1).motions = [] ∧
      (p.uplink.senses[(0 : OriginatorNo)].map fun r => r.completion) = some .boltTimeout := by
  decide +kernel

theorem test_probeTimerExpiry :
    let p := after (.probeTimerExpiry 1) (only (withDoor.setLine 1 faultedLine))
    p.now = 17280000 ∧ (p.line 1).probeTimer = none ∧
      (p.line 1).wire = .transaction { transaction .probe .pollNow .sending false with began := 17280000 } := by
  decide +kernel

/-- Replies of which `Obligations.RepliesAreReportedAndTested` speaks: one that reports a change, and one that the catch-up test
takes. -/
theorem test_repliesReported :
    let old := { closed5 with bolt := .jammed }
    let p := (withDoor.setGroup 3 { night := true, lastResult := .none, resultSweep := none }).setImage 5
      { closed5 with lastOutcome := some .heldOpen }
    (withDoor.replyNotices 1 5 stateOf old false (withDoor.shortImage 5)).notices.state =
        [.doorChange 5 1 (some (.jammed, .retracted)) none none false false (withDoor.shortImage 5)] ∧
      p.catchUpTest 5 stateOf = true ∧ withDoor.catchUpTest 5 stateOf = false := by
  decide +kernel

/-! ## Reads, SENSE and RESTART PART -/

theorem witness_readGroup :
    Asks (ask withDoor (req .readGroup 255 [3])) .readGroup 0 0 (req .readGroup 255 [3]) 0 ∧
      Asks (ask withDoor (req .readGroup 255 [31])) .readGroup 0 0 (req .readGroup 255 [31]) 0 ∧
      Asks (ask fresh (req .readGroup 255 [32])) .readGroup 0 0 (req .readGroup 255 [32]) 0 ∧
      Asks (ask (ranked false .administer fresh) (req .readGroup 255 [0])) .readGroup 0 0 (req .readGroup 255 [0]) 0 :=
  ⟨asks_of (by decide +kernel), asks_of (by decide +kernel), asks_of (by decide +kernel), asks_of (by decide +kernel)⟩

theorem test_readGroup :
    answerIn (after .readGroup (ask withDoor (req .readGroup 255 [3]))) =
        some (.ok, [0#8, 0#8, 0#8, 0#8, 1#8, 0#8, 0#8, 0#8, 0#8]) ∧
      answer .readGroup fresh (req .readGroup 255 [32]) = some .range ∧
      answer .readGroup (ranked false .administer fresh) (req .readGroup 255 [0]) = some .authority := by
  decide +kernel

theorem witness_reads :
    Case .readDoor .readDoor withDoor (req .readDoor 239 []) true (some .ok) ∧
      Case .readStatus .readStatus fresh (req .readStatus 255 []) true (some .ok) ∧
      Case .readCatchUpList .readCatchUpList { fresh with catchUp := [5, 0] } (req .readCatchUpList 255 [14]) true (some .ok) ∧
      Case .readLine .readLine lively (req .readLine 255 [3]) true (some .ok) ∧
      Case .readSweepReport .readSweepReport fresh (req .readSweepReport 255 [0, 5]) true (some .ok) ∧
      Case .readSweepReport .readSweepReport fresh (req .readSweepReport 255 [1, 0]) true (some .ok) ∧
      Case .readException .readException (claimed 0 withDoor) (req .readException 255 [15]) true (some .ok) ∧
      Case .readException .readException (claimed 0 withDoor) (req .readException 255 [0])
        (decide ((claimed 0 withDoor).exceptions[(0 : ExceptionNo)] = some exception5)) (some .ok) ∧
      Case .readPlan .readPlan fresh (req .readPlan 255 [0, 7]) true (some .ok) ∧
      Case .readPlan .readPlan fresh (req .readPlan 255 [1, 0]) true (some .ok) ∧
      Case .readSchedule .readSchedule fresh (req .readSchedule 255 [15]) true (some .ok) :=
  ⟨case_of (by decide +kernel), case_of (by decide +kernel), case_of (by decide +kernel), case_of (by decide +kernel),
    case_of (by decide +kernel), case_of (by decide +kernel), case_of (by decide +kernel), case_of (by decide +kernel),
    case_of (by decide +kernel), case_of (by decide +kernel), case_of (by decide +kernel)⟩

/-- The bytes that a read answers with OK. -/
def shown (c : Instr) (p : Part) (f : Frame) : Option (List Nat) :=
  (answerIn (after c (ask p f))).bind fun x => if x.1 = .ok then some (x.2.map BitVec.toNat) else none

theorem test_readDoor :
    shown .readDoor withDoor (req .readDoor 5 []) =
      some [1, 1, 2, 3, 1, 1, 15, 10, 0, 60, 1, 2, 1, 2, 0, 0, 0, 255, 0] := by
  decide +kernel

theorem test_readStatus :
    shown .readStatus (timed fresh) (req .readStatus 255 []) =
      some [1, 0, 1, 39, 95, 58, 0, 0, 0, 0, 0, 0, 0, 0, 0, 0, 0] := by
  decide +kernel

theorem test_readCatchUpList :
    shown .readCatchUpList { fresh with catchUp := [5, 0] } (req .readCatchUpList 255 [0]) = some [2, 2, 5, 0] := by
  decide +kernel

theorem test_readLine :
    let x := { busyLine with queue := [throw5], motions := [motion5 none], fault := some fault7 }
    shown .readLine (withDoor.setLine 1 x) (req .readLine 255 [1]) =
      some [0, 0, 0, 0, 1, 2, 5, 1, 0, 129, 1, 0, 1, 5, 1, 0, 0, 10, 255, 0, 1, 7, 255, 255, 255, 255, 1] := by
  decide +kernel

theorem test_readSweepReport :
    (shown .readSweepReport fresh (req .readSweepReport 255 [0, 0])).isSome = true := by
  decide +kernel

theorem test_readException :
    shown .readException (claimed 0 withDoor) (req .readException 255 [15]) = some [0] ∧
      shown .readException (claimed 0 withDoor) (req .readException 255 [0]) =
        some [1, 0, 0, 200, 0, 100, 2, 1, 5, 1, 0, 201] := by
  decide +kernel

theorem test_readPlan :
    shown .readPlan (withPlan fresh) (req .readPlan 255 [1, 2]) = some [0, 1, 3, 1, 1, 1, 0] := by
  decide +kernel

theorem test_readSchedule :
    (shown .readSchedule fresh (req .readSchedule 255 [0])).map (fun x => x.take 6) = some [0, 0, 0, 0, 1, 0] := by
  decide +kernel

/-- Originator 0's sense record is filled. -/
def sensed : Part := fresh.setSense 0 (some { completion := .state, request := 0x2C#8, door := none, detail := some 1 })

theorem witness_sense :
    Asks (ask sensed (req .sense 255 [])) .sense 0 0 (req .sense 255 []) 0 ∧
      Asks (ask fresh (req .sense 255 [])) .sense 0 0 (req .sense 255 []) 0 ∧ fresh.uplink.senses[(0 : OriginatorNo)] = none ∧
      Asks (ask (ranked false .view sensed) (req .sense 255 [])) .sense 0 0 (req .sense 255 []) 0 :=
  ⟨asks_of (by decide +kernel), asks_of (by decide +kernel), by decide +kernel, asks_of (by decide +kernel)⟩

theorem test_sense :
    let p := after .sense (ask sensed (req .sense 255 []))
    answerIn p = some (.ok, [0x2A#8, 0x2C#8, 0#8, 0xFF#8, 1#8]) ∧ p.uplink.senses[(0 : OriginatorNo)] = none ∧
      answer .sense fresh (req .sense 255 []) = some .none ∧
      (after .sense (ask (ranked false .view sensed) (req .sense 255 []))).uplink.senses = sensed.uplink.senses := by
  decide +kernel

theorem witness_restartPart :
    Case .restartPart .restartPart fresh (req .restartPart 255 []) (!fresh.uplink.restartPending) (some .ok) :=
  case_of (by decide +kernel)

/-- A part that the requested restart will follow, its OK to RESTART PART being sent. -/
def restarting : Part :=
  { withDoor with
    uplink :=
      { withDoor.uplink with
        restartPending := true
        sending := some (.response (.slot 0 0) ((req .restartPart 255 []).respond 0 .ok []) 0)
        slots := withDoor.uplink.slots.set (slotPlace 0 0) (.answered (req .restartPart 255 []) 0 ((req .restartPart 255 []).respond 0 .ok [])) } }

/-- The hypotheses of the statements on a pending restart. -/
theorem witness_restarting :
    restarting.working = true ∧
      restarting.uplink.sending = some (.response (.slot 0 0) ((req .restartPart 255 []).respond 0 .ok []) 0) ∧
      ((req .restartPart 255 []).respond 0 .ok []).code = 0x3F#8 ∧ restarting.uplink.restartPending = true := by
  decide +kernel

theorem test_restartPart :
    let p := after .restartPart (ask fresh (req .restartPart 255 []))
    let q := after .uplinkFrameSent (only restarting)
    p.uplink.restartPending = true ∧ q.uplink.restartPending = false ∧ q.uplink.restartCause = .requested ∧
      q.uplink.requestedFlag = true ∧ q.config 5 = config5 ∧ (q.image 5).settled = .absent ∧ q.slot 0 0 = .empty ∧
      (q.uplink.sending.map fun x => x.frame) =
        some [0xC3#8, 0x07#8, 0x82#8, 0xFF#8, 0x03#8, 0x28#8, 0xFF#8, 0x03#8, 0x01#8, 0xBF#8, 0xCD#8] := by
  decide +kernel

/-! ## Door commands -/

theorem witness_doorCommands :
    Case .throwBolt .throwBolt lively (cmd .throwBolt 5 []) (decide ((lively.line 1).queue.length < 8)) none ∧
      Case .pulse .pulse (lively.setLine 1 { busyLine with queue := List.replicate 8 { throw5 with door := 0 } }) (cmd .pulse 5 [30]) true
        none ∧
      Case .retractBolt .retractBolt withDoor (cmd .retractBolt 5 []) true (some .lineDown) ∧
      Case .holderEngage .holderEngage lively (cmd .holderEngage 239 []) true (some .notConfigured) ∧
      Case .holderRelease .holderRelease (withConfig { config5 with withdrawn := true }) (cmd .holderRelease 5 []) true
        (some .withdrawn) ∧
      Case .pollNow .pollNow (sweeping lively (ctx .running none)) (cmd .pollNow 5 []) true (some .inSweep) ∧
      Case .throwBolt .throwBolt (latched lively) (cmd .throwBolt 5 []) true (some .fireHold) ∧
      Case .throwBolt .throwBolt (ranked true .operate (claimed 1 lively)) (cmd .throwBolt 5 []) true (some .claimed) ∧
      Case .throwBolt .throwBolt (ranked true .operate (claimed 0 lively)) (cmd .throwBolt 5 []) true none ∧
      Case .retractBolt .retractBolt
        (ranked true .operate (lively.setGroup 3 { night := true, lastResult := .none, resultSweep := none })) (cmd .retractBolt 5 []) true
        (some .nightPolicy) ∧
      Case .pulse .pulse (lively.setGroup 3 { night := true, lastResult := .none, resultSweep := none }) (cmd .pulse 5 [1]) true none :=
  ⟨case_of (by decide +kernel), case_of (by decide +kernel), case_of (by decide +kernel), case_of (by decide +kernel),
    case_of (by decide +kernel), case_of (by decide +kernel), case_of (by decide +kernel), case_of (by decide +kernel),
    case_of (by decide +kernel), case_of (by decide +kernel), case_of (by decide +kernel)⟩

/-- The requests on door 5's line, and the slot of the door command. -/
def queued (c : Instr) (f : Frame) : List (LineCmd × Bool) × Slot :=
  let p := after c (ask lively f)
  ((p.line 1).queue.map fun r => (r.cmd, r.source = some (.slot 0 0)), p.slot 0 0)

theorem test_doorCommands_drives :
    queued .throwBolt (cmd .throwBolt 5 []) = ([(.driveThrow, true)], .inProgress (cmd .throwBolt 5 []) 0 (some .queued)) ∧
      queued .retractBolt (cmd .retractBolt 5 []) = ([(.driveRetract, true)], .inProgress (cmd .retractBolt 5 []) 0 (some .queued)) ∧
      queued .pulse (cmd .pulse 5 [30]) = ([(.drivePulse 30, true)], .inProgress (cmd .pulse 5 [30]) 0 (some .queued)) := by
  decide +kernel

theorem test_doorCommands_others :
    queued .holderEngage (cmd .holderEngage 5 []) = ([(.holderEngage, true)], .inProgress (cmd .holderEngage 5 []) 0 (some .queued)) ∧
      queued .holderRelease (cmd .holderRelease 5 []) =
        ([(.holderRelease, true)], .inProgress (cmd .holderRelease 5 []) 0 (some .queued)) ∧
      queued .pollNow (cmd .pollNow 5 []) = ([(.pollNow, true)], .inProgress (cmd .pollNow 5 []) 0 (some .queued)) := by
  decide +kernel

/-- The clauses of `Obligations.DoorCommandsAreCheckedAndTaken` on a command's completion and progress: a slot that holds one, and one that
does not. -/
theorem witness_completions :
    (throwing .sending false).slot 0 1 = .inProgress (cmd .throwBolt 5 []) 0 (some .onLine) ∧ fresh.slot 0 1 = .empty := by
  decide +kernel

/-- The withdrawal of a source: its held and queued requests go, one in flight loses its source, and a held request takes a freed place
(R35, R36). -/
theorem test_withdraw :
    let poll (i : SlotNo) : LineRequest := { cmd := .pollNow, door := 5, source := some (.slot 1 i), inFlight := false, purged := false }
    let x := { busyLine with queue := throw5 :: List.replicate 7 { throw5 with inFlight := false }, held := [{ throw5 with inFlight := false }, poll 1] }
    let p := ((withDoor.setLine 1 x).setSlot 1 1 (.inProgress (cmd .pollNow 5 []) 0 (some .held))).withdraw 1 (.slot 0 1)
    (p.line 1).queue = [{ throw5 with source := none }, poll 1] ∧ (p.line 1).held = [] ∧
      p.slot 1 1 = .inProgress (cmd .pollNow 5 []) 0 (some .queued) := by
  decide +kernel

/-! ## The uplink -/

/-- A frame for originator 3, with its bytes. -/
def frame3 : Frame := ⟨1#8, 3#8, 7#8, 0x38#8, 0xFF#8, []⟩

/-- Its bytes on the wire. -/
def bytes3 : List Byte := uplinkFrame 1#8 3#8 7#8 0x38#8 0xFF#8 []

/-- The clauses of `Obligations.AssembledFramesArePlaced`. -/
theorem witness_frames :
    fresh.working = true ∧ frameOfBytes [] = none ∧ frameOfBytes bytes3 = some frame3 ∧ (3 : OriginatorNo).val = frame3.originator.toNat ∧
      frameOfBytes (uplinkFrame 1#8 4#8 7#8 0x38#8 0xFF#8 []) = some { frame3 with originator := 4#8 } ∧ fresh.slot 3 0 = .empty ∧
      (fresh.setSlot 3 0 (.waiting frame3 0)).slot 3 0 ≠ .empty ∧ (fresh.setSlot 3 0 (.waiting frame3 0)).slot 3 1 = .empty ∧
      fresh.uplink.refusals[(3 : OriginatorNo)] = none := by
  decide +kernel

theorem test_frameAssembled :
    let p := after (.frameAssembled bytes3) (only fresh)
    let q := after (.frameAssembled bytes3) (only p)
    let r := after (.frameAssembled bytes3) (only q)
    p.slot 3 0 = .waiting frame3 450 ∧ q.slot 3 1 = .waiting frame3 900 ∧
      (r.uplink.refusals[(3 : OriginatorNo)].map fun x => x.completion) = some .busy ∧
      (r.uplink.senses[(3 : OriginatorNo)].map fun x => (x.completion, x.request)) = some (.busy, 0x38#8) := by
  decide +kernel

/-- A part whose assembler has collected bytes. -/
def collecting (got : List Byte) : Part := { fresh with uplink := { fresh.uplink with assembler := .assembling got } }

/-- The clauses of `Obligations.UplinkCharactersMoveTheAssembler`, at the lengths 5 and 240 and on the last byte of a frame. -/
theorem witness_characters :
    fresh.working = true ∧ fresh.uplink.assembler = .hunting ∧ (collecting []).uplink.assembler = .assembling [] ∧ 5 * 576 < 2881 ∧
      5 ≤ (5#8 : Byte).toNat ∧ (240#8 : Byte).toNat ≤ 240 ∧ (4#8 : Byte).toNat < 5 ∧ 240 < (241#8 : Byte).toNat ∧
      ((bytes3.drop 1).take 7).tail.length + 1 = (5#8 : Byte).toNat + 2 ∧ bytes3.drop 1 = (bytes3.drop 1).take 7 ++ [bytes3.getD 8 0#8] ∧
      frameOfBytes (0xC3#8 :: (bytes3.drop 1).take 7 ++ [bytes3.getD 8 0#8]) = some frame3 ∧
      frameOfBytes (0xC3#8 :: (bytes3.drop 1).take 7 ++ [bytes3.getD 8 0#8 ^^^ 1#8]) = none := by
  decide +kernel

/-- The last byte of a good frame on each placement: the hypotheses, slot 0 occupied, both, with the holder empty or occupied, and an
originator above 3; and where the frame goes. -/
theorem witness_lastCharacter :
    let p := collecting ((bytes3.drop 1).take 7)
    let one := p.setSlot 3 0 (.waiting frame3 0)
    let two := one.setSlot 3 1 (.waiting frame3 0)
    let full := { two with uplink := { two.uplink with refusals := two.uplink.refusals.set 3 (some (frame3.respond 3 .busy [])) } }
    let bytes4 := uplinkFrame 1#8 4#8 7#8 0x38#8 0xFF#8 []
    let last (p : Part) := after (.uplinkCharacterReceived (bytes3.getD 8 0#8) true 0) (only p)
    one.slot 3 0 ≠ .empty ∧ one.slot 3 1 = .empty ∧ two.slot 3 1 ≠ .empty ∧ two.uplink.refusals[(3 : OriginatorNo)] = none ∧
      full.uplink.refusals[(3 : OriginatorNo)] ≠ none ∧
      frameOfBytes (0xC3#8 :: (bytes4.drop 1).take 7 ++ [bytes4.getD 8 0#8]) = some { frame3 with originator := 4#8 } ∧
      (last one).slot 3 1 = .waiting frame3 50 ∧
      ((last two).uplink.refusals[(3 : OriginatorNo)].map fun x => x.completion) = some .busy ∧
      (last two).uplink.waiting = [.holder 3] ∧ (last full).uplink.waiting = [] ∧ (last full).uplink.assembler = .hunting := by
  decide +kernel

/-- The lengths that `Obligations.TheTwoChecks` speaks of, at both ends. -/
theorem witness_lengths :
    ([] : List Byte).length + 5 = (5#8 : Byte).toNat ∧ (List.replicate 235 (0#8 : Byte)).length + 5 = (240#8 : Byte).toNat := by
  decide +kernel

theorem test_uplinkCharacterReceived :
    let p := after (.uplinkCharacterReceived 0xC3#8 true 0) (only fresh)
    let q := after (.uplinkCharacterReceived 4#8 true 0) (only (collecting []))
    let r := after (.uplinkCharacterReceived (bytes3.getD 8 0#8) true 2880) (only (collecting ((bytes3.drop 1).take 7)))
    let x := after (.uplinkCharacterReceived (bytes3.getD 8 0#8) true 2881) (only (collecting ((bytes3.drop 1).take 7)))
    p.uplink.assembler = .assembling [] ∧ p.now = 50 ∧ q.uplink.assembler = .hunting ∧ r.slot 3 0 = .waiting frame3 2930 ∧
      r.uplink.assembler = .hunting ∧ x.slot 3 0 = .empty := by
  decide +kernel

/-- The first bytes of two notices: one with the overflow mark, and a WATCH FIRED with reason FIRE (11.5, R197, R199). -/
theorem test_notices :
    ((Notice.doorSilent 5 1).frame true).take 8 = [0xC3#8, 0x06#8, 0x82#8, 0xFF#8, 0x82#8, 0x12#8, 0x05#8, 0x01#8] ∧
      ((Notice.watchFired 2 3 (.group 4) .change .fire none).frame false).take 12 =
        [0xC3#8, 0x10#8, 0x82#8, 0x02#8, 0x03#8, 0x25#8, 0xFF#8, 0x03#8, 0x02#8, 0x04#8, 0x01#8, 0x03#8] := by
  decide +kernel

/-- A fire broadcast for nodes 1 and 60, the holders of nodes 9 and 64 (11.7). -/
theorem test_broadcastFrame :
    (FireMaps.frame ⟨0x0800000000000001#64, 0x8000000000000100#64⟩).take 19 =
      [0#8, 0x0F#8, 16#8, 8#8, 0#8, 0#8, 0#8, 0#8, 0#8, 0#8, 1#8, 0x80#8, 0#8, 0#8, 0#8, 0#8, 0#8, 1#8, 0#8] := by
  decide +kernel

/-- The clauses of `Obligations.SentFramesFreeTheirPlace`: a notice, a slot's response, a refusal holder's. -/
theorem witness_sent :
    fresh.working = true ∧ fresh.uplink.sending = some (.notice (.partStarted .power false) false 0) ∧
      fresh.uplink.restartPending = false ∧
      { fresh.uplink with sending := some (.response (.holder 3) (frame3.respond 3 .busy []) 0) }.sending =
        some (.response (.holder 3) (frame3.respond 3 .busy []) 0) ∧
      { fresh.uplink with sending := some (.response (.slot 3 1) (frame3.respond 3 .ok []) 0) }.sending =
        some (.response (.slot 3 1) (frame3.respond 3 .ok []) 0) := by
  decide +kernel

/-- A part whose restart is pending while a notice is being sent. -/
def sendingLate : Part :=
  { restarting with uplink := { restarting.uplink with sending := some (.notice (.lineFault 0 fault7) false 0) } }

/-- The hypothesis of `Obligations.SentFramesFreeTheirPlace` on a pending restart: a notice, or a response that is not the OK to RESTART
PART. -/
theorem witness_sent_restarting :
    sendingLate.uplink.restartPending = true ∧ sendingLate.uplink.sending = some (.notice (.lineFault 0 fault7) false 0) ∧
      ¬((frame3.respond 3 .ok []).code = 0x3F#8 ∧ (frame3.respond 3 .ok []).completion = .ok) ∧
      (after .uplinkFrameSent (only sendingLate)).uplink.restartPending = true := by
  decide +kernel

theorem test_uplinkFrameSent :
    let p := after .uplinkFrameSent (only (fresh.raise (.lineFault 0 fault7)))
    p.now = 550 ∧ p.uplink.sending = some (.notice (.lineFault 0 fault7) false 550) ∧ p.notices.fault = [] := by
  decide +kernel

/-- The clauses of `Obligations.NoticesAreQueuedAndSentInOrder`: each level, each queue with a place and full, and each choice. -/
theorem witness_notices :
    (Notice.lineFault 0 fault7).level = .fault ∧ (Notice.tamper 5 (fresh.shortImage 5)).level = .urgent ∧
      (Notice.partStarted .power false).level = .state ∧ fresh.notices.urgent.length < 8 ∧
      8 ≤ (List.replicate 8 (Notice.lineFault 0 fault7)).length ∧ 32 ≤ (List.replicate 32 (Notice.lineFault 0 fault7)).length ∧
      fresh.uplink.waiting = [] ∧ fresh.notices.state = [] ∧
      (fresh.setSlot 0 0 (.answered frame3 0 (frame3.respond 0 .ok []))).slot 0 0 = .answered frame3 0 (frame3.respond 0 .ok []) := by
  decide +kernel

/-- The frames that the clauses of `Obligations.TheFirstFourChecksNameTheRefusal` speak of. -/
theorem witness_checks :
    let f : Frame := ⟨3#8, 0#8, 7#8, 0x10#8, 5#8, []⟩
    let g : Frame := ⟨1#8, 0#8, 7#8, 0x40#8, 0xFF#8, []⟩
    (ask fresh f).part.nextFrame = some (0, 0, f) ∧ (ask fresh f).part.slot 0 0 = .waiting f 0 ∧ f.kind ≠ 0x01#8 ∧ f.kind ≠ 0x02#8 ∧
      (req .loadDoor 5 []).known = some .loadDoor ∧ Code.loadDoor.formHolds (req .loadDoor 5 []) = false ∧ g.known = none ∧
      Code.loadDoor.formHolds (req .loadDoor 5 load5) = true ∧ Code.loadDoor.inRange (req .loadDoor 240 load5) = false ∧
      Code.loadDoor.formHolds (req .loadDoor 240 load5) = true ∧
      ((ranked true .operate fresh).originator 0).authority.code < Code.loadDoor.authority.code ∧
      ((0x40#8 : Byte) ∈ ([0x10#8, 0x40#8] : List Byte)) ∧ (⟨2#8, 0#8, 7#8, 0x10#8, 5#8, []⟩ : Frame).known = none ∧
      (⟨1#8, 0#8, 7#8, 0x50#8, 0xFF#8, []⟩ : Frame).known = none ∧ (req .readGroup 5 [3]).door ≠ 0xFF#8 := by
  decide +kernel

/-- Frames at both ends of the ranges of their codes. -/
theorem test_inRange :
    ([(.loadDoor, 239, [1, 3, 60, 31, 2, 7, 15, 50, 2, 88]), (.loadPlanStep, 255, [7, 23, 32, 2, 1, 3, 1]), (.clearStagedPlan, 255, [7]),
        (.loadScheduleEntry, 255, [15, 1, 39, 95, 7, 2]), (.setOriginator, 255, [3, 1, 3]), (.setClock, 255, [39, 95, 59]),
        (.startSweep, 255, [7]), (.continueSweep, 255, [2]), (.createException, 255, [39, 95, 1, 31]),
        (.createException, 255, [0, 0, 2, 1, 239]), (.extendException, 255, [15, 39, 95]), (.endException, 255, [15]),
        (.armWatch, 255, [1, 239, 3]), (.armWatch, 255, [2, 31, 1]), (.disarmWatch, 255, [7]), (.clearLineFault, 255, [3]),
        (.readGroup, 255, [31]), (.readSweepReport, 255, [1, 5]), (.readCatchUpList, 255, [14]), (.readException, 255, [15]),
        (.readPlan, 255, [1, 7]), (.readSchedule, 255, [15])] : List (Code × Nat × List Nat)).all (fun x => x.1.inRange (req x.1 x.2.1 x.2.2)) ∧
      Code.pulse.inRange (cmd .pulse 239 [30]) = true ∧ Code.pulse.inRange (cmd .pulse 0 [1]) = true := by
  decide +kernel

/-- Frames just outside. -/
theorem test_outOfRange :
    ([(.readDoor, 240, []), (.loadDoor, 0, [1, 0, 61, 0, 0, 0, 0, 2, 0, 5]), (.loadDoor, 0, [1, 0, 1, 0, 0, 0, 0, 1, 0, 5]),
        (.loadDoor, 0, [1, 0, 1, 0, 0, 0, 0, 2, 0, 4]), (.loadPlanStep, 255, [0, 24, 0, 1, 0, 0, 0]),
        (.loadPlanStep, 255, [0, 0, 33, 1, 0, 0, 0]), (.loadPlanStep, 255, [0, 0, 0, 0, 0, 0, 0]),
        (.loadScheduleEntry, 255, [0, 1, 39, 96, 0, 1]),
        (.setOriginator, 255, [0, 0, 0]), (.setClock, 255, [39, 96, 0]), (.setClock, 255, [0, 0, 60]), (.continueSweep, 255, [0]),
        (.createException, 255, [0, 0, 1, 32]), (.createException, 255, [0, 0, 2, 0]), (.createException, 255, [0, 0, 2, 1, 240]),
        (.createException, 255, [0, 0, 2, 13, 0, 1, 2, 3, 4, 5, 6, 7, 8, 9, 10, 11, 12]), (.extendException, 255, [16, 0, 0]),
        (.armWatch, 255, [2, 32, 1]), (.armWatch, 255, [1, 240, 1]), (.armWatch, 255, [3, 0, 1]), (.armWatch, 255, [1, 0, 4]),
        (.readSweepReport, 255, [0, 6]), (.readSweepReport, 255, [2, 0]), (.readCatchUpList, 255, [15]), (.readPlan, 255, [2, 0])] :
        List (Code × Nat × List Nat)).all (fun x => !x.1.inRange (req x.1 x.2.1 x.2.2)) ∧
      Code.pulse.inRange (cmd .pulse 0 [0]) = false ∧ Code.pulse.inRange (cmd .pulse 0 [31]) = false ∧
      Code.pulse.inRange (cmd .pulse 240 [1]) = false := by
  decide +kernel

/-- The door byte of a REQUEST that names no door is judged whether its code is known or not (R190, R198). -/
theorem test_doorByte :
    answer .unknownRequest fresh ⟨1#8, 0#8, 7#8, 0x50#8, 5#8, []⟩ = some .malformed ∧
      answer .unknownRequest fresh ⟨1#8, 0#8, 7#8, 0x50#8, 0xFF#8, []⟩ = some .unknownRequest ∧
      answer .unknownRequest fresh (req .readGroup 5 [3]) = some .malformed ∧
      answer .unknownRequest fresh ⟨2#8, 0#8, 7#8, 0x50#8, 5#8, []⟩ = some .unknownRequest := by
  decide +kernel

theorem test_unknownRequest :
    answer .unknownRequest fresh ⟨3#8, 0#8, 7#8, 0x10#8, 5#8, []⟩ = some .malformed ∧
      answer .unknownRequest fresh ⟨1#8, 0#8, 7#8, 0x40#8, 0xFF#8, []⟩ = some .unknownRequest ∧
      answer .unknownRequest fresh (req .loadDoor 5 []) = some .malformed ∧
      answer .loadDoor fresh (req .loadDoor 240 load5) = some .range ∧
      answer .loadDoor (ranked true .operate fresh) (req .loadDoor 5 load5) = some .authority := by
  decide +kernel

/-- The hypotheses of `Obligations.DoorConfigurationsAreReadAsWritten`, at both ends of the ranges. -/
theorem witness_configurations :
    let low := { config5 with node := 1, boltTime := 2, closeWait := 5 }
    let high := { config5 with node := 60, boltTime := 50, closeWait := 600 }
    { req .loadDoor 0 [] with params := low.bytes }.params = { low with withdrawn := false }.bytes ∧
      { req .loadDoor 239 [] with params := high.bytes }.params = { high with withdrawn := false }.bytes ∧
      (req .loadDoor 239 []).door.toNat < 240 := by
  decide +kernel

/-! ## Power, the reset input and the clock -/

/-- The hypotheses of the statements on a part that is held, and on one that is released. -/
theorem witness_held :
    { fresh with powered := false }.working = false ∧ { fresh with resetAsserted := true }.working = false ∧
      { fresh with resetAsserted := true }.powered = true ∧ fresh.resetAsserted = false ∧ Instr.loadDoor ≠ .powerUp ∧
      Instr.loadDoor ≠ .resetInputAsserted ∧ Instr.loadDoor ≠ .resetInputReleased ∧ Instr.loadDoor ≠ .powerFails ∧
      ∀ r, Instr.loadDoor ≠ .fireInputChange r :=
  ⟨rfl, rfl, rfl, rfl, by decide, by decide, by decide, by decide, fun r h => by cases h⟩

/-- The hypotheses of `Obligations.EveryCommandAnswersANextState` on the choices after a command. -/
theorem witness_choices :
    fresh.working = true ∧ Instr.uplinkFrameSent ≠ .powerUp ∧ Instr.uplinkFrameSent ≠ .resetInputAsserted ∧
      Instr.uplinkFrameSent ≠ .resetInputReleased ∧ Instr.uplinkFrameSent ≠ .powerFails ∧
      ∀ r, Instr.uplinkFrameSent ≠ .fireInputChange r :=
  ⟨rfl, by decide, by decide, by decide, by decide, fun r h => by cases h⟩

theorem test_powerFails :
    let p := after .powerFails (only withDoor)
    p.powered = false ∧ p.working = false ∧ p.uplink.sending = none ∧ (after .timebaseSecond (only p)).now = p.now := by
  decide +kernel

theorem test_powerUp :
    exec .powerUp (only { withDoor with powered := false }) = .next (only (Part.restart false 0 .normal .power false)) := by
  simp [exec, execPowerUp, actAlways, Part.powerUp, only, withDoor, fresh, Part.setDoor, State.reset, Part.blank, FireUnit.blank]

theorem test_resetInput :
    let p := after .resetInputAsserted (only withDoor)
    p.working = false ∧ p.uplink.sending = none ∧ p.config 5 = config5 := by
  decide +kernel

theorem test_resetInputReleased :
    exec .resetInputReleased (only { withDoor with resetAsserted := true }) =
      .next (only (Part.restart false 0 .normal .resetInput false)) := by
  simp [exec, execResetInputReleased, actAlways, Part.releaseReset, only, withDoor, fresh, Part.setDoor, State.reset, Part.blank,
    FireUnit.blank, Uplink.blank]

/-- A part whose schedule entry 15 fires, and whose exception 0 expires, at minute 0. -/
def firing : Part :=
  { claimed 0 withDoor with
    exceptions := withDoor.exceptions.set 0 (some { exception5 with expiry := 0 })
    schedule := withDoor.schedule.set 15 { entry15 with minute := 0 } }

/-- The clauses of `Obligations.TheClockCounts`. -/
theorem witness_clock :
    fresh.working = true ∧ fresh.clock.set = false ∧ (timed fresh).clock.set = true ∧ (timed fresh).clock.second < 59 ∧
      (∀ k : Fin 16, ¬((timed fresh).schedule[k].enabled = true ∧ (timed fresh).schedule[k].minute = 0)) ∧
      firing.exceptions[(0 : ExceptionNo)] = some { exception5 with expiry := 0 } ∧
      (firing.schedule[(15 : Fin 16)].enabled = true ∧ firing.schedule[(15 : Fin 16)].minute = 0 ∧
        firing.schedule[(15 : Fin 16)].repetition = .once) ∧
      { timed fresh with clock := { set := true, minute := 10079, second := 59 } }.clock.second = 59 ∧
      [Block.schedule, .exceptionTable].Nodup ∧ Block.schedule ∈ [Block.schedule, .exceptionTable] ∧
      Block.fireUnit ∉ [Block.schedule, .exceptionTable] ∧
      ([Block.fireUnit, .exceptionTable].find? fun b => b = .schedule ∨ b = .exceptionTable) = some .exceptionTable ∧
      ([Block.fireUnit].find? fun b => b = .schedule ∨ b = .exceptionTable) ≠ some .exceptionTable := by
  decide +kernel

/-- The clauses of `Obligations.TheClockCounts` on a firing: under the latch, of an empty plan, IDLE, and while a sweep runs, with the
slot empty or filled. -/
theorem test_firing :
    let busy := sweeping withDoor (ctx .running none)
    ((latched fresh).firing start2).notices.fault = [.startDropped .fire start2] ∧
      (fresh.firing start2).notices.fault = [.startDropped .emptyPlan start2] ∧
      ((withPlan lively).firing start2).engineState = .running ∧
      (busy.firing start2).engine.pendingStart = some start2 ∧
      ((awaiting busy).firing { start2 with minute := 1 }).notices.fault = [.startDisplaced start2 { start2 with minute := 1 }] ∧
      (((withPlan (catching withDoor (catchUpCtx .running false none))).firing start2).engine.ctx.map fun c => c.yielding) =
        some true := by
  decide +kernel

theorem test_timebaseSecond :
    let p := after .timebaseSecond (only (timed fresh))
    p.clock = { set := true, minute := 10079, second := 59 } ∧ p.now = 576000 ∧
      (after .timebaseSecond (only p)).clock = p.clock ∧ (after .timebaseSecond (only fresh)).clock = fresh.clock := by
  decide +kernel

theorem test_clockAdvance :
    let p := after (.clockAdvance []) (only firing)
    p.clock = { set := true, minute := 0, second := 0 } ∧ p.now = 1152000 ∧ p.exceptions[(0 : ExceptionNo)] = none ∧
      (p.image 5).claim = none ∧ p.schedule[(15 : Fin 16)].enabled = false ∧
      p.notices.fault = [.startDropped .emptyPlan { plan := 7, entry := 15, minute := 0 }] := by
  decide +kernel

/-! ## The queue of commands and the invariants -/

theorem test_step :
    step { part := fresh, pending := [.timebaseSecond, .powerFails] } = .next { part := after .timebaseSecond (only fresh), pending := [.powerFails] } ∧
      step (only fresh) = .next (only { fresh with now := 576 }) := by
  exact ⟨rfl, rfl⟩

theorem fresh_door (d : DoorNo) : fresh.door d = DoorRecord.blank := by
  simp [Part.door, fresh, State.reset, Part.blank]

theorem fresh_line (l : LineNo) : fresh.line l = quietLine := by simp [Part.line, fresh]

theorem fresh_entry (n : EntryNo) : fresh.entry n = none := by simp [Part.entry, fresh, State.reset, Part.blank, Engine.blank]

/-- The idle part meets the premises of the five invariants' statements, and a step on it answers a next state. -/
theorem witness_invariants :
    (only fresh).part.Bounded ∧ (only fresh).part.FireSafe ∧ (only fresh).part.WorkSound ∧ (only fresh).part.TablesSound ∧
      (only fresh).part.ResponsesKept ∧ ∃ t, step (only fresh) = .next t := by
  refine ⟨⟨?_, ?_, ?_⟩, fireSafe_of (by decide +kernel) (by decide +kernel), ⟨?_, ?_, ?_, ?_, ?_⟩, ⟨?_, ?_, ?_, ?_, ?_, ?_⟩, ⟨?_, ?_⟩, _, rfl⟩
  · exact ⟨by decide +kernel, by decide +kernel, by decide +kernel⟩
  · intro l
    rw [show (only fresh).part.line l = quietLine from fresh_line l]
    exact ⟨by decide, by decide, by decide, fun t h => (nomatch h), by decide, by decide, fun b h => (nomatch h)⟩
  · intro d
    rw [show (only fresh).part.image d = DoorRecord.blank.image from congrArg DoorRecord.image (fresh_door d)]
    decide
  · exact List.nodup_nil
  · intro d h; cases h
  · intro m n e e' h; rw [show (only fresh).part.entry m = none from fresh_entry m] at h; cases h
  · intro n e h; rw [show (only fresh).part.entry n = none from fresh_entry n] at h; cases h
  · intro d x h
    rw [show (only fresh).part.image d = DoorRecord.blank.image from congrArg DoorRecord.image (fresh_door d)] at h
    cases h
  · intro d d' h
    rw [show (only fresh).part.config d = DoorRecord.blank.config from congrArg DoorRecord.config (fresh_door d)] at h
    cases h
  · intro d
    rw [show (only fresh).part.config d = DoorRecord.blank.config from congrArg DoorRecord.config (fresh_door d)]
    decide
  · exact ⟨0, by decide +kernel⟩
  · decide +kernel
  · intro _; exact ⟨by decide +kernel, by decide +kernel, by decide +kernel⟩
  · decide +kernel
  · intro _ o i f a r h
    have e : (only fresh).part.slot o i = .empty := by
      simp [only, Part.slot, fresh, State.reset, Part.blank, Uplink.blank]
    rw [e] at h; cases h
  · intro _ o r h
    have e : (only fresh).part.uplink.refusals[o] = none := by
      simp [only, fresh, State.reset, Part.blank, Uplink.blank]
    rw [e] at h; cases h

end Sys2Proof.Tests
end

