-- ==== Sys2Proof/Laws/Ranges.lean ====
section
/-! SUPPORT. The relation in which every step of the part stands to the next for the invariants of the ranges and of the tables
(`Part.Keeps`), with the updates it is built from. While a line's transaction ends, its queue may have a free place that held sources
are still to fill (R35), and its motion list must have a place for the motion of an accepted DRIVE (R40, R43): `Part.Open` is what the
part keeps of its ranges in between. -/
namespace Sys2Proof.Machine

/-! ## A line in between -/

/-- The ranges of a line between the end of its transaction and the filling of its queue: `room` says that its wire is free and its
motion list has a free place, `full` that no place of the queue is free while sources are held. -/
structure Line.Between (room full : Bool) (x : Line) : Prop where
  queue : x.queue.length ≤ 8
  held : full = true → x.held ≠ [] → x.queue.length = 8
  motions : x.motions.length ≤ 8
  room : room = true → x.wire = .free ∧ x.motions.length < 8
  drive : ∀ t, x.wire = .transaction t → t.cmd.isDrive = true → x.motions.length < 8
  conflicts : x.conflicts ≤ 3
  queuedSends : x.queuedSends ≤ 3
  sends : ∀ b, x.broadcast = some b → 1 ≤ b.sends ∧ b.sends ≤ 3

theorem Line.bounded_iff_between (x : Line) : x.Bounded ↔ x.Between false true :=
  ⟨fun h => ⟨h.queue, fun _ => h.held, h.motions, nofun, h.drive, h.conflicts, h.queuedSends, h.sends⟩,
    fun h => ⟨h.queue, h.held rfl, h.motions, h.drive, h.conflicts, h.queuedSends, h.sends⟩⟩

/-- The part keeps its ranges but for what line `l` is still to fill. -/
structure Part.Open (l : LineNo) (room full : Bool) (p : Part) : Prop where
  notices : p.notices.Bounded
  own : (p.line l).Between room full
  others : ∀ k, k ≠ l → (p.line k).Bounded
  silence : ∀ d, (p.image d).silence ≤ 3

theorem Part.bounded_iff_open (p : Part) (l : LineNo) : p.Bounded ↔ p.Open l false true where
  mp h := ⟨h.notices, (Line.bounded_iff_between _).1 (h.lines l), fun k _ => h.lines k, h.silence⟩
  mpr h :=
    ⟨h.notices, fun k => by
      by_cases e : k = l
      · subst e; exact (Line.bounded_iff_between _).2 h.own
      · exact h.others k e, h.silence⟩

/-! ## The relation -/

/-- The configurations, the originators, the clock, the exceptions and the plan banks are as they were. -/
structure Part.SameRecords (p q : Part) : Prop where
  config : ∀ d, q.config d = p.config d
  originators : q.uplink.originators = p.uplink.originators
  clock : q.clock = p.clock
  exceptions : q.exceptions = p.exceptions
  banks : q.banks = p.banks

/-- The tables stay sound, and a part with the ranges `A` comes to have the ranges `B`. -/
structure Part.Leads (A B : Part → Prop) (p q : Part) : Prop where
  tables : p.TablesSound → q.TablesSound
  ranges : A p → B q

/-- The tables stay sound and the ranges are kept. -/
abbrev Part.Keeps (p q : Part) : Prop := Part.Leads Part.Bounded Part.Bounded p q

theorem Part.Leads.refl {A : Part → Prop} (p : Part) : Part.Leads A A p p := ⟨id, id⟩

theorem Part.Leads.trans {A B C : Part → Prop} {p q r : Part} (a : Part.Leads A B p q) (b : Part.Leads B C q r) :
    Part.Leads A C p r := ⟨fun h => b.tables (a.tables h), fun h => b.ranges (a.ranges h)⟩

theorem Part.Leads.foldl {A : Part → Prop} {α : Type} {f : Part → α → Part} (h : ∀ (p : Part) x, Part.Leads A A p (f p x))
    (xs : List α) (p : Part) : Part.Leads A A p (xs.foldl f p) := by
  induction xs generalizing p with
  | nil => exact .refl p
  | cons x xs ih => exact (h p x).trans (ih (f p x))

/-- An end of line `l`'s transaction that leaves nothing to fill keeps the ranges. -/
theorem Part.Leads.closed {l : LineNo} {p q : Part} (h : Part.Leads (Part.Open l false true) (Part.Open l false true) p q) :
    p.Keeps q := ⟨h.tables, fun k => (q.bounded_iff_open l).2 (h.ranges ((p.bounded_iff_open l).1 k))⟩

/-- Before the transaction's end nothing is to be filled. -/
theorem Part.Leads.opened {A : Part → Prop} {l : LineNo} {p q : Part} (h : Part.Leads A Part.Bounded p q) :
    Part.Leads A (Part.Open l false true) p q := ⟨h.tables, fun k => (q.bounded_iff_open l).1 (h.ranges k)⟩

theorem Part.SameRecords.refl (p : Part) : p.SameRecords p := ⟨fun _ => rfl, rfl, rfl, rfl, rfl⟩

theorem Part.SameRecords.trans {p q r : Part} (a : p.SameRecords q) (b : q.SameRecords r) : p.SameRecords r :=
  ⟨fun d => (b.config d).trans (a.config d), b.originators.trans a.originators, b.clock.trans a.clock,
    b.exceptions.trans a.exceptions, b.banks.trans a.banks⟩

/-- Tables that are as they were are sound as they were. -/
theorem Part.SameRecords.sound {p q : Part} (h : p.SameRecords q) (s : p.TablesSound) : q.TablesSound := by
  have ho : ∀ o, q.originator o = p.originator o := fun o => by simp only [Part.originator, h.originators]
  refine ⟨?_, ?_, ?_, ?_, ?_, ?_⟩
  · intro d d'
    rw [h.config, h.config]
    exact s.nodes d d'
  · intro d
    rw [h.config]
    exact s.ranges d
  · obtain ⟨o, e⟩ := s.administrator
    exact ⟨o, (ho o).trans e⟩
  · rw [h.clock]; exact s.clock
  · rw [h.clock, h.exceptions]; exact s.unset
  · rw [h.banks]; exact s.plans

/-! ## Operations that leave the lines and the notices alone -/

/-- The lines, the notices and the tables are as they were, and no count of silence leaves its range (R13). -/
structure Part.Quiet (p q : Part) : Prop extends Part.SameRecords p q where
  lines : q.lines = p.lines
  notices : q.notices = p.notices
  silence : (∀ d, (p.image d).silence ≤ 3) → ∀ d, (q.image d).silence ≤ 3

namespace Part

theorem Quiet.refl (p : Part) : p.Quiet p := ⟨.refl p, rfl, rfl, id⟩

theorem Quiet.trans {p q r : Part} (a : p.Quiet q) (b : q.Quiet r) : p.Quiet r :=
  ⟨a.toSameRecords.trans b.toSameRecords, b.lines.trans a.lines, b.notices.trans a.notices, fun h => b.silence (a.silence h)⟩

theorem Quiet.foldl {α : Type} {f : Part → α → Part} (h : ∀ (p : Part) x, p.Quiet (f p x)) (xs : List α) (p : Part) :
    p.Quiet (xs.foldl f p) := by
  induction xs generalizing p with
  | nil => exact .refl p
  | cons x xs ih => exact (h p x).trans (ih (f p x))

theorem Quiet.line {p q : Part} (h : p.Quiet q) (l : LineNo) : q.line l = p.line l := by simp only [Part.line, h.lines]

theorem Quiet.keeps {p q : Part} (h : p.Quiet q) : p.Keeps q :=
  ⟨h.sound, fun b => ⟨h.notices ▸ b.notices, fun l => h.line l ▸ b.lines l, h.silence b.silence⟩⟩

theorem Quiet.inside {p q : Part} (h : p.Quiet q) (l : LineNo) (room full : Bool) :
    Leads (Open l room full) (Open l room full) p q :=
  ⟨h.sound, fun b => ⟨h.notices ▸ b.notices, h.line l ▸ b.own, fun k hk => h.line k ▸ b.others k hk, h.silence b.silence⟩⟩

theorem reach_quiet (p : Part) (t : Time) : p.Quiet (p.reach t) := { Quiet.refl p with }

/-- A write of a door's image whose count of silence is in its range. -/
theorem setImage_quiet (p : Part) (d : DoorNo) (m : DoorImage) (h : (∀ d, (p.image d).silence ≤ 3) → m.silence ≤ 3) :
    p.Quiet (p.setImage d m) :=
  { Quiet.refl p with
    config := fun x => by simp
    silence := fun k x => by
      rw [setImage_image]
      split
      · exact h k
      · exact k x }

theorem setSlot_quiet (p : Part) (o : OriginatorNo) (i : SlotNo) (x : Slot) : p.Quiet (p.setSlot o i x) := { Quiet.refl p with }

theorem setSense_quiet (p : Part) (o : OriginatorNo) (x : Option SenseRecord) : p.Quiet (p.setSense o x) := { Quiet.refl p with }

theorem noteSense_quiet (p : Part) (o : OriginatorNo) (f : Frame) (c : Completion) (detail : Option Nat) :
    p.Quiet (p.noteSense o f c detail) := by
  unfold noteSense
  split
  · exact .refl p
  · exact setSense_quiet ..

theorem answer_quiet (p : Part) (o : OriginatorNo) (i : SlotNo) (c : Completion) (results : List Byte) (detail : Option Nat) :
    p.Quiet (p.answer o i c results detail) := by
  have h (f : Frame) (x : Slot) (xs : List ResponsePlace) :
      p.Quiet
        { (p.setSlot o i x).noteSense o f c detail with
          uplink := { ((p.setSlot o i x).noteSense o f c detail).uplink with waiting := xs } } :=
    Quiet.trans ((setSlot_quiet ..).trans (noteSense_quiet ..)) { Quiet.refl ((p.setSlot o i x).noteSense o f c detail) with }
  unfold answer
  split
  · exact h ..
  · exact h ..
  · exact .refl p
  · exact .refl p

theorem refuse_quiet (p : Part) (o : OriginatorNo) (i : SlotNo) (c : Completion) : p.Quiet (p.refuse o i c) := answer_quiet ..

theorem answerOk_quiet (p : Part) (o : OriginatorNo) (i : SlotNo) (results : List Byte) : p.Quiet (p.answerOk o i results) :=
  answer_quiet ..

theorem completeCommand_quiet (p : Part) (o : OriginatorNo) (i : SlotNo) (c : Completion) : p.Quiet (p.completeCommand o i c) := by
  unfold completeCommand
  split
  · exact answer_quiet ..
  · exact .refl p

theorem returnSlot_quiet (p : Part) (s : Option Source) (c : Completion) : p.Quiet (p.returnSlot s c) := by
  unfold returnSlot
  split
  · exact completeCommand_quiet ..
  · exact .refl p

theorem completeSlots_quiet (p : Part) (ss : List Source) (c : Completion) : p.Quiet (p.completeSlots ss c) :=
  .foldl (fun q s => by
    split
    · exact completeCommand_quiet ..
    · exact .refl q) ss p

theorem setProgress_quiet (p : Part) (s : Option Source) (g : Progress) : p.Quiet (p.setProgress s g) := by
  unfold setProgress
  split
  · split
    · exact setSlot_quiet ..
    · exact .refl p
  · exact .refl p

theorem heard_quiet (p : Part) (d : DoorNo) : p.Quiet (p.heard d) := setImage_quiet p d _ fun _ => Nat.zero_le 3

/-- A write of a door's image that keeps its count of silence. -/
theorem setImage_quiet_of_eq (p : Part) (d : DoorNo) (m : DoorImage) (h : m.silence = (p.image d).silence) :
    p.Quiet (p.setImage d m) := setImage_quiet p d m fun k => h ▸ k d

theorem suspect_quiet (p : Part) (d : DoorNo) : p.Quiet (p.suspect d) := setImage_quiet_of_eq p d _ rfl

theorem setClaim_quiet (p : Part) (d : DoorNo) (c : Option ExceptionNo) : p.Quiet (p.setClaim d c) :=
  setImage_quiet_of_eq p d _ rfl

theorem setGroup_quiet (p : Part) (g : GroupNo) (r : GroupRecord) : p.Quiet (p.setGroup g r) := { Quiet.refl p with }

theorem engine_quiet (p : Part) (e : Engine) : p.Quiet { p with engine := e } := { Quiet.refl p with }

theorem setCatchUp_quiet (p : Part) (ds : List DoorNo) : p.Quiet { p with catchUp := ds } := { Quiet.refl p with }

theorem setFire_quiet (p : Part) (f : FireUnit) : p.Quiet { p with fire := f } := { Quiet.refl p with }

theorem setWatches_quiet (p : Part) (ws : Vector (Option Watch) 8) : p.Quiet { p with watches := ws } := { Quiet.refl p with }

/-- A write of the uplink that leaves the originator table. -/
theorem setUplink_quiet (p : Part) (u : Uplink) (h : u.originators = p.uplink.originators) : p.Quiet { p with uplink := u } :=
  { Quiet.refl p with originators := h }

theorem offerDoors_quiet (p : Part) (ds : List DoorNo) : p.Quiet (p.offerDoors ds) :=
  .foldl (fun q d => by
    split
    · exact setCatchUp_quiet ..
    · exact .refl q) ds p

/-! ## Notices and lines -/

theorem raise_leads (p : Part) (n : Notice) (l : LineNo) (room full : Bool) :
    Leads (Open l room full) (Open l room full) p (p.raise n) :=
  ⟨SameRecords.sound { SameRecords.refl p with }, fun b => { b with notices := p.notices.raise_bounded n b.notices }⟩

theorem raise_keeps (p : Part) (n : Notice) : p.Keeps (p.raise n) := (raise_leads p n 0 false true).closed

/-- A write of a line whose ranges it takes from one moment of its transaction's end to another. -/
theorem setLine_leads {l : LineNo} {room full room' full' : Bool} {p : Part} {x : Line}
    (h : (p.line l).Between room full → x.Between room' full') :
    Leads (Open l room full) (Open l room' full') p (p.setLine l x) where
  tables := SameRecords.sound { SameRecords.refl p with }
  ranges b :=
    { notices := b.notices
      own := by rw [setLine_line_self]; exact h b.own
      others := fun k hk => by rw [setLine_line, if_neg hk]; exact b.others k hk
      silence := b.silence }

theorem setLine_keeps (p : Part) (l : LineNo) (x : Line) (h : (p.line l).Bounded → x.Bounded) : p.Keeps (p.setLine l x) :=
  (setLine_leads fun b => (Line.bounded_iff_between x).1 (h ((Line.bounded_iff_between _).2 b))).closed

end Part
end Sys2Proof.Machine
end

