-- ==== Sys2Proof/Laws/EngineWrites.lean ====
section
/-! SUPPORT. What the sweep engine writes, as a chain of eight kinds of small writes, said once: an invariant that each of them keeps is
kept by every action of the engine. -/
namespace Sys2Proof.Machine

/-- The small writes of the sweep engine: its own state, a notice, a group record, the catch-up list, a door's last outcome, a commit
carried out, a request submitted and a source withdrawn. -/
inductive Part.EngineWrite : Part → Part → Prop
  | engine (p : Part) (e : Engine) : EngineWrite p { p with engine := e }
  | notice (p : Part) (n : Notice) : EngineWrite p (p.raise n)
  | group (p : Part) (g : GroupNo) (r : GroupRecord) : EngineWrite p (p.setGroup g r)
  | catchUp (p : Part) (ds : List DoorNo) : EngineWrite p { p with catchUp := ds }
  | outcome (p : Part) (d : DoorNo) (o : Option SweepOutcome) : EngineWrite p (p.setImage d { p.image d with lastOutcome := o })
  | commit (p : Part) : EngineWrite p p.takeCommit
  | submit (p : Part) (cmd : LineCmd) (d : DoorNo) (s : Source) : EngineWrite p (p.submit cmd d s).1
  | withdraw (p : Part) (l : LineNo) (s : Source) : EngineWrite p (p.withdraw l s)

/-- A chain of the engine's writes. -/
inductive Part.Writes (p : Part) : Part → Prop
  | refl : Writes p p
  | tail {q r : Part} (chain : Writes p q) (last : q.EngineWrite r) : Writes p r

namespace Part

theorem Writes.single {p q : Part} (h : p.EngineWrite q) : p.Writes q := .tail .refl h

theorem Writes.trans {p q r : Part} (a : p.Writes q) (b : q.Writes r) : p.Writes r := by
  induction b with
  | refl => exact a
  | tail _ last ih => exact .tail ih last

theorem writes_foldl {α : Type} {f : Part → α → Part} (h : ∀ (p : Part) x, p.Writes (f p x)) (xs : List α) (p : Part) :
    p.Writes (xs.foldl f p) := by
  induction xs generalizing p with
  | nil => exact .refl
  | cons x xs ih => exact (h p x).trans (ih (f p x))

theorem engine_writes (p : Part) (e : Engine) : p.Writes { p with engine := e } := .single (.engine p e)
theorem raise_writes (p : Part) (n : Notice) : p.Writes (p.raise n) := .single (.notice p n)
theorem setGroup_writes (p : Part) (g : GroupNo) (r : GroupRecord) : p.Writes (p.setGroup g r) := .single (.group p g r)
theorem setCatchUp_writes (p : Part) (ds : List DoorNo) : p.Writes { p with catchUp := ds } := .single (.catchUp p ds)
theorem submit_writes (p : Part) (cmd : LineCmd) (d : DoorNo) (s : Source) : p.Writes (p.submit cmd d s).1 :=
  .single (.submit p cmd d s)
theorem withdraw_writes (p : Part) (l : LineNo) (s : Source) : p.Writes (p.withdraw l s) := .single (.withdraw p l s)
theorem setEntry_writes (p : Part) (n : EntryNo) (e : Option WorkEntry) : p.Writes (p.setEntry n e) := engine_writes ..
theorem setCtx_writes (p : Part) (c : Option SweepContext) : p.Writes (p.setCtx c) := engine_writes ..
theorem editCtx_writes (p : Part) (f : SweepContext → SweepContext) : p.Writes (p.editCtx f) := engine_writes ..
theorem removeCatchUp_writes (p : Part) (d : DoorNo) : p.Writes (p.removeCatchUp d) := setCatchUp_writes ..
theorem markAborting_writes (p : Part) : p.Writes p.markAborting := engine_writes ..

theorem editReport_writes (p : Part) (k : SweepKind) (f : SweepReport → SweepReport) : p.Writes (p.editReport k f) := by
  cases k <;> exact engine_writes ..

/-! ## Outcomes, steps and entries -/

theorem suspendTest_writes (p : Part) (c : SweepContext) (plan : PlanNo) (number : Nat) (d : DoorNo) (o : SweepOutcome) (k : Nat) :
    p.Writes (p.suspendTest c plan number d o k) := by
  unfold suspendTest
  split
  · exact ((editCtx_writes ..).trans (editReport_writes ..)).trans (raise_writes ..)
  · exact .refl

theorem record_writes (p : Part) (d : DoorNo) (o : SweepOutcome) (step : Option Nat) (attempt : Nat) :
    p.Writes (p.record d o step attempt) := by
  unfold record
  split
  · exact .refl
  · have h (k : SweepKind) (f : SweepReport → SweepReport) :
        p.Writes ((p.setImage d { p.image d with lastOutcome := some o }).editReport k f) :=
      .trans (.single (.outcome p d (some o))) (editReport_writes ..)
    dsimp only
    split
    · exact (h _ _).trans ((editCtx_writes ..).trans (suspendTest_writes ..))
    · exact h _ _

theorem writeResults_writes (p : Part) (s : PlanStep) (number : Nat) (r : StepRecord) : p.Writes (p.writeResults s number r) :=
  writes_foldl (fun _ _ => setGroup_writes ..) _ _

theorem completeStep_writes (p : Part) (plan : PlanNo) (number : Nat) (r : StepRecord) :
    p.Writes (p.completeStep plan number r) := by
  unfold completeStep
  dsimp only
  split
  · exact (writeResults_writes ..).trans (editCtx_writes ..)
  · exact editCtx_writes ..

theorem completeSteps_writes (p : Part) : p.Writes p.completeSteps := by
  unfold completeSteps
  split
  · exact .refl
  · split
    · exact .refl
    · exact writes_foldl (fun _ _ => completeStep_writes ..) _ _

theorem endEntry_writes (p : Part) (n : EntryNo) (o : SweepOutcome) : p.Writes (p.endEntry n o) := by
  unfold endEntry
  split
  · exact .refl
  · exact (((record_writes ..).trans (withdraw_writes ..)).trans (setEntry_writes ..)).trans (completeSteps_writes _)

theorem endEntries_foldl_writes (p : Part) (ends : List (EntryNo × SweepOutcome)) :
    p.Writes (ends.foldl (fun q x => q.endEntry x.1 x.2) p) := writes_foldl (fun _ _ => endEntry_writes ..) _ _

/-! ## The stages of an entry -/

theorem entrySubmit_writes (p : Part) (n : EntryNo) (e : WorkEntry) (cmd : LineCmd) : p.Writes (p.entrySubmit n e cmd).1 :=
  (setEntry_writes ..).trans (submit_writes ..)

theorem closeEvaluation_writes (p : Part) (n : EntryNo) (e : WorkEntry) : p.Writes (p.closeEvaluation n e).1 := by
  unfold closeEvaluation
  dsimp only
  split
  · exact setEntry_writes ..
  · split
    · exact entrySubmit_writes ..
    · split
      · exact entrySubmit_writes ..
      · split
        · exact entrySubmit_writes ..
        · exact setEntry_writes ..

theorem afterCheck_writes (p : Part) (n : EntryNo) (e : WorkEntry) : p.Writes (p.afterCheck n e).1 := by
  unfold afterCheck
  split
  · exact closeEvaluation_writes ..
  · exact entrySubmit_writes ..

theorem check_writes (p : Part) (n : EntryNo) (e : WorkEntry) : p.Writes (p.check n e).1 := by
  unfold check
  split
  · exact afterCheck_writes ..
  · exact entrySubmit_writes ..
  · exact entrySubmit_writes ..

theorem enlist_writes (p : Part) (n : EntryNo) (d : DoorNo) (step : Option Nat) (action : Action) (retries : Nat) :
    p.Writes (p.enlist n d step action retries) := by
  have h (e : WorkEntry) : p.Writes (((p.removeCatchUp d).setEntry n (some e)).check n e).1 :=
    ((removeCatchUp_writes ..).trans (setEntry_writes ..)).trans (check_writes ..)
  unfold enlist
  dsimp only
  split
  · exact (h _).trans (endEntry_writes ..)
  · exact h _

theorem judgeThrow_writes (p : Part) (n : EntryNo) (e : WorkEntry) (b : Option (Bolt × Position)) :
    p.Writes (p.judgeThrow n e b).1 := by
  unfold judgeThrow
  dsimp only
  split
  · exact .refl
  · split
    · exact closeEvaluation_writes ..
    · exact entrySubmit_writes ..
  · split
    · exact entrySubmit_writes ..
    · exact .refl

theorem judgeRelease_writes (p : Part) (n : EntryNo) (e : WorkEntry) (b : Option (Bolt × Position)) :
    p.Writes (p.judgeRelease n e b).1 := by
  unfold judgeRelease
  dsimp only
  split <;> split
  · exact entrySubmit_writes ..
  · exact .refl
  · exact entrySubmit_writes ..
  · exact .refl

theorem judgeMotion_writes (p : Part) (n : EntryNo) (e : WorkEntry) (b : Option (Bolt × Position)) :
    p.Writes (p.judgeMotion n e b).1 := by
  unfold judgeMotion
  dsimp only
  split
  · exact .refl
  · split
    · split
      · exact closeEvaluation_writes ..
      · exact .refl
    · split
      · exact judgeThrow_writes ..
      · exact judgeRelease_writes ..

theorem judgeReplyFor_writes (p : Part) (n : EntryNo) (e : WorkEntry) : p.Writes (p.judgeReplyFor n e).1 := by
  unfold judgeReplyFor
  split
  · exact closeEvaluation_writes ..
  · split
    · exact .refl
    · split
      · split
        · exact .refl
        · exact (withdraw_writes ..).trans (closeEvaluation_writes ..)
      · split
        · exact closeEvaluation_writes ..
        · exact .refl

theorem entryActs_writes (p : Part) (n : EntryNo) (e : WorkEntry) (ev : EntryEvent) : p.Writes (p.entryActs n e ev).1 := by
  unfold entryActs
  split
  · split <;> exact .refl
  · cases ev with
    | polled => exact afterCheck_writes ..
    | reply => exact judgeReplyFor_writes ..
    | acceptDrive => exact setEntry_writes ..
    | acceptHolder =>
      dsimp only
      split
      · exact .refl
      · exact closeEvaluation_writes ..
    | motionEnd => exact judgeMotion_writes ..
    | refuseMoving | refused | noReply | silent => exact .refl

theorem handEntry_writes (p : Part) (n : EntryNo) (ev : EntryEvent) : p.Writes (p.handEntry n ev).1 := by
  unfold handEntry
  split
  · exact .refl
  · dsimp only
    split
    · exact (entryActs_writes ..).trans (endEntry_writes ..)
    · exact entryActs_writes ..

/-! ## Starts, steps and ends of sweeps -/

theorem startPlan_writes (p : Part) (plan : PlanNo) : p.Writes (p.startPlan plan) := (engine_writes ..).trans (raise_writes ..)

theorem tryCatchUp_writes (p : Part) : p.Writes p.tryCatchUp := by
  unfold tryCatchUp
  split
  · exact (engine_writes ..).trans (raise_writes ..)
  · exact .refl

theorem takePendingStart_writes (p : Part) : p.Writes p.takePendingStart := by
  unfold takePendingStart
  split
  · exact .refl
  · dsimp only
    split
    · exact (engine_writes ..).trans (raise_writes ..)
    · split
      · exact (engine_writes ..).trans (raise_writes ..)
      · exact (engine_writes ..).trans (startPlan_writes ..)

theorem returnToIdle_writes (p : Part) : p.Writes p.returnToIdle :=
  .trans (.single (.commit p)) ((takePendingStart_writes _).trans (tryCatchUp_writes _))

theorem setNight_writes (p : Part) (gs : List GroupNo) (b : Bool) : p.Writes (p.setNight gs b) :=
  writes_foldl (fun _ _ => setGroup_writes ..) _ _

theorem beginStep_writes (p : Part) (k : Nat) (s : PlanStep) : p.Writes (p.beginStep k s) := by
  unfold beginStep
  dsimp only
  split
  · exact ((editCtx_writes ..).trans (setNight_writes ..)).trans (setCatchUp_writes ..)
  · split
    · exact (editCtx_writes ..).trans (setNight_writes ..)
    · exact editCtx_writes ..

theorem handled_writes (p : Part) (h : Handling) (d : DoorNo) (k : Nat) (s : PlanStep) : p.Writes (p.handled h d k s) := by
  cases h with
  | outcome o => exact record_writes ..
  | wait => exact .refl
  | enlist n => exact enlist_writes ..

theorem countHandled_writes (p : Part) (c : SweepContext) (k : Nat) (s : PlanStep) (d : DoorNo) :
    p.Writes (p.countHandled c k s d) := by
  unfold countHandled
  dsimp only
  split
  · exact (setNight_writes ..).trans (editCtx_writes ..)
  · exact editCtx_writes ..

theorem cursorMove_writes {p q : Part} {c : SweepContext} {plan : PlanNo} (h : p.cursorMove c plan = some q) : p.Writes q := by
  unfold cursorMove at h
  simp only [Option.bind_eq_bind, Option.bind_eq_some_iff] at h
  obtain ⟨k, -, s, -, h⟩ := h
  split at h
  · cases h; exact editCtx_writes ..
  · split at h
    · cases h
    · cases h; exact (countHandled_writes ..).trans (handled_writes ..)

theorem redoMove_writes {p q : Part} {plan : PlanNo} {d : DoorNo} {k : Nat} (h : p.redoMove plan d k = some q) : p.Writes q := by
  unfold redoMove at h
  simp only [Option.bind_eq_bind, Option.bind_eq_some_iff] at h
  obtain ⟨s, -, h⟩ := h
  split at h
  · split at h
    · cases h
    · cases h; exact (editCtx_writes ..).trans (handled_writes ..)
  · cases h; exact editCtx_writes ..

theorem cutStep_writes (p : Part) (c : SweepContext) (plan : PlanNo) (number : Nat) (r : StepRecord) :
    p.Writes (p.cutStep c plan number r) := by
  unfold cutStep
  split
  · exact writeResults_writes ..
  · exact .refl

theorem endSweep_writes (p : Part) (c : SweepContext) (status : FinalStatus) : p.Writes (p.endSweep c status) := by
  have close (q : Part) (f : SweepReport → SweepReport) (n : Notice) :
      q.Writes ((((q.editReport c.kind f).raise n).setCtx none).returnToIdle) :=
    (((editReport_writes ..).trans (raise_writes ..)).trans (setCtx_writes ..)).trans (returnToIdle_writes _)
  unfold endSweep
  split
  · exact (writes_foldl (fun _ _ => cutStep_writes ..) c.records p).trans (close ..)
  · exact close ..

/-! ## The engine's actions -/

theorem planAction_writes {p q : Part} {c : SweepContext} {plan : PlanNo} {number length : Nat}
    (h : p.planAction c plan number length = some q) : p.Writes q := by
  unfold planAction at h
  split at h
  · cases h; exact completeStep_writes ..
  · split at h
    · cases h
    · split at h
      · cases h; exact endSweep_writes ..
      · cases h
    · split at h
      · obtain ⟨s, -, rfl⟩ := Option.map_eq_some_iff.1 h
        exact beginStep_writes ..
      · split at h
        · exact redoMove_writes h
        · split at h
          · cases h; exact endSweep_writes ..
          · exact cursorMove_writes h

theorem catchUpAction_writes {p q : Part} {c : SweepContext} (h : p.catchUpAction c = some q) : p.Writes q := by
  unfold catchUpAction at h
  split at h
  · split at h
    · cases h; exact endSweep_writes ..
    · cases h
  · split at h
    · cases h; exact endSweep_writes ..
    · split at h
      · cases h
      · split at h
        · cases h
        · split at h
          · cases h; exact (removeCatchUp_writes ..).trans (record_writes ..)
          · obtain ⟨n, -, rfl⟩ := Option.map_eq_some_iff.1 h
            exact enlist_writes ..

theorem engineAction_writes {p q : Part} (h : p.engineAction = some q) : p.Writes q := by
  unfold engineAction at h
  split at h
  · cases h
  · split at h
    · exact planAction_writes h
    · exact catchUpAction_writes h

theorem engineLoop_writes (n : Nat) (p : Part) : p.Writes (p.engineLoop n) := by
  induction n generalizing p with
  | zero => exact .refl
  | succ n ih =>
    unfold engineLoop
    split
    · exact .refl
    · next q h => exact (engineAction_writes h).trans (ih q)

theorem engineRun_writes (p : Part) : p.Writes p.engineRun := engineLoop_writes ..

/-! ## Events that reach the engine -/

theorem entryEvent_writes (p : Part) (n : EntryNo) (ev : EntryEvent) : p.Writes (p.entryEvent n ev) := by
  unfold entryEvent
  dsimp only
  split
  · exact (handEntry_writes ..).trans (engineRun_writes _)
  · exact handEntry_writes ..

theorem endEntries_writes (p : Part) (ends : List (EntryNo × SweepOutcome)) : p.Writes (p.endEntries ends) := by
  unfold endEntries
  split
  · exact .refl
  · exact (endEntries_foldl_writes ..).trans (engineRun_writes _)

theorem fireEndsSweep_writes (p : Part) : p.Writes p.fireEndsSweep := by
  have h (f : SweepContext → SweepContext) (g : Part → List (EntryNo × SweepOutcome)) :
      p.Writes ((g (p.editCtx f).completeSteps).foldl (fun q x => q.endEntry x.1 x.2) (p.editCtx f).completeSteps) :=
    ((editCtx_writes ..).trans (completeSteps_writes _)).trans (endEntries_foldl_writes ..)
  unfold fireEndsSweep
  split
  · exact .refl
  · dsimp only
    split
    · exact ((h _ fun q => q.entriesWith fun _ _ => some .fire).trans (endSweep_writes ..)).trans (engineRun_writes _)
    · exact h _ fun q => q.entriesWith fun _ _ => some .fire

theorem offerCatchUp_writes (p : Part) : p.Writes p.offerCatchUp := by
  unfold offerCatchUp
  split
  · exact (tryCatchUp_writes _).trans (engineRun_writes _)
  · split
    · exact engineRun_writes _
    · exact .refl

theorem offerIfGrown_writes (p : Part) (n : Nat) : p.Writes (p.offerIfGrown n) := by
  unfold offerIfGrown
  split
  · exact offerCatchUp_writes _
  · exact .refl

theorem continueSweep_writes (p : Part) (redo : Bool) : p.Writes (p.continueSweep redo) :=
  (editCtx_writes ..).trans (engineRun_writes _)

theorem abortSweep_writes (p : Part) : p.Writes p.abortSweep :=
  (((editCtx_writes ..).trans (markAborting_writes _)).trans (completeSteps_writes _)).trans
    ((endEntries_foldl_writes ..).trans (engineRun_writes _))

/-! ## The ranges and the tables -/

/-- Held submissions fill what an ending transaction left free (R35). -/
theorem placeHeld_leads (p : Part) (l : LineNo) (room full : Bool) : Leads (Open l room full) Bounded p (p.placeHeld l) := by
  refine Leads.trans (B := Bounded) ?_ (Leads.foldl (fun _ _ => (setProgress_quiet ..).keeps) _ _)
  have h := setLine_leads (l := l) (p := p) (room := room) (full := full) (room' := false) (full' := true)
    (x := { p.line l with
      queue := (p.line l).queue ++ (p.line l).held.take (Config.queuePlaces - (p.line l).queue.length)
      held := (p.line l).held.drop (Config.queuePlaces - (p.line l).queue.length) })
    fun b => { b with
      queue := by
        have := b.queue
        simp only [List.length_append, List.length_take, Config.queuePlaces]
        omega
      held := fun _ hne => by
        have := b.queue
        simp only [ne_eq, List.drop_eq_nil_iff, Config.queuePlaces, Nat.not_le] at hne
        simp only [List.length_append, List.length_take, Config.queuePlaces]
        omega
      room := nofun }
  exact ⟨h.tables, fun k => (bounded_iff_open _ l).2 (h.ranges k)⟩

theorem placeHeld_keeps (p : Part) (l : LineNo) : p.Keeps (p.placeHeld l) :=
  Leads.trans (B := Open l false true) (Leads.refl p).opened (placeHeld_leads ..)

theorem submit_keeps (p : Part) (cmd : LineCmd) (d : DoorNo) (s : Source) : p.Keeps (p.submit cmd d s).1 := by
  unfold submit
  dsimp only
  split
  · exact .refl p
  · split
    · next hq =>
      refine Leads.trans (setLine_keeps _ _ _ fun b => ?_) (setProgress_quiet ..).keeps
      exact { b with
        queue := by rw [List.length_append]; exact hq
        held := fun hne => absurd (b.held hne) (Nat.ne_of_lt hq) }
    · next hq =>
      refine Leads.trans (setLine_keeps _ _ _ fun b => ?_) (setProgress_quiet ..).keeps
      exact { b with held := fun _ => Nat.le_antisymm b.queue (Nat.le_of_not_lt hq) }

/-- Fewer requests and motions whose sources go leave a line's free places to be filled. -/
theorem withdraw_keeps (p : Part) (l : LineNo) (s : Source) : p.Keeps (p.withdraw l s) := by
  refine Leads.trans (B := Open l false false) (Leads.trans (Leads.refl p).opened (setLine_leads fun b => ?_)) (placeHeld_leads ..)
  exact { b with
    queue := by simpa using Nat.le_trans (List.length_filter_le ..) b.queue
    held := nofun
    motions := by simpa using b.motions
    room := nofun
    drive := fun t ht hd => by simpa using b.drive t ht hd }

theorem takeCommit_keeps (p : Part) : p.Keeps p.takeCommit := by
  unfold takeCommit
  split
  · exact ⟨fun s => { s with plans := fun k => ⟨(s.plans k).1, (s.plans k).1⟩ }, fun b => { b with }⟩
  · exact .refl p

theorem EngineWrite.keeps {p q : Part} (h : p.EngineWrite q) : p.Keeps q := by
  cases h with
  | engine e => exact (engine_quiet p e).keeps
  | notice n => exact raise_keeps p n
  | group g r => exact (setGroup_quiet p g r).keeps
  | catchUp ds => exact (setCatchUp_quiet p ds).keeps
  | outcome d o => exact (setImage_quiet_of_eq p d { p.image d with lastOutcome := o } rfl).keeps
  | commit => exact takeCommit_keeps p
  | submit cmd d s => exact submit_keeps p cmd d s
  | withdraw l s => exact withdraw_keeps p l s

/-- Whatever the engine does keeps the ranges and the tables. -/
theorem Writes.keeps {p q : Part} (h : p.Writes q) : p.Keeps q := by
  induction h with
  | refl => exact .refl p
  | tail _ w ih => exact ih.trans w.keeps

end Part
end Sys2Proof.Machine
end

