-- ==== Sys2Proof/Laws/LineRanges.lean ====
section
/-! SUPPORT. The operations of the line controllers, the watches and the fire release unit keep the ranges and the tables. -/
namespace Sys2Proof.Machine
namespace Part

/-! ## Orders, watches and faults -/

theorem inOrder_keeps {act : Block → Part → Part} (h : ∀ b p, Keeps p (act b p)) (p : Part) (blocks : List Block) :
    p.Keeps (p.inOrder blocks act) := Leads.foldl (fun q b => h b q) blocks p

theorem testWatch_keeps (p : Part) (d : DoorNo) (ev : DoorEvent) (shown : ShortImage) (k : Fin 8) :
    p.Keeps (p.testWatch d ev shown k) := by
  unfold testWatch
  split
  · exact .refl p
  · split
    · exact (setWatches_quiet ..).keeps.trans (raise_keeps ..)
    · exact .refl p

theorem testWatches_keeps (p : Part) (d : DoorNo) (ev : DoorEvent) (shown : ShortImage) : p.Keeps (p.testWatches d ev shown) :=
  .foldl (fun _ _ => testWatch_keeps ..) _ _

theorem fireWatch_keeps (p : Part) (k : Fin 8) : p.Keeps (p.fireWatch k) := by
  unfold fireWatch
  split
  · exact .refl p
  · exact (setWatches_quiet ..).keeps.trans (raise_keeps ..)

theorem fireWatches_keeps (p : Part) : p.Keeps p.fireWatches := .foldl fireWatch_keeps _ _

theorem offerFault_keeps (p : Part) (l : LineNo) (kind : FaultKind) (node : Option Nat) (fn : Option LineFunction) :
    p.Keeps (p.offerFault l kind node fn) := by
  unfold offerFault
  dsimp only
  split
  · exact setLine_keeps _ _ _ fun b => { b with }
  · exact (setLine_keeps _ _ _ fun b => by exact { b with }).trans (raise_keeps ..)

/-- An offer of a fault leaves what is on the wire. -/
theorem offerFault_wire (p : Part) (l : LineNo) (kind : FaultKind) (node : Option Nat) (fn : Option LineFunction) :
    ((p.offerFault l kind node fn).line l).wire = (p.line l).wire := by
  unfold offerFault
  dsimp only
  split <;> simp

theorem offerConflict_keeps (p : Part) (l : LineNo) (b : Bool) (node : Nat) (fn : LineFunction) :
    p.Keeps (p.offerConflict l b node fn) := by
  unfold offerConflict
  split
  · exact offerFault_keeps ..
  · exact .refl p

theorem offerConflict_wire (p : Part) (l : LineNo) (b : Bool) (node : Nat) (fn : LineFunction) :
    ((p.offerConflict l b node fn).line l).wire = (p.line l).wire := by
  unfold offerConflict
  split
  · exact offerFault_wire ..
  · rfl

/-! ## The release-pending set and the broadcasts -/

theorem confirmIfEmpty_keeps (p : Part) : p.Keeps p.confirmIfEmpty := by
  unfold confirmIfEmpty
  split
  · exact raise_keeps ..
  · exact .refl p

theorem confirmRelease_keeps (p : Part) (d : DoorNo) : p.Keeps (p.confirmRelease d) := by
  unfold confirmRelease
  split
  · exact (setFire_quiet ..).keeps.trans (confirmIfEmpty_keeps _)
  · exact .refl p

theorem removeRelease_keeps (p : Part) (d : DoorNo) : p.Keeps (p.removeRelease d) := by
  unfold removeRelease
  split
  · exact (setFire_quiet ..).keeps.trans (confirmIfEmpty_keeps _)
  · exact .refl p

theorem joinRelease_quiet (p : Part) (d : DoorNo) : p.Quiet (p.joinRelease d) := by
  unfold joinRelease
  split
  · exact setFire_quiet ..
  · exact .refl p

end Part

/-- A wire holds a transaction once its broadcast is outdated only if it held it before. -/
theorem Wire.outdated_eq_transaction {w : Wire} {t : Transaction} (h : w.outdated = .transaction t) : w = .transaction t := by
  cases w with
  | free => cases h
  | transaction => exact h
  | broadcast => cases h

namespace Part

theorem makeBroadcast_keeps (p : Part) (l : LineNo) : p.Keeps (p.makeBroadcast l) :=
  setLine_keeps _ _ _ fun b => { b with
    drive := fun t ht => b.drive t (Wire.outdated_eq_transaction ht)
    sends := fun c hc => by cases hc; simp }

theorem makeBroadcasts_keeps (p : Part) : p.Keeps p.makeBroadcasts := .foldl makeBroadcast_keeps _ _

theorem fireReconfigured_keeps (p : Part) (d : DoorNo) : p.Keeps (p.fireReconfigured d) := by
  unfold fireReconfigured
  dsimp only
  split
  · refine Leads.trans ?_ (makeBroadcast_keeps ..)
    split
    · exact removeRelease_keeps ..
    · split
      · exact (joinRelease_quiet ..).keeps
      · exact .refl p
  · exact .refl p

theorem purgeLine_keeps (p : Part) (l : LineNo) : p.Keeps (p.purgeLine l) := by
  have h (x : Line) (k : (p.line l).Between false true → x.Between false false) : Leads Bounded (Open l false false) p (p.setLine l x) :=
    (Leads.refl p).opened.trans (setLine_leads k)
  refine ((h _ fun b => ?_).trans ((completeSlots_quiet ..).inside ..)).trans (placeHeld_leads ..)
  exact { b with
    queue := by simpa using Nat.le_trans (List.length_filter_le ..) b.queue
    held := nofun }

/-! ## A line goes down -/

theorem goDown_keeps (p : Part) (l : LineNo) (state : LineState) (overload : Bool) (order : List Block) :
    p.Keeps (p.goDown l state overload order) := by
  unfold goDown
  dsimp only
  refine Leads.trans (Leads.trans (Leads.trans (setLine_keeps _ _ _ fun b => ?_) (Quiet.foldl suspect_quiet _ _).keeps)
    (completeSlots_quiet ..).keeps) (inOrder_keeps (fun b q => ?_) _ _)
  · exact { b with
      queue := Nat.zero_le 8
      held := fun h => absurd rfl h
      motions := Nat.zero_le 8
      drive := fun _ _ _ => Nat.zero_lt_succ 7
      conflicts := Nat.zero_le 3
      queuedSends := Nat.zero_le 3 }
  · split
    · exact Leads.foldl (fun _ _ => testWatches_keeps ..) _ _
    · exact (endEntries_writes ..).keeps
    · exact .refl q

theorem countConflict_keeps (p : Part) (l : LineNo) (conflicted : Bool) (order : List Block) :
    p.Keeps (p.countConflict l conflicted order) := by
  have count (n : Nat) (hn : n ≤ 3) : p.Keeps (p.setLine l { p.line l with conflicts := n }) :=
    setLine_keeps _ _ _ fun b => { b with conflicts := hn }
  have le : (if conflicted then raiseTo 3 (p.line l).conflicts else 0) ≤ 3 := by
    split
    · exact Nat.min_le_left ..
    · exact Nat.zero_le 3
  unfold countConflict
  dsimp only
  generalize (if conflicted then raiseTo 3 (p.line l).conflicts else 0) = n at le ⊢
  split
  · exact .refl p
  · split
    · exact (count n le).trans (goDown_keeps ..)
    · exact count n le

/-! ## The end of a transaction -/

variable {l : LineNo} {room full : Bool}

/-- The end of a transaction frees the wire; the motion list has a place for the motion of a DRIVE (R40, R43). -/
theorem freeWire_leads {p : Part} {t : Transaction} (hw : (p.line l).wire = .transaction t) :
    Leads Bounded (Open l t.cmd.isDrive true) p (p.setLine l { p.line l with wire := .free }) :=
  (Leads.refl p).opened.trans (setLine_leads fun b =>
    { b with room := fun hd => ⟨rfl, b.drive t hw hd⟩, drive := fun _ h => Wire.noConfusion h })

theorem dropMotion_leads (p : Part) (d : DoorNo) : Leads (Open l room full) (Open l room full) p (p.dropMotion l d) :=
  have fewer : ((p.line l).motions.filter fun m => m.door ≠ d).length ≤ (p.line l).motions.length := List.length_filter_le ..
  setLine_leads fun b => { b with
    motions := Nat.le_trans fewer b.motions
    room := fun h => ⟨(b.room h).1, Nat.lt_of_le_of_lt fewer (b.room h).2⟩
    drive := fun t ht hd => Nat.lt_of_le_of_lt fewer (b.drive t ht hd) }

theorem stampPoll_leads (p : Part) (d : DoorNo) : Leads (Open l room full) (Open l room full) p (p.stampPoll l d) :=
  setLine_leads fun b => { b with
    motions := by simpa using b.motions
    room := fun h => by simpa using b.room h
    drive := fun t ht hd => by simpa using b.drive t ht hd }

theorem addMotion_leads (p : Part) (d : DoorNo) (dir : Direction) (s : Option Source) (wait : Bool) :
    Leads (Open l true full) (Open l false full) p (p.addMotion l d dir s wait) :=
  setLine_leads fun b => { b with
    motions := by rw [List.length_append]; exact (b.room rfl).2
    room := nofun
    drive := fun t ht => nomatch (b.room rfl).1.symm.trans ht }

theorem dropFlying_leads (p : Part) : Leads (Open l room full) (Open l room false) p (p.dropFlying l) :=
  setLine_leads fun b => { b with
    queue := Nat.le_trans (List.length_filter_le ..) b.queue
    held := nofun }

theorem requeueFlying_leads (p : Part) : Leads (Open l room full) (Open l room full) p (p.requeueFlying l) :=
  setLine_leads fun b => { b with
    queue := by simpa using b.queue
    held := fun h k => by simpa using b.held h k }

/-- A source that is an entry is handed its event. -/
theorem returnEntry_keeps (p : Part) (s : Option Source) (ev : EntryEvent) : p.Keeps (p.returnEntry s ev) := by
  unfold returnEntry
  split
  · exact (entryEvent_writes ..).keeps
  · exact .refl p

theorem weaken_leads (p : Part) : Leads (Open l room full) (Open l false full) p p :=
  ⟨id, fun h => { h with own := { h.own with room := nofun } }⟩

theorem loosen_leads (p : Part) : Leads (Open l room full) (Open l room false) p p :=
  ⟨id, fun h => { h with own := { h.own with held := nofun } }⟩

theorem closed_leads (p : Part) : Leads (Open l room true) Bounded p p :=
  ⟨id, fun h => (p.bounded_iff_open l).2 ((weaken_leads p).ranges h)⟩

/-- The request of an ending transaction leaves the queue where the transaction was a queued one. -/
theorem dropQueued_leads (p : Part) (c : Prop) [Decidable c] :
    Leads (Open l room full) (Open l room false) p (if c then p.dropFlying l else p) := by
  split
  · exact dropFlying_leads p
  · exact loosen_leads p

theorem probeEnds_leads (p : Part) (t : Transaction) : Leads (Open l room full) (Open l room full) p (p.probeEnds l t) := by
  unfold probeEnds
  split
  · split
    · exact setLine_leads fun b => { b with }
    · exact setLine_leads fun b => { b with conflicts := Nat.zero_le 3, queuedSends := Nat.zero_le 3 }
  · exact .refl p

theorem replyNotices_keeps (p : Part) (d : DoorNo) (r : StateReply) (old : DoorImage) (night : Bool) (shown : ShortImage) :
    p.Keeps (p.replyNotices l d r old night shown) := by
  have maybe (q : Part) (c : Prop) [Decidable c] (n : Notice) : q.Keeps (if c then q.raise n else q) := by
    split
    · exact raise_keeps ..
    · exact .refl q
  unfold replyNotices
  exact (((maybe p _ _).trans (maybe _ _ _)).trans (maybe _ _ _)).trans (maybe _ _ _)

theorem engineHears_keeps (p : Part) (d : DoorNo) (r : StateReply) (ev : EntryEvent) : p.Keeps (p.engineHears d r ev) := by
  have tested (q : Part) (told : p.Keeps q) : p.Keeps (if q.catchUpTest d r then (q.appendCatchUp d).offerCatchUp else q) := by
    split
    · exact (told.trans (setCatchUp_quiet q (q.catchUp ++ [d])).keeps).trans (offerCatchUp_writes _).keeps
    · exact told
  unfold engineHears
  dsimp only
  split
  · exact tested _ (entryEvent_writes ..).keeps
  · exact tested p (.refl p)

theorem applyState_leads (p : Part) (t : Transaction) (d : DoorNo) (r : StateReply) (order : List Block) :
    Leads (Open l room true) Bounded p (p.applyState l t d r order) := by
  unfold applyState
  dsimp only
  refine Leads.trans (B := Bounded) ?_ (inOrder_keeps (fun b q => ?_) _ _)
  · refine Leads.trans (B := Open l room false) ?_ (placeHeld_leads ..)
    have image : Leads (Open l room true) (Open l room true) p
        ((p.heard d).setImage d (((p.heard d).image d).written r (p.config d).holderFitted)) :=
      ((heard_quiet p d).inside ..).trans ((setImage_quiet_of_eq (p.heard d) d (((p.heard d).image d).written r (p.config d).holderFitted) rfl).inside ..)
    have motion (q : Part) : Leads (Open l room true) (Open l room true) q (if r.atRest then q.dropMotion l d else q.stampPoll l d) := by
      split
      · exact dropMotion_leads q d
      · exact stampPoll_leads q d
    have ended : Leads (Open l room true) (Open l room false) p _ := (image.trans (motion _)).trans (dropQueued_leads _ (t.kind = .queued))
    have returned := ended.trans ((returnSlot_quiet _ (if t.kind = .queued then (p.line l).flying.bind (·.source) else none) .ok).inside ..)
    split
    · exact returned.trans ((returnSlot_quiet ..).inside ..)
    · exact returned
  · split
    · exact replyNotices_keeps ..
    · exact testWatches_keeps ..
    · split
      · exact confirmRelease_keeps ..
      · exact .refl q
    · exact engineHears_keeps ..
    · exact .refl q

theorem applySilence_leads (p : Part) (t : Transaction) (d : DoorNo) (order : List Block) :
    Leads (Open l room true) Bounded p (p.applySilence l t d order) := by
  unfold applySilence
  dsimp only
  refine Leads.trans (B := Bounded) ?_ (inOrder_keeps (fun b q => ?_) _ _)
  · refine Leads.trans (B := Open l room false) ?_ (placeHeld_leads ..)
    exact (((((setImage_quiet p d _ fun _ => Nat.min_le_left ..).inside ..).trans (dropQueued_leads _ _)).trans
      (stampPoll_leads ..)).trans ((returnSlot_quiet ..).inside ..))
  · split
    · split
      · exact raise_keeps ..
      · exact .refl q
    · split
      · exact testWatches_keeps ..
      · exact .refl q
    · split
      · exact (entryEvent_writes ..).keeps
      · split
        · split
          · exact (entryEvent_writes ..).keeps
          · exact .refl q
        · exact .refl q
    · exact .refl q

/-- The end of a HOLDER request: the image is written, the response built, the freed place filled and the entry told (R31). -/
theorem endHolder_leads (p q : Part) (s : Option Source) (c : Completion) (ev : EntryEvent) (h : p.Quiet q) :
    Leads (Open l room full) Bounded p ((((q.dropFlying l).returnSlot s c).placeHeld l).returnEntry s ev) :=
  ((((h.inside ..).trans (dropFlying_leads _)).trans ((returnSlot_quiet ..).inside ..)).trans (placeHeld_leads ..)).trans
    (returnEntry_keeps ..)

/-- An accepted DRIVE makes its motion (R43). -/
theorem startMotion_leads (p q : Part) (d : DoorNo) (dir : Direction) (s : Option Source) (h : p.Quiet q) :
    Leads (Open l true full) Bounded p
      (((((q.dropFlying l).addMotion l d dir s false).setProgress s .inMotion).placeHeld l).returnEntry s .acceptDrive) :=
  ((((((h.inside ..).trans (dropFlying_leads _)).trans (addMotion_leads ..)).trans ((setProgress_quiet ..).inside ..)).trans
    (placeHeld_leads ..))).trans (returnEntry_keeps ..)

theorem applyAccept_leads (p : Part) (t : Transaction) (d : DoorNo) :
    Leads (Open l t.cmd.isDrive true) Bounded p (p.applyAccept l t d) := by
  have image (m : DoorImage) (h : m.silence = ((p.heard d).image d).silence) : p.Quiet (p.setImage d m) :=
    setImage_quiet p d m fun k => h ▸ (heard_quiet p d).silence k d
  unfold applyAccept
  dsimp only
  split
  · exact closed_leads p
  · exact endHolder_leads _ _ _ _ _ (image _ rfl)
  · exact endHolder_leads _ _ _ _ _ (image _ rfl)
  · next e => rw [e]; exact startMotion_leads _ _ _ _ _ (image _ rfl)
  · next e => rw [e]; exact startMotion_leads _ _ _ _ _ (image _ rfl)
  · next e => rw [e]; exact startMotion_leads _ _ _ _ _ (image _ rfl)

theorem applyRefused_leads (p : Part) (d : DoorNo) : Leads (Open l room true) Bounded p (p.applyRefused l d) :=
  endHolder_leads p (p.heard d) _ _ _ (heard_quiet p d)

theorem applyMoving_leads (p : Part) (t : Transaction) (d : DoorNo) : Leads (Open l true true) Bounded p (p.applyMoving l t d) := by
  have image : p.Quiet (p.setImage d { (p.heard d).image d with bolt := .moving }) :=
    setImage_quiet p d _ fun k => (heard_quiet p d).silence k d
  have added := (image.inside l true true).trans (addMotion_leads _ d t.cmd.direction none true)
  unfold applyMoving
  dsimp only
  split
  · refine Leads.trans (Leads.trans (added.trans (dropFlying_leads _)) (Quiet.inside ?_ ..)) (placeHeld_leads ..)
    exact returnSlot_quiet ..
  · refine Leads.trans (Leads.trans (Leads.trans (added.trans (requeueFlying_leads _)) (Quiet.inside ?_ ..)) (closed_leads _))
      (returnEntry_keeps ..)
    exact setProgress_quiet ..

theorem applyPurged_leads (p : Part) : Leads (Open l room full) Bounded p (p.applyPurged l) :=
  ((dropFlying_leads p).trans ((returnSlot_quiet ..).inside ..)).trans (placeHeld_leads ..)

theorem applyResult_leads (p : Part) (t : Transaction) (d : DoorNo) (result : Option Reply) (order : List Block) :
    Leads (Open l t.cmd.isDrive true) Bounded p (p.applyResult l t d result order) := by
  unfold applyResult
  split
  · exact applyState_leads ..
  · exact applyAccept_leads ..
  · split
    · next h => rw [h.2]; exact applyMoving_leads ..
    · exact applyRefused_leads ..
  · split
    · exact applyPurged_leads p
    · split
      · exact closed_leads p
      · exact applySilence_leads ..

theorem applyNowhere_leads (p : Part) (t : Transaction) : Leads (Open l room true) Bounded p (p.applyNowhere l t) := by
  unfold applyNowhere
  split
  · exact (dropFlying_leads p).trans (placeHeld_leads ..)
  · exact closed_leads p

theorem transactionEnd_keeps {p : Part} {t : Transaction} (hw : (p.line l).wire = .transaction t) (result : Option Reply)
    (order : List Block) : p.Keeps (p.transactionEnd l t result order) := by
  have freed := (freeWire_leads hw).trans (probeEnds_leads _ t)
  unfold transactionEnd
  dsimp only
  refine Leads.trans ?_ (countConflict_keeps ..)
  split
  · exact freed.trans (applyResult_leads ..)
  · exact freed.trans (applyNowhere_leads ..)

/-- A transaction stays on the wire with its command. -/
theorem setTransaction_keeps {p : Part} {t : Transaction} (hw : (p.line l).wire = .transaction t) (u : Transaction)
    (hc : u.cmd = t.cmd) : p.Keeps (p.setTransaction l u) :=
  setLine_keeps _ _ _ fun b => { b with drive := fun v hv hd => by cases hv; exact b.drive t hw (hc ▸ hd) }

theorem sendFails_keeps {p : Part} {t : Transaction} (hw : (p.line l).wire = .transaction t) (order : List Block) :
    p.Keeps (p.sendFails l t order) := by
  unfold sendFails
  dsimp only
  split
  · exact transactionEnd_keeps hw ..
  · exact setTransaction_keeps hw _ rfl

theorem motionTimesOut_keeps (p : Part) (m : MotionEntry) : p.Keeps (p.motionTimesOut l m) := by
  have image : p.Quiet (p.setImage m.door { p.image m.door with bolt := .unknown }) := setImage_quiet_of_eq _ _ _ rfl
  unfold motionTimesOut
  dsimp only
  exact ((image.keeps.trans (dropMotion_leads _ _).closed).trans (returnSlot_quiet ..).keeps).trans (returnEntry_keeps ..)

end Part
end Sys2Proof.Machine
end

