-- ==== Sys2Proof/Laws/CommandRanges.lean ====
section
/-! SUPPORT. The choices of the free transmitters and the requests of the handler keep the ranges and the tables. -/
namespace Sys2Proof.Machine
namespace Part

/-! ## The choices after a command (R38, R178) -/

theorem begin_keeps (p : Part) (l : LineNo) (kind : TransactionKind) (cmd : LineCmd) (door : Option DoorNo) (node : Nat)
    (room : cmd.isDrive = true → (p.line l).motions.length < 8) : p.Keeps (p.begin l kind cmd door node) :=
  setLine_keeps _ _ _ fun b => { b with drive := fun t ht hd => by cases ht; exact room hd }

/-- A poll makes no motion. -/
theorem beginPoll_keeps (p : Part) (l : LineNo) (kind : TransactionKind) (door : Option DoorNo) (node : Nat) :
    p.Keeps (p.begin l kind .pollNow door node) := begin_keeps _ _ _ _ _ _ fun h => absurd h (by decide)

theorem beginRoutine_keeps (p : Part) (l : LineNo) (d : DoorNo) : p.Keeps (p.beginRoutine l d) :=
  (setLine_keeps _ _ _ fun b => by exact { b with queuedSends := Nat.zero_le 3 }).trans (beginPoll_keeps ..)

end Part

theorem markInFlight_length (ok : LineRequest → Bool) (rs : List LineRequest) : (markInFlight ok rs).length = rs.length := by
  simpa using congrArg List.length (markInFlight_map ok rs)

/-- A sendable DRIVE has a place for its motion (R40). -/
theorem Line.sendable_room {x : Line} {r : LineRequest} (h : x.sendable r = true) (hd : r.cmd.isDrive = true) :
    x.motions.length < 8 := by
  simp only [Line.sendable, hd, Bool.true_and, Bool.and_eq_true, Bool.not_eq_true', decide_eq_false_iff_not, Nat.not_le] at h
  exact h.2

namespace Part

theorem beginQueued_keeps (p : Part) (l : LineNo) (r : LineRequest) (h : (p.line l).sendable r = true) :
    p.Keeps (p.beginQueued l r) := by
  have marked : p.Keeps (p.setLine l
      { p.line l with
        queue := markInFlight (p.line l).sendable (p.line l).queue, queuedSends := raiseTo 3 (p.line l).queuedSends }) :=
    setLine_keeps _ _ _ fun b => { b with
      queue := by rw [markInFlight_length]; exact b.queue
      held := fun k => by rw [markInFlight_length]; exact b.held k
      queuedSends := Nat.min_le_left .. }
  refine (marked.trans (setProgress_quiet _ r.source .onLine).keeps).trans (begin_keeps _ _ _ _ _ _ fun hd => ?_)
  rw [(setProgress_quiet ..).line, setLine_line_self]
  exact Line.sendable_room h hd

theorem answerResume_quiet (p : Part) (x : OriginatorNo × SlotNo) : p.Quiet (p.answerResume x) := by
  unfold answerResume
  split
  · exact answerOk_quiet ..
  · exact .refl p

theorem answerProbe_keeps (p : Part) (l : LineNo) : p.Keeps (p.answerProbe l) :=
  (setLine_keeps _ _ _ fun b => by exact { b with }).trans (Quiet.foldl answerResume_quiet _ _).keeps

theorem beginProbe_keeps (p : Part) (l : LineNo) : p.Keeps (p.beginProbe l) := by
  have due : p.Keeps (p.setLine l { p.line l with probeDue := false, probeTimer := none }) :=
    setLine_keeps _ _ _ fun b => { b with }
  unfold beginProbe
  refine Leads.trans ?_ (answerProbe_keeps ..)
  split
  · exact due.trans (beginPoll_keeps ..)
  · exact due.trans (beginPoll_keeps ..)

theorem chooseQueued_keeps (p : Part) (l : LineNo) : p.Keeps (p.chooseQueued l) := by
  unfold chooseQueued
  dsimp only
  split
  · next h _ => exact beginQueued_keeps _ _ _ (List.find?_some h)
  · next h _ =>
    split
    · exact beginRoutine_keeps ..
    · exact beginQueued_keeps _ _ _ (List.find?_some h)
  · exact beginRoutine_keeps ..
  · exact .refl p

theorem lineChoice_keeps (p : Part) (l : LineNo) : p.Keeps (p.lineChoice l) := by
  have broadcast (m : FireMaps) : p.Keeps (p.setLine l { p.line l with wire := .broadcast m p.now true }) :=
    setLine_keeps _ _ _ fun b => { b with drive := fun _ h => Wire.noConfusion h }
  unfold lineChoice
  dsimp only
  split
  · exact .refl p
  · split
    · exact broadcast _
    · exact broadcast _
    · exact .refl p
    · split
      · exact beginPoll_keeps ..
      · exact chooseQueued_keeps ..
    · split
      · exact beginProbe_keeps ..
      · exact .refl p

theorem setNotices_keeps (p : Part) (q : NoticeQueues) (h : p.notices.Bounded → q.Bounded) : p.Keeps { p with notices := q } :=
  ⟨SameRecords.sound { SameRecords.refl p with }, fun b => { b with notices := h b.notices }⟩

theorem send_keeps (p : Part) (x : Outbound) : p.Keeps (p.send x) :=
  (setUplink_quiet p { p.uplink with sending := some x } rfl).keeps

theorem sendResponse_keeps {p q : Part} (h : p.sendResponse = some q) : p.Keeps q := by
  unfold sendResponse at h
  split at h
  · cases h
  · next x xs _ =>
    obtain ⟨r, -, rfl⟩ := Option.map_eq_some_iff.1 h
    exact (setUplink_quiet p { p.uplink with waiting := xs } rfl).keeps.trans (send_keeps ..)

/-- What is left of a queue whose oldest notice leaves it. -/
theorem rest_length_le {α : Type} {xs rest : List α} {x : α} {n : Nat} (e : xs = x :: rest) (h : xs.length ≤ n) : rest.length ≤ n := by
  subst e
  exact Nat.le_of_succ_le h

theorem uplinkChoice_keeps (p : Part) : p.Keeps p.uplinkChoice := by
  unfold uplinkChoice
  split
  · exact .refl p
  · split
    · next rest e =>
      exact (setNotices_keeps p { p.notices with urgent := rest, urgentOverflow := false } fun b =>
        ⟨rest_length_le e b.1, b.2⟩).trans (send_keeps ..)
    · split
      · next h => exact sendResponse_keeps h
      · split
        · next rest e =>
          exact (setNotices_keeps p { p.notices with fault := rest, faultOverflow := false } fun b =>
            ⟨b.1, rest_length_le e b.2.1, b.2.2⟩).trans (send_keeps ..)
        · split
          · next rest e =>
            exact (setNotices_keeps p { p.notices with state := rest, stateOverflow := false } fun b =>
              ⟨b.1, b.2.1, rest_length_le e b.2.2⟩).trans (send_keeps ..)
          · exact .refl p

theorem settle_keeps (p : Part) (n : Nat) : p.Keeps (p.settle n) := by
  have chosen := Leads.foldl lineChoice_keeps (List.finRange 4) p
  unfold settle
  dsimp only
  generalize (List.finRange 4).foldl lineChoice p = q at chosen ⊢
  exact (chosen.trans (setUplink_quiet q { q.uplink with waiting := orderBuilt n q.uplink.waiting } rfl).keeps).trans
    (uplinkChoice_keeps _)

theorem after_keeps {f : Part → Part} (h : ∀ p, Keeps p (f p)) (p : Part) : p.Keeps (p.after f) := by
  unfold after
  split
  · exact (h p).trans (settle_keeps ..)
  · exact .refl p

/-- A decision keeps what its owner's action and the refusals keep (R190). -/
theorem decide_keeps {c : Code} {own : OriginatorNo → SlotNo → Frame → Part → Part}
    (h : ∀ o i f q, c.inRange f = true → Keeps q (own o i f q)) (p : Part) : p.Keeps (p.decide c own) := by
  unfold decide
  split
  · exact .refl p
  · split
    · exact .refl p
    · split
      · split
        · exact (refuse_quiet ..).keeps
        · split
          · exact (refuse_quiet ..).keeps
          · next hr => exact h _ _ _ _ (by simpa using hr)
      · exact .refl p

/-! ## Door commands and door table requests -/

theorem takeCommand_keeps (p : Part) (c : Code) (o : OriginatorNo) (i : SlotNo) (f : Frame) : p.Keeps (p.takeCommand c o i f) := by
  unfold takeCommand
  split
  · exact (setSlot_quiet ..).keeps.trans (submit_keeps ..)
  · exact .refl p

theorem doorCommand_keeps (p : Part) (c : Code) (o : OriginatorNo) (i : SlotNo) (f : Frame) : p.Keeps (p.doorCommand c o i f) := by
  unfold doorCommand
  split
  · exact (answer_quiet ..).keeps
  · exact takeCommand_keeps ..

/-- A write of a configuration within its ranges, whose line and node no other configured record has (R1). -/
theorem setConfig_keeps (p : Part) (d : DoorNo) (c : DoorConfig)
    (ranges : (p.TablesSound) → (1 ≤ c.node ∧ c.node ≤ 60) ∧ (2 ≤ c.boltTime ∧ c.boltTime ≤ 50) ∧ (5 ≤ c.closeWait ∧ c.closeWait ≤ 600))
    (node : (p.TablesSound) → c.configured = true → ∀ x, x ≠ d → (p.config x).configured = true →
      (p.config x).line = c.line → (p.config x).node ≠ c.node) : p.Keeps (p.setConfig d c) where
  tables s :=
    { s with
      nodes := fun x y => by
        rw [setConfig_config, setConfig_config]
        split
        · next hx =>
          split
          · next hy => exact fun _ _ _ _ => hx.trans hy.symm
          · next hy => exact fun hc hy' hl hn => absurd hn.symm (node s hc y hy hy' hl.symm)
        · next hx =>
          split
          · exact fun hx' hc hl hn => absurd hn (node s hc x hx hx' hl)
          · exact s.nodes x y
      ranges := fun x => by
        rw [setConfig_config]
        split
        · exact ranges s
        · exact s.ranges x }
  ranges b := { b with silence := fun x => by rw [setConfig_image]; exact b.silence x }

/-- A change of the withdrawn field alone. -/
theorem setWithdrawn_keeps (p : Part) (d : DoorNo) (w : Bool) : p.Keeps (p.setConfig d { p.config d with withdrawn := w }) :=
  setConfig_keeps _ _ _ (fun s => s.ranges d) fun s hc x hx hx' hl hn => hx (s.nodes x d hx' hc hl hn)

/-- A change made on every line within the ranges. -/
theorem mapLines_keeps (p : Part) (f : Line → Line) (h : ∀ x : Line, x.Bounded → (f x).Bounded) :
    p.Keeps { p with lines := p.lines.map f } :=
  ⟨SameRecords.sound { SameRecords.refl p with }, fun b => { b with
    lines := fun l => by
      have e : Part.line { p with lines := p.lines.map f } l = f (p.line l) := by simp [Part.line]
      rw [e]
      exact h _ (b.lines l) }⟩

end Part

theorem Wire.detach_eq_transaction {w : Wire} {d : DoorNo} {t : Transaction} (h : w.detach d = .transaction t) :
    ∃ u, w = .transaction u ∧ u.cmd = t.cmd := by
  unfold Wire.detach at h
  split at h
  · split at h
    · cases h; exact ⟨_, rfl, rfl⟩
    · exact ⟨_, h, rfl⟩
  · cases h
  · cases h

namespace Part

theorem detachPolls_keeps (p : Part) (d : DoorNo) : p.Keeps (p.detachPolls d) :=
  mapLines_keeps p _ fun _ b => { b with
    drive := fun _ ht hd => by
      obtain ⟨u, hu, hc⟩ := Wire.detach_eq_transaction ht
      exact b.drive u hu (hc ▸ hd) }

theorem clearImage_keeps (p : Part) (d : DoorNo) : p.Keeps (p.clearImage d) :=
  (setImage_quiet p d _ fun _ => Nat.zero_le 3).keeps.trans (detachPolls_keeps ..)

end Part

/-- The ranges that check 4 of R190 gives the configuration LOAD DOOR carries (1.1). -/
theorem Frame.doorConfig_ranges {f : Frame} (h : Code.loadDoor.inRange f = true) (w : Bool) :
    (1 ≤ (f.doorConfig w).node ∧ (f.doorConfig w).node ≤ 60) ∧ (2 ≤ (f.doorConfig w).boltTime ∧ (f.doorConfig w).boltTime ≤ 50) ∧
      (5 ≤ (f.doorConfig w).closeWait ∧ (f.doorConfig w).closeWait ≤ 600) := by
  simp only [Code.inRange, Bool.and_eq_true, decide_eq_true_eq] at h
  obtain ⟨-, ⟨⟨⟨⟨-, node⟩, -⟩, -⟩, bolt⟩, wait⟩ := h
  exact ⟨node, bolt, wait⟩

namespace Part

theorem reconfigured_keeps (p : Part) (d : DoorNo) (old new : DoorConfig) (h : p.Keeps (p.setConfig d new)) :
    p.Keeps (p.reconfigured d old new) := by
  unfold reconfigured
  dsimp only
  have cleared (c : Prop) [Decidable c] : p.Keeps (if c then (p.setConfig d new).clearImage d else p.setConfig d new) := by
    split
    · exact h.trans (clearImage_keeps ..)
    · exact h
  split
  · exact (cleared _).trans (setCatchUp_quiet ..).keeps
  · exact cleared _

theorem loadDoor_keeps (o : OriginatorNo) (i : SlotNo) (f : Frame) (p : Part) (h : Code.loadDoor.inRange f = true) :
    p.Keeps (p.loadDoor o i f) := by
  unfold loadDoor
  dsimp only
  split
  · exact (answer_quiet ..).keeps
  · split
    · exact (refuse_quiet ..).keeps
    · split
      · exact (refuse_quiet ..).keeps
      · next ht =>
        have free : p.Keeps (p.setConfig f.doorNo (f.doorConfig (p.config f.doorNo).withdrawn)) :=
          setConfig_keeps _ _ _ (fun _ => Frame.doorConfig_ranges h _) fun _ hc x hx hx' hl hn =>
            ht ⟨hc, (p.nodeTaken_iff ..).2 ⟨x, hx, hx', hl, hn⟩⟩
        exact ((reconfigured_keeps _ _ _ _ free).trans (fireReconfigured_keeps ..)).trans (answerOk_quiet ..).keeps

theorem withdrawDoor_keeps (o : OriginatorNo) (i : SlotNo) (f : Frame) (p : Part) : p.Keeps (p.withdrawDoor o i f) := by
  unfold withdrawDoor
  dsimp only
  split
  · exact (refuse_quiet ..).keeps
  · split
    · exact (refuse_quiet ..).keeps
    · split
      · exact (answer_quiet ..).keeps
      · split
        · exact (refuse_quiet ..).keeps
        · exact ((((setWithdrawn_keeps ..).trans (clearImage_keeps ..)).trans (setCatchUp_quiet ..).keeps).trans
            (removeRelease_keeps ..)).trans (answerOk_quiet ..).keeps

theorem restoreDoor_keeps (o : OriginatorNo) (i : SlotNo) (f : Frame) (p : Part) : p.Keeps (p.restoreDoor o i f) := by
  unfold restoreDoor
  dsimp only
  split
  · exact (refuse_quiet ..).keeps
  · split
    · exact (refuse_quiet ..).keeps
    · exact ((setWithdrawn_keeps ..).trans (fireReconfigured_keeps ..)).trans (answerOk_quiet ..).keeps

/-! ## Exceptions and the clock -/

/-- A write of an exception slot; while the clock is UNSET none may be ACTIVE (R107). -/
theorem setException_keeps (p : Part) (x : ExceptionNo) (e : Option ExceptionRecord)
    (h : p.TablesSound → p.clock.set = false → e = none) : p.Keeps (p.setException x e) where
  tables s :=
    { s with
      unset := fun hc => by
        obtain ⟨hm, hs, he⟩ := s.unset hc
        refine ⟨hm, hs, fun y => ?_⟩
        by_cases hy : x.val = y.val
        · simp [setException, hy, h s hc]
        · simpa [setException, Vector.getElem_set_ne _ _ hy] using he y }
  ranges b := { b with }

theorem claimDoors_keeps (p : Part) (x : ExceptionNo) (ds : List DoorNo) : p.Keeps (p.claimDoors x ds) :=
  (Quiet.foldl (fun _ _ => (setClaim_quiet ..).trans (setCatchUp_quiet ..)) ds p).keeps.trans (endEntries_writes ..).keeps

theorem createException_keeps (o : OriginatorNo) (i : SlotNo) (f : Frame) (p : Part) : p.Keeps (p.createException o i f) := by
  unfold createException
  dsimp only
  split
  · exact (refuse_quiet ..).keeps
  · next hc =>
    split
    · exact (refuse_quiet ..).keeps
    · split
      · exact (refuse_quiet ..).keeps
      · split
        · exact (answer_quiet ..).keeps
        · exact (refuse_quiet ..).keeps
        · exact ((setException_keeps _ _ _ fun _ k => absurd k (by simpa using hc)).trans (claimDoors_keeps ..)).trans
            (answerOk_quiet ..).keeps

theorem extendException_keeps (o : OriginatorNo) (i : SlotNo) (f : Frame) (p : Part) : p.Keeps (p.extendException o i f) := by
  unfold extendException
  dsimp only
  split
  · exact (refuse_quiet ..).keeps
  · next e he =>
    split
    · exact (refuse_quiet ..).keeps
    · split
      · exact (refuse_quiet ..).keeps
      · exact (setException_keeps _ _ _ fun s k => by simp [(s.unset k).2.2] at he).trans (answerOk_quiet ..).keeps

theorem endException_keeps (p : Part) (x : ExceptionNo) (cause : ExceptionCause) : p.Keeps (p.endException x cause) := by
  unfold endException
  split
  · exact .refl p
  · exact (((Quiet.foldl (fun _ _ => setClaim_quiet ..) _ _).trans (offerDoors_quiet ..)).keeps.trans (raise_keeps ..)).trans
      (setException_keeps _ _ _ fun _ _ => rfl)

theorem endExceptions_keeps (p : Part) (test : ExceptionRecord → Bool) (cause : ExceptionCause) :
    p.Keeps (p.endExceptions test cause) := .foldl (fun _ _ => endException_keeps ..) _ _

theorem endExceptionRequest_keeps (o : OriginatorNo) (i : SlotNo) (f : Frame) (p : Part) :
    p.Keeps (p.endExceptionRequest o i f) := by
  unfold endExceptionRequest
  dsimp only
  split
  · exact (refuse_quiet ..).keeps
  · split
    · exact (refuse_quiet ..).keeps
    · exact ((endException_keeps ..).trans (offerIfGrown_writes ..).keeps).trans (answerOk_quiet ..).keeps

/-- A write of a set clock within its ranges (R125). -/
theorem writeClock_keeps (p : Part) (c : DayClock) (t : Time) (hs : c.set = true)
    (h : p.TablesSound → c.minute < 10080 ∧ c.second < 60) : p.Keeps { p with clock := c, secondBegan := t } where
  tables s := { s with clock := h s, unset := fun k => absurd (hs.symm.trans k) nofun }
  ranges b := { b with }

theorem setPassesExceptions_keeps (p : Part) (minute : Nat) : p.Keeps (p.setPassesExceptions minute) := by
  unfold setPassesExceptions
  dsimp only
  split
  · exact endExceptions_keeps ..
  · exact .refl p

theorem setClock_keeps (o : OriginatorNo) (i : SlotNo) (f : Frame) (p : Part) (h : Code.setClock.inRange f = true) :
    p.Keeps (p.setClock o i f) := by
  have range : f.param16 0 < 10080 ∧ f.param 2 < 60 := by
    simpa [Code.inRange, Code.namesDoor, Nat.lt_succ_iff] using h
  exact (((setPassesExceptions_keeps p (f.param16 0)).trans (writeClock_keeps _ ⟨true, f.param16 0, f.param 2⟩ p.now rfl fun _ => range)).trans
    (offerIfGrown_writes ..).keeps).trans (answerOk_quiet ..).keeps

/-! ## Fire restore, line requests, plans, schedule and originators -/

theorem restoreFire_keeps (p : Part) : p.Keeps p.restoreFire := by
  have withdrawn : p.Keeps { p with fire := p.fire.restored, lines := p.lines.map Line.withoutBroadcast } :=
    (setFire_quiet p p.fire.restored).keeps.trans (mapLines_keeps _ _ fun _ b => { b with
      drive := fun t ht => b.drive t (Wire.outdated_eq_transaction ht)
      sends := fun _ h => nomatch h })
  have offered := fun ds n => (withdrawn.trans (offerDoors_quiet _ ds).keeps).trans (raise_keeps _ n)
  unfold restoreFire
  dsimp only
  split
  · exact (offered _ _).trans (offerCatchUp_writes _).keeps
  · exact (offered _ _).trans (offerIfGrown_writes ..).keeps

theorem fireRestoreRequest_keeps (o : OriginatorNo) (i : SlotNo) (f : Frame) (p : Part) : p.Keeps (p.fireRestoreRequest o i f) := by
  unfold fireRestoreRequest
  split
  · exact (restoreFire_keeps p).trans (answerOk_quiet ..).keeps
  · exact (refuse_quiet ..).keeps

theorem clearLineFault_keeps (o : OriginatorNo) (i : SlotNo) (f : Frame) (p : Part) : p.Keeps (p.clearLineFault o i f) :=
  (setLine_keeps _ _ _ fun b => by exact { b with }).trans (answerOk_quiet ..).keeps

theorem quietLine_keeps (order : List Block) (o : OriginatorNo) (i : SlotNo) (f : Frame) (p : Part) :
    p.Keeps (p.quietLine order o i f) := by
  unfold quietLine
  dsimp only
  split
  · exact (goDown_keeps ..).trans (answerOk_quiet ..).keeps
  · exact (setLine_keeps _ _ _ fun b => by exact { b with }).trans (answerOk_quiet ..).keeps
  · exact (refuse_quiet ..).keeps

theorem returnActive_keeps (p : Part) (l : LineNo) : p.Keeps (p.returnActive l) :=
  setLine_keeps _ _ _ fun b => { b with conflicts := Nat.zero_le 3, queuedSends := Nat.zero_le 3 }

theorem awaitProbe_keeps (p : Part) (l : LineNo) (o : OriginatorNo) (i : SlotNo) : p.Keeps (p.awaitProbe l o i) := by
  unfold awaitProbe
  split
  · exact (setSlot_quiet ..).keeps.trans (setLine_keeps _ _ _ fun b => { b with })
  · exact .refl p

theorem resumeLine_keeps (o : OriginatorNo) (i : SlotNo) (f : Frame) (p : Part) : p.Keeps (p.resumeLine o i f) := by
  unfold resumeLine
  dsimp only
  split
  · exact (returnActive_keeps ..).trans (answerOk_quiet ..).keeps
  · split
    · exact (answerOk_quiet ..).keeps
    · exact awaitProbe_keeps ..
  · exact (refuse_quiet ..).keeps

/-- A write of a staged plan of at most 24 steps (6.6). -/
theorem setStaged_keeps (p : Part) (k : PlanNo) (x : Plan) (h : p.TablesSound → x.length ≤ 24) : p.Keeps (p.setStaged k x) where
  tables s :=
    { s with
      plans := fun j => by
        refine ⟨?_, (s.plans j).2⟩
        by_cases hj : k.val = j.val
        · simpa [setStaged, hj] using h s
        · simpa [setStaged, Vector.getElem_set_ne _ _ hj] using (s.plans j).1 }
  ranges b := { b with }

theorem loadPlanStep_keeps (o : OriginatorNo) (i : SlotNo) (f : Frame) (p : Part) (h : Code.loadPlanStep.inRange f = true) :
    p.Keeps (p.loadPlanStep o i f) := by
  have range : f.param 1 ≤ 23 := by
    simp only [Code.inRange, Bool.and_eq_true, decide_eq_true_eq] at h
    obtain ⟨-, ⟨⟨⟨⟨⟨-, index⟩, -⟩, -⟩, -⟩, -⟩, -⟩ := h
    exact index
  unfold loadPlanStep
  dsimp only
  split
  · exact (refuse_quiet ..).keeps
  · split
    · exact (refuse_quiet ..).keeps
    · split
      · exact (setStaged_keeps _ _ _ fun s => by rw [List.length_set]; exact (s.plans _).1).trans (answerOk_quiet ..).keeps
      · exact (setStaged_keeps _ _ _ fun _ => by simp only [List.length_append, List.length_singleton]; omega).trans
          (answerOk_quiet ..).keeps

theorem clearStagedPlan_keeps (o : OriginatorNo) (i : SlotNo) (f : Frame) (p : Part) : p.Keeps (p.clearStagedPlan o i f) := by
  unfold clearStagedPlan
  split
  · exact (refuse_quiet ..).keeps
  · exact (setStaged_keeps _ _ [] fun _ => Nat.zero_le 24).trans (answerOk_quiet ..).keeps

theorem commitPlans_keeps (o : OriginatorNo) (i : SlotNo) (f : Frame) (p : Part) : p.Keeps (p.commitPlans o i f) := by
  have active : p.Keeps { p with banks := { p.banks with active := p.banks.staged } } :=
    ⟨fun s => { s with plans := fun k => ⟨(s.plans k).1, (s.plans k).1⟩ }, fun b => { b with }⟩
  have pending : p.Keeps { p with banks := { p.banks with commitPending := true } } := ⟨fun s => { s with }, fun b => { b with }⟩
  unfold commitPlans
  split
  · exact active.trans (answerOk_quiet ..).keeps
  · exact pending.trans (answer_quiet ..).keeps

theorem loadScheduleEntry_keeps (o : OriginatorNo) (i : SlotNo) (f : Frame) (p : Part) : p.Keeps (p.loadScheduleEntry o i f) :=
  Leads.trans (q := { p with schedule := p.schedule.set (Fin.ofNat 16 (f.param 0)) f.scheduleEntry })
    ⟨SameRecords.sound { SameRecords.refl p with }, fun b => { b with }⟩ (answerOk_quiet ..).keeps

/-- An originator table that still holds an enabled ADMINISTER record (R184). -/
theorem setOriginators_keeps (p : Part) (table : Vector OriginatorRecord 4)
    (h : (table.toList.any fun r => r.enabled && r.authority = .administer) = true) :
    p.Keeps { p with uplink := { p.uplink with originators := table } } where
  tables s :=
    { s with
      administrator := by
        obtain ⟨r, hr, hp⟩ := List.any_eq_true.1 h
        obtain ⟨k, hk, rfl⟩ := List.getElem_of_mem hr
        obtain ⟨enabled, authority⟩ : _ ∧ _ := by simpa using hp
        refine ⟨⟨k, by simpa using hk⟩, ?_⟩
        unfold originator
        rw [← enabled, ← authority]
        simp }
  ranges b := { b with }

theorem setOriginator_keeps (o : OriginatorNo) (i : SlotNo) (f : Frame) (p : Part) : p.Keeps (p.setOriginator o i f) := by
  unfold setOriginator
  dsimp only
  split
  · next h => exact (setOriginators_keeps _ _ h).trans (answerOk_quiet ..).keeps
  · exact (refuse_quiet ..).keeps

/-! ## Reads, restarts asked for, sweeps and watches -/

theorem readException_quiet (o : OriginatorNo) (i : SlotNo) (f : Frame) (p : Part) : p.Quiet (p.readException o i f) := by
  unfold readException
  dsimp only
  split
  · exact answerOk_quiet ..
  · exact answerOk_quiet ..

theorem senseRequest_quiet (o : OriginatorNo) (i : SlotNo) (f : Frame) (p : Part) : p.Quiet (p.senseRequest o i f) := by
  unfold senseRequest
  split
  · exact answer_quiet ..
  · exact (setSense_quiet ..).trans (answerOk_quiet ..)

theorem markRestart_quiet (o : OriginatorNo) (i : SlotNo) (f : Frame) (p : Part) : p.Quiet (p.markRestart o i f) :=
  (answerOk_quiet p o i []).trans (setUplink_quiet _ _ rfl)

theorem startSweep_keeps (o : OriginatorNo) (i : SlotNo) (f : Frame) (p : Part) : p.Keeps (p.startSweep o i f) := by
  unfold startSweep
  dsimp only
  split
  · exact (refuse_quiet ..).keeps
  · split
    · exact (refuse_quiet ..).keeps
    · split
      · exact (refuse_quiet ..).keeps
      · exact ((startPlan_writes ..).keeps.trans (engineRun_writes _).keeps).trans (answerOk_quiet ..).keeps

theorem continueRequest_keeps (o : OriginatorNo) (i : SlotNo) (f : Frame) (p : Part) : p.Keeps (p.continueRequest o i f) := by
  unfold continueRequest
  split
  · exact (continueSweep_writes ..).keeps.trans (answerOk_quiet ..).keeps
  · exact (refuse_quiet ..).keeps

theorem abandonRequest_keeps (o : OriginatorNo) (i : SlotNo) (f : Frame) (p : Part) : p.Keeps (p.abandonRequest o i f) := by
  unfold abandonRequest
  split
  · exact ((editCtx_writes ..).keeps.trans (engineRun_writes _).keeps).trans (answerOk_quiet ..).keeps
  · exact (refuse_quiet ..).keeps

theorem abortRequest_keeps (o : OriginatorNo) (i : SlotNo) (f : Frame) (p : Part) : p.Keeps (p.abortRequest o i f) := by
  unfold abortRequest
  split
  · exact (refuse_quiet ..).keeps
  · exact (abortSweep_writes _).keeps.trans (answerOk_quiet ..).keeps

theorem armWatch_quiet (o : OriginatorNo) (i : SlotNo) (f : Frame) (p : Part) : p.Quiet (p.armWatch o i f) := by
  unfold armWatch
  split
  · exact refuse_quiet ..
  · split
    · exact refuse_quiet ..
    · exact (setWatches_quiet ..).trans (answerOk_quiet ..)

theorem disarmWatch_quiet (o : OriginatorNo) (i : SlotNo) (f : Frame) (p : Part) : p.Quiet (p.disarmWatch o i f) := by
  unfold disarmWatch
  dsimp only
  split
  · exact refuse_quiet ..
  · split
    · exact refuse_quiet ..
    · exact (setWatches_quiet ..).trans (answerOk_quiet ..)

end Part
end Sys2Proof.Machine
end

