-- ==== Sys2Proof/Proofs/StepRanges.lean ====
section
/-! SUPPORT. The events, the restarts and with them every step keep the ranges and the tables. -/
namespace Sys2Proof.Machine
namespace Part

/-! ## Events of the lines -/

theorem lineFrameSent_keeps (l : LineNo) (readback : Readback) (p : Part) : p.Keeps (p.lineFrameSent l readback) := by
  unfold lineFrameSent
  split
  · next t hw =>
    have offered (m : Time) (b : Bool) (node : Nat) (fn : LineFunction) : p.Keeps ((p.reach m).offerConflict l b node fn) :=
      (reach_quiet ..).keeps.trans (offerConflict_keeps ..)
    have hr (m : Time) : ((p.reach m).line l).wire = .transaction t := hw
    dsimp only
    split
    · split
      · exact (offered ..).trans (setLine_keeps _ _ _ fun b => by exact { b with drive := fun _ h => Wire.noConfusion h })
      · exact (offered ..).trans (setTransaction_keeps ((offerConflict_wire ..).trans (hr _)) _ rfl)
    · exact .refl p
  · exact .refl p

theorem discards_keeps {p : Part} {l : LineNo} {t : Transaction} (hw : (p.line l).wire = .transaction t) (k : FaultKind)
    (failed mark closes : Time) (chars : List LineChar) : p.Keeps (p.discards l t k failed mark closes chars) := by
  have hr (m : Time) : ((p.reach m).line l).wire = .transaction t := hw
  exact (reach_quiet ..).keeps.trans (setTransaction_keeps (hr _) _ rfl)

/-- A fault offered, then the end of the send. -/
theorem offerFault_sendFails_keeps {p : Part} {l : LineNo} {t : Transaction} (hw : (p.line l).wire = .transaction t) (k : FaultKind)
    (node : Option Nat) (fn : Option LineFunction) (order : List Block) : p.Keeps ((p.offerFault l k node fn).sendFails l t order) :=
  (offerFault_keeps ..).trans (sendFails_keeps ((offerFault_wire ..).trans hw) order)

theorem replyReceived_keeps (l : LineNo) (chars : List LineChar) (order : List Block) (p : Part) :
    p.Keeps (p.replyReceived l chars order) := by
  unfold replyReceived
  split
  · next t first rest hw =>
    split
    · split
      · exact .refl p
      · next closes _ _ =>
        have hr : ((p.reach (closes - Config.replyWindow + charsTicks (charsTaken (first :: rest)))).line l).wire = .transaction t := hw
        dsimp only
        split
        · exact (reach_quiet ..).keeps.trans (transactionEnd_keeps hr ..)
        · exact (reach_quiet ..).keeps.trans (offerFault_sendFails_keeps hr ..)
        · exact (reach_quiet ..).keeps.trans (discards_keeps hr ..)
    · exact discards_keeps hw ..
    · exact .refl p
  · exact .refl p

theorem windowCloses_keeps (l : LineNo) (order : List Block) (p : Part) : p.Keeps (p.windowCloses l order) := by
  unfold windowCloses
  split
  · next t hw =>
    have hr (m : Time) : ((p.reach m).line l).wire = .transaction t := hw
    split
    · exact (reach_quiet ..).keeps.trans (sendFails_keeps (hr _) order)
    · split
      · exact (reach_quiet ..).keeps.trans (offerFault_sendFails_keeps (hr _) ..)
      · exact .refl p
    · exact .refl p
  · exact .refl p

theorem markHolds_keeps (l : LineNo) (order : List Block) (p : Part) : p.Keeps (p.markHolds l order) := by
  unfold markHolds
  split
  · next t hw =>
    have hr (m : Time) : ((p.reach m).line l).wire = .transaction t := hw
    split
    · split
      · exact (reach_quiet ..).keeps.trans (offerFault_sendFails_keeps (hr _) ..)
      · exact .refl p
    · exact .refl p
  · exact .refl p

end Part

/-- A send lowers the sends remaining within their range (R33). -/
theorem Broadcast.lowered_sends {x : Option Broadcast} (h : ∀ b, x = some b → 1 ≤ b.sends ∧ b.sends ≤ 3) (b : Broadcast)
    (hb : Broadcast.lowered x = some b) : 1 ≤ b.sends ∧ b.sends ≤ 3 := by
  cases x with
  | none => cases hb
  | some c =>
    have := h c rfl
    unfold Broadcast.lowered at hb
    dsimp only at hb
    split at hb
    · cases hb
    · cases hb
      dsimp only
      omega

namespace Part

theorem broadcastSent_keeps (l : LineNo) (readback : Readback) (order : List Block) (p : Part) :
    p.Keeps (p.broadcastSent l readback order) := by
  unfold broadcastSent
  split
  · next maps began present _ =>
    have offered (m : Time) (b : Bool) : p.Keeps ((p.reach m).offerConflict l b 0 .fireBroadcast) :=
      (reach_quiet ..).keeps.trans (offerConflict_keeps ..)
    dsimp only
    refine ((offered _ _).trans (setLine_keeps _ _ _ fun b => ?_)).trans (countConflict_keeps ..)
    exact { b with
      drive := fun _ h => Wire.noConfusion h
      sends := fun c hc => by
        cases present with
        | false => exact b.sends c hc
        | true => exact Broadcast.lowered_sends b.sends c hc }
  · exact .refl p

theorem stopSend_keeps (p : Part) (l : LineNo) : p.Keeps (p.stopSend l) := by
  have freed : p.Keeps (p.setLine l { p.line l with wire := .free }) :=
    setLine_keeps _ _ _ fun b => { b with drive := fun _ h => Wire.noConfusion h }
  have timed : p.Keeps (p.setLine l { p.line l with wire := .free, probeTimer := some (p.now + Config.probeInterval) }) :=
    setLine_keeps _ _ _ fun b => { b with drive := fun _ h => Wire.noConfusion h }
  unfold stopSend
  dsimp only
  split
  · exact timed
  · split
    · exact freed
    · exact .refl p
  · exact freed
  · exact .refl p

theorem overloads_keeps (l : LineNo) (order : List Block) (p : Part) : p.Keeps (p.overloads l order) := by
  unfold overloads
  dsimp only
  split
  · exact (offerFault_keeps ..).trans (goDown_keeps ..)
  · exact (offerFault_keeps ..).trans (stopSend_keeps ..)

theorem confirmFallsDue_quiet (l : LineNo) (p : Part) : p.Quiet (p.confirmFallsDue l) := by
  unfold confirmFallsDue
  split
  · exact .refl p
  · exact reach_quiet ..

theorem deadlinePasses_keeps (d : DoorNo) (p : Part) : p.Keeps (p.deadlinePasses d) := by
  unfold deadlinePasses
  dsimp only
  split
  · exact .refl p
  · exact (reach_quiet ..).keeps.trans (motionTimesOut_keeps ..)

theorem probeFallsDue_keeps (l : LineNo) (p : Part) : p.Keeps (p.probeFallsDue l) := by
  unfold probeFallsDue
  dsimp only
  split
  · next t _ _ => exact (reach_quiet p t).keeps.trans (setLine_keeps _ _ _ fun b => { b with })
  · exact .refl p

/-! ## Fire -/

theorem fireInput_quiet (reading : FireInput) (p : Part) : p.Quiet (p.fireInput reading) := by
  unfold fireInput
  split
  · exact .refl p
  · exact setFire_quiet ..

theorem fireNotice_keeps (p : Part) (v : FireInput) (before : Bool) : p.Keeps (p.fireNotice v before) := by
  cases v with
  | normal => exact .refl p
  | alarm => exact raise_keeps ..
  | loopFault => exact raise_keeps ..

theorem dropPendingStart_keeps (p : Part) : p.Keeps p.dropPendingStart := by
  unfold dropPendingStart
  split
  · exact .refl p
  · exact (engine_quiet ..).keeps.trans (raise_keeps ..)

theorem setLatch_keeps (p : Part) (v : FireInput) (order : List Block) : p.Keeps (p.setLatch v order) := by
  unfold setLatch
  dsimp only
  refine Leads.trans (Leads.trans (Leads.trans (Leads.trans (setFire_quiet p (p.fire.latched p.now p.freeDoors)).keeps
    (fireNotice_keeps ..)) (confirmIfEmpty_keeps _)) (Leads.foldl (fun _ _ => (purgeLine_keeps ..).trans (makeBroadcast_keeps ..)) _ _))
    (inOrder_keeps (fun b q => ?_) _ _)
  split
  · exact (fireEndsSweep_writes q).keeps
  · exact dropPendingStart_keeps q
  · exact fireWatches_keeps q
  · exact .refl q

theorem filterHolds_keeps (order : List Block) (p : Part) : p.Keeps (p.filterHolds order) := by
  unfold filterHolds
  split
  · exact .refl p
  · next v t _ =>
    have filtered := ((reach_quiet p (t + Config.filterTime)).trans
      (setFire_quiet _ { p.fire with filtered := v, candidate := none })).keeps
    dsimp only
    split
    · exact filtered
    · split
      · exact filtered.trans (fireNotice_keeps ..)
      · exact filtered.trans (setLatch_keeps ..)

theorem repeatFires_keeps (p : Part) : p.Keeps p.repeatFires := by
  unfold repeatFires
  split
  · exact .refl p
  · next t _ =>
    have timed := ((reach_quiet p t).trans (setFire_quiet _ { p.fire with repeatTimer := some (t + Config.repeatInterval) })).keeps
    dsimp only
    split
    · exact timed
    · exact timed.trans (makeBroadcasts_keeps _)

theorem incompleteFires_keeps (p : Part) : p.Keeps p.incompleteFires := by
  unfold incompleteFires
  split
  · exact .refl p
  · next t _ =>
    have stopped := ((reach_quiet p t).trans (setFire_quiet _ { p.fire with incompleteTimer := none })).keeps
    dsimp only
    split
    · exact stopped
    · exact stopped.trans (raise_keeps ..)

/-! ## Time and sweeps -/

theorem secondPasses_keeps (p : Part) : p.Keeps p.secondPasses := by
  unfold secondPasses
  split
  · next h =>
    exact (reach_quiet ..).keeps.trans (writeClock_keeps _ { p.clock with second := p.clock.second + 1 } _ h.1 fun s =>
      ⟨s.clock.1, Nat.succ_lt_succ h.2⟩)
  · exact .refl p

theorem placeStart_keeps (p : Part) (x : PendingStart) : p.Keeps (p.placeStart x) := by
  unfold placeStart
  dsimp only
  split
  · exact ((engine_quiet ..).trans (engine_quiet ..)).keeps
  · exact ((engine_quiet ..).trans (engine_quiet ..)).keeps.trans (raise_keeps ..)

theorem firing_keeps (p : Part) (x : PendingStart) : p.Keeps (p.firing x) := by
  unfold firing
  split
  · exact raise_keeps ..
  · split
    · exact raise_keeps ..
    · split
      · exact (startPlan_writes ..).keeps.trans (engineRun_writes _).keeps
      · exact placeStart_keeps ..

theorem scheduleEntry_keeps (p : Part) (minute : Nat) (k : Fin 16) : p.Keeps (p.scheduleEntry minute k) := by
  unfold scheduleEntry
  dsimp only
  split
  · refine Leads.trans ?_ (firing_keeps ..)
    split
    · exact .refl p
    · exact ⟨SameRecords.sound { SameRecords.refl p with }, fun b => { b with }⟩
  · exact .refl p

theorem exceptionsAdvance_keeps (p : Part) (minute : Nat) : p.Keeps (p.exceptionsAdvance minute) :=
  (endExceptions_keeps ..).trans (offerIfGrown_writes ..).keeps

theorem clockAdvances_keeps (order : List Block) (p : Part) : p.Keeps (p.clockAdvances order) := by
  unfold clockAdvances
  split
  · next h =>
    dsimp only
    refine Leads.trans ((reach_quiet p (p.secondBegan + (60 - p.clock.second) * Config.secondTicks)).keeps.trans
      (writeClock_keeps _ { p.clock with minute := (p.clock.minute + 1) % Config.weekMinutes, second := 0 } _ h fun _ =>
        ⟨Nat.mod_lt _ (by decide), by simp⟩)) (inOrder_keeps (fun b q => ?_) _ _)
    split
    · exact Leads.foldl (fun _ _ => scheduleEntry_keeps ..) _ _
    · exact exceptionsAdvance_keeps ..
    · exact .refl q
  · exact .refl p

theorem closeWaitPasses_keeps (d : DoorNo) (p : Part) : p.Keeps (p.closeWaitPasses d) := by
  unfold closeWaitPasses
  split
  · exact .refl p
  · split
    · exact .refl p
    · split
      · exact ((reach_quiet ..).keeps.trans (endEntry_writes ..).keeps).trans (engineRun_writes _).keeps
      · exact .refl p

theorem suspendTimesOut_keeps (p : Part) : p.Keeps p.suspendTimesOut := by
  unfold suspendTimesOut
  split
  · exact .refl p
  · split
    · exact ((reach_quiet ..).keeps.trans (continueSweep_writes ..).keeps).trans (raise_keeps ..)
    · exact .refl p

theorem tick_quiet (p : Part) : p.Quiet p.tick := by
  unfold tick
  split
  · exact { Quiet.refl p with }
  · exact .refl p

/-! ## The uplink -/

theorem placeFrame_quiet (p : Part) (f : Frame) : p.Quiet (p.placeFrame f) := by
  unfold placeFrame
  split
  · dsimp only
    split
    · exact setSlot_quiet ..
    · split
      · exact setSlot_quiet ..
      · split
        · exact (noteSense_quiet ..).trans (setUplink_quiet _ _ rfl)
        · exact .refl p
  · exact .refl p

theorem setAssembler_quiet (p : Part) (a : Assembler) : p.Quiet (p.setAssembler a) :=
  setUplink_quiet p { p.uplink with assembler := a } rfl

theorem takeFrame_quiet (p : Part) (bytes : List Byte) : p.Quiet (p.takeFrame bytes) := by
  unfold takeFrame
  split
  · exact (setAssembler_quiet ..).trans (placeFrame_quiet ..)
  · exact setAssembler_quiet ..

theorem stampByte_quiet (p : Part) (t : Time) : p.Quiet (p.stampByte t) :=
  (reach_quiet p t).trans (setUplink_quiet _ { p.uplink with lastByte := (p.reach t).now } rfl)

theorem receiveFrame_quiet (p : Part) (bytes : List Byte) : p.Quiet (p.receiveFrame bytes) :=
  (stampByte_quiet ..).trans (takeFrame_quiet ..)

theorem collect_quiet (p : Part) (got : List Byte) (b : Byte) : p.Quiet (p.collect got b) := by
  unfold collect
  dsimp only
  split
  · exact setAssembler_quiet ..
  · split
    · exact takeFrame_quiet ..
    · exact setAssembler_quiet ..

theorem receiveChar_quiet (p : Part) (b : Byte) (stopAtMark : Bool) (pause : Time) : p.Quiet (p.receiveChar b stopAtMark pause) := by
  unfold receiveChar
  dsimp only
  split
  · exact (stampByte_quiet ..).trans (setAssembler_quiet ..)
  · split
    · exact (stampByte_quiet ..).trans (setAssembler_quiet ..)
    · split
      · exact (stampByte_quiet ..).trans (setAssembler_quiet ..)
      · exact (stampByte_quiet ..).trans (collect_quiet ..)

theorem freePlace_quiet (p : Part) (x : ResponsePlace) : p.Quiet (p.freePlace x) := by
  cases x with
  | slot o i => exact setSlot_quiet ..
  | holder o => exact setUplink_quiet p { p.uplink with refusals := p.uplink.refusals.set o none } rfl

theorem decideUnknown_quiet (p : Part) : p.Quiet p.decideUnknown := by
  unfold decideUnknown
  split
  · exact .refl p
  · split
    · exact refuse_quiet ..
    · exact .refl p

/-! ## Restarts -/

theorem blank_line (reset : Bool) (now : Time) (raw : FireInput) (cause : RestartCause) (flag : Bool) (l : LineNo) :
    (blank reset now raw cause flag).line l = Line.blank := by simp [line, blank]

theorem blank_door (reset : Bool) (now : Time) (raw : FireInput) (cause : RestartCause) (flag : Bool) (d : DoorNo) :
    (blank reset now raw cause flag).door d = DoorRecord.blank := by simp [door, blank]

end Part

theorem Line.blank_bounded : Line.blank.Bounded :=
  ⟨Nat.zero_le 8, fun h => absurd rfl h, Nat.zero_le 8, fun _ h => Wire.noConfusion h, Nat.zero_le 3, Nat.zero_le 3,
    fun _ h => nomatch h⟩

theorem NoticeQueues.blank_bounded : NoticeQueues.blank.Bounded := ⟨Nat.zero_le 8, Nat.zero_le 8, Nat.zero_le 32⟩

namespace Part

theorem blank_bounded (reset : Bool) (now : Time) (raw : FireInput) (cause : RestartCause) (flag : Bool) :
    (blank reset now raw cause flag).Bounded where
  notices := NoticeQueues.blank_bounded
  lines l := by rw [blank_line]; exact Line.blank_bounded
  silence d := by rw [image, blank_door]; exact Nat.zero_le 3

theorem blank_tablesSound (reset : Bool) (now : Time) (raw : FireInput) (cause : RestartCause) (flag : Bool) :
    (blank reset now raw cause flag).TablesSound where
  nodes d _ h := by rw [config, blank_door] at h; cases h
  ranges d := by rw [config, blank_door]; decide
  administrator := ⟨0, rfl⟩
  clock := ⟨Nat.zero_lt_succ _, Nat.zero_lt_succ _⟩
  unset _ := ⟨rfl, rfl, fun x => by simp [blank]⟩
  plans k := by simp [blank]

/-- A part that a power-up or the reset input leaves is sound whatever it was. -/
theorem blank_keeps (p : Part) (reset : Bool) (now : Time) (raw : FireInput) (cause : RestartCause) (flag : Bool) :
    p.Keeps (blank reset now raw cause flag) := ⟨fun _ => blank_tablesSound .., fun _ => blank_bounded ..⟩

theorem restart_keeps (p : Part) (reset : Bool) (now : Time) (raw : FireInput) (cause : RestartCause) (flag : Bool) :
    p.Keeps (restart reset now raw cause flag) := by
  have announced : p.Keeps (blank reset now raw cause flag).announce := (blank_keeps ..).trans (raise_keeps ..)
  unfold restart
  dsimp only
  split
  · exact announced.trans (settle_keeps ..)
  · exact announced

theorem powerUp_keeps (p : Part) : p.Keeps p.powerUp := restart_keeps ..

theorem assertReset_quiet (p : Part) : p.Quiet p.assertReset := { Quiet.refl p with }

theorem releaseReset_keeps (p : Part) : p.Keeps p.releaseReset := by
  unfold releaseReset
  split
  · exact restart_keeps ..
  · exact Quiet.keeps { Quiet.refl p with }

theorem losePower_keeps (p : Part) : p.Keeps p.losePower :=
  (blank_keeps p p.resetAsserted p.now p.fire.raw .power false).trans (Quiet.keeps { Quiet.refl _ with })

/-- The images go ABSENT on every door (R26). -/
theorem clearImages_quiet (p : Part) :
    p.Quiet { p with doors := p.doors.map fun r => { r with image := r.image.cleared r.config.holderFitted } } :=
  { Quiet.refl p with
    config := fun d => by simp [config, door]
    silence := fun _ d => by simp [image, door, DoorImage.cleared] }

theorem restarted_keeps (p : Part) : p.Keeps p.restarted := by
  have lines := mapLines_keeps
    { p with doors := p.doors.map fun r => { r with image := r.image.cleared r.config.holderFitted } } Line.restarted
    fun x b => { b with
      queue := Nat.zero_le 8
      held := fun h => absurd rfl h
      motions := Nat.zero_le 8
      drive := fun _ _ _ => Nat.zero_lt_succ 7
      conflicts := Nat.zero_le 3
      queuedSends := Nat.zero_le 3 }
  exact ((clearImages_quiet p).keeps.trans lines).trans
    ⟨SameRecords.sound { SameRecords.refl _ with }, fun b => { b with notices := NoticeQueues.blank_bounded }⟩

theorem requestedRestart_keeps (p : Part) : p.Keeps p.requestedRestart :=
  (((restarted_keeps p).trans (raise_keeps ..)).trans (returnToIdle_writes _).keeps).trans (engineRun_writes _).keeps

theorem frameSent_keeps (p : Part) : p.Keeps p.frameSent := by
  unfold frameSent
  split
  · exact .refl p
  · next x _ =>
    have freed := ((reach_quiet p (x.began + Config.uplinkCharTicks * x.frame.length)).trans
      (setUplink_quiet _ { p.uplink with sending := none } rfl)).keeps
    dsimp only
    split
    · exact freed
    · split
      · exact (freed.trans (freePlace_quiet ..).keeps).trans (requestedRestart_keeps _)
      · exact freed.trans (freePlace_quiet ..).keeps

end Part

/-! ## Every command and every step -/

/-- A command whose effect keeps the ranges and the tables keeps them with the choices that follow. -/
theorem act_keeps {f : Part → Part} (h : ∀ p, Part.Keeps p (f p)) {s t : State} (e : act f s = .next t) : s.part.Keeps t.part := by
  cases e
  exact Part.after_keeps h _

theorem actAlways_keeps {f : Part → Part} (h : ∀ p, Part.Keeps p (f p)) {s t : State} (e : actAlways f s = .next t) :
    s.part.Keeps t.part := by
  cases e
  exact h _

/-- A decision whose owner's action keeps the ranges and the tables keeps them (R190). -/
theorem decision_keeps {c : Code} {own : OriginatorNo → SlotNo → Frame → Part → Part} {s t : State}
    (h : ∀ o i f q, Part.Keeps q (own o i f q)) (e : act (fun p => p.decide c own) s = .next t) : s.part.Keeps t.part :=
  act_keeps (fun p => Part.decide_keeps (fun o i f q _ => h o i f q) p) e

open Sys2Proof.Machine.Part in
theorem exec_keeps (c : Instr) {s t : State} (e : exec c s = .next t) : s.part.Keeps t.part := by
  cases c with
  | powerUp => exact actAlways_keeps powerUp_keeps e
  | resetInputAsserted => exact actAlways_keeps (fun p => (assertReset_quiet p).keeps) e
  | resetInputReleased => exact actAlways_keeps releaseReset_keeps e
  | powerFails => exact actAlways_keeps losePower_keeps e
  | fireInputChange r => exact actAlways_keeps (fun p => (fireInput_quiet r p).keeps) e
  | frameAssembled bytes => exact act_keeps (fun p => (receiveFrame_quiet p bytes).keeps) e
  | unknownRequest => exact act_keeps (fun p => (decideUnknown_quiet p).keeps) e
  | uplinkFrameSent => exact act_keeps frameSent_keeps e
  | uplinkCharacterReceived b m t => exact act_keeps (fun p => (receiveChar_quiet p b m t).keeps) e
  | loadDoor => exact act_keeps (decide_keeps loadDoor_keeps) e
  | withdrawDoor => exact decision_keeps withdrawDoor_keeps e
  | restoreDoor => exact decision_keeps restoreDoor_keeps e
  | loadPlanStep => exact act_keeps (decide_keeps loadPlanStep_keeps) e
  | clearStagedPlan => exact decision_keeps clearStagedPlan_keeps e
  | commitPlans => exact decision_keeps commitPlans_keeps e
  | loadScheduleEntry => exact decision_keeps loadScheduleEntry_keeps e
  | setOriginator => exact decision_keeps setOriginator_keeps e
  | setClock => exact act_keeps (decide_keeps setClock_keeps) e
  | startSweep => exact decision_keeps startSweep_keeps e
  | continueSweep => exact decision_keeps continueRequest_keeps e
  | abandonSweep => exact decision_keeps abandonRequest_keeps e
  | abortSweep => exact decision_keeps abortRequest_keeps e
  | createException => exact decision_keeps createException_keeps e
  | extendException => exact decision_keeps extendException_keeps e
  | endException => exact decision_keeps endExceptionRequest_keeps e
  | armWatch => exact decision_keeps (fun o i f p => (armWatch_quiet o i f p).keeps) e
  | disarmWatch => exact decision_keeps (fun o i f p => (disarmWatch_quiet o i f p).keeps) e
  | fireRestore => exact decision_keeps fireRestoreRequest_keeps e
  | clearLineFault => exact decision_keeps clearLineFault_keeps e
  | quietLine order => exact decision_keeps (quietLine_keeps order) e
  | resumeLine => exact decision_keeps resumeLine_keeps e
  | readDoor | readGroup | readLine | readSweepReport | readCatchUpList | readPlan | readSchedule | readStatus =>
    exact decision_keeps (fun _ _ _ _ => (answerOk_quiet ..).keeps) e
  | readException => exact decision_keeps (fun o i f p => (readException_quiet o i f p).keeps) e
  | sense => exact decision_keeps (fun o i f p => (senseRequest_quiet o i f p).keeps) e
  | restartPart => exact decision_keeps (fun o i f p => (markRestart_quiet o i f p).keeps) e
  | throwBolt | retractBolt | pulse | holderEngage | holderRelease | pollNow =>
    exact decision_keeps (fun _ _ _ _ => doorCommand_keeps ..) e
  | lineFrameSent l r => exact act_keeps (lineFrameSent_keeps l r) e
  | lineReplyReceived l cs order => exact act_keeps (replyReceived_keeps l cs order) e
  | replyWindowClosed l order => exact act_keeps (windowCloses_keeps l order) e
  | receiverMark2ms l order => exact act_keeps (markHolds_keeps l order) e
  | fireBroadcastSent l r order => exact act_keeps (broadcastSent_keeps l r order) e
  | overloadReport l order => exact act_keeps (overloads_keeps l order) e
  | confirmPollDue l => exact act_keeps (fun p => (confirmFallsDue_quiet l p).keeps) e
  | motionDeadline d => exact act_keeps (deadlinePasses_keeps d) e
  | probeTimerExpiry l => exact act_keeps (probeFallsDue_keeps l) e
  | filteredInputChange order => exact act_keeps (filterHolds_keeps order) e
  | repeatTimerExpiry => exact act_keeps repeatFires_keeps e
  | incompleteTimerExpiry => exact act_keeps incompleteFires_keeps e
  | clockAdvance order => exact act_keeps (clockAdvances_keeps order) e
  | closeWaitDeadline d => exact act_keeps (closeWaitPasses_keeps d) e
  | suspendTimerExpiry => exact act_keeps suspendTimesOut_keeps e
  | timebaseSecond => exact act_keeps secondPasses_keeps e

/-- Every step keeps the ranges and the tables. -/
theorem step_keeps {s t : State} (e : step s = .next t) : s.part.Keeps t.part := by
  unfold step at e
  split at e
  · cases e
    exact (Part.tick_quiet _).keeps
  · next c rest _ => exact exec_keeps c (s := { s with pending := rest }) e

end Sys2Proof.Machine

open Sys2Proof.Machine

/-- Settles O56: every command is built from writes that keep the ranges, and the queue's freed place is filled and the motion's place
is there as a transaction ends (`step_keeps`). -/
theorem everyStepKeepsTheRanges : Obligations.EveryStepKeepsTheRanges := fun _ _ h e => (step_keeps e).ranges h

/-- Settles O59: a record is written only within its ranges and to a node that no other configured record has, and an exception only
while the clock is set (`step_keeps`). -/
theorem everyStepKeepsTheTablesSound : Obligations.EveryStepKeepsTheTablesSound := fun _ _ h e => (step_keeps e).tables h
end

