-- ==== Sys2Proof/Proofs/Reset.lean ====
section
/-! CERTIFICATE. The machine right after power-up (O4, O55): what `Part.blank` holds, read out of its tables of equal entries. -/
namespace Sys2Proof.Machine

@[simp] theorem reset_door (d : DoorNo) : State.reset.part.door d = DoorRecord.blank := by simp [State.reset, Part.blank, Part.door]

@[simp] theorem reset_config (d : DoorNo) : State.reset.part.config d = DoorRecord.blank.config :=
  congrArg DoorRecord.config (reset_door d)

@[simp] theorem reset_image (d : DoorNo) : State.reset.part.image d = DoorRecord.blank.image :=
  congrArg DoorRecord.image (reset_door d)

@[simp] theorem reset_group (g : GroupNo) : State.reset.part.group g = GroupRecord.blank := by
  simp [State.reset, Part.blank, Part.group]

@[simp] theorem reset_line (l : LineNo) : State.reset.part.line l = Line.blank := by simp [State.reset, Part.blank, Part.line]

@[simp] theorem reset_entry (n : EntryNo) : State.reset.part.entry n = none := by
  simp [State.reset, Part.blank, Part.entry, Engine.blank]

@[simp] theorem reset_slot (o : OriginatorNo) (i : SlotNo) : State.reset.part.slot o i = .empty := by
  simp [State.reset, Part.blank, Part.slot, Uplink.blank]

@[simp] theorem reset_exception (x : ExceptionNo) : State.reset.part.exceptions[x] = none := by simp [State.reset, Part.blank]

@[simp] theorem reset_refusal (o : OriginatorNo) : State.reset.part.uplink.refusals[o] = none := by
  simp [State.reset, Part.blank, Uplink.blank]

/-- Originator 0 alone is enabled, with ADMINISTER (R185). -/
theorem reset_originators :
    State.reset.part.originator 0 = { enabled := true, authority := .administer } ∧
      ∀ o, o ≠ 0 → State.reset.part.originator o = { enabled := false, authority := .view } := by
  decide

theorem Line.blank_fresh : Line.blank.Fresh := ⟨rfl, rfl, rfl, rfl, rfl, rfl, rfl, ⟨rfl, rfl⟩, ⟨rfl, rfl, rfl⟩, rfl⟩

theorem reset_fresh : State.reset.part.Fresh .power false where
  doors d := by rw [reset_door]; exact ⟨rfl, rfl⟩
  groups g := by rw [reset_group]; exact ⟨rfl, rfl, rfl⟩
  lines l := by rw [reset_line]; exact Line.blank_fresh
  engine := ⟨rfl, reset_entry, rfl, rfl⟩
  reports := ⟨rfl, rfl⟩
  exceptions := reset_exception
  catchUp := rfl
  clock := rfl
  schedule k := by simp [State.reset, Part.blank]
  banks := ⟨fun k => by simp [State.reset, Part.blank], rfl⟩
  latch := ⟨rfl, rfl, rfl⟩
  releasePending := ⟨rfl, rfl, rfl⟩
  fireTimers := ⟨rfl, rfl⟩
  watches k := by simp [State.reset, Part.blank]
  notices := rfl
  sending := rfl
  assembler := rfl
  originators := reset_originators
  slots := reset_slot
  holders := reset_refusal
  senses o := by simp [State.reset, Part.blank, Uplink.blank]
  waiting := rfl
  restart := ⟨rfl, rfl, rfl⟩

/-- Power-up leaves a blank part that sends PART STARTED. -/
theorem reset_keeps : (Part.blank false 0 .normal .power false).Keeps State.reset.part :=
  (Part.setUplink_quiet _
    { (Part.blank false 0 .normal .power false).uplink with sending := some (.notice (.partStarted .power false) false 0) } rfl).keeps

theorem reset_fireSafe : State.reset.part.FireSafe where
  idle _ := ⟨reset_entry, rfl⟩
  latched _ := rfl
  clear _ := ⟨rfl, rfl, rfl, rfl⟩

theorem reset_workSound : State.reset.part.WorkSound where
  nodup := List.nodup_nil
  listed _ h := nomatch h
  once m _ _ _ h := by rw [reset_entry] at h; cases h
  unclaimed n _ h := by rw [reset_entry] at h; cases h
  claims d _ h := by rw [reset_image] at h; cases h

theorem reset_responsesKept : State.reset.part.ResponsesKept where
  slots _ o i _ _ _ h := by rw [reset_slot] at h; cases h
  holders _ o _ h := by rw [reset_refusal] at h; cases h

end Sys2Proof.Machine

open Sys2Proof.Machine

/-- Settles O4: every field of the fresh part is read out of `State.reset`. -/
theorem resetLeavesWhatPowerUpLeaves : Obligations.ResetLeavesWhatPowerUpLeaves := ⟨reset_fresh, rfl, rfl⟩

/-- Settles O55: the blank part keeps its ranges and tables, and nothing is at work, latched or answered. -/
theorem resetMeetsTheInvariants : Obligations.ResetMeetsTheInvariants :=
  ⟨reset_keeps.ranges (Part.blank_bounded ..), reset_fireSafe, reset_workSound, reset_keeps.tables (Part.blank_tablesSound ..),
    reset_responsesKept⟩
end

