-- ==== Sys2Proof/Proofs/DoorTable.lean ====
section
/-! CERTIFICATE. The configuration LOAD DOOR carries (O11) and the three requests of the door table (O20, O21). -/
namespace Sys2Proof.Machine

/-! ## The bytes of a configuration (11.3) -/

/-- A field that fits a byte is read back from it. -/
theorem byte_toNat {n : Nat} (h : n < 256) : (byte n).toNat = n := by simp [byte, Nat.mod_eq_of_lt h]

/-- The low byte of a wide field. -/
theorem byte_toNat_mod (n : Nat) : (byte n).toNat = n % 256 := by simp [byte]

theorem boolByte_toNat (b : Bool) : (boolByte b).toNat = b.toNat := by cases b <;> rfl

theorem fireActionOf_code (a : FireAction) : fireActionOf a.code = a := by cases a <;> rfl

theorem FireAction.code_le (a : FireAction) : a.code ≤ 2 := by cases a <;> decide

/-- Three flags and a clear one in the low bits of a byte. -/
theorem flags_bits (a b c : Bool) :
    let x := byte (a.toNat + 2 * b.toNat + 4 * c.toNat + 8 * false.toNat)
    x.toNat < 8 ∧ x.getLsbD 0 = a ∧ x.getLsbD 1 = b ∧ x.getLsbD 2 = c := by
  cases a <;> cases b <;> cases c <;> decide

/-- Four flags in the low bits of a byte. -/
theorem mask_bits (a b c e : Bool) :
    let x := byte (a.toNat + 2 * b.toNat + 4 * c.toNat + 8 * e.toNat)
    x.toNat < 16 ∧ x.getLsbD 0 = a ∧ x.getLsbD 1 = b ∧ x.getLsbD 2 = c ∧ x.getLsbD 3 = e := by
  cases a <;> cases b <;> cases c <;> cases e <;> decide

/-- The parameters of a LOAD DOOR frame that carries a configuration's ten bytes. -/
structure Frame.Carries (f : Frame) (c : DoorConfig) : Prop where
  configured : f.param 0 = c.configured.toNat
  line : f.param 1 = c.line.val
  node : f.param 2 = c.node
  group : f.param 3 = c.group.val
  fireAction : f.param 4 = c.fireAction.code
  flags : f.param 5 < 8 ∧ f.flag 5 0 = c.holderFitted ∧ f.flag 5 1 = c.holdAtRelease ∧ f.flag 5 2 = c.nightPass
  mask : f.param 6 < 16 ∧ f.reportMask 6 = c.mask
  boltTime : f.param 7 = c.boltTime
  closeWait : f.param16 8 = c.closeWait

theorem Frame.carries_of_params {f : Frame} {c : DoorConfig} (node : c.node ≤ 60) (bolt : c.boltTime ≤ 50) (wait : c.closeWait ≤ 600)
    (h : f.params = DoorConfig.bytes { c with withdrawn := false }) : f.Carries c where
  configured := by simp [Frame.param, h, DoorConfig.bytes, boolByte_toNat]
  line := by simpa [Frame.param, h, DoorConfig.bytes] using byte_toNat (Nat.lt_trans c.line.isLt (by decide))
  node := by simpa [Frame.param, h, DoorConfig.bytes] using byte_toNat (by omega)
  group := by simpa [Frame.param, h, DoorConfig.bytes] using byte_toNat (Nat.lt_trans c.group.isLt (by decide))
  fireAction := by simpa [Frame.param, h, DoorConfig.bytes] using byte_toNat (Nat.lt_of_le_of_lt c.fireAction.code_le (by decide))
  flags := by simpa [Frame.param, Frame.flag, h, DoorConfig.bytes] using flags_bits c.holderFitted c.holdAtRelease c.nightPass
  mask := by
    obtain ⟨lt, b, p, k, e⟩ := mask_bits c.mask.bolt c.mask.position c.mask.holder c.mask.exit
    have sixth : f.params.getD 6 0#8 =
        byte (c.mask.bolt.toNat + 2 * c.mask.position.toNat + 4 * c.mask.holder.toNat + 8 * c.mask.exit.toNat) := by
      simp [h, DoorConfig.bytes]
    exact ⟨by rw [Frame.param, sixth]; exact lt, by simp only [Frame.reportMask, Frame.flag, sixth, b, p, k, e]⟩
  boltTime := by simpa [Frame.param, h, DoorConfig.bytes] using byte_toNat (by omega)
  closeWait := by
    have : (byte (c.closeWait / 256)).toNat * 256 + (byte c.closeWait).toNat = c.closeWait := by
      rw [byte_toNat_mod, byte_toNat_mod]
      omega
    simpa [Frame.param16, Frame.param, h, DoorConfig.bytes, be16] using this

/-- A configuration is read back from the parameters that carry it. -/
theorem Frame.Carries.doorConfig {f : Frame} {c : DoorConfig} (h : f.Carries c) (w : Bool) :
    f.doorConfig w = { c with withdrawn := w } := by
  have configured : decide (f.param 0 = 1) = c.configured := by rw [h.configured]; cases c.configured <;> rfl
  have line : f.lineNo 1 = c.line := Fin.ext (by simp [Frame.lineNo, Fin.ofNat, h.line, Nat.mod_eq_of_lt c.line.isLt])
  have group : (Fin.ofNat 32 (f.param 3) : GroupNo) = c.group :=
    Fin.ext (by simp [Fin.ofNat, h.group, Nat.mod_eq_of_lt c.group.isLt])
  obtain ⟨-, fitted, hold, pass⟩ := h.flags
  simp only [Frame.doorConfig, configured, line, h.node, group, h.fireAction, fireActionOf_code, fitted, hold, pass, h.mask.2,
    h.boltTime, h.closeWait]

/-- It is in the ranges of check 4 (1.1). -/
theorem Frame.Carries.inRange {f : Frame} {c : DoorConfig} (h : f.Carries c) (door : f.door.toNat < 240)
    (node : 1 ≤ c.node ∧ c.node ≤ 60) (bolt : 2 ≤ c.boltTime ∧ c.boltTime ≤ 50) (wait : 5 ≤ c.closeWait ∧ c.closeWait ≤ 600) :
    Code.loadDoor.inRange f = true := by
  have configured : c.configured.toNat ≤ 1 := Bool.toNat_le c.configured
  simp only [Code.inRange, h.configured, h.line, h.node, h.group, h.fireAction, h.boltTime, h.closeWait, Bool.and_eq_true,
    decide_eq_true_eq]
  exact ⟨by simp [Code.namesDoor, door],
    ⟨⟨⟨⟨⟨⟨configured, Nat.le_of_lt_succ c.line.isLt⟩, node⟩, Nat.le_of_lt_succ c.group.isLt⟩, c.fireAction.code_le⟩, bolt⟩, wait⟩⟩

end Sys2Proof.Machine

open Sys2Proof.Machine

/-- Settles O11: the ten bytes of 11.3 are read field by field (`Frame.Carries`). -/
theorem doorConfigurationsAreReadAsWritten : Obligations.DoorConfigurationsAreReadAsWritten := by
  intro f c w n1 n2 b1 b2 w1 w2 params door
  have carries := Frame.carries_of_params n2 b2 w2 params
  exact ⟨carries.doorConfig w, carries.inRange door ⟨n1, n2⟩ ⟨b1, b2⟩ ⟨w1, w2⟩,
    by simp [Code.reservedClear, carries.flags.1, carries.mask.1]⟩
end

