-- ==== Sys2Proof/Proofs/DoorRequests.lean ====
section
/-! CERTIFICATE. The three requests of the door table (O20, O21): what each of their checks and effects comes to, said once. -/
namespace Sys2Proof.Machine.Part

/-! ## The checks -/

theorem inWorkSet_of_entryOf {p : Part} {d : DoorNo} {n : EntryNo} {e : WorkEntry} (h : p.entryOf d = some (n, e)) :
    p.inWorkSet d = true := by simp [inWorkSet, h]

theorem inWorkSet_eq_false {p : Part} {d : DoorNo} (h : p.entryOf d = none) : p.inWorkSet d = false := by simp [inWorkSet, h]

theorem sweepDetail_eq {p : Part} {d : DoorNo} {n : EntryNo} {e : WorkEntry} (h : p.entryOf d = some (n, e)) :
    p.sweepDetail d = e.step := by simp [sweepDetail, h]

/-! ## The effects -/

/-- The image goes ABSENT and the polls of the door in flight are detached (R3, R4). -/
theorem clearImage_eq (p : Part) (d : DoorNo) :
    p.clearImage d =
      { p with
        doors := p.doors.set d { config := p.config d, image := (p.image d).cleared (p.config d).holderFitted }
        lines := p.lines.map fun x => { x with wire := x.wire.detach d } } := rfl

theorem setConfig_eq (p : Part) (d : DoorNo) (c : DoorConfig) :
    p.setConfig d c = { p with doors := p.doors.set d { config := c, image := p.image d } } := rfl

/-- A configuration written and the image then cleared. -/
theorem setConfig_clearImage_eq (p : Part) (d : DoorNo) (c : DoorConfig) :
    (p.setConfig d c).clearImage d =
      { p with
        doors := p.doors.set d { config := c, image := (p.image d).cleared c.holderFitted }
        lines := p.lines.map fun x => { x with wire := x.wire.detach d } } := by
  rw [clearImage_eq, setConfig_config_self, setConfig_image, setConfig_eq]
  simp only [Vector.set_set]

/-- What LOAD DOOR writes (R3): the configuration, the image where the door is another one now, and the catch-up list. -/
theorem reconfigured_eq (p : Part) (d : DoorNo) (old new : DoorConfig) :
    p.reconfigured d old new =
      { p with
        doors :=
          p.doors.set d
            { config := new
              image :=
                if old.line ≠ new.line ∨ old.node ≠ new.node ∨ old.configured ≠ new.configured then
                  (p.image d).cleared new.holderFitted
                else p.image d }
        lines :=
          if old.line ≠ new.line ∨ old.node ≠ new.node ∨ old.configured ≠ new.configured then
            p.lines.map fun x => { x with wire := x.wire.detach d }
          else p.lines
        catchUp :=
          if new.configured = false ∨ old.group ≠ new.group ∧ (p.group new.group).night = false then
            p.catchUp.filter fun x => x ≠ d
          else p.catchUp } := by
  have listed : (!new.configured) = true ∨ (old.group ≠ new.group ∧ (!(p.group new.group).night) = true) ↔
      new.configured = false ∨ old.group ≠ new.group ∧ (p.group new.group).night = false := by
    simp only [Bool.not_eq_true']
  unfold reconfigured
  simp only [listed, setConfig_clearImage_eq]
  split <;> split <;> rfl

/-- What WITHDRAW DOOR writes of the door's record, the wires and the catch-up list (R4). -/
theorem withdrawn_eq (p : Part) (d : DoorNo) (c : DoorConfig) :
    ((p.setConfig d c).clearImage d).removeCatchUp d =
      { p with
        doors := p.doors.set d { config := c, image := (p.image d).cleared c.holderFitted }
        lines := p.lines.map fun x => { x with wire := x.wire.detach d }
        catchUp := p.catchUp.filter fun x => x ≠ d } := by
  rw [setConfig_clearImage_eq]
  rfl

/-! ## The requests, check by check -/

section
variable (p : Part) (o : OriginatorNo) (i : SlotNo) (f : Frame)

theorem loadDoor_inSweep (h : p.inWorkSet f.doorNo = true) :
    p.loadDoor o i f = p.answer o i .inSweep [] (p.sweepDetail f.doorNo) := by
  simp [loadDoor, h]

theorem loadDoor_busy (h : p.inWorkSet f.doorNo = false) (hb : p.doorBusy f.doorNo = true) :
    p.loadDoor o i f = p.refuse o i .busy := by
  simp [loadDoor, h, hb]

theorem loadDoor_conflict (h : p.inWorkSet f.doorNo = false) (hb : p.doorBusy f.doorNo = false)
    (ht : (f.doorConfig (p.config f.doorNo).withdrawn).configured = true ∧
      p.nodeTaken f.doorNo (f.doorConfig (p.config f.doorNo).withdrawn).line (f.doorConfig (p.config f.doorNo).withdrawn).node = true) :
    p.loadDoor o i f = p.refuse o i .conflict := by
  simp [loadDoor, h, hb, ht]

theorem loadDoor_ok (h : p.inWorkSet f.doorNo = false) (hb : p.doorBusy f.doorNo = false)
    (ht : ¬((f.doorConfig (p.config f.doorNo).withdrawn).configured = true ∧
      p.nodeTaken f.doorNo (f.doorConfig (p.config f.doorNo).withdrawn).line (f.doorConfig (p.config f.doorNo).withdrawn).node = true)) :
    p.loadDoor o i f =
      ((p.reconfigured f.doorNo (p.config f.doorNo) (f.doorConfig (p.config f.doorNo).withdrawn)).fireReconfigured f.doorNo).answerOk o i
        [] := by
  simp [loadDoor, h, hb, ht]

theorem withdrawDoor_ok (hc : (p.config f.doorNo).configured = true) (hw : (p.config f.doorNo).withdrawn = false)
    (h : p.inWorkSet f.doorNo = false) (hb : p.doorBusy f.doorNo = false) :
    p.withdrawDoor o i f =
      ((((p.setConfig f.doorNo { p.config f.doorNo with withdrawn := true }).clearImage f.doorNo).removeCatchUp
        f.doorNo).removeRelease f.doorNo).answerOk o i [] := by
  simp [withdrawDoor, hc, hw, h, hb]

theorem restoreDoor_ok (hc : (p.config f.doorNo).configured = true) (hw : (p.config f.doorNo).withdrawn = true) :
    p.restoreDoor o i f =
      ((p.setConfig f.doorNo { p.config f.doorNo with withdrawn := false }).fireReconfigured f.doorNo).answerOk o i [] := by
  simp [restoreDoor, hc, hw]


theorem withdrawDoor_inSweep (hc : (p.config f.doorNo).configured = true) (hw : (p.config f.doorNo).withdrawn = false)
    (h : p.inWorkSet f.doorNo = true) : p.withdrawDoor o i f = p.answer o i .inSweep [] (p.sweepDetail f.doorNo) := by
  simp [withdrawDoor, hc, hw, h]

theorem withdrawDoor_busy (hc : (p.config f.doorNo).configured = true) (hw : (p.config f.doorNo).withdrawn = false)
    (h : p.inWorkSet f.doorNo = false) (hb : p.doorBusy f.doorNo = true) : p.withdrawDoor o i f = p.refuse o i .busy := by
  simp [withdrawDoor, hc, hw, h, hb]

theorem withdrawDoor_unconfigured (hc : (p.config f.doorNo).configured = false) :
    p.withdrawDoor o i f = p.refuse o i .notConfigured := by
  simp [withdrawDoor, hc]

theorem withdrawDoor_again (hc : (p.config f.doorNo).configured = true) (hw : (p.config f.doorNo).withdrawn = true) :
    p.withdrawDoor o i f = p.refuse o i .state := by
  simp [withdrawDoor, hc, hw]

theorem restoreDoor_unconfigured (hc : (p.config f.doorNo).configured = false) :
    p.restoreDoor o i f = p.refuse o i .notConfigured := by
  simp [restoreDoor, hc]

theorem restoreDoor_again (hc : (p.config f.doorNo).configured = true) (hw : (p.config f.doorNo).withdrawn = false) :
    p.restoreDoor o i f = p.refuse o i .state := by
  simp [restoreDoor, hc, hw]

end

end Sys2Proof.Machine.Part

open Sys2Proof.Machine Sys2Proof.Machine.Part

/-- Settles O20: the checks of `Part.loadDoor` in their order, each read by its own equation, then `reconfigured_eq`. -/
theorem loadDoorChecksThenWrites : Obligations.LoadDoorChecksThenWrites := by
  intro s o i f a d h hd
  obtain rfl : f.doorNo = d := Frame.doorNo_eq hd
  intro p old new busy taken moved image detached loaded
  refine ⟨fun n e sweeps => h.completes rfl ?_, fun idle => ⟨fun hb => h.completes rfl ?_, fun hb => ?_⟩⟩
  · rw [loadDoor_inSweep _ _ _ _ (inWorkSet_of_entryOf sweeps), sweepDetail_eq sweeps]
    exact h.answer rfl ..
  · rw [loadDoor_busy _ _ _ _ (inWorkSet_eq_false idle) ((doorBusy_iff ..).2 hb)]
    exact h.answer rfl ..
  · have free : p.doorBusy f.doorNo = false := Bool.eq_false_iff.2 fun k => hb ((doorBusy_iff ..).1 k)
    refine ⟨fun ht => h.completes rfl ?_, fun ht => h.completes rfl ?_⟩
    · rw [loadDoor_conflict _ _ _ _ (inWorkSet_eq_false idle) free ⟨ht.1, (nodeTaken_iff ..).2 ht.2⟩]
      exact h.answer rfl ..
    · have written : p.reconfigured f.doorNo old new = loaded := reconfigured_eq ..
      rw [loadDoor_ok _ _ _ _ (inWorkSet_eq_false idle) free fun k => ht ⟨k.1, (nodeTaken_iff ..).1 k.2⟩, written]
      exact h.answer (fireReconfigured_slot loaded ..) ..

/-- Settles O21: the checks of `Part.withdrawDoor` and `Part.restoreDoor` in their order, then `withdrawn_eq` and `setConfig_eq`. -/
theorem doorsAreWithdrawnAndRestored : Obligations.DoorsAreWithdrawnAndRestored := by
  intro s o i f a d hd
  obtain rfl : f.doorNo = d := Frame.doorNo_eq hd
  intro p c busy detached withdrawn restored
  constructor
  · intro h
    refine ⟨fun hc => h.completes rfl ?_, fun hc hw => h.completes rfl ?_, fun hc hw =>
      ⟨fun n e sweeps => h.completes rfl ?_, fun idle hb => h.completes rfl ?_, fun idle hb => h.completes rfl ?_⟩⟩
    · rw [withdrawDoor_unconfigured _ _ _ _ hc]
      exact h.answer rfl ..
    · rw [withdrawDoor_again _ _ _ _ hc hw]
      exact h.answer rfl ..
    · rw [withdrawDoor_inSweep _ _ _ _ hc hw (inWorkSet_of_entryOf sweeps), sweepDetail_eq sweeps]
      exact h.answer rfl ..
    · rw [withdrawDoor_busy _ _ _ _ hc hw (inWorkSet_eq_false idle) ((doorBusy_iff ..).2 hb)]
      exact h.answer rfl ..
    · have free : p.doorBusy f.doorNo = false := Bool.eq_false_iff.2 fun k => hb ((doorBusy_iff ..).1 k)
      have written : ((p.setConfig f.doorNo { c with withdrawn := true }).clearImage f.doorNo).removeCatchUp f.doorNo = withdrawn :=
        withdrawn_eq ..
      rw [withdrawDoor_ok _ _ _ _ hc hw (inWorkSet_eq_false idle) free, written]
      exact h.answer (removeRelease_slot withdrawn ..) ..
  · intro h
    refine ⟨fun hc => h.completes rfl ?_, fun hc hw => h.completes rfl ?_, fun hc hw => h.completes rfl ?_⟩
    · rw [restoreDoor_unconfigured _ _ _ _ hc]
      exact h.answer rfl ..
    · rw [restoreDoor_again _ _ _ _ hc hw]
      exact h.answer rfl ..
    · have written : p.setConfig f.doorNo { c with withdrawn := false } = restored := setConfig_eq ..
      rw [restoreDoor_ok _ _ _ _ hc hw, written]
      exact h.answer (fireReconfigured_slot restored ..) ..
end

