-- ==== Sys2Proof/Proofs/Reads.lean ====
section
/-! CERTIFICATE. The reads (O49, O50): the fields of the results, each read out of the model's codes. -/
namespace Sys2Proof.Machine

/-- A frame that passes checks 1 to 4 and whose owner only answers completes with its results. -/
theorem Decides.returns {c : Code} {cmd : Instr} {s : State} {o : OriginatorNo} {i : SlotNo} {f : Frame} {a : Time}
    {own : OriginatorNo → SlotNo → Frame → Part → Part} {read results : List Byte} (h : Decides s c o i f a)
    (hx : exec cmd s = act (fun p => p.decide c own) s) (e : own o i f s.part = s.part.answerOk o i read) (hr : read = results) :
    Completes cmd s (s.part.withAnswer o i f a .ok results none) :=
  h.completes hx (by rw [e, hr]; exact h.answer rfl ..)

/-! ## Numbers named by a parameter -/

/-- The number a parameter in range names. -/
theorem ofNat_eq_of_val {n m : Nat} [NeZero n] {x : Fin n} (h : x.val = m) : Fin.ofNat n m = x :=
  Fin.ext (by simp [Fin.ofNat, ← h, Nat.mod_eq_of_lt x.isLt])

/-! ## Fields -/

theorem sweepField_eq (x : Option Nat) : sweepField x = [byte (x.getD 0 / 256), byte (x.getD 0)] := by cases x <;> rfl

theorem optByte_claim (x : Option ExceptionNo) :
    optByte (x.map (·.val)) = match x with | none => 0xFF#8 | some y => byte y := by cases x <;> rfl

theorem optByte_plan (x : Option PlanNo) :
    optByte (x.map (·.val)) = match x with | none => 0xFF#8 | some y => byte y := by cases x <;> rfl

theorem optByte_function (x : Option LineFunction) :
    optByte (x.map (·.code)) = match x with | none => 0xFF#8 | some y => byte y.code := by cases x <;> rfl

theorem optByte_suspendedDoor (x : Option (DoorNo × Nat)) :
    optByte (x.map fun y => y.1.val) = match x with | none => 0xFF#8 | some y => byte y.1 := by cases x <;> rfl

theorem optByte_suspendedStep (x : Option (DoorNo × Nat)) :
    optByte (x.map (·.2)) = match x with | none => 0xFF#8 | some y => byte y.2 := by cases x <;> rfl

theorem StepResult.byte_code (r : StepResult) :
    byte r.code = match r with | .none => 0#8 | .clean => 1#8 | .partly => 2#8 := by cases r <;> rfl

/-- VIEW is the level every enabled originator has (R183). -/
theorem OriginatorRecord.holds_view (r : OriginatorRecord) : r.holds .view = r.enabled := by
  cases r with
  | mk enabled authority => cases enabled <;> cases authority <;> rfl

theorem Code.inRange_readGroup (f : Frame) : Code.readGroup.inRange f = decide (f.param 0 ≤ 31) := rfl

/-! ## Codes as the reads show them (11.3, 11.4, R200) -/

theorem FireAction.byte_code (x : FireAction) : byte x.code = match x with | .none => 0#8 | .free => 1#8 | .close => 2#8 := by
  cases x <;> rfl

theorem ImageState.byte_code (x : ImageState) :
    byte x.code = match x with | .absent => 0#8 | .current => 1#8 | .pending => 2#8 | .suspect => 3#8 := by cases x <;> rfl

theorem Bolt.byte_code (x : Bolt) :
    byte x.code = match x with | .unknown => 0#8 | .thrown => 1#8 | .retracted => 2#8 | .moving => 3#8 | .jammed => 4#8 := by
  cases x <;> rfl

theorem Position.byte_code (x : Position) : byte x.code = match x with | .unknown => 0#8 | .closed => 1#8 | .opened => 2#8 := by
  cases x <;> rfl

theorem Holder.byte_code (x : Holder) :
    byte x.code = match x with | .none => 0#8 | .holding => 1#8 | .released => 2#8 | .unknown => 3#8 := by cases x <;> rfl

/-- An outcome's code is one above its place in a report. -/
theorem byte_lastOutcomeCode (x : Option SweepOutcome) :
    byte (lastOutcomeCode x) = match x with | none => 0#8 | some y => byte (y.place + 1) := by
  cases x with
  | none => rfl
  | some y => cases y <;> rfl

theorem RestartCause.byte_code (x : RestartCause) :
    byte x.code = match x with | .power => 1#8 | .resetInput => 2#8 | .requested => 3#8 := by cases x <;> rfl

theorem byte_fireInputCode (x : FireInput) :
    byte (fireInputCode x) = match x with | .normal => 0#8 | .alarm => 1#8 | .loopFault => 2#8 := by cases x <;> rfl

theorem LineState.byte_code (x : LineState) : byte x.code = match x with | .active => 0#8 | .quiet => 1#8 | .faulted => 2#8 := by
  cases x <;> rfl

theorem Direction.byte_code (x : Direction) : byte x.code = match x with | .throwing => 1#8 | .retracting => 2#8 := by
  cases x <;> rfl

theorem Repetition.byte_code (x : Repetition) : byte x.code = match x with | .weekly => 1#8 | .once => 2#8 := by
  cases x <;> rfl

theorem Part.byte_engineState (p : Part) :
    byte p.engineState.code =
      match p.engine.ctx with
      | none => 0#8
      | some c => match c.phase with | .running => 1#8 | .suspended => 2#8 | .draining => 3#8 := by
  unfold engineState
  cases p.engine.ctx with
  | none => rfl
  | some c => dsimp only; cases c.phase <;> rfl

theorem Part.byte_sweepKindCode (p : Part) :
    byte p.sweepKindCode =
      match p.engine.ctx with
      | none => 0#8
      | some c => match c.kind with | .plan _ _ _ => 1#8 | .catchUp => 2#8 := by
  unfold sweepKindCode
  cases p.engine.ctx with
  | none => rfl
  | some c => dsimp only; cases c.kind <;> rfl

/-- The clock in a response, UNSET while the clock is unset (R199). -/
theorem Part.clockBytes_eq (p : Part) :
    p.clockBytes =
      if p.clock.set then [1#8, byte (p.clock.minute / 256), byte p.clock.minute, byte p.clock.second]
      else [0#8, 0xFF#8, 0xFF#8, 0xFF#8] := by
  unfold clockBytes minute
  cases p.clock.set <;> rfl

/-- The sends remaining of a pending broadcast, 0 for none. -/
theorem byte_sends (x : Option Broadcast) :
    byte ((x.map (·.sends)).getD 0) = match x with | none => 0#8 | some b => byte b.sends := by cases x <;> rfl

/-! ## READ EXCEPTION, by the state of the slot (R116) -/

theorem Part.readException_free (p : Part) (o : OriginatorNo) (i : SlotNo) (f : Frame) {x : ExceptionNo} (hx : x.val = f.param 0)
    (h : p.exceptions[x] = none) : p.readException o i f = p.answerOk o i [0#8] := by
  simp only [readException, ofNat_eq_of_val hx, h]

theorem Part.readException_active (p : Part) (o : OriginatorNo) (i : SlotNo) (f : Frame) {x : ExceptionNo} (hx : x.val = f.param 0)
    {e : ExceptionRecord} (h : p.exceptions[x] = some e) :
    p.readException o i f =
      p.answerOk o i
        ([1#8, byte e.owner] ++ be16 e.expiry ++ be16 e.created ++ e.doors.bytes ++ [byte (p.claimedBy x).length] ++
          be16 (forwardDistance p.clock.minute e.expiry)) := by
  simp only [readException, ofNat_eq_of_val hx, h]

end Sys2Proof.Machine

open Sys2Proof.Machine

/-- Settles O49: VIEW is what READ GROUP asks for, and its nine fields are those of the group's record and members. -/
theorem readGroupCountsTheMembers : Obligations.ReadGroupCountsTheMembers := by
  intro s o i f a h p
  have level : p.holds o Code.readGroup.authority = (p.originator o).enabled := OriginatorRecord.holds_view _
  refine ⟨fun off => h.authority rfl (level.trans off), fun on beyond => h.range rfl (level.trans on) ?_, fun on g hg => ?_⟩
  · rw [Code.inRange_readGroup]
    exact decide_eq_false (Nat.not_le_of_lt beyond)
  · intro members count r
    have inside : Code.readGroup.inRange f = true := by
      rw [Code.inRange_readGroup, ← hg]
      exact decide_eq_true (Nat.le_of_lt_succ g.isLt)
    have decides : Decides s .readGroup o i f a := ⟨h, level.trans on, inside⟩
    refine decides.returns rfl rfl ?_
    rw [ofNat_eq_of_val hg, StepResult.byte_code, sweepField_eq]
    rfl
/-- Settles O50: each read answers with its own bytes, whose codes and optional fields are read case by case. -/
theorem readsReturnAndChangeNothing : Obligations.ReadsReturnAndChangeNothing := by
  intro s o i f a p returns yes wide time source request motion report clock
  refine ⟨fun h d hd => ?_, fun h => ?_, fun h => ?_, fun h l hl => ?_, fun h => ?_, fun h x hx => ?_, fun h k hk => ?_, fun h k hk => ?_⟩
  · intro c m
    refine h.returns rfl rfl ?_
    rw [Frame.doorNo_eq hd]
    simp only [DoorConfig.bytes, Part.imageBytes, ShortImage.bytes, Part.shortImage, FireAction.byte_code, ImageState.byte_code,
      Bolt.byte_code, Position.byte_code, Holder.byte_code, byte_lastOutcomeCode, optByte_claim]
    rfl
  · refine h.returns rfl rfl ?_
    simp only [Part.statusBytes, RestartCause.byte_code, Part.clockBytes_eq, Part.byte_engineState, Part.byte_sweepKindCode,
      byte_fireInputCode, be16, List.append_assoc, List.cons_append, List.nil_append]
    rfl
  · exact h.returns rfl rfl rfl
  · intro x
    refine h.returns rfl rfl ?_
    have requests : LineRequest.bytes = request := by
      funext r
      cases r with
      | mk cmd door source inFlight purged => cases cmd <;> cases source <;> rfl
    have motions : (fun m : MotionEntry => m.bytes p.now) = motion := by
      funext m
      simp only [MotionEntry.bytes, Direction.byte_code]
      rfl
    rw [show f.lineNo 0 = l from ofNat_eq_of_val hl]
    unfold Line.bytes
    rw [LineState.byte_code, byte_sends, requests, motions]
    cases (s.part.line l).fault with
    | none => rfl
    | some r =>
      simp only [FaultRecord.bytes, optByte_function]
      rfl
  · have reports (r : Option SweepReport) (k : Nat) : reportBytes k r = report r k := by
      cases r with
      | none => rfl
      | some r =>
        simp only [reportBytes, sweepField_eq, optByte_plan, optByte_suspendedDoor, optByte_suspendedStep]
        rfl
    refine ⟨fun hk => h.returns rfl rfl ?_, fun hk => h.returns rfl rfl ?_⟩
    · rw [if_pos hk, reports]
    · rw [if_neg (by omega), reports]
  · refine ⟨fun empty => h.returns rfl (Part.readException_free _ _ _ _ hx empty) rfl, fun e filled =>
      h.returns rfl (Part.readException_active _ _ _ _ hx filled) ?_⟩
    rw [List.append_assoc _ [_] _]
    cases e.doors <;> rfl
  · intro shown
    refine ⟨fun bank => h.returns rfl rfl ?_, fun bank => h.returns rfl rfl ?_⟩
    · simp only [if_pos bank, ofNat_eq_of_val hk]
      rfl
    · simp only [if_neg (show ¬f.param 0 = 0 by omega), ofNat_eq_of_val hk]
      rfl
  · refine h.returns rfl rfl ?_
    simp only [ofNat_eq_of_val hk, Repetition.byte_code, Part.clockBytes_eq]
    cases s.part.engine.pendingStart <;> rfl
end

