-- ==== Sys2Proof/Proofs/Replies.lean ====
section
/-! CERTIFICATE. What a STATE reply makes the part report and whether its door is put in the catch-up list (O48). -/
namespace Sys2Proof.Machine

/-- A notice raised where a condition holds, after those of a list. -/
theorem Part.raise_if {p q : Part} {ns : List Notice} (h : q = { p with notices := ns.foldl NoticeQueues.raise p.notices }) (c : Prop)
    [Decidable c] (n : Notice) :
    (if c then q.raise n else q) = { p with notices := (ns ++ if c then [n] else []).foldl NoticeQueues.raise p.notices } := by
  subst h
  split
  · rw [List.foldl_append]
    rfl
  · rw [List.append_nil]

/-- The outcomes on which the catch-up test acts (R19). -/
theorem qualifies_iff (x : Option SweepOutcome) :
    qualifies x = true ↔ x = some .heldOpen ∨ x = some .noReply ∨ x = some .lineDown := by
  cases x with
  | none => decide
  | some o => cases o <;> decide

/-- The append conditions of R120. -/
theorem Part.mayAppend_iff (p : Part) (d : DoorNo) :
    p.mayAppend d = true ↔
      (p.config d).configured = true ∧ (p.config d).withdrawn = false ∧ (p.image d).claim = none ∧
        (p.group (p.config d).group).night = true ∧ p.entryOf d = none ∧ d ∉ p.catchUp := by
  simp [mayAppend, inWorkSet, inCatchUp, and_assoc]

/-- The catch-up test (R19). -/
theorem Part.catchUpTest_iff (p : Part) (d : DoorNo) (r : StateReply) :
    p.catchUpTest d r = true ↔
      p.mayAppend d = true ∧ (p.image d).position = .closed ∧ (p.image d).bolt ≠ .thrown ∧
        (qualifies (p.image d).lastOutcome = true ∨ (r.restarted = true ∧ r.bolt = .retracted)) := by
  simp [catchUpTest, and_assoc]

end Sys2Proof.Machine

open Sys2Proof.Machine

/-- Settles O48: the four notices are raised in turn (`Part.raise_if`), and the test is R19's (`Part.catchUpTest_iff`) under R120's append
conditions (`Part.mayAppend_iff`). -/
theorem repliesAreReportedAndTested : Obligations.RepliesAreReportedAndTested := by
  refine ⟨?_, ?_, ?_⟩
  · intro p l d r old night shown c new known bolt position holder exit forced reported
    have change : (bolt.isSome ∨ position.isSome ∨ holder.isSome ∨ exit ∨ forced) ↔ reported := by
      simp only [reported, Option.isSome_iff_ne_none]
    unfold Part.replyNotices
    dsimp only
    refine (Part.raise_if (Part.raise_if (Part.raise_if (Part.raise_if (p := p) (q := p) (ns := []) rfl _ _) _ _) _ _) _ _).trans ?_
    rw [List.nil_append, ite_congr (propext change) (fun _ => rfl) (fun _ => rfl)]
  · intro p d r ev told
    unfold Part.engineHears
    simp only [told]
    cases p.entryOf d <;> rfl
  · intro p d r
    rw [Part.catchUpTest_iff, Part.mayAppend_iff, qualifies_iff]
    simp only [and_assoc, or_assoc]
end

