-- ==== Sys2Proof/Proofs/RequestedRestart.lean ====
section
/-! CERTIFICATE. The requested restart (O8): what it leaves, whole, and what the engine's return to IDLE and the choices of the free
transmitters then keep of it. -/
namespace Sys2Proof.Machine

/-! ## What the restart leaves -/

/-- A function of every entry of a table, by the entries' numbers. -/
theorem vector_map_eq_ofFn {α β : Type} {n : Nat} (v : Vector α n) (f : α → β) : v.map f = Vector.ofFn fun k : Fin n => f v[k] := by
  ext i hi
  simp

/-- A line after the requested restart, its wire's frame running to its end (R56; log 15). -/
theorem Line.restarted_eq (x : Line) :
    x.restarted =
      { state := if x.state = .quiet then .quiet else .active
        queue := [], held := [], motions := []
        wire :=
          match x.wire with
          | .free => .free
          | .transaction t => if t.phase = .sending then .transaction { t with cut := true } else .free
          | .broadcast m t y => .broadcast m t y
        cursor := 0, queuedSends := 0, conflicts := 0, broadcast := x.broadcast
        probeTimer := none, probeDue := false, probeWaiters := [], fault := none } := by
  unfold restarted Wire.downed
  cases x.wire <;> simp

namespace Part

/-- The tables that the restart works entry by entry, PART STARTED being the one notice then queued (R26, R56, R180). -/
theorem restarted_announce_eq (p : Part) :
    p.restarted.announce =
      { p with
        doors := Vector.ofFn fun d : DoorNo => { config := p.config d, image := (p.image d).cleared (p.config d).holderFitted }
        lines := Vector.ofFn fun l : LineNo => (p.line l).restarted
        engine := p.engine.restarted p.minute
        fire := p.fire.restarted p.now
        watches := Vector.replicate 8 none
        notices := { NoticeQueues.blank with state := [.partStarted .requested true] }
        uplink := p.uplink.restarted } := by
  unfold restarted
  rw [vector_map_eq_ofFn, vector_map_eq_ofFn]
  rfl

/-- The sending of the OK to RESTART PART ends with the requested restart (R179, R193). -/
theorem frameSent_restarts {p : Part} {x : ResponsePlace} {r : Response} {b : Time}
    (sending : p.uplink.sending = some (.response x r b)) (code : r.code = 0x3F#8) (ok : r.completion = .ok)
    (pending : p.uplink.restartPending = true) :
    p.frameSent =
      (Part.freePlace
        { p.reach (b + 50 * r.frame.length) with uplink := { p.uplink with sending := none } } x).requestedRestart := by
  have restarts : r.restarts = true := by simp [Response.restarts, code, ok, Code.value]
  unfold frameSent
  rw [sending]
  cases x <;> exact if_pos ⟨restarts, pending⟩

/-! ## What the choices of the transmitters keep -/

/-- A STATE notice that is queued stays queued or begins to be sent (R178). -/
theorem uplinkChoice_state (p : Part) {x : Notice} (h : x ∈ p.notices.state) :
    x ∈ p.uplinkChoice.notices.state ∨ ∃ mark began, p.uplinkChoice.uplink.sending = some (.notice x mark began) := by
  unfold uplinkChoice
  split
  · exact .inl h
  · split
    · exact .inl h
    · split
      · next q e =>
        unfold sendResponse at e
        split at e
        · cases e
        · obtain ⟨r, -, rfl⟩ := Option.map_eq_some_iff.1 e
          exact .inl h
      · split
        · exact .inl h
        · split
          · next n rest e =>
            rw [e] at h
            rcases List.mem_cons.1 h with rfl | h
            · exact .inr ⟨_, _, rfl⟩
            · exact .inl h
          · exact .inl h

theorem settle_state (p : Part) (n : Nat) {x : Notice} (h : x ∈ p.notices.state) :
    x ∈ (p.settle n).notices.state ∨ ∃ mark began, (p.settle n).uplink.sending = some (.notice x mark began) := by
  have chosen := linesChosen_foldl (List.finRange 4) (List.nodup_finRange 4) p
  unfold settle
  dsimp only
  generalize (List.finRange 4).foldl lineChoice p = q at chosen ⊢
  exact uplinkChoice_state _ (show x ∈ q.notices.state by rw [chosen.notices]; exact h)

section
variable {p q t : Part} (m : p.Moves q) (c : q.Chosen t)
include m c

/-- What the engine and the transmitters leave of a door: all but its last outcome (R7). -/
theorem Moves.door_of_chosen (d : DoorNo) :
    t.config d = p.config d ∧ { t.image d with lastOutcome := (p.image d).lastOutcome } = p.image d := by
  have same : t.door d = q.door d := by
    have doors : t.doors = q.doors := (congrArg Part.doors c.tables :)
    simp only [door, doors]
  constructor
  · rw [config, same]
    exact m.config d
  · rw [image, same]
    exact m.image d

/-- What they leave of a line that is not FAULTED and has no motion: its state, its counts of conflicts, its records and timers. -/
theorem Moves.line_of_chosen (l : LineNo) (up : (p.line l).state ≠ .faulted) (still : (p.line l).motions = []) :
    (t.line l).state = (p.line l).state ∧ (t.line l).motions = [] ∧ (t.line l).conflicts = (p.line l).conflicts ∧
      (t.line l).fault = (p.line l).fault ∧ (t.line l).probeTimer = (p.line l).probeTimer ∧
      (t.line l).broadcast = (p.line l).broadcast := by
  have moved := (m.line l).same
  have chosen := (c.line l).rest
  have state : (q.line l).state = (p.line l).state := (congrArg Line.state moved :)
  have motions : (q.line l).motions = [] := by simpa [still] using (m.line l).motions
  exact ⟨(congrArg Line.state chosen).trans state, (congrArg Line.motions chosen).trans motions,
    (congrArg Line.conflicts chosen).trans (congrArg Line.conflicts moved :),
    (congrArg Line.fault chosen).trans (congrArg Line.fault moved :),
    ((c.line l).probe (state ▸ up)).1.trans (congrArg Line.probeTimer moved :),
    (congrArg Line.broadcast chosen).trans (congrArg Line.broadcast moved :)⟩

/-- A slot that was empty is empty. -/
theorem Moves.slot_of_chosen (o : OriginatorNo) (i : SlotNo) (h : p.slot o i = .empty) : t.slot o i = .empty := by
  have moved : q.slot o i = .empty := by
    rcases m.slot o i with k | ⟨_, _, _, _, k, -⟩
    · exact k.trans h
    · rw [h] at k; cases k
  rcases c.slot o i with k | ⟨_, _, _, k, -⟩ | ⟨_, _, k, -⟩
  · exact k.trans moved
  · rw [moved] at k; cases k
  · rw [moved] at k; cases k

/-- The uplink keeps all but its slots, the responses that wait and the frame being sent. -/
theorem Moves.uplink_of_chosen :
    { t.uplink with slots := p.uplink.slots, waiting := p.uplink.waiting, sending := p.uplink.sending } = p.uplink := by
  have moved := m.uplink
  have chosen := c.uplink
  rw [← chosen] at moved
  have waiting : p.uplink.waiting = q.uplink.waiting := (congrArg Uplink.waiting m.uplink).symm
  have sending : p.uplink.sending = q.uplink.sending := (congrArg Uplink.sending m.uplink).symm
  rw [waiting, sending]
  exact moved

end

/-- With no start pending the sweep number counter and the empty slot of the pending start are kept. -/
theorem Moves.engine_of_chosen {p q t : Part} (m : p.Moves q) (c : q.Chosen t) (h : p.engine.pendingStart = none) :
    t.engine.counter = p.engine.counter ∧ t.engine.pendingStart = none := by
  obtain ⟨start, counter, -⟩ := m.start h
  have engine : t.engine = q.engine := (congrArg Part.engine c.tables :)
  rw [engine]
  exact ⟨counter, start⟩

end Part
end Sys2Proof.Machine

open Sys2Proof Sys2Proof.Machine Sys2Proof.Machine.Part

/-- Settles O8: the part that the restart leaves is read off its definition (`restarted_announce_eq`), and what the return to IDLE and
the transmitters keep of it is what every move of the engine and every choice keeps (`Part.Moves`, `Part.Chosen`). -/
theorem requestedRestartKeepsAndEmpties : Obligations.RequestedRestartKeepsAndEmpties := by
  intro s x r b working sending code ok pending p ends minute interrupted restarted
  have left : Part.frameSent p = restarted.returnToIdle.engineRun := by
    rw [frameSent_restarts sending code ok pending]
    unfold requestedRestart
    rw [restarted_announce_eq]
    simp only [Line.restarted_eq]
    cases x <;> rfl
  obtain ⟨t, e, reaches⟩ := act_reaches_of (f := Part.frameSent) working left
  have m : restarted.Moves restarted.returnToIdle.engineRun := (returnToIdle_moves _).trans (engineRun_moves _)
  have c := reaches.part
  have tables := c.tables
  have up (l : LineNo) : (restarted.line l).state ≠ .faulted := by
    have state : (restarted.line l).state = if (p.line l).state = .quiet then .quiet else .active := by simp [restarted, Part.line]
    rw [state]
    split <;> decide
  have lines (l : LineNo) := m.line_of_chosen c l (up l) (by simp [restarted, Part.line])
  have uplink := m.uplink_of_chosen c
  have announced : .partStarted .requested true ∈ restarted.returnToIdle.engineRun.notices.state :=
    m.notices.state.subset (List.mem_singleton.2 rfl)
  have now : t.part.now = ends := (congrArg Part.now tables).trans m.now
  have fire : t.part.fire = restarted.fire := (congrArg Part.fire tables).trans m.fire
  have watches : t.part.watches = restarted.watches := (congrArg Part.watches tables).trans m.watches
  have banks : t.part.banks = restarted.returnToIdle.engineRun.banks := (congrArg Part.banks tables :)
  obtain ⟨counter, start⟩ := m.engine_of_chosen c rfl
  refine ⟨t, e, reaches, fun d => ?_, fun l => ?_, counter, start, (congrArg Part.exceptions tables).trans m.exceptions,
    (congrArg Part.clock tables).trans m.clock, (congrArg Part.schedule tables).trans m.schedule, ?_, ?_, fun k => ?_, fun o i => ?_,
    fun o => ?_, (congrArg Uplink.assembler uplink :), (congrArg Uplink.restartPending uplink :),
    (congrArg Uplink.restartCause uplink :), (congrArg Uplink.requestedFlag uplink :), ?_⟩
  · obtain ⟨config, image⟩ := m.door_of_chosen c d
    have door : restarted.door d = { config := p.config d, image := (p.image d).cleared (p.config d).holderFitted } := by
      simp [restarted, Part.door, DoorImage.cleared]
    rw [show restarted.image d = _ from congrArg DoorRecord.image door] at image
    exact ⟨config.trans (congrArg DoorRecord.config door :), (congrArg DoorImage.claim image :), (congrArg DoorImage.settled image :),
      (congrArg DoorImage.bolt image :), (congrArg DoorImage.position image :), (congrArg DoorImage.holder image :),
      (congrArg DoorImage.pulseActive image :), (congrArg DoorImage.silence image :)⟩
  · simpa [restarted, Part.line] using lines l
  · rw [banks]
    exact m.staged
  · rw [fire, now]
  · simp [watches, restarted]
  · exact m.slot_of_chosen c o i (by simp [restarted, Part.slot])
  · have refusals : t.part.uplink.refusals = Vector.replicate 4 none := (congrArg Uplink.refusals uplink :)
    have senses : t.part.uplink.senses = Vector.replicate 4 none := (congrArg Uplink.senses uplink :)
    simp [refusals, senses]
  · rw [reaches.settled]
    exact settle_state _ _ announced
end

