-- ==== Sys2Proof/Proofs/Sense.lean ====
section
/-! CERTIFICATE. SENSE (O51): its frame, whose response writes no sense record, and what becomes of the records of the originators. -/
namespace Sys2Proof.Machine

/-! ## The frame -/

/-- A frame that passes checks 1 and 2 carries a known code. -/
theorem Frame.known_of_verdict {f : Frame} {c : Code} (h : f.verdict = .ok c) : f.known = some c := by
  unfold verdict at h
  split at h
  · split at h
    · cases h
    · next x known =>
      split at h
      · cases h
        exact known
      · cases h
  · cases h

theorem requestCode_value {b : Byte} {c : Code} (h : requestCode b = some c) : c.value = b :=
  of_decide_eq_true (List.find?_some h :)

/-- No door command's frame is a SENSE (11.2). -/
theorem doorCommandCode_ne_sense (b : Byte) : doorCommandCode b ≠ some .sense := fun h => by
  simpa using List.mem_of_find?_eq_some h

/-- The kind and the code of a SENSE frame (11.1, 11.2). -/
theorem Frame.sense_of_verdict {f : Frame} (h : f.verdict = .ok .sense) : f.kind = 0x01#8 ∧ f.code = 0x39#8 := by
  have carried := known_of_verdict h
  unfold Frame.known at carried
  split at carried
  · next request => exact ⟨request, (requestCode_value carried).symm⟩
  · split at carried
    · exact absurd carried (doorCommandCode_ne_sense _)
    · cases carried

/-! ## The records -/

/-- A filled record as SENSE returns it (R106). -/
theorem SenseRecord.bytes_eq (r : SenseRecord) :
    r.bytes =
      [byte r.completion.code, r.request, if r.door.isSome then 1#8 else 0#8,
        match r.door with | none => 0xFF#8 | some d => byte d, match r.detail with | none => 0xFF#8 | some n => byte n] := by
  unfold bytes
  cases r.door <;> cases r.detail <;> rfl

/-- The response to a SENSE frame writes no sense record (R105; log 20). -/
theorem Part.withAnswer_senses (p : Part) (o : OriginatorNo) (i : SlotNo) {f : Frame} (a : Time) (c : Completion)
    (results : List Byte) (detail : Option Nat) (h : f.kind = 0x01#8 ∧ f.code = 0x39#8) :
    (p.withAnswer o i f a c results detail).uplink.senses = p.uplink.senses := if_pos (.inr (.inr h))

/-- The transmitters' choices write no sense record. -/
theorem Part.Chosen.senses {p q : Part} (h : p.Chosen q) : q.uplink.senses = p.uplink.senses :=
  (congrArg Uplink.senses h.uplink :)

/-- A command that leaves an answer to a SENSE frame leaves the sense records that the part had before it was built. -/
theorem Completes.senses {s : State} {c : Instr} {p : Part} {o : OriginatorNo} {i : SlotNo} {f : Frame} {a : Time} {k : Completion}
    {results : List Byte} {detail : Option Nat} (h : Completes c s (p.withAnswer o i f a k results detail))
    (sense : f.kind = 0x01#8 ∧ f.code = 0x39#8) : ∃ t, exec c s = .next t ∧ t.part.uplink.senses = p.uplink.senses := by
  obtain ⟨t, e, reaches⟩ := h
  exact ⟨t, e, reaches.part.senses.trans (p.withAnswer_senses o i a k results detail sense)⟩

/-! ## The request -/

section
variable (p : Part) (o : OriginatorNo) (i : SlotNo) (f : Frame)

theorem Part.senseRequest_empty (h : p.uplink.senses[o] = none) : p.senseRequest o i f = p.answer o i .none [] none := by
  simp only [senseRequest, h]

theorem Part.senseRequest_filled {r : SenseRecord} (h : p.uplink.senses[o] = some r) :
    p.senseRequest o i f = (p.setSense o none).answerOk o i r.bytes := by
  simp only [senseRequest, h]

end

end Sys2Proof.Machine

open Sys2Proof.Machine

/-- Settles O51: VIEW is the level of SENSE; its owner's action is read by the requester's own record, and no answer to a SENSE frame
writes a record (`Completes.senses`). -/
theorem senseReturnsAndEmptiesTheRecord : Obligations.SenseReturnsAndEmptiesTheRecord := by
  intro s o i f a h p
  have sense := Frame.sense_of_verdict h.verdict
  have level : p.holds o Code.sense.authority = (p.originator o).enabled := OriginatorRecord.holds_view _
  refine ⟨fun off => ?_, fun on => ?_⟩
  · have refused : Completes .sense s (p.withAnswer o i f a .authority [] (some i.val)) := h.authority rfl (level.trans off)
    exact ⟨refused, refused.senses sense⟩
  · have decides : Decides s .sense o i f a := ⟨h, level.trans on, rfl⟩
    refine ⟨fun empty => decides.completes rfl ?_, fun r filled => ?_⟩
    · rw [Part.senseRequest_empty _ _ _ _ empty]
      exact decides.answer rfl ..
    · have returned : Completes .sense s ((p.setSense o none).withAnswer o i f a .ok r.bytes none) := by
        refine decides.completes rfl ?_
        rw [Part.senseRequest_filled _ _ _ _ filled]
        exact decides.answer (p.setSense_slot ..) ..
      obtain ⟨t, e, senses⟩ := returned.senses sense
      rw [SenseRecord.bytes_eq] at returned
      refine ⟨returned, t, e, ?_, fun n other => ?_⟩
      · simp [senses]
      · have apart : o.val ≠ n.val := fun same => other (Fin.ext same.symm)
        simp [senses, Vector.getElem_set_ne _ _ apart]
end

