-- ==== Sys2Proof/Proofs/SweepRequests.lean ====
section
/-! CERTIFICATE. CONTINUE SWEEP, ABANDON SWEEP and ABORT SWEEP (O28): the engine states in which each is taken, and what each leaves
before the engine goes on. -/
namespace Sys2Proof.Machine

/-! ## The answer after the engine has moved -/

/-- The engine leaves a slot that waits as it is. -/
theorem Part.Moves.slot_of_waiting {p q : Part} (m : p.Moves q) {o : OriginatorNo} {i : SlotNo} {f : Frame} {a : Time}
    (h : p.slot o i = .waiting f a) : q.slot o i = p.slot o i := by
  rcases m.slot o i with same | ⟨_, _, _, _, busy, -⟩
  · exact same
  · rw [h] at busy
    cases busy

/-- A decision whose owner lets the engine move and then answers OK with no results. -/
theorem Decides.completesMoved {c : Code} {cmd : Instr} {s : State} {o : OriginatorNo} {i : SlotNo} {f : Frame} {a : Time}
    {own : OriginatorNo → SlotNo → Frame → Part → Part} {q : Part} (h : Decides s c o i f a)
    (hx : exec cmd s = act (fun p => p.decide c own) s) (e : own o i f s.part = q.answerOk o i []) (m : s.part.Moves q) :
    Completes cmd s (q.withAnswer o i f a .ok [] none) :=
  h.completes hx (e.trans (h.answer (m.slot_of_waiting h.waits) ..))

namespace Part

/-! ## The engine state (3.2) -/

theorem engineState_suspended_iff (p : Part) :
    p.engineState = .suspended ↔ ∃ c, p.engine.ctx = some c ∧ c.phase = .suspended := by
  unfold engineState
  cases p.engine.ctx with
  | none => simp
  | some c => cases h : c.phase <;> simp [h]

theorem engineState_active_iff (p : Part) :
    p.engineState = .running ∨ p.engineState = .suspended ↔ ∃ c, p.engine.ctx = some c ∧ c.phase ≠ .draining := by
  unfold engineState
  cases p.engine.ctx with
  | none => simp
  | some c => cases h : c.phase <;> simp [h]

theorem engineState_idle_iff (p : Part) : p.engineState = .idle ↔ p.engine.ctx = none := by
  unfold engineState
  cases p.engine.ctx with
  | none => simp
  | some c => cases h : c.phase <;> simp [h]

/-- A change of the context of a sweep in progress. -/
theorem editCtx_eq {p : Part} {c : SweepContext} (h : p.engine.ctx = some c) (g : SweepContext → SweepContext) :
    p.editCtx g = { p with engine := { p.engine with ctx := some (g c) } } := by
  simp only [editCtx, setCtx, h, Option.map_some]

/-! ## The requests, check by check -/

section
variable (p : Part) (o : OriginatorNo) (i : SlotNo) (f : Frame)

theorem continueRequest_refused (h : ∀ c, p.engine.ctx = some c → c.phase ≠ .suspended) :
    p.continueRequest o i f = p.refuse o i .state :=
  if_neg fun k => by
    obtain ⟨c, sweeps, suspended⟩ := p.engineState_suspended_iff.1 k
    exact h c sweeps suspended

/-- SKIP drops a redo door that still waits, REDO replaces it (R90 to R93; log 41). -/
theorem continueRequest_ok {c : SweepContext} (h : p.engine.ctx = some c) (hp : c.phase = .suspended) :
    p.continueRequest o i f =
      ({ p with
          engine :=
            { p.engine with
              ctx :=
                some
                  { c with
                    phase := .running, suspendTimer := none, redo := if f.param 0 = 2 then c.suspension else none
                    suspension := none } } } : Part).engineRun.answerOk o i [] := by
  unfold continueRequest continueSweep
  rw [if_pos (p.engineState_suspended_iff.2 ⟨c, h, hp⟩), editCtx_eq h]
  simp only [decide_eq_true_eq]

theorem abandonRequest_refused (h : ∀ c, p.engine.ctx = some c → c.phase = .draining) :
    p.abandonRequest o i f = p.refuse o i .state :=
  if_neg fun k => by
    obtain ⟨c, sweeps, active⟩ := p.engineState_active_iff.1 k
    exact active (h c sweeps)

theorem abandonRequest_ok {c : SweepContext} (h : p.engine.ctx = some c) (hp : c.phase ≠ .draining) :
    p.abandonRequest o i f =
      ({ p with engine := { p.engine with ctx := some (c.drained .abandoned) } } : Part).engineRun.answerOk o i [] := by
  unfold abandonRequest
  rw [if_pos (p.engineState_active_iff.2 ⟨c, h, hp⟩), editCtx_eq h]

theorem abortRequest_refused (h : p.engine.ctx = none) : p.abortRequest o i f = p.refuse o i .state :=
  if_pos (p.engineState_idle_iff.2 h)

theorem abortRequest_ok {c : SweepContext} (h : p.engine.ctx = some c) :
    p.abortRequest o i f = p.abortSweep.answerOk o i [] :=
  if_neg fun k => by
    rw [p.engineState_idle_iff.1 k] at h
    cases h

end

/-! ## ABORT SWEEP's action (R96) -/

/-- What ABORT SWEEP ends at once: an entry with nothing outstanding, or with a request that is not in flight. -/
theorem abortsAtOnce_eq (p : Part) (n : EntryNo) (e : WorkEntry) :
    p.abortsAtOnce n e =
      (e.outstanding = .nothing ||
        e.outstanding = .request && !((p.line (p.lineOf e.door)).queue.any fun r => r.source = some (.entry n) && r.inFlight)) := by
  unfold abortsAtOnce
  cases e.outstanding <;> simp [Line.inFlightOf]

/-- The mark of an aborting entry does not change whether it ends at once. -/
theorem abortsAtOnce_aborting (p : Part) (n : EntryNo) (e : WorkEntry) (b : Bool) :
    p.abortsAtOnce n { e with aborting := b } = p.abortsAtOnce n e := rfl

/-- The completion of a step writes groups and the context (R79). -/
theorem completeStep_frame (p : Part) (plan : PlanNo) (number : Nat) (r : StepRecord) :
    ∃ groups ctx, p.completeStep plan number r = { p with groups := groups, engine := { p.engine with ctx := ctx } } := by
  unfold completeStep
  cases p.activeStep plan r.index with
  | none => exact ⟨_, _, rfl⟩
  | some s =>
    dsimp only
    rw [writeResults_eq]
    exact ⟨_, _, rfl⟩

/-- The completion of every complete step writes groups and the context. -/
theorem completeSteps_frame (p : Part) :
    ∃ groups ctx, p.completeSteps = { p with groups := groups, engine := { p.engine with ctx := ctx } } := by
  have steps (plan : PlanNo) (number : Nat) (rs : List StepRecord) : ∀ q : Part,
      ∃ groups ctx, rs.foldl (fun q r => q.completeStep plan number r) q =
        { q with groups := groups, engine := { q.engine with ctx := ctx } } := by
    induction rs with
    | nil => exact fun q => ⟨_, _, rfl⟩
    | cons r rs ih =>
      intro q
      obtain ⟨groups, ctx, first⟩ := q.completeStep_frame plan number r
      rw [List.foldl_cons, first]
      obtain ⟨groups', ctx', rest⟩ := ih { q with groups := groups, engine := { q.engine with ctx := ctx } }
      exact ⟨groups', ctx', rest⟩
  unfold completeSteps
  split
  · exact ⟨_, _, rfl⟩
  · split
    · exact ⟨_, _, rfl⟩
    · exact steps _ _ _ _

theorem completeSteps_entry (p : Part) (n : EntryNo) : p.completeSteps.entry n = p.entry n := by
  obtain ⟨groups, ctx, e⟩ := p.completeSteps_frame
  rw [e]
  rfl

theorem completeSteps_abortsAtOnce (p : Part) : p.completeSteps.abortsAtOnce = p.abortsAtOnce := by
  obtain ⟨groups, ctx, e⟩ := p.completeSteps_frame
  rw [e]
  rfl

theorem markAborting_entry (p : Part) (n : EntryNo) :
    p.markAborting.entry n = (p.entry n).map fun e => if p.abortsAtOnce n e then e else { e with aborting := true } := by
  simp [markAborting, entry]

theorem markAborting_abortsAtOnce (p : Part) : p.markAborting.abortsAtOnce = p.abortsAtOnce := rfl

/-- Marking the entries leaves those that end at once. -/
theorem markAborting_any (p : Part) (n : EntryNo) :
    (p.markAborting.entry n).any (p.abortsAtOnce n) = (p.entry n).any (p.abortsAtOnce n) := by
  rw [markAborting_entry]
  cases p.entry n with
  | none => rfl
  | some e =>
    rw [Option.map_some, Option.any_some, Option.any_some]
    split
    · rfl
    · exact abortsAtOnce_aborting ..

/-- The entries that a test picks for one outcome, in ascending entry number (log 12). -/
theorem entriesWith_eq (p : Part) (t : EntryNo → WorkEntry → Bool) (o : SweepOutcome) :
    (p.entriesWith fun n e => if t n e then some o else none) =
      (entryNumbers.filter fun n => (p.entry n).any (t n)).map fun n => (n, o) := by
  have pick (n : EntryNo) :
      ((p.entry n).bind fun e => (if t n e then some o else none).map fun o => (n, o)) =
        if (p.entry n).any (t n) then some (n, o) else none := by
    cases p.entry n with
    | none => rfl
    | some e => rw [Option.bind_some, Option.any_some]; split <;> rfl
  unfold entriesWith
  simp only [pick]
  induction entryNumbers with
  | nil => rfl
  | cons n ns ih =>
    rw [List.filterMap_cons, List.filter_cons, ih]
    cases (p.entry n).any (t n) <;> rfl

/-- The entries that ABORT SWEEP ends are those that it does not mark (R96). -/
theorem entriesAborted_eq (p : Part) :
    (p.markAborting.completeSteps.entriesWith fun n e =>
        if p.markAborting.completeSteps.abortsAtOnce n e then some .aborted else none) =
      (entryNumbers.filter fun n => (p.entry n).any (p.abortsAtOnce n)).map fun n => (n, .aborted) := by
  simp only [entriesWith_eq, completeSteps_entry, completeSteps_abortsAtOnce, markAborting_abortsAtOnce, markAborting_any]

/-- ABORT SWEEP drains the sweep, marks the entries that go on, completes what only the suspension or the redo held, and ends the others
(R96; log 12). -/
theorem abortSweep_eq {p : Part} {c : SweepContext} (h : p.engine.ctx = some c) :
    p.abortSweep =
      (((List.finRange 16).filter fun n => (p.entry n).any (p.abortsAtOnce n)).foldl (fun q n => q.endEntry n .aborted)
        ({ p with
            engine :=
              { p.engine with
                ctx := some (c.drained .aborted)
                workSet :=
                  Vector.ofFn fun n =>
                    (p.engine.workSet[n]).map fun e => if p.abortsAtOnce n e then e else { e with aborting := true } } } :
          Part).completeSteps).engineRun := by
  unfold abortSweep
  dsimp only
  rw [entriesAborted_eq, List.foldl_map, editCtx_eq h]
  rfl

end Part
end Sys2Proof.Machine

open Sys2Proof.Machine Sys2Proof.Machine.Part

/-- Settles O28: each request is read by the engine state it finds, and what the engine moves afterwards leaves the request's slot waiting
for its answer (`Decides.completesMoved`); ABORT SWEEP's action is `Part.abortSweep_eq`. -/
theorem sweepsAreContinuedAndEndedEarly : Obligations.SweepsAreContinuedAndEndedEarly := by
  intro s o i f a p state leaves drained
  have moves (c : SweepContext) : p.Moves (leaves c).engineRun :=
    (p.engine_moves { p.engine with ctx := some c } rfl rfl rfl).trans (engineRun_moves _)
  refine ⟨fun h => ⟨fun idle => h.completes rfl ?_, fun c sweeps suspended => ⟨fun skip => ?_, fun redo => ?_⟩⟩,
    fun h => ⟨fun idle => h.completes rfl ?_, fun c sweeps active => ?_⟩,
    fun h => ⟨fun idle => h.completes rfl ?_, fun c sweeps => ?_⟩⟩
  · rw [continueRequest_refused _ _ _ _ idle]
    exact h.answer rfl ..
  · refine h.completesMoved rfl ?_ (moves _)
    rw [continueRequest_ok _ _ _ _ sweeps suspended, if_neg (by omega)]
  · refine h.completesMoved rfl ?_ (moves _)
    rw [continueRequest_ok _ _ _ _ sweeps suspended, if_pos redo]
  · rw [abandonRequest_refused _ _ _ _ idle]
    exact h.answer rfl ..
  · exact h.completesMoved rfl (abandonRequest_ok _ _ _ _ sweeps active) (moves _)
  · rw [abortRequest_refused _ _ _ _ idle]
    exact h.answer rfl ..
  · intro atOnce marked ended
    have test : p.abortsAtOnce = atOnce := by
      funext n e
      exact p.abortsAtOnce_eq n e
    have aborted : p.abortSweep = (ended.foldl (fun q n => q.endEntry n .aborted) marked.completeSteps).engineRun := by
      rw [abortSweep_eq sweeps, test]
      rfl
    refine h.completesMoved rfl ?_ (aborted ▸ abortSweep_moves p)
    rw [abortRequest_ok _ _ _ _ sweeps, aborted]
end

