-- ==== Sys2Proof/Proofs/Exceptions.lean ====
section
/-! CERTIFICATE. CREATE EXCEPTION, EXTEND EXCEPTION and END EXCEPTION (O33, O34): what each check of R108, R111 and R112 reads, and
what a claim writes. -/
namespace Sys2Proof.Machine

/-! ## The door set of a frame (11.2) -/

/-- A frame that passes check 1 has the form of its code (R190). -/
theorem Frame.formHolds_of_verdict {f : Frame} {c : Code} (h : f.verdict = .ok c) : c.formHolds f = true := by
  unfold verdict at h
  split at h
  · split at h
    · cases h
    · split at h
      · next form =>
        cases h
        exact form
      · cases h
  · cases h

/-- The set kind of a CREATE EXCEPTION is GROUP or LIST (R198). -/
theorem Frame.setKind_of_verdict {f : Frame} (h : f.verdict = .ok .createException) : f.param 2 = 1 ∨ f.param 2 = 2 := by
  have form := formHolds_of_verdict h
  by_cases group : f.param 2 = 1
  · exact .inl group
  · by_cases list : f.param 2 = 2
    · exact .inr list
    · simp [Code.formHolds, Code.paramLength, group, list] at form

theorem Frame.doorSet_group {f : Frame} (h : f.param 2 = 1) : f.doorSet = .group (Fin.ofNat 32 (f.param 3)) := if_pos h

theorem Frame.doorSet_list {f : Frame} (h : f.param 2 = 2) :
    f.doorSet = .list ((f.params.drop 4).map fun b => Fin.ofNat 240 b.toNat) := if_neg (by omega)

/-- A door number's byte names it back. -/
theorem byte_eq_iff_ofNat {b : Byte} (d : DoorNo) (h : b.toNat < 240) : b = byte d.val ↔ Fin.ofNat 240 b.toNat = d := by
  have small : d.val < 256 := by omega
  rw [← BitVec.toNat_inj, byte_toNat small, Fin.ext_iff, Fin.val_ofNat, Nat.mod_eq_of_lt h]

/-- The doors that a CREATE EXCEPTION in range names: the group's members, or those listed (R108). -/
theorem Part.mem_doorsOf_doorSet (p : Part) {f : Frame} (kind : f.param 2 = 1 ∨ f.param 2 = 2)
    (range : Code.createException.inRange f = true) (d : DoorNo) :
    d ∈ p.doorsOf f.doorSet ↔
      (f.param 2 = 1 ∧ (p.config d).configured = true ∧ (p.config d).group.val = f.param 3) ∨
        (f.param 2 = 2 ∧ byte d.val ∈ f.params.drop 4) := by
  rcases kind with group | list
  · have named : f.param 3 ≤ 31 := by
      simp only [Code.inRange, group, Bool.and_eq_true, if_true, decide_eq_true_eq] at range
      obtain ⟨-, -, group31⟩ := range
      exact group31
    simp [Frame.doorSet_group group, group, doorsOf, groupMembers, allDoors, Fin.ext_iff, Nat.mod_eq_of_lt (show f.param 3 < 32 by omega)]
  · have named : ∀ b ∈ f.params.drop 4, b.toNat < 240 := by
      simp only [Code.inRange, if_neg (show ¬f.param 2 = 1 by omega), Bool.and_eq_true, List.all_eq_true, decide_eq_true_eq] at range
      obtain ⟨-, -, -, doors239⟩ := range
      exact doors239
    have byByte : (∃ b ∈ f.params.drop 4, Fin.ofNat 240 b.toNat = d) ↔ byte d.val ∈ f.params.drop 4 := by
      constructor
      · rintro ⟨b, mem, same⟩
        exact (byte_eq_iff_ofNat d (named b mem)).2 same ▸ mem
      · exact fun mem => ⟨_, mem, (byte_eq_iff_ofNat d (named _ mem)).1 rfl⟩
    rw [Frame.doorSet_list list, doorsOf, List.mem_map, byByte]
    simp [list]

/-- A list that names a door twice (R108). -/
theorem Part.repeats_doorSet (p : Part) {f : Frame} (kind : f.param 2 = 1 ∨ f.param 2 = 2) :
    f.doorSet.repeats = true ↔ f.param 2 = 2 ∧ ¬(p.doorsOf f.doorSet).Nodup := by
  rcases kind with group | list
  · simp [Frame.doorSet_group group, group, DoorSet.repeats]
  · simp [Frame.doorSet_list list, list, DoorSet.repeats, doorsOf]

/-! ## The checks of R108, R111 and R112 -/

theorem expiryAhead_iff (minute expiry : Nat) :
    expiryAhead minute expiry = true ↔ 1 ≤ forwardDistance minute expiry ∧ forwardDistance minute expiry ≤ 720 := by
  simp [expiryAhead]

/-- The forward distance counts on around the week (R114). -/
theorem forwardDistance_eq_mod {a b : Nat} (ha : a < 10080) (hb : b < 10080) :
    forwardDistance a b = (b + 10080 - a) % 10080 := by
  have week : Config.weekMinutes = 10080 := rfl
  unfold forwardDistance
  split <;> omega

/-- The level ADMINISTER is held by an enabled originator of just that level (R183). -/
theorem OriginatorRecord.holds_administer (r : OriginatorRecord) :
    r.holds .administer = true ↔ r = { enabled := true, authority := .administer } := by
  obtain ⟨enabled, authority⟩ := r
  cases enabled <;> cases authority <;> decide

/-- The first value found in an ascending list, by the element that gives it. -/
theorem findSome?_of_ascending {n : Nat} {β : Type} {l : List (Fin n)} (ascending : l.Pairwise (· < ·)) {g : Fin n → Option β}
    {d : Fin n} {x : β} (mem : d ∈ l) (found : g d = some x) (before : ∀ d' ∈ l, d' < d → g d' = none) :
    l.findSome? g = some x := by
  obtain ⟨below, above, rfl⟩ := List.append_of_mem mem
  refine List.findSome?_eq_some_iff.2 ⟨below, d, above, rfl, found, fun y hy => ?_⟩
  obtain ⟨-, -, lower⟩ := List.pairwise_append.1 ascending
  exact before y (List.mem_append_left _ hy) (lower y hy d List.mem_cons_self)

namespace Part

/-- The members of a group are configured, so only a list can name an unconfigured door (R108). -/
theorem listsUnconfigured_iff (p : Part) (set : DoorSet) :
    p.listsUnconfigured set = true ↔ ∃ d ∈ p.doorsOf set, (p.config d).configured = false := by
  cases set with
  | group g => simp +contextual [listsUnconfigured, doorsOf, groupMembers]
  | list ds => simp [listsUnconfigured, doorsOf]

theorem lowestClaim_eq_none_iff (p : Part) (ds : List DoorNo) :
    p.lowestClaim ds = none ↔ ∀ d ∈ ds, (p.image d).claim = none := by
  simp [lowestClaim, allDoors]

theorem lowestClaim_eq_some {p : Part} {ds : List DoorNo} {d : DoorNo} {x : ExceptionNo} (mem : d ∈ ds)
    (claim : (p.image d).claim = some x) (before : ∀ d' ∈ ds, d' < d → (p.image d').claim = none) :
    p.lowestClaim ds = some x :=
  findSome?_of_ascending ((List.pairwise_lt_finRange 240).filter _) (by simpa [allDoors] using mem) claim
    fun d' h => before d' (by simpa using (List.mem_filter.1 h).2)

theorem freeException_eq_none_iff (p : Part) : p.freeException = none ↔ ∀ x : ExceptionNo, p.exceptions[x] ≠ none := by
  simp [freeException]

theorem freeException_eq_some {p : Part} {x : ExceptionNo} (free : p.exceptions[x] = none)
    (before : ∀ y < x, p.exceptions[y] ≠ none) : p.freeException = some x := by
  unfold freeException
  rw [List.find?_eq_findSome?_guard]
  refine findSome?_of_ascending (List.pairwise_lt_finRange 16) (List.mem_finRange x) ?_ fun y _ below => ?_
  · simpa [Option.guard] using free
  · simpa [Option.guard] using before y below

/-- Who may act on an exception: its owner, or an originator that holds ADMINISTER (R111, R112). -/
theorem mayAct_iff (p : Part) (o owner : OriginatorNo) :
    p.mayAct o owner = true ↔ o = owner ∨ p.originator o = { enabled := true, authority := .administer } := by
  simp [mayAct, holds, OriginatorRecord.holds_administer]

/-! ## CREATE EXCEPTION, check by check (R108) -/

section
variable (p : Part) (o : OriginatorNo) (i : SlotNo) (f : Frame)

theorem createException_unset (h : p.clock.set = false) : p.createException o i f = p.refuse o i .clockUnset := by
  simp [createException, h]

theorem createException_range (h : p.clock.set = true)
    (hr : expiryAhead p.clock.minute (f.param16 0) = false ∨ f.doorSet.repeats = true) :
    p.createException o i f = p.refuse o i .range := by
  simp [createException, h, hr]

variable (h : p.clock.set = true) (ha : expiryAhead p.clock.minute (f.param16 0) = true) (hr : f.doorSet.repeats = false)
include h ha hr

theorem createException_unconfigured (hu : p.listsUnconfigured f.doorSet = true) :
    p.createException o i f = p.refuse o i .notConfigured := by
  simp [createException, h, ha, hr, hu]

variable (hu : p.listsUnconfigured f.doorSet = false)
include hu

theorem createException_claimed {x : ExceptionNo} (hc : p.lowestClaim (p.doorsOf f.doorSet) = some x) :
    p.createException o i f = p.answer o i .claimed [] (some x.val) := by
  simp [createException, h, ha, hr, hu, hc]

theorem createException_noSlot (hc : p.lowestClaim (p.doorsOf f.doorSet) = none) (hx : p.freeException = none) :
    p.createException o i f = p.refuse o i .noSlot := by
  simp [createException, h, ha, hr, hu, hc, hx]

theorem createException_ok (hc : p.lowestClaim (p.doorsOf f.doorSet) = none) {x : ExceptionNo} (hx : p.freeException = some x) :
    p.createException o i f =
      ((p.setException x (some { owner := o, expiry := f.param16 0, doors := f.doorSet, created := p.clock.minute })).claimDoors x
        (p.doorsOf f.doorSet)).answerOk o i [byte x, byte (p.doorsOf f.doorSet).length] := by
  simp [createException, h, ha, hr, hu, hc, hx]

end

/-! ## The claim (R109, R110) -/

/-- The claims of several doors, each taken from the catch-up list (R109). -/
theorem claimsAndRemovals_eq (x : ExceptionNo) (ds : List DoorNo) :
    ∀ p : Part,
      ds.foldl (fun q d => (q.setClaim d (some x)).removeCatchUp d) p =
        { p with
          doors :=
            Vector.ofFn fun d => if d ∈ ds then { p.door d with image := { p.image d with claim := some x } } else p.door d
          catchUp := p.catchUp.filter fun d => d ∉ ds } := by
  suffices h : ∀ p : Part,
      ds.foldl (fun q d => (q.setClaim d (some x)).removeCatchUp d) p =
        { ds.foldl (fun q d => q.setClaim d (some x)) p with catchUp := p.catchUp.filter fun d => d ∉ ds } by
    intro p
    rw [h, setClaims_eq]
  induction ds with
  | nil =>
    intro p
    have kept : p.catchUp.filter (fun d => d ∉ []) = p.catchUp := List.filter_eq_self.2 fun _ _ => decide_eq_true List.not_mem_nil
    rw [List.foldl_nil, List.foldl_nil, kept]
  | cons d ds ih =>
    intro p
    have listed : ((p.setClaim d (some x)).removeCatchUp d).catchUp.filter (fun y => y ∉ ds) =
        p.catchUp.filter fun y => y ∉ d :: ds := by
      simp [removeCatchUp, setClaim, List.filter_filter, not_or, Bool.and_comm]
    rw [List.foldl_cons, List.foldl_cons, ih, listed, setClaims_eq, setClaims_eq]
    rfl

/-- The work set is the engine's alone. -/
theorem entry_congr {p q : Part} (h : p.engine = q.engine) (n : EntryNo) : p.entry n = q.entry n := by
  rw [entry, entry, h]

/-- Several entries ended together with one outcome. -/
theorem endEntries_map (p : Part) (ns : List EntryNo) (o : SweepOutcome) :
    p.endEntries (ns.map fun n => (n, o)) = if ns = [] then p else (ns.foldl (fun q n => q.endEntry n o) p).engineRun := by
  simp [endEntries, List.foldl_map]

/-- The claim of doors ends with EXCEPTED the SECURE entries of those doors (R110). -/
theorem claimEntries_eq (p : Part) (ds : List DoorNo) :
    p.claimEntries ds =
      let ended := (List.finRange 16).filter fun n => (p.entry n).any fun e => e.action = .secure && ds.contains e.door
      if ended = [] then p else (ended.foldl (fun q n => q.endEntry n .excepted) p).engineRun := by
  have test : (fun (_ : EntryNo) (e : WorkEntry) => if e.action = .secure ∧ e.door ∈ ds then some SweepOutcome.excepted else none) =
      fun _ e => if e.action = .secure && ds.contains e.door then some .excepted else none := by
    funext _ e
    simp
  unfold claimEntries
  rw [test, entriesWith_eq p fun _ e => e.action = .secure && ds.contains e.door, endEntries_map]
  rfl

/-- A new exception, whole: its slot, its claims and removals from the catch-up list, and the entries they end (R109, R110). -/
theorem claimDoors_eq (p : Part) (x : ExceptionNo) (r : Option ExceptionRecord) (ds : List DoorNo) :
    let claimed : Part :=
      { p with
        exceptions := p.exceptions.set x r
        doors :=
          Vector.ofFn fun d => if d ∈ ds then { p.door d with image := { p.image d with claim := some x } } else p.door d
        catchUp := p.catchUp.filter fun d => d ∉ ds }
    let ended := (List.finRange 16).filter fun n => (p.entry n).any fun e => e.action = .secure && ds.contains e.door
    (p.setException x r).claimDoors x ds =
      if ended = [] then claimed else (ended.foldl (fun q n => q.endEntry n .excepted) claimed).engineRun := by
  intro claimed ended
  have work : ∀ n, claimed.entry n = p.entry n := entry_congr rfl
  have written : ds.foldl (fun q d => (q.setClaim d (some x)).removeCatchUp d) (p.setException x r) = claimed :=
    claimsAndRemovals_eq ..
  unfold claimDoors
  rw [written, claimEntries_eq]
  simp only [work, ended]

/-- A new exception leaves a slot that waits as it is. -/
theorem claimDoors_slot {p : Part} (x : ExceptionNo) (r : Option ExceptionRecord) (ds : List DoorNo) {o : OriginatorNo} {i : SlotNo}
    {f : Frame} {a : Time} (h : p.slot o i = .waiting f a) :
    ((p.setException x r).claimDoors x ds).slot o i = p.slot o i := by
  have same : (ds.foldl (fun q d => (q.setClaim d (some x)).removeCatchUp d) (p.setException x r)).slot o i = p.slot o i := by
    rw [claimsAndRemovals_eq, slot, slot]
    rfl
  exact ((claimEntries_moves _ ds).slot_of_waiting (same.trans h)).trans same

/-! ## EXTEND EXCEPTION and END EXCEPTION, check by check (R111, R112) -/

section
variable (p : Part) (o : OriginatorNo) (i : SlotNo) (f : Frame) {x : ExceptionNo} {e : ExceptionRecord} (hx : x.val = f.param 0)
include hx

theorem extendException_free (h : p.exceptions[x] = none) : p.extendException o i f = p.refuse o i .state := by
  simp only [extendException, ofNat_eq_of_val hx, h]

theorem endExceptionRequest_free (h : p.exceptions[x] = none) :
    p.endExceptionRequest o i f = p.refuse o i .state := by
  simp only [endExceptionRequest, ofNat_eq_of_val hx, h]

variable (h : p.exceptions[x] = some e)
include h

theorem extendException_authority (ho : p.mayAct o e.owner = false) : p.extendException o i f = p.refuse o i .authority := by
  simp only [extendException, ofNat_eq_of_val hx, h, ho, Bool.not_false, if_true]

theorem extendException_range (ho : p.mayAct o e.owner = true) (ha : expiryAhead p.clock.minute (f.param16 1) = false) :
    p.extendException o i f = p.refuse o i .range := by
  simp only [extendException, ofNat_eq_of_val hx, h, ho, ha, Bool.not_true, Bool.not_false, Bool.false_eq_true, if_true, if_false]

theorem extendException_ok (ho : p.mayAct o e.owner = true) (ha : expiryAhead p.clock.minute (f.param16 1) = true) :
    p.extendException o i f = (p.setException x (some { e with expiry := f.param16 1 })).answerOk o i [] := by
  simp only [extendException, ofNat_eq_of_val hx, h, ho, ha, Bool.not_true, Bool.false_eq_true, if_false]

theorem endExceptionRequest_authority (ho : p.mayAct o e.owner = false) :
    p.endExceptionRequest o i f = p.refuse o i .authority := by
  simp only [endExceptionRequest, ofNat_eq_of_val hx, h, ho, Bool.not_false, if_true]

theorem endExceptionRequest_ok (ho : p.mayAct o e.owner = true) :
    p.endExceptionRequest o i f = ((p.endException x .ended).offerIfGrown p.catchUp.length).answerOk o i [] := by
  simp only [endExceptionRequest, ofNat_eq_of_val hx, h, ho, Bool.not_true, Bool.false_eq_true, if_false]

end

/-! ## The end of an exception (R115) -/

theorem mem_claimedBy (p : Part) (x : ExceptionNo) (d : DoorNo) : d ∈ p.claimedBy x ↔ (p.image d).claim = some x := by
  simp [claimedBy, allDoors]

/-- The end of an exception leaves every request slot as it is. -/
theorem endException_slot (p : Part) (x : ExceptionNo) (cause : ExceptionCause) (o : OriginatorNo) (i : SlotNo) :
    (p.endException x cause).slot o i = p.slot o i := by
  cases h : p.exceptions[x] with
  | none => simp only [endException, h]
  | some e => rw [endException_eq p x e cause h, slot, slot]

/-- An exception's end and the offer of what it appended leave a slot that waits as it is. -/
theorem endException_offered_slot {p : Part} (x : ExceptionNo) (cause : ExceptionCause) (n : Nat) {o : OriginatorNo} {i : SlotNo}
    {f : Frame} {a : Time} (h : p.slot o i = .waiting f a) :
    ((p.endException x cause).offerIfGrown n).slot o i = p.slot o i := by
  have same := p.endException_slot x cause o i
  exact ((offerIfGrown_moves _ n).slot_of_waiting (same.trans h)).trans same

end Part
end Sys2Proof.Machine

open Sys2Proof.Machine Sys2Proof.Machine.Part

/-- Settles O33: each check of R108 is read by its own equation of `Part.createException`, and a frame that passes them all leaves what
`Part.claimDoors_eq` says. -/
theorem createExceptionClaimsItsDoors : Obligations.CreateExceptionClaimsItsDoors := by
  intro s o i f a h p ds expiry ahead refused repeats
  have kind := Frame.setKind_of_verdict h.verdict
  have expires : expiryAhead p.clock.minute (f.param16 0) = true ↔ 1 ≤ ahead ∧ ahead ≤ 720 := expiryAhead_iff ..
  have twice : f.doorSet.repeats = true ↔ repeats := p.repeats_doorSet kind
  have listed : p.listsUnconfigured f.doorSet = true ↔ ∃ d ∈ ds, (p.config d).configured = false := p.listsUnconfigured_iff _
  refine ⟨p.mem_doorsOf_doorSet kind h.range, fun unset => h.completes rfl ?_,
    fun ticks => ⟨fun bad => h.completes rfl ?_, fun low high once => ?_⟩⟩
  · rw [createException_unset _ _ _ _ unset]
    exact h.answer rfl ..
  · have fails : expiryAhead p.clock.minute (f.param16 0) = false ∨ f.doorSet.repeats = true := by
      rw [← Bool.not_eq_true, expires, twice]
      rcases bad with early | late | again
      · exact .inl (by omega)
      · exact .inl (by omega)
      · exact .inr again
    rw [createException_range _ _ _ _ ticks fails]
    exact h.answer rfl ..
  have inTime := expires.2 ⟨low, high⟩
  have noRepeat : f.doorSet.repeats = false := Bool.eq_false_iff.2 fun k => once (twice.1 k)
  refine ⟨fun unconfigured => h.completes rfl ?_, fun configured => ?_⟩
  · rw [createException_unconfigured _ _ _ _ ticks inTime noRepeat (listed.2 unconfigured)]
    exact h.answer rfl ..
  have allConfigured : p.listsUnconfigured f.doorSet = false := Bool.eq_false_iff.2 fun k => by
    obtain ⟨d, mem, unconfigured⟩ := listed.1 k
    exact Bool.eq_false_iff.1 unconfigured (configured d mem)
  refine ⟨fun d x mem claim before => h.completes rfl ?_, fun unclaimed => ?_⟩
  · rw [createException_claimed _ _ _ _ ticks inTime noRepeat allConfigured (lowestClaim_eq_some mem claim before)]
    exact h.answer rfl ..
  have noClaim := (p.lowestClaim_eq_none_iff ds).2 unclaimed
  refine ⟨fun full => h.completes rfl ?_, fun x free before => ?_⟩
  · rw [createException_noSlot _ _ _ _ ticks inTime noRepeat allConfigured noClaim (p.freeException_eq_none_iff.2 full)]
    exact h.answer rfl ..
  intro claimed ended excepted
  have claims : (p.setException x (some { owner := o, expiry := expiry, doors := f.doorSet, created := p.clock.minute })).claimDoors x ds =
      excepted := claimDoors_eq ..
  have waits : excepted.slot o i = p.slot o i := claims ▸ claimDoors_slot _ _ _ h.waits
  refine h.completes rfl ?_
  rw [createException_ok _ _ _ _ ticks inTime noRepeat allConfigured noClaim (freeException_eq_some free before)]
  exact (congrArg (fun q => Part.answerOk q o i _) claims).trans (h.answer waits ..)

/-- Settles O34: the checks of R111 and R112 in their order, and `Part.endException_eq` for the action by which an exception ends. -/
theorem exceptionsAreExtendedAndEnded : Obligations.ExceptionsAreExtendedAndEnded := by
  refine ⟨fun s o i f a x hx => ?_, fun a b => forwardDistance_eq_mod, fun p x e cause active => ?_⟩
  · intro p expiry ahead mayAct
    have acts (e : ExceptionRecord) : p.mayAct o e.owner = true ↔ mayAct e := p.mayAct_iff o e.owner
    have barred {e : ExceptionRecord} (k : ¬mayAct e) : p.mayAct o e.owner = false := Bool.eq_false_iff.2 fun b => k ((acts e).1 b)
    have expires : expiryAhead p.clock.minute (f.param16 1) = true ↔ 1 ≤ ahead ∧ ahead ≤ 720 := expiryAhead_iff ..
    refine ⟨fun h => ⟨fun free => h.completes rfl ?_, fun e active => ⟨fun other => h.completes rfl ?_,
        fun own bad => h.completes rfl ?_, fun own low high => h.completes rfl ?_⟩⟩,
      fun h => ⟨fun free => h.completes rfl ?_, fun e active => ⟨fun other => h.completes rfl ?_, fun own => h.completes rfl ?_⟩⟩⟩
    · rw [extendException_free _ _ _ _ hx free]
      exact h.answer rfl ..
    · rw [extendException_authority _ _ _ _ hx active (barred other)]
      exact h.answer rfl ..
    · have fails : expiryAhead p.clock.minute (f.param16 1) = false := Bool.eq_false_iff.2 fun k => by
        have := expires.1 k
        omega
      rw [extendException_range _ _ _ _ hx active ((acts e).2 own) fails]
      exact h.answer rfl ..
    · rw [extendException_ok _ _ _ _ hx active ((acts e).2 own) (expires.2 ⟨low, high⟩)]
      exact h.answer (q := p.setException x _) rfl ..
    · rw [endExceptionRequest_free _ _ _ _ hx free]
      exact h.answer rfl ..
    · rw [endExceptionRequest_authority _ _ _ _ hx active (barred other)]
      exact h.answer rfl ..
    · rw [endExceptionRequest_ok _ _ _ _ hx active ((acts e).2 own)]
      exact h.answer (endException_offered_slot _ _ _ h.waits) ..
  · intro released appended
    have idle (d) : (p.entryOf d).isNone = !p.inWorkSet d := by rw [inWorkSet, Option.not_isSome]
    rw [endException_eq p x e cause active]
    simp only [mem_claimedBy, appended, idle]
    rfl
end

