-- ==== Sys2Proof/Proofs/DoorCommands.lean ====
section
/-! CERTIFICATE. The six door commands (O53): the checks of R157, the taking of a command into its line's queue, and its completion. -/
namespace Sys2Proof.Machine

/-! ## The six codes -/

/-- The codes of the door commands (11.2). -/
def doorCommandCodes : List Code := [.throwBolt, .retractBolt, .pulse, .holderEngage, .holderRelease, .pollNow]

/-- Each door command decides the frames of its code. -/
theorem exec_doorCommand {c : Code} (h : c ∈ doorCommandCodes) (s : State) :
    exec (c.command []) s = act (fun p => p.decide c fun o i f q => q.doorCommand c o i f) s := by
  simp only [doorCommandCodes, List.mem_cons, List.not_mem_nil, or_false] at h
  rcases h with rfl | rfl | rfl | rfl | rfl | rfl <;> rfl

/-- What a door command asks of its node; a code that is no drive and no holder's is POLL NOW's (R159). -/
theorem Code.lineCmd_eq (c : Code) (f : Frame) :
    c.lineCmd f =
      if c = .throwBolt then .driveThrow
      else if c = .retractBolt then .driveRetract
      else if c = .pulse then .drivePulse (f.param 0)
      else if c = .holderEngage then .holderEngage
      else if c = .holderRelease then .holderRelease
      else .pollNow := by
  cases c <;> rfl

/-- An alternative to a choice is an alternative to each of its branches. -/
theorem ite_or {α : Type} (c : Prop) [Decidable c] (x y z : Option α) :
    (if c then x else y).or z = if c then x.or z else y.or z := apply_ite (Option.or · z) c x y

theorem byte_lastOutcomeCode_eq_code (x : Option SweepOutcome) :
    byte (lastOutcomeCode x) = match x with | none => 0#8 | some y => byte y.code := by cases x <;> rfl

namespace Part

/-! ## Progress and completion (R160, R165) -/

section
variable {p : Part} {o : OriginatorNo} {i : SlotNo}

theorem setProgress_inProgress {f : Frame} {a : Time} {g' : Progress} (h : p.slot o i = .inProgress f a (some g')) (g : Progress) :
    p.setProgress (some (.slot o i)) g = p.setSlot o i (.inProgress f a (some g)) := by
  simp only [setProgress, h]

/-- Only a source that is the slot of a taken door command has a progress to move. -/
theorem setProgress_eq_self {x : Option Source}
    (h : ∀ o i f a g', x = some (.slot o i) → p.slot o i ≠ .inProgress f a (some g')) (g : Progress) : p.setProgress x g = p := by
  unfold setProgress
  split
  · split
    · next taken => exact absurd taken (h _ _ _ _ _ rfl)
    · rfl
  · rfl

theorem completeCommand_inProgress {f : Frame} {a : Time} {g : Progress} (h : p.slot o i = .inProgress f a (some g)) (c : Completion) :
    p.completeCommand o i c = p.withAnswer o i f a c (p.imageBytes f.doorNo) (p.commandDetail f.doorNo i c) := by
  simp only [completeCommand, h]
  exact p.answer_eq o i c _ _ (.inr ⟨_, h⟩)

theorem completeCommand_eq_self (h : ∀ f a g, p.slot o i ≠ .inProgress f a (some g)) (c : Completion) :
    p.completeCommand o i c = p := by
  unfold completeCommand
  split
  · next taken => exact absurd taken (h _ _ _)
  · rfl

end

/-- The detail of a completion is the line for the codes that the line gives, and the slot for every other (R105). -/
theorem commandDetail_eq (p : Part) (d : DoorNo) (i : SlotNo) (c : Completion) :
    p.commandDetail d i c =
      some (if c = .refused ∨ c = .noReply ∨ c = .boltTimeout ∨ c = .jammed ∨ c = .lineDown then (p.config d).line.val else i.val) := by
  cases c <;> rfl

/-- The door image in a response, its optional fields read case by case (R165, 11.3). -/
theorem imageBytes_eq (p : Part) (d : DoorNo) :
    let m := p.image d
    p.imageBytes d =
      [byte (p.imageState d).code, byte m.bolt.code, byte m.position.code, byte m.holder.code, if m.pulseActive then 1#8 else 0#8,
        byte m.silence, match m.lastOutcome with | none => 0#8 | some x => byte x.code,
        match m.claim with | none => 0xFF#8 | some x => byte x, if p.catchUp.contains d then 1#8 else 0#8] := by
  intro m
  unfold imageBytes
  rw [byte_lastOutcomeCode_eq_code, optByte_claim]
  rfl

/-! ## The checks of R157 -/

/-- The checks of R157 before those of the claim and the night: the refusal and its detail (R105, R158). -/
def blocked (p : Part) (c : Code) (i : SlotNo) (d : DoorNo) : Option (Completion × Option Nat) :=
  if (p.config d).configured = false then some (.notConfigured, some i.val)
  else if (p.config d).withdrawn = true then some (.withdrawn, some i.val)
  else
    match p.entryOf d with
    | some (_, e) => some (.inSweep, e.step)
    | none =>
      if (p.line (p.config d).line).state ≠ .active then some (.lineDown, some (p.config d).line.val)
      else if c = .throwBolt ∧ p.fire.latch = true ∧ (p.config d).fireAction = .free then some (.fireHold, some i.val)
      else none

/-- Another originator than `o` owns the exception that claims the door (R157). -/
def ClaimedByAnother (p : Part) (o : OriginatorNo) (d : DoorNo) : Prop :=
  ∃ x e, (p.image d).claim = some x ∧ p.exceptions[x] = some e ∧ e.owner ≠ o

theorem claimedByAnother_iff (p : Part) (o : OriginatorNo) (d : DoorNo) :
    (((p.image d).claim.bind fun x => (p.exceptions[x]).map fun e => e.owner).any fun w => w ≠ o) = true ↔ p.ClaimedByAnother o d := by
  rw [Option.any_eq_true]
  constructor
  · rintro ⟨w, found, other⟩
    obtain ⟨x, claim, owned⟩ := Option.bind_eq_some_iff.1 found
    obtain ⟨e, active, rfl⟩ := Option.map_eq_some_iff.1 owned
    exact ⟨x, e, claim, active, of_decide_eq_true other⟩
  · rintro ⟨x, e, claim, active, other⟩
    refine ⟨e.owner, ?_, decide_eq_true other⟩
    exact Option.bind_eq_some_iff.2 ⟨x, claim, Option.map_eq_some_iff.2 ⟨e, active, rfl⟩⟩

/-- Whether an originator is exempt from the checks of the claim and the night (R157, R183). -/
theorem not_holds_administer (p : Part) (o : OriginatorNo) :
    (!p.holds o .administer) = true ↔ p.originator o ≠ { enabled := true, authority := .administer } := by
  rw [Bool.not_eq_true', Bool.eq_false_iff]
  exact not_congr (OriginatorRecord.holds_administer _)

section
variable {p : Part} {c : Code} {o : OriginatorNo} {i : SlotNo} {d : DoorNo}

/-- The checks of `blocked` come first, and the checks of the claim and the night follow them. -/
theorem policy_eq (p : Part) (c : Code) (o : OriginatorNo) (i : SlotNo) (d : DoorNo) :
    p.policy c o i d =
      (p.blocked c i d).or
        (if c = .throwBolt ∧ (((p.image d).claim.bind fun x => (p.exceptions[x]).map fun e => e.owner).any fun w => w ≠ o) = true ∧
            (!p.holds o .administer) = true then
          some (.claimed, (p.image d).claim.map (·.val))
        else if (c = .retractBolt ∨ c = .pulse) ∧ (p.group (p.config d).group).night = true ∧ (p.config d).nightPass = false ∧
            (!p.holds o .administer) = true then
          some (.nightPolicy, some i.val)
        else none) := by
  unfold policy blocked
  cases entry : p.entryOf d with
  | none =>
    simp only [inWorkSet_eq_false entry, Bool.not_eq_true', Bool.false_eq_true, if_false, ite_or, Option.some_or, Option.none_or]
    rfl
  | some ne =>
    simp only [inWorkSet_of_entryOf entry, sweepDetail_eq entry, Bool.not_eq_true', if_true, ite_or, Option.some_or]

theorem policy_blocked {r : Completion × Option Nat} (h : p.blocked c i d = some r) : p.policy c o i d = some r := by
  rw [policy_eq, h, Option.some_or]

theorem active_of_unblocked (h : p.blocked c i d = none) : (p.line (p.config d).line).state = .active := by
  unfold blocked at h
  split at h
  · cases h
  · split at h
    · cases h
    · split at h
      · cases h
      · split at h
        · cases h
        · next up => exact Decidable.not_not.1 up

variable (passes : p.blocked c i d = none)
include passes

theorem policy_claimed (throws : c = .throwBolt) (another : p.ClaimedByAnother o d)
    (level : p.originator o ≠ { enabled := true, authority := .administer }) :
    p.policy c o i d = some (.claimed, (p.image d).claim.map (·.val)) := by
  rw [policy_eq, passes, Option.none_or, if_pos ⟨throws, (p.claimedByAnother_iff o d).2 another, (p.not_holds_administer o).2 level⟩]

theorem policy_night (drives : c = .retractBolt ∨ c = .pulse) (night : (p.group (p.config d).group).night = true)
    (noPass : (p.config d).nightPass = false) (level : p.originator o ≠ { enabled := true, authority := .administer }) :
    p.policy c o i d = some (.nightPolicy, some i.val) := by
  have other : c ≠ .throwBolt := by rcases drives with rfl | rfl <;> decide
  rw [policy_eq, passes, Option.none_or, if_neg fun k => other k.1,
    if_pos ⟨drives, night, noPass, (p.not_holds_administer o).2 level⟩]

theorem policy_none
    (unclaimed : ¬(c = .throwBolt ∧ p.ClaimedByAnother o d ∧ p.originator o ≠ { enabled := true, authority := .administer }))
    (allowed : ¬((c = .retractBolt ∨ c = .pulse) ∧ (p.group (p.config d).group).night = true ∧ (p.config d).nightPass = false ∧
      p.originator o ≠ { enabled := true, authority := .administer })) : p.policy c o i d = none := by
  rw [policy_eq, passes, Option.none_or, if_neg, if_neg]
  · rwa [not_holds_administer]
  · rwa [claimedByAnother_iff, not_holds_administer]

end

/-! ## The taking (R34, R35, R159) -/

section
variable (p : Part) {d : DoorNo} (cmd : LineCmd) (src : Source) {x : Line} (hx : p.line (p.lineOf d) = x) (active : x.state = .active)
include hx active

/-- A submission to an ACTIVE line with a free place. -/
theorem submit_queued (room : x.queue.length < 8) :
    (p.submit cmd d src).1 =
      (p.setLine (p.lineOf d)
        { x with queue := x.queue ++ [{ cmd := cmd, door := d, source := some src, inFlight := false, purged := false }] }).setProgress
        (some src) .queued := by
  simp [submit, hx, active, Config.queuePlaces, room]

/-- A submission to an ACTIVE line whose queue is full. -/
theorem submit_held (full : 8 ≤ x.queue.length) :
    (p.submit cmd d src).1 =
      (p.setLine (p.lineOf d)
        { x with held := x.held ++ [{ cmd := cmd, door := d, source := some src, inFlight := false, purged := false }] }).setProgress
        (some src) .held := by
  simp [submit, hx, active, Config.queuePlaces, Nat.not_lt.2 full]

end

/-- The request that a door command submits. -/
def doorRequest (c : Code) (o : OriginatorNo) (i : SlotNo) (f : Frame) : LineRequest where
  cmd := c.lineCmd f
  door := f.doorNo
  source := some (.slot o i)
  inFlight := false
  purged := false

theorem setSlot_setSlot (p : Part) (o : OriginatorNo) (i : SlotNo) (x y : Slot) : (p.setSlot o i x).setSlot o i y = p.setSlot o i y := by
  simp only [setSlot, Vector.set_set]

/-- The progress moved as a command's request is submitted is that of the slot it has just taken. -/
theorem setProgress_taken (p : Part) (o : OriginatorNo) (i : SlotNo) (f : Frame) (a : Time) (l : LineNo) (x : Line) (g : Progress) :
    ((p.setSlot o i (.inProgress f a (some .queued))).setLine l x).setProgress (some (.slot o i)) g =
      (p.setLine l x).setSlot o i (.inProgress f a (some g)) := by
  have taken : ((p.setSlot o i (.inProgress f a (some .queued))).setLine l x).slot o i = .inProgress f a (some .queued) :=
    p.setSlot_slot_self ..
  rw [setProgress_inProgress taken]
  exact (p.setLine l x).setSlot_setSlot ..

section
variable {p : Part} {o : OriginatorNo} {i : SlotNo} {f : Frame} {a : Time} (c : Code) (waits : p.slot o i = .waiting f a)
include waits

theorem takeCommand_eq :
    p.takeCommand c o i f = ((p.setSlot o i (.inProgress f a (some .queued))).submit (c.lineCmd f) f.doorNo (.slot o i)).1 := by
  simp only [takeCommand, waits]

variable {x : Line} (hx : p.line (p.lineOf f.doorNo) = x) (active : x.state = .active)
include hx active

theorem takeCommand_queued (room : x.queue.length < 8) :
    p.takeCommand c o i f =
      (p.setLine (p.lineOf f.doorNo) { x with queue := x.queue ++ [doorRequest c o i f] }).setSlot o i
        (.inProgress f a (some .queued)) := by
  rw [takeCommand_eq c waits, submit_queued (p.setSlot o i _) _ _ hx active room]
  exact setProgress_taken ..

theorem takeCommand_held (full : 8 ≤ x.queue.length) :
    p.takeCommand c o i f =
      (p.setLine (p.lineOf f.doorNo) { x with held := x.held ++ [doorRequest c o i f] }).setSlot o i
        (.inProgress f a (some .held)) := by
  rw [takeCommand_eq c waits, submit_held (p.setSlot o i _) _ _ hx active full]
  exact setProgress_taken ..

end

/-! ## The command -/

section
variable {p : Part} {c : Code} {o : OriginatorNo} {i : SlotNo} {f : Frame}

theorem doorCommand_refused {k : Completion} {detail : Option Nat} (h : p.policy c o i f.doorNo = some (k, detail)) :
    p.doorCommand c o i f = p.answer o i k [] detail := by
  simp only [doorCommand, h]

theorem doorCommand_taken (h : p.policy c o i f.doorNo = none) : p.doorCommand c o i f = p.takeCommand c o i f := by
  simp only [doorCommand, h]

end

end Part

/-- A door command that fails a check of R157 completes with its refusal. -/
theorem Decides.refused {c : Code} {s : State} {o : OriginatorNo} {i : SlotNo} {f : Frame} {a : Time} (h : Decides s c o i f a)
    (member : c ∈ doorCommandCodes) {k : Completion} {detail : Option Nat} (refusal : s.part.policy c o i f.doorNo = some (k, detail)) :
    Completes (c.command []) s (s.part.withAnswer o i f a k [] detail) :=
  h.completes (exec_doorCommand member s) ((Part.doorCommand_refused refusal).trans (h.answer rfl ..))

end Sys2Proof.Machine

open Sys2Proof.Machine Sys2Proof.Machine.Part

/-- Settles O53: a command's refusal is read from `Part.policy_eq`, in which the checks of R157 stand in order; a command that passes them
is taken as `takeCommand_queued` and `takeCommand_held` say. The queue's two operations are as the model writes them. -/
theorem doorCommandsAreCheckedAndTaken : Obligations.DoorCommandsAreCheckedAndTaken := by
  refine ⟨fun p o i c => ⟨fun f a g taken => ?_, fun other => completeCommand_eq_self other c⟩,
    fun p x g => ⟨?_, fun other => setProgress_eq_self other g⟩, fun _ _ => rfl, fun _ _ _ => rfl, ?_⟩
  · intro d m line
    have completed := completeCommand_inProgress taken c
    rw [imageBytes_eq, commandDetail_eq] at completed
    exact completed
  · rintro o i f a g' rfl taken
    exact setProgress_inProgress taken g
  intro s c o i f a d member h hd
  obtain rfl : f.doorNo = d := Frame.doorNo_eq hd
  intro p record admin claimedByAnother refusal policy cmd request x leaves
  have passes (free : refusal = none) : p.blocked c i f.doorNo = none := free
  refine ⟨fun k detail fails => h.refused member (policy_blocked fails),
    fun free throws another level => h.refused member (policy_claimed (passes free) throws another level),
    fun free drives restricted => ?_, fun free allowed => ?_⟩
  · rcases restricted with ⟨rfl, -⟩ | ⟨-, night, noPass, level⟩
    · rcases drives with k | k <;> cases k
    · exact h.refused member (policy_night (passes free) drives night noPass level)
  · have taken := doorCommand_taken (policy_none (passes free) (fun k => allowed (.inl k)) fun k => allowed (.inr k))
    have asked : doorRequest c o i f = request := by
      unfold doorRequest
      rw [Code.lineCmd_eq]
    have active := active_of_unblocked (passes free)
    refine ⟨fun room => h.completes (exec_doorCommand member s) (taken.trans ?_),
      fun full => h.completes (exec_doorCommand member s) (taken.trans ?_)⟩
    · rw [takeCommand_queued c h.waits rfl active room, asked]
      rfl
    · rw [takeCommand_held c h.waits rfl active full, asked]
      rfl
end

