-- ==== Sys2Proof/Laws/Responses.lean ====
section
/-! SUPPORT. The relation in which every step of the part stands to the next for the invariant of the built responses
(`Part.Retains`), with the updates it is built from: what leaves the slots, the holders and the transmitter alone, an answer built, the
engine's writes and the choices of the free transmitters. -/
namespace Sys2Proof.Machine

/-- What `Part.ResponsesKept` reads of a part. -/
def Part.responses (p : Part) : Bool × Vector Slot 8 × Vector (Option Response) 4 × List ResponsePlace × Option Outbound :=
  (p.working, p.uplink.slots, p.uplink.refusals, p.uplink.waiting, p.uplink.sending)

/-- If no built response of `p` is lost, none of `q` is. -/
structure Part.Retains (p q : Part) : Prop where
  kept : p.ResponsesKept → q.ResponsesKept

namespace Part

theorem Retains.refl (p : Part) : p.Retains p := ⟨id⟩

theorem Retains.trans {p q r : Part} (a : p.Retains q) (b : q.Retains r) : p.Retains r :=
  ⟨fun h => b.kept (a.kept h)⟩

theorem Retains.foldl {α : Type} {f : Part → α → Part} (h : ∀ (p : Part) x, p.Retains (f p x)) (xs : List α) (p : Part) :
    p.Retains (xs.foldl f p) := by
  induction xs generalizing p with
  | nil => exact .refl p
  | cons x xs ih => exact (h p x).trans (ih (f p x))

theorem Retains.inOrder {act : Block → Part → Part} (h : ∀ b p, Retains p (act b p)) (p : Part) (blocks : List Block) :
    p.Retains (p.inOrder blocks act) := .foldl (fun q b => h b q) blocks p

theorem Retains.ite {p q r : Part} {c : Prop} [Decidable c] (a : p.Retains q) (b : p.Retains r) :
    p.Retains (if c then q else r) := by
  split
  · exact a
  · exact b

/-- A part that does not work has no response to keep (R195). -/
theorem responsesKept_of_held {p : Part} (h : p.working = false) : p.ResponsesKept where
  slots k := absurd (h.symm.trans k) nofun
  holders k := absurd (h.symm.trans k) nofun

/-- A change that leaves every response that waited on its way, and puts on its way every response that it builds. -/
theorem Retains.of_onItsWay {p q : Part} (working : q.working = p.working) (way : ∀ x, p.OnItsWay x → q.OnItsWay x)
    (slot : ∀ o i f a r, q.slot o i = .answered f a r → p.slot o i = .answered f a r ∨ q.OnItsWay (.slot o i))
    (holder : ∀ (o : OriginatorNo) r, q.uplink.refusals[o] = some r → p.uplink.refusals[o] = some r ∨ q.OnItsWay (.holder o)) :
    p.Retains q where
  kept kept :=
    { slots := fun w o i f a r h => (slot o i f a r h).elim (fun k => way _ (kept.slots (working ▸ w) o i f a r k)) id
      holders := fun w o r h => (holder o r h).elim (fun k => way _ (kept.holders (working ▸ w) o r k)) id }

/-- A change of what the invariant does not read. -/
theorem Retains.of_responses {p q : Part} (h : q.responses = p.responses) : p.Retains q := by
  simp only [responses, Prod.mk.injEq] at h
  obtain ⟨working, slots, refusals, waiting, sending⟩ := h
  refine .of_onItsWay working (fun x k => ?_) (fun o i f a r k => .inl ?_) fun o r k => .inl (refusals ▸ k)
  · rwa [OnItsWay, waiting, sending]
  · rwa [slot, slots] at k

/-! ## Slots and answers (R187, R191) -/

theorem setSlot_retains (p : Part) (o : OriginatorNo) (i : SlotNo) (x : Slot) (h : ∀ f a r, x ≠ .answered f a r) :
    p.Retains (p.setSlot o i x) :=
  .of_onItsWay rfl (fun _ => id)
    (fun o' i' f a r k => by
      rw [setSlot_slot] at k
      split at k
      · exact absurd k (h f a r)
      · exact .inl k)
    fun _ _ => .inl

/-- A response that is built waits for the transmitter. -/
theorem withAnswer_retains (p : Part) (o : OriginatorNo) (i : SlotNo) (f : Frame) (a : Time) (c : Completion) (results : List Byte)
    (detail : Option Nat) : p.Retains (p.withAnswer o i f a c results detail) :=
  .of_onItsWay rfl (fun _ => Or.imp_left (List.mem_append_left _))
    (fun o' i' f' a' r k => by
      rw [show (p.withAnswer o i f a c results detail).slot o' i' = (p.setSlot o i (.answered f a _)).slot o' i' from rfl,
        setSlot_slot] at k
      split at k
      · next same =>
        obtain ⟨rfl, rfl⟩ := same
        exact .inr (.inl (List.mem_append_right _ (List.mem_singleton_self _)))
      · exact .inl k)
    fun _ _ => .inl

theorem answer_retains (p : Part) (o : OriginatorNo) (i : SlotNo) (c : Completion) (results : List Byte) (detail : Option Nat) :
    p.Retains (p.answer o i c results detail) := by
  cases h : p.slot o i with
  | empty => simp only [answer, h]; exact .refl p
  | waiting f t => rw [answer_eq p o i c results detail (.inl h)]; exact withAnswer_retains ..
  | inProgress f t g => rw [answer_eq p o i c results detail (.inr ⟨g, h⟩)]; exact withAnswer_retains ..
  | answered f t r => simp only [answer, h]; exact .refl p

theorem refuse_retains (p : Part) (o : OriginatorNo) (i : SlotNo) (c : Completion) : p.Retains (p.refuse o i c) :=
  answer_retains ..

theorem answerOk_retains (p : Part) (o : OriginatorNo) (i : SlotNo) (results : List Byte) : p.Retains (p.answerOk o i results) :=
  answer_retains ..

theorem completeCommand_retains (p : Part) (o : OriginatorNo) (i : SlotNo) (c : Completion) :
    p.Retains (p.completeCommand o i c) := by
  unfold completeCommand
  split
  · exact answer_retains ..
  · exact .refl p

theorem returnSlot_retains (p : Part) (s : Option Source) (c : Completion) : p.Retains (p.returnSlot s c) := by
  unfold returnSlot
  split
  · exact completeCommand_retains ..
  · exact .refl p

theorem completeSlots_retains (p : Part) (ss : List Source) (c : Completion) : p.Retains (p.completeSlots ss c) :=
  .foldl (fun q s => by
    split
    · exact completeCommand_retains ..
    · exact .refl q) ss p

/-! ## The engine's writes -/

/-- A move of a door command's progress answers nothing (R160). -/
theorem Frames.retains {p q : Part} (h : p.Frames q) : p.Retains q := by
  have refusals : q.uplink.refusals = p.uplink.refusals := (congrArg Uplink.refusals h.uplink :)
  have waiting : q.uplink.waiting = p.uplink.waiting := (congrArg Uplink.waiting h.uplink :)
  have sending : q.uplink.sending = p.uplink.sending := (congrArg Uplink.sending h.uplink :)
  refine .of_onItsWay ?_ (fun x k => ?_) (fun o i f a r k => .inl ?_) fun o r k => .inl (refusals ▸ k)
  · rw [working, working, h.powered, h.resetAsserted]
  · rwa [OnItsWay, waiting, sending]
  · rcases h.slot o i with same | ⟨_, _, _, _, _, moved⟩
    · rwa [← same]
    · cases k.symm.trans moved

theorem EngineWrite.retains {p q : Part} (h : p.EngineWrite q) : p.Retains q := by
  cases h with
  | engine e => exact .of_responses rfl
  | notice n => exact .of_responses rfl
  | group g r => exact .of_responses rfl
  | catchUp ds => exact .of_responses rfl
  | outcome d o => exact .of_responses rfl
  | commit => exact (takeCommit_moves p).retains
  | submit cmd d s => exact (submit_moves p cmd d s).retains
  | withdraw l s => exact (withdraw_moves p l s).retains

/-- Whatever the engine does loses no response. -/
theorem Writes.retains {p q : Part} (h : p.Writes q) : p.Retains q := by
  induction h with
  | refl => exact .refl p
  | tail _ w ih => exact ih.trans w.retains

/-! ## The choices after a command (R38, R178) -/

theorem answerResume_retains (p : Part) (x : OriginatorNo × SlotNo) : p.Retains (p.answerResume x) := by
  unfold answerResume
  split
  · exact answerOk_retains ..
  · exact .refl p

theorem answerProbe_retains (p : Part) (l : LineNo) : p.Retains (p.answerProbe l) :=
  Retains.trans (q := p.setLine l { p.line l with probeWaiters := [] }) (.of_responses rfl) (.foldl answerResume_retains _ _)

theorem beginProbe_retains (p : Part) (l : LineNo) : p.Retains (p.beginProbe l) := by
  unfold beginProbe
  refine Retains.trans ?_ (answerProbe_retains ..)
  split
  · exact .of_responses rfl
  · exact .of_responses rfl

theorem beginQueued_retains (p : Part) (l : LineNo) (r : LineRequest) : p.Retains (p.beginQueued l r) :=
  have marked (x : Line) : p.Retains ((p.setLine l x).setProgress r.source .onLine) :=
    Retains.trans (q := p.setLine l x) (.of_responses rfl) (setProgress_moves ..).retains
  (marked _).trans (.of_responses rfl)

theorem chooseQueued_retains (p : Part) (l : LineNo) : p.Retains (p.chooseQueued l) := by
  unfold chooseQueued
  dsimp only
  split
  · exact beginQueued_retains ..
  · exact .ite (.of_responses rfl) (beginQueued_retains ..)
  · exact .of_responses rfl
  · exact .refl p

theorem lineChoice_retains (p : Part) (l : LineNo) : p.Retains (p.lineChoice l) := by
  unfold lineChoice
  dsimp only
  split
  · exact .refl p
  · split
    · exact .of_responses rfl
    · exact .of_responses rfl
    · exact .refl p
    · split
      · exact .of_responses rfl
      · exact chooseQueued_retains ..
    · exact .ite (beginProbe_retains ..) (.refl p)

/-- Ordering the responses that wait loses none of them (R178). -/
theorem orderBuilt_retains (p : Part) (n : Nat) :
    p.Retains { p with uplink := { p.uplink with waiting := orderBuilt n p.uplink.waiting } } :=
  .of_onItsWay rfl (fun x => Or.imp_left (mem_orderBuilt n x p.uplink.waiting).2) (fun _ _ _ _ _ => .inl) fun _ _ => .inl

/-- Whatever the uplink chooses, a response that waited still waits or is being sent. -/
theorem Chosen.onItsWay {p q : Part} (h : p.Chosen q) {x : ResponsePlace} (k : p.OnItsWay x) : q.OnItsWay x := by
  rcases k with waits | ⟨r, t, sent⟩
  · exact h.waiting x waits
  · exact .inr ⟨r, t, h.sending _ sent⟩

theorem sendResponse_slots {p q : Part} (h : p.sendResponse = some q) : q.uplink.slots = p.uplink.slots := by
  unfold sendResponse at h
  split at h
  · cases h
  · obtain ⟨r, -, rfl⟩ := Option.map_eq_some_iff.1 h
    rfl

/-- The uplink's choice leaves the request slots. -/
theorem uplinkChoice_slots (p : Part) : p.uplinkChoice.uplink.slots = p.uplink.slots := by
  unfold uplinkChoice
  split
  · rfl
  · split
    · rfl
    · split
      · next h => exact sendResponse_slots h
      · split
        · rfl
        · split <;> rfl

/-- The uplink's choice takes no response away but to send it. -/
theorem uplinkChoice_retains (p : Part) : p.Retains p.uplinkChoice := by
  have chosen := p.uplinkChoice_chosen
  have refusals : p.uplinkChoice.uplink.refusals = p.uplink.refusals := (congrArg Uplink.refusals chosen.uplink :)
  refine .of_onItsWay (congrArg working chosen.tables :) (fun _ => chosen.onItsWay) (fun o i f a r k => .inl ?_)
    fun o r k => .inl (refusals ▸ k)
  rwa [slot, uplinkChoice_slots] at k

/-- The choices of the free transmitters lose no response. -/
theorem settle_retains (p : Part) (n : Nat) : p.Retains (p.settle n) := by
  have chosen := Retains.foldl lineChoice_retains (List.finRange 4) p
  unfold settle
  exact (chosen.trans (orderBuilt_retains ..)).trans (uplinkChoice_retains _)

theorem after_retains {f : Part → Part} (h : ∀ p, Retains p (f p)) (p : Part) : p.Retains (p.after f) := by
  unfold after
  exact .ite ((h p).trans (settle_retains ..)) (.refl p)

/-- A decision loses no response where its owner's action loses none (R190). -/
theorem decide_retains {c : Code} {own : OriginatorNo → SlotNo → Frame → Part → Part} (h : ∀ o i f q, Retains q (own o i f q))
    (p : Part) : p.Retains (p.decide c own) := by
  unfold decide
  split
  · exact .refl p
  · split
    · exact .refl p
    · exact .ite (.ite (refuse_retains ..) (.ite (refuse_retains ..) (h ..))) (.refl p)

end Part
end Sys2Proof.Machine
end

