-- ==== Sys2Proof/Proofs/LineResponses.lean ====
section
/-! SUPPORT. The operations of the line controllers, the watches and the fire release unit lose no built response. -/
namespace Sys2Proof.Machine.Part

/-! ## Watches, faults, the release-pending set and the broadcasts -/

theorem raise_retains (p : Part) (n : Notice) : p.Retains (p.raise n) := .of_responses rfl

theorem reach_retains (p : Part) (t : Time) : p.Retains (p.reach t) := .of_responses rfl

theorem setLine_retains (p : Part) (l : LineNo) (x : Line) : p.Retains (p.setLine l x) := .of_responses rfl

theorem setImage_retains (p : Part) (d : DoorNo) (m : DoorImage) : p.Retains (p.setImage d m) := .of_responses rfl

theorem setFire_retains (p : Part) (f : FireUnit) : p.Retains { p with fire := f } := .of_responses rfl

theorem testWatch_retains (p : Part) (d : DoorNo) (ev : DoorEvent) (shown : ShortImage) (k : Fin 8) :
    p.Retains (p.testWatch d ev shown k) := by
  unfold testWatch
  split
  · exact .refl p
  · exact .ite (.of_responses rfl) (.refl p)

theorem testWatches_retains (p : Part) (d : DoorNo) (ev : DoorEvent) (shown : ShortImage) : p.Retains (p.testWatches d ev shown) :=
  .foldl (fun _ _ => testWatch_retains ..) _ _

theorem fireWatch_retains (p : Part) (k : Fin 8) : p.Retains (p.fireWatch k) := by
  unfold fireWatch
  split
  · exact .refl p
  · exact .of_responses rfl

theorem offerFault_retains (p : Part) (l : LineNo) (kind : FaultKind) (node : Option Nat) (fn : Option LineFunction) :
    p.Retains (p.offerFault l kind node fn) := by
  unfold offerFault
  dsimp only
  split
  · exact setLine_retains ..
  · exact (setLine_retains ..).trans (raise_retains ..)

theorem offerConflict_retains (p : Part) (l : LineNo) (b : Bool) (node : Nat) (fn : LineFunction) :
    p.Retains (p.offerConflict l b node fn) := .ite (offerFault_retains ..) (.refl p)

theorem confirmIfEmpty_retains (p : Part) : p.Retains p.confirmIfEmpty := .ite (raise_retains ..) (.refl p)

theorem confirmRelease_retains (p : Part) (d : DoorNo) : p.Retains (p.confirmRelease d) := by
  unfold confirmRelease
  exact .ite ((setFire_retains ..).trans (confirmIfEmpty_retains _)) (.refl p)

theorem removeRelease_retains (p : Part) (d : DoorNo) : p.Retains (p.removeRelease d) := by
  unfold removeRelease
  exact .ite ((setFire_retains ..).trans (confirmIfEmpty_retains _)) (.refl p)

theorem joinRelease_retains (p : Part) (d : DoorNo) : p.Retains (p.joinRelease d) := .ite (.of_responses rfl) (.refl p)

theorem makeBroadcasts_retains (p : Part) : p.Retains p.makeBroadcasts := .foldl (fun _ _ => setLine_retains ..) _ _

theorem fireReconfigured_retains (p : Part) (d : DoorNo) : p.Retains (p.fireReconfigured d) := by
  have kept : p.Retains
      (if !(p.config d).configured || (p.config d).fireAction ≠ .free then p.removeRelease d
        else if !(p.config d).withdrawn then p.joinRelease d else p) :=
    .ite (removeRelease_retains ..) (.ite (joinRelease_retains ..) (.refl p))
  unfold fireReconfigured
  exact .ite (kept.trans (setLine_retains ..)) (.refl p)

/-! ## The transmit queue and the fire purge -/

theorem placeHeld_retains (p : Part) (l : LineNo) : p.Retains (p.placeHeld l) := (placeHeld_moves p l).retains

theorem setProgress_retains (p : Part) (s : Option Source) (g : Progress) : p.Retains (p.setProgress s g) :=
  (setProgress_moves p s g).retains

theorem purgeLine_retains (p : Part) (l : LineNo) : p.Retains (p.purgeLine l) :=
  ((setLine_retains ..).trans (completeSlots_retains ..)).trans (placeHeld_retains ..)

/-! ## A line goes down -/

theorem goDown_retains (p : Part) (l : LineNo) (state : LineState) (overload : Bool) (order : List Block) :
    p.Retains (p.goDown l state overload order) := by
  have suspected (q : Part) (ds : List DoorNo) : q.Retains (ds.foldl suspect q) := .foldl (fun _ _ => setImage_retains ..) ds q
  unfold goDown
  refine (((setLine_retains ..).trans (suspected ..)).trans (completeSlots_retains ..)).trans (.inOrder (fun b q => ?_) _ _)
  split
  · exact .foldl (fun _ _ => testWatches_retains ..) _ _
  · exact (endEntries_writes ..).retains
  · exact .refl q

theorem countConflict_retains (p : Part) (l : LineNo) (conflicted : Bool) (order : List Block) :
    p.Retains (p.countConflict l conflicted order) := by
  unfold countConflict
  exact .ite (.refl p) (.ite ((setLine_retains ..).trans (goDown_retains ..)) (setLine_retains ..))

/-! ## The end of a transaction -/

/-- A source that is an entry is handed its event. -/
theorem returnEntry_retains (p : Part) (s : Option Source) (ev : EntryEvent) : p.Retains (p.returnEntry s ev) := by
  unfold returnEntry
  split
  · exact (entryEvent_writes ..).retains
  · exact .refl p

theorem dropFlying_retains (p : Part) (l : LineNo) : p.Retains (p.dropFlying l) := setLine_retains ..

theorem probeEnds_retains (p : Part) (l : LineNo) (t : Transaction) : p.Retains (p.probeEnds l t) :=
  .ite (.ite (setLine_retains ..) (setLine_retains ..)) (.refl p)

theorem replyNotices_retains (p : Part) (l : LineNo) (d : DoorNo) (r : StateReply) (old : DoorImage) (night : Bool)
    (shown : ShortImage) : p.Retains (p.replyNotices l d r old night shown) := by
  have maybe (q : Part) (c : Prop) [Decidable c] (n : Notice) : q.Retains (if c then q.raise n else q) :=
    .ite (raise_retains ..) (.refl q)
  unfold replyNotices
  exact (((maybe p _ _).trans (maybe _ _ _)).trans (maybe _ _ _)).trans (maybe _ _ _)

theorem engineHears_retains (p : Part) (d : DoorNo) (r : StateReply) (ev : EntryEvent) : p.Retains (p.engineHears d r ev) := by
  have tested (q : Part) : q.Retains (if q.catchUpTest d r then (q.appendCatchUp d).offerCatchUp else q) :=
    .ite (Retains.trans (q := q.appendCatchUp d) (.of_responses rfl) (offerCatchUp_writes _).retains) (.refl q)
  unfold engineHears
  dsimp only
  split
  · exact (entryEvent_writes ..).retains.trans (tested _)
  · exact tested p

theorem applyState_retains (p : Part) (l : LineNo) (t : Transaction) (d : DoorNo) (r : StateReply) (order : List Block) :
    p.Retains (p.applyState l t d r order) := by
  have motion (q : Part) : q.Retains (if r.atRest then q.dropMotion l d else q.stampPoll l d) :=
    .ite (setLine_retains ..) (setLine_retains ..)
  have queued (q : Part) : q.Retains (if t.kind = .queued then q.dropFlying l else q) := .ite (dropFlying_retains ..) (.refl q)
  have ended (m : DoorImage) : p.Retains _ :=
    (((setImage_retains p d _).trans (setImage_retains (p.heard d) d m)).trans (motion _)).trans (queued _)
  unfold applyState
  dsimp only
  refine Retains.trans ?_ (Retains.inOrder (fun b q => ?_) _ _)
  · refine Retains.trans ?_ (placeHeld_retains ..)
    split
    · exact ((ended _).trans (returnSlot_retains ..)).trans (returnSlot_retains ..)
    · exact (ended _).trans (returnSlot_retains ..)
  · split
    · exact replyNotices_retains ..
    · exact testWatches_retains ..
    · exact .ite (confirmRelease_retains ..) (.refl q)
    · exact engineHears_retains ..
    · exact .refl q

theorem applySilence_retains (p : Part) (l : LineNo) (t : Transaction) (d : DoorNo) (order : List Block) :
    p.Retains (p.applySilence l t d order) := by
  have ended (m : DoorImage) : p.Retains ((if t.kind = .queued then (p.setImage d m).dropFlying l else p.setImage d m).stampPoll l d) :=
    Retains.trans (.ite ((setImage_retains ..).trans (dropFlying_retains ..)) (setImage_retains ..)) (setLine_retains ..)
  unfold applySilence
  dsimp only
  refine (((ended _).trans (returnSlot_retains ..)).trans (placeHeld_retains ..)).trans (.inOrder (fun b q => ?_) _ _)
  split
  · exact .ite (raise_retains ..) (.refl q)
  · exact .ite (testWatches_retains ..) (.refl q)
  · split
    · exact (entryEvent_writes ..).retains
    · refine .ite ?_ (.refl q)
      split
      · exact (entryEvent_writes ..).retains
      · exact .refl q
  · exact .refl q

/-- The end of a HOLDER request: the image is written, the response built, the freed place filled and the entry told (R31). -/
theorem endHolder_retains (p : Part) (l : LineNo) (s : Option Source) (c : Completion) (ev : EntryEvent) :
    p.Retains ((((p.dropFlying l).returnSlot s c).placeHeld l).returnEntry s ev) :=
  (((dropFlying_retains ..).trans (returnSlot_retains ..)).trans (placeHeld_retains ..)).trans (returnEntry_retains ..)

/-- An accepted DRIVE makes its motion (R43). -/
theorem startMotion_retains (p : Part) (l : LineNo) (d : DoorNo) (dir : Direction) (s : Option Source) :
    p.Retains
      (((((p.dropFlying l).addMotion l d dir s false).setProgress s .inMotion).placeHeld l).returnEntry s .acceptDrive) :=
  ((((dropFlying_retains ..).trans (setLine_retains ..)).trans (setProgress_retains ..)).trans (placeHeld_retains ..)).trans
    (returnEntry_retains ..)

theorem applyAccept_retains (p : Part) (l : LineNo) (t : Transaction) (d : DoorNo) : p.Retains (p.applyAccept l t d) := by
  unfold applyAccept
  dsimp only
  split
  · exact .refl p
  · exact (setImage_retains ..).trans (endHolder_retains ..)
  · exact (setImage_retains ..).trans (endHolder_retains ..)
  · exact (setImage_retains ..).trans (startMotion_retains ..)
  · exact (setImage_retains ..).trans (startMotion_retains ..)
  · exact (setImage_retains ..).trans (startMotion_retains ..)

theorem applyRefused_retains (p : Part) (l : LineNo) (d : DoorNo) : p.Retains (p.applyRefused l d) :=
  (setImage_retains p d _).trans (endHolder_retains ..)

theorem applyMoving_retains (p : Part) (l : LineNo) (t : Transaction) (d : DoorNo) : p.Retains (p.applyMoving l t d) := by
  unfold applyMoving
  dsimp only
  have moving : p.Retains ((p.setImage d { (p.heard d).image d with bolt := .moving }).addMotion l d t.cmd.direction none true) :=
    (setImage_retains ..).trans (setLine_retains ..)
  exact .ite (((moving.trans (dropFlying_retains ..)).trans (returnSlot_retains ..)).trans (placeHeld_retains ..))
    (((moving.trans (setLine_retains ..)).trans (setProgress_retains ..)).trans (returnEntry_retains ..))

theorem applyPurged_retains (p : Part) (l : LineNo) : p.Retains (p.applyPurged l) :=
  ((dropFlying_retains ..).trans (returnSlot_retains ..)).trans (placeHeld_retains ..)

theorem applyResult_retains (p : Part) (l : LineNo) (t : Transaction) (d : DoorNo) (result : Option Reply) (order : List Block) :
    p.Retains (p.applyResult l t d result order) := by
  unfold applyResult
  split
  · exact applyState_retains ..
  · exact applyAccept_retains ..
  · exact .ite (applyMoving_retains ..) (applyRefused_retains ..)
  · exact .ite (applyPurged_retains ..) (.ite (.refl p) (applySilence_retains ..))

theorem applyNowhere_retains (p : Part) (l : LineNo) (t : Transaction) : p.Retains (p.applyNowhere l t) :=
  .ite ((dropFlying_retains ..).trans (placeHeld_retains ..)) (.refl p)

theorem transactionEnd_retains (p : Part) (l : LineNo) (t : Transaction) (result : Option Reply) (order : List Block) :
    p.Retains (p.transactionEnd l t result order) := by
  have freed : p.Retains ((p.setLine l { p.line l with wire := .free }).probeEnds l t) :=
    (setLine_retains ..).trans (probeEnds_retains ..)
  unfold transactionEnd
  dsimp only
  refine Retains.trans ?_ (countConflict_retains ..)
  split
  · exact freed.trans (applyResult_retains ..)
  · exact freed.trans (applyNowhere_retains ..)

theorem sendFails_retains (p : Part) (l : LineNo) (t : Transaction) (order : List Block) : p.Retains (p.sendFails l t order) :=
  .ite (transactionEnd_retains ..) (setLine_retains ..)

theorem motionTimesOut_retains (p : Part) (l : LineNo) (m : MotionEntry) : p.Retains (p.motionTimesOut l m) := by
  unfold motionTimesOut
  exact (((setImage_retains ..).trans (setLine_retains ..)).trans (returnSlot_retains ..)).trans (returnEntry_retains ..)

/-! ## Events of the lines -/

/-- A fault offered, then the end of the send. -/
theorem offerFault_sendFails_retains (p : Part) (l : LineNo) (k : FaultKind) (node : Option Nat) (fn : Option LineFunction)
    (t : Transaction) (order : List Block) : p.Retains ((p.offerFault l k node fn).sendFails l t order) :=
  (offerFault_retains ..).trans (sendFails_retains ..)

theorem lineFrameSent_retains (l : LineNo) (readback : Readback) (p : Part) : p.Retains (p.lineFrameSent l readback) := by
  unfold lineFrameSent
  split
  · have offered (m : Time) (b : Bool) (node : Nat) (fn : LineFunction) : p.Retains ((p.reach m).offerConflict l b node fn) :=
      (reach_retains ..).trans (offerConflict_retains ..)
    dsimp only
    exact .ite (.ite ((offered ..).trans (setLine_retains ..)) ((offered ..).trans (setLine_retains ..))) (.refl p)
  · exact .refl p

theorem discards_retains (p : Part) (l : LineNo) (t : Transaction) (k : FaultKind) (failed mark closes : Time) (chars : List LineChar) :
    p.Retains (p.discards l t k failed mark closes chars) := (reach_retains ..).trans (setLine_retains ..)

theorem replyReceived_retains (l : LineNo) (chars : List LineChar) (order : List Block) (p : Part) :
    p.Retains (p.replyReceived l chars order) := by
  unfold replyReceived
  split
  · split
    · refine .ite (.refl p) ?_
      dsimp only
      split
      · exact (reach_retains ..).trans (transactionEnd_retains ..)
      · exact (reach_retains ..).trans (offerFault_sendFails_retains ..)
      · exact (reach_retains ..).trans (discards_retains ..)
    · exact discards_retains ..
    · exact .refl p
  · exact .refl p

theorem windowCloses_retains (l : LineNo) (order : List Block) (p : Part) : p.Retains (p.windowCloses l order) := by
  unfold windowCloses
  split
  · split
    · exact (reach_retains ..).trans (sendFails_retains ..)
    · exact .ite ((reach_retains ..).trans (offerFault_sendFails_retains ..)) (.refl p)
    · exact .refl p
  · exact .refl p

theorem markHolds_retains (l : LineNo) (order : List Block) (p : Part) : p.Retains (p.markHolds l order) := by
  unfold markHolds
  split
  · split
    · exact .ite ((reach_retains ..).trans (offerFault_sendFails_retains ..)) (.refl p)
    · exact .refl p
  · exact .refl p

theorem broadcastSent_retains (l : LineNo) (readback : Readback) (order : List Block) (p : Part) :
    p.Retains (p.broadcastSent l readback order) := by
  unfold broadcastSent
  split
  · exact (((reach_retains ..).trans (offerConflict_retains ..)).trans (setLine_retains ..)).trans (countConflict_retains ..)
  · exact .refl p

theorem stopSend_retains (p : Part) (l : LineNo) : p.Retains (p.stopSend l) := by
  unfold stopSend
  dsimp only
  split
  · exact setLine_retains ..
  · exact .ite (setLine_retains ..) (.refl p)
  · exact setLine_retains ..
  · exact .refl p

theorem overloads_retains (l : LineNo) (order : List Block) (p : Part) : p.Retains (p.overloads l order) := by
  unfold overloads
  exact .ite ((offerFault_retains ..).trans (goDown_retains ..)) ((offerFault_retains ..).trans (stopSend_retains ..))

theorem confirmFallsDue_retains (l : LineNo) (p : Part) : p.Retains (p.confirmFallsDue l) := by
  unfold confirmFallsDue
  split
  · exact .refl p
  · exact reach_retains ..

theorem deadlinePasses_retains (d : DoorNo) (p : Part) : p.Retains (p.deadlinePasses d) := by
  unfold deadlinePasses
  dsimp only
  split
  · exact .refl p
  · exact (reach_retains ..).trans (motionTimesOut_retains ..)

theorem probeFallsDue_retains (l : LineNo) (p : Part) : p.Retains (p.probeFallsDue l) := by
  unfold probeFallsDue
  dsimp only
  split
  · exact (reach_retains ..).trans (setLine_retains ..)
  · exact .refl p

/-! ## Fire -/

theorem fireInput_retains (reading : FireInput) (p : Part) : p.Retains (p.fireInput reading) := by
  unfold fireInput
  exact .ite (.refl p) (.of_responses rfl)

theorem fireNotice_retains (p : Part) (v : FireInput) (before : Bool) : p.Retains (p.fireNotice v before) := by
  cases v with
  | normal => exact .refl p
  | alarm => exact raise_retains ..
  | loopFault => exact raise_retains ..

theorem dropPendingStart_retains (p : Part) : p.Retains p.dropPendingStart := by
  unfold dropPendingStart
  split
  · exact .refl p
  · exact .of_responses rfl

theorem setLatch_retains (p : Part) (v : FireInput) (order : List Block) : p.Retains (p.setLatch v order) := by
  have latched : p.Retains (({ p with fire := p.fire.latched p.now p.freeDoors }.fireNotice v false).confirmIfEmpty) :=
    ((setFire_retains ..).trans (fireNotice_retains ..)).trans (confirmIfEmpty_retains _)
  unfold setLatch
  refine (latched.trans (.foldl (fun _ _ => (purgeLine_retains ..).trans (setLine_retains ..)) _ _)).trans
    (.inOrder (fun b q => ?_) _ _)
  split
  · exact (fireEndsSweep_writes q).retains
  · exact dropPendingStart_retains q
  · exact .foldl fireWatch_retains _ _
  · exact .refl q

theorem filterHolds_retains (order : List Block) (p : Part) : p.Retains (p.filterHolds order) := by
  unfold filterHolds
  split
  · exact .refl p
  · have filtered (t : Time) (f : FireUnit) : p.Retains { p.reach t with fire := f } :=
      (reach_retains ..).trans (setFire_retains ..)
    exact .ite (filtered ..) (.ite ((filtered ..).trans (fireNotice_retains ..)) ((filtered ..).trans (setLatch_retains ..)))

theorem repeatFires_retains (p : Part) : p.Retains p.repeatFires := by
  unfold repeatFires
  split
  · exact .refl p
  · have timed (t : Time) (f : FireUnit) : p.Retains { p.reach t with fire := f } :=
      (reach_retains ..).trans (setFire_retains ..)
    exact .ite (timed ..) ((timed ..).trans (makeBroadcasts_retains _))

theorem incompleteFires_retains (p : Part) : p.Retains p.incompleteFires := by
  unfold incompleteFires
  split
  · exact .refl p
  · exact .ite (.of_responses rfl) (.of_responses rfl)

end Sys2Proof.Machine.Part
end

