-- ==== Sys2Proof/Proofs/RequestResponses.lean ====
section
/-! SUPPORT. The requests of the handler, the clock and the sweep engine's timers lose no built response. -/
namespace Sys2Proof.Machine.Part

/-! ## Door commands and door table requests -/

theorem takeCommand_retains (p : Part) (c : Code) (o : OriginatorNo) (i : SlotNo) (f : Frame) : p.Retains (p.takeCommand c o i f) := by
  unfold takeCommand
  split
  · exact (setSlot_retains _ _ _ _ (by simp)).trans (submit_moves ..).retains
  · exact .refl p

theorem doorCommand_retains (p : Part) (c : Code) (o : OriginatorNo) (i : SlotNo) (f : Frame) : p.Retains (p.doorCommand c o i f) := by
  unfold doorCommand
  split
  · exact answer_retains ..
  · exact takeCommand_retains ..

theorem setConfig_retains (p : Part) (d : DoorNo) (c : DoorConfig) : p.Retains (p.setConfig d c) := .of_responses rfl

theorem clearImage_retains (p : Part) (d : DoorNo) : p.Retains (p.clearImage d) := .of_responses rfl

theorem setCatchUp_retains (p : Part) (ds : List DoorNo) : p.Retains { p with catchUp := ds } := .of_responses rfl

theorem reconfigured_retains (p : Part) (d : DoorNo) (old new : DoorConfig) : p.Retains (p.reconfigured d old new) := by
  have cleared (c : Prop) [Decidable c] : p.Retains (if c then (p.setConfig d new).clearImage d else p.setConfig d new) :=
    .ite ((setConfig_retains ..).trans (clearImage_retains ..)) (setConfig_retains ..)
  unfold reconfigured
  exact .ite ((cleared _).trans (setCatchUp_retains ..)) (cleared _)

theorem loadDoor_retains (o : OriginatorNo) (i : SlotNo) (f : Frame) (p : Part) : p.Retains (p.loadDoor o i f) := by
  unfold loadDoor
  exact .ite (answer_retains ..) (.ite (refuse_retains ..) (.ite (refuse_retains ..)
    (((reconfigured_retains ..).trans (fireReconfigured_retains ..)).trans (answerOk_retains ..))))

theorem withdrawDoor_retains (o : OriginatorNo) (i : SlotNo) (f : Frame) (p : Part) : p.Retains (p.withdrawDoor o i f) := by
  unfold withdrawDoor
  exact .ite (refuse_retains ..) (.ite (refuse_retains ..) (.ite (answer_retains ..) (.ite (refuse_retains ..)
    (((((setConfig_retains ..).trans (clearImage_retains ..)).trans (setCatchUp_retains ..)).trans
      (removeRelease_retains ..)).trans (answerOk_retains ..)))))

theorem restoreDoor_retains (o : OriginatorNo) (i : SlotNo) (f : Frame) (p : Part) : p.Retains (p.restoreDoor o i f) := by
  unfold restoreDoor
  exact .ite (refuse_retains ..) (.ite (refuse_retains ..)
    (((setConfig_retains ..).trans (fireReconfigured_retains ..)).trans (answerOk_retains ..)))

/-! ## Exceptions and the clock -/

theorem setException_retains (p : Part) (x : ExceptionNo) (e : Option ExceptionRecord) : p.Retains (p.setException x e) :=
  .of_responses rfl

theorem setClaim_retains (p : Part) (d : DoorNo) (c : Option ExceptionNo) : p.Retains (p.setClaim d c) := setImage_retains ..

theorem offerDoors_retains (p : Part) (ds : List DoorNo) : p.Retains (p.offerDoors ds) :=
  .foldl (fun q _ => .ite (setCatchUp_retains ..) (.refl q)) ds p

theorem claimDoors_retains (p : Part) (x : ExceptionNo) (ds : List DoorNo) : p.Retains (p.claimDoors x ds) :=
  (Retains.foldl (fun _ _ => (setClaim_retains ..).trans (setCatchUp_retains ..)) ds p).trans (endEntries_writes ..).retains

theorem createException_retains (o : OriginatorNo) (i : SlotNo) (f : Frame) (p : Part) : p.Retains (p.createException o i f) := by
  unfold createException
  refine .ite (refuse_retains ..) (.ite (refuse_retains ..) (.ite (refuse_retains ..) ?_))
  split
  · exact answer_retains ..
  · exact refuse_retains ..
  · exact ((setException_retains ..).trans (claimDoors_retains ..)).trans (answerOk_retains ..)

theorem extendException_retains (o : OriginatorNo) (i : SlotNo) (f : Frame) (p : Part) : p.Retains (p.extendException o i f) := by
  unfold extendException
  dsimp only
  split
  · exact refuse_retains ..
  · exact .ite (refuse_retains ..) (.ite (refuse_retains ..) ((setException_retains ..).trans (answerOk_retains ..)))

theorem endException_retains (p : Part) (x : ExceptionNo) (cause : ExceptionCause) : p.Retains (p.endException x cause) := by
  have released (ds : List DoorNo) : p.Retains ((ds.foldl (fun q d => q.setClaim d none) p).offerDoors ds) :=
    (Retains.foldl (fun _ _ => setClaim_retains ..) ds p).trans (offerDoors_retains ..)
  unfold endException
  split
  · exact .refl p
  · exact ((released _).trans (raise_retains ..)).trans (setException_retains ..)

theorem endExceptions_retains (p : Part) (test : ExceptionRecord → Bool) (cause : ExceptionCause) :
    p.Retains (p.endExceptions test cause) := .foldl (fun _ _ => endException_retains ..) _ _

theorem endExceptionRequest_retains (o : OriginatorNo) (i : SlotNo) (f : Frame) (p : Part) :
    p.Retains (p.endExceptionRequest o i f) := by
  unfold endExceptionRequest
  dsimp only
  split
  · exact refuse_retains ..
  · exact .ite (refuse_retains ..)
      (((endException_retains ..).trans (offerIfGrown_writes ..).retains).trans (answerOk_retains ..))

theorem writeClock_retains (p : Part) (c : DayClock) (t : Time) : p.Retains { p with clock := c, secondBegan := t } :=
  .of_responses rfl

theorem setPassesExceptions_retains (p : Part) (minute : Nat) : p.Retains (p.setPassesExceptions minute) := by
  unfold setPassesExceptions
  exact .ite (endExceptions_retains ..) (.refl p)

theorem setClock_retains (o : OriginatorNo) (i : SlotNo) (f : Frame) (p : Part) : p.Retains (p.setClock o i f) :=
  (((setPassesExceptions_retains ..).trans (writeClock_retains ..)).trans (offerIfGrown_writes ..).retains).trans
    (answerOk_retains ..)

/-! ## Fire restore, line requests, plans, schedule and originators -/

theorem restoreFire_retains (p : Part) : p.Retains p.restoreFire := by
  have withdrawn : p.Retains { p with fire := p.fire.restored, lines := p.lines.map Line.withoutBroadcast } := .of_responses rfl
  have offered := fun ds n => (withdrawn.trans (offerDoors_retains _ ds)).trans (raise_retains _ n)
  unfold restoreFire
  dsimp only
  split
  · exact (offered _ _).trans (offerCatchUp_writes _).retains
  · exact (offered _ _).trans (offerIfGrown_writes ..).retains

theorem fireRestoreRequest_retains (o : OriginatorNo) (i : SlotNo) (f : Frame) (p : Part) :
    p.Retains (p.fireRestoreRequest o i f) :=
  .ite ((restoreFire_retains p).trans (answerOk_retains ..)) (refuse_retains ..)

theorem clearLineFault_retains (o : OriginatorNo) (i : SlotNo) (f : Frame) (p : Part) : p.Retains (p.clearLineFault o i f) :=
  (setLine_retains ..).trans (answerOk_retains ..)

theorem quietLine_retains (order : List Block) (o : OriginatorNo) (i : SlotNo) (f : Frame) (p : Part) :
    p.Retains (p.quietLine order o i f) := by
  unfold quietLine
  dsimp only
  split
  · exact (goDown_retains ..).trans (answerOk_retains ..)
  · exact (setLine_retains ..).trans (answerOk_retains ..)
  · exact refuse_retains ..

theorem awaitProbe_retains (p : Part) (l : LineNo) (o : OriginatorNo) (i : SlotNo) : p.Retains (p.awaitProbe l o i) := by
  unfold awaitProbe
  split
  · exact (setSlot_retains _ _ _ _ (by simp)).trans (setLine_retains ..)
  · exact .refl p

theorem resumeLine_retains (o : OriginatorNo) (i : SlotNo) (f : Frame) (p : Part) : p.Retains (p.resumeLine o i f) := by
  unfold resumeLine
  dsimp only
  split
  · exact (setLine_retains ..).trans (answerOk_retains ..)
  · exact .ite (answerOk_retains ..) (awaitProbe_retains ..)
  · exact refuse_retains ..

theorem setStaged_retains (p : Part) (k : PlanNo) (x : Plan) : p.Retains (p.setStaged k x) := .of_responses rfl

theorem loadPlanStep_retains (o : OriginatorNo) (i : SlotNo) (f : Frame) (p : Part) : p.Retains (p.loadPlanStep o i f) := by
  unfold loadPlanStep
  exact .ite (refuse_retains ..) (.ite (refuse_retains ..) (.ite ((setStaged_retains ..).trans (answerOk_retains ..))
    ((setStaged_retains ..).trans (answerOk_retains ..))))

theorem clearStagedPlan_retains (o : OriginatorNo) (i : SlotNo) (f : Frame) (p : Part) : p.Retains (p.clearStagedPlan o i f) :=
  .ite (refuse_retains ..) ((setStaged_retains ..).trans (answerOk_retains ..))

theorem setBanks_retains (p : Part) (b : PlanBanks) : p.Retains { p with banks := b } := .of_responses rfl

theorem commitPlans_retains (o : OriginatorNo) (i : SlotNo) (f : Frame) (p : Part) : p.Retains (p.commitPlans o i f) := by
  unfold commitPlans
  split
  · exact (setBanks_retains ..).trans (answerOk_retains ..)
  · exact (setBanks_retains ..).trans (answer_retains ..)

theorem setSchedule_retains (p : Part) (s : Vector ScheduleEntry 16) : p.Retains { p with schedule := s } := .of_responses rfl

theorem loadScheduleEntry_retains (o : OriginatorNo) (i : SlotNo) (f : Frame) (p : Part) :
    p.Retains (p.loadScheduleEntry o i f) := (setSchedule_retains ..).trans (answerOk_retains ..)

theorem setOriginators_retains (p : Part) (table : Vector OriginatorRecord 4) :
    p.Retains { p with uplink := { p.uplink with originators := table } } := .of_responses rfl

theorem setOriginator_retains (o : OriginatorNo) (i : SlotNo) (f : Frame) (p : Part) : p.Retains (p.setOriginator o i f) := by
  unfold setOriginator
  exact .ite ((setOriginators_retains ..).trans (answerOk_retains ..)) (refuse_retains ..)

/-! ## Reads, restarts asked for, sweeps and watches -/

theorem readException_retains (o : OriginatorNo) (i : SlotNo) (f : Frame) (p : Part) : p.Retains (p.readException o i f) := by
  unfold readException
  dsimp only
  split
  · exact answerOk_retains ..
  · exact answerOk_retains ..

theorem senseRequest_retains (o : OriginatorNo) (i : SlotNo) (f : Frame) (p : Part) : p.Retains (p.senseRequest o i f) := by
  have emptied : p.Retains (p.setSense o none) := .of_responses rfl
  unfold senseRequest
  split
  · exact answer_retains ..
  · exact emptied.trans (answerOk_retains ..)

theorem markRestart_retains (o : OriginatorNo) (i : SlotNo) (f : Frame) (p : Part) : p.Retains (p.markRestart o i f) :=
  (answerOk_retains p o i []).trans (.of_responses rfl)

theorem startSweep_retains (o : OriginatorNo) (i : SlotNo) (f : Frame) (p : Part) : p.Retains (p.startSweep o i f) := by
  unfold startSweep
  exact .ite (refuse_retains ..) (.ite (refuse_retains ..) (.ite (refuse_retains ..)
    (((startPlan_writes ..).retains.trans (engineRun_writes _).retains).trans (answerOk_retains ..))))

theorem continueRequest_retains (o : OriginatorNo) (i : SlotNo) (f : Frame) (p : Part) : p.Retains (p.continueRequest o i f) :=
  .ite ((continueSweep_writes ..).retains.trans (answerOk_retains ..)) (refuse_retains ..)

theorem abandonRequest_retains (o : OriginatorNo) (i : SlotNo) (f : Frame) (p : Part) : p.Retains (p.abandonRequest o i f) :=
  .ite (((editCtx_writes ..).retains.trans (engineRun_writes _).retains).trans (answerOk_retains ..)) (refuse_retains ..)

theorem abortRequest_retains (o : OriginatorNo) (i : SlotNo) (f : Frame) (p : Part) : p.Retains (p.abortRequest o i f) :=
  .ite (refuse_retains ..) ((abortSweep_writes _).retains.trans (answerOk_retains ..))

theorem setWatch_retains (p : Part) (k : Fin 8) (w : Option Watch) : p.Retains (p.setWatch k w) := .of_responses rfl

theorem armWatch_retains (o : OriginatorNo) (i : SlotNo) (f : Frame) (p : Part) : p.Retains (p.armWatch o i f) := by
  unfold armWatch
  refine .ite (refuse_retains ..) ?_
  split
  · exact refuse_retains ..
  · exact (setWatch_retains ..).trans (answerOk_retains ..)

theorem disarmWatch_retains (o : OriginatorNo) (i : SlotNo) (f : Frame) (p : Part) : p.Retains (p.disarmWatch o i f) := by
  unfold disarmWatch
  dsimp only
  split
  · exact refuse_retains ..
  · exact .ite (refuse_retains ..) ((setWatch_retains ..).trans (answerOk_retains ..))

/-! ## Time and sweeps -/

theorem secondPasses_retains (p : Part) : p.Retains p.secondPasses := by
  unfold secondPasses
  exact .ite ((reach_retains ..).trans (writeClock_retains ..)) (.refl p)

theorem placeStart_retains (p : Part) (x : PendingStart) : p.Retains (p.placeStart x) := by
  unfold placeStart
  dsimp only
  split
  · exact .of_responses rfl
  · exact .of_responses rfl

theorem firing_retains (p : Part) (x : PendingStart) : p.Retains (p.firing x) := by
  unfold firing
  refine .ite (raise_retains ..) (.ite (raise_retains ..) ?_)
  split
  · exact (startPlan_writes ..).retains.trans (engineRun_writes _).retains
  · exact placeStart_retains ..

theorem scheduleEntry_retains (p : Part) (minute : Nat) (k : Fin 16) : p.Retains (p.scheduleEntry minute k) := by
  unfold scheduleEntry
  dsimp only
  refine .ite (Retains.trans ?_ (firing_retains ..)) (.refl p)
  split
  · exact .refl p
  · exact setSchedule_retains ..

theorem exceptionsAdvance_retains (p : Part) (minute : Nat) : p.Retains (p.exceptionsAdvance minute) :=
  (endExceptions_retains ..).trans (offerIfGrown_writes ..).retains

theorem clockAdvances_retains (order : List Block) (p : Part) : p.Retains (p.clockAdvances order) := by
  unfold clockAdvances
  refine .ite (((reach_retains ..).trans (writeClock_retains ..)).trans (.inOrder (fun b q => ?_) _ _)) (.refl p)
  split
  · exact .foldl (fun _ _ => scheduleEntry_retains ..) _ _
  · exact exceptionsAdvance_retains ..
  · exact .refl q

theorem closeWaitPasses_retains (d : DoorNo) (p : Part) : p.Retains (p.closeWaitPasses d) := by
  unfold closeWaitPasses
  split
  · exact .refl p
  · split
    · exact .refl p
    · exact .ite (((reach_retains ..).trans (endEntry_writes ..).retains).trans (engineRun_writes _).retains) (.refl p)

theorem suspendTimesOut_retains (p : Part) : p.Retains p.suspendTimesOut := by
  unfold suspendTimesOut
  split
  · exact .refl p
  · split
    · exact ((reach_retains ..).trans (continueSweep_writes ..).retains).trans (raise_retains ..)
    · exact .refl p

theorem tick_retains (p : Part) : p.Retains p.tick := by
  unfold tick
  exact .ite (.of_responses rfl) (.refl p)

end Sys2Proof.Machine.Part
end

