-- ==== Sys2Proof/Proofs/Responses.lean ====
section
/-! CERTIFICATE. No step loses a built response (O60): the uplink's events, the restarts and with them every step. -/
namespace Sys2Proof.Machine
namespace Part

/-! ## Inbound frames -/

/-- The BUSY response of a refusal holder waits for the transmitter (R188). -/
theorem holdBusy_retains (p : Part) (o : OriginatorNo) (f : Frame) : p.Retains (p.holdBusy o f) := by
  have noted : p.Retains (p.noteSense o f .busy none) := .ite (.refl p) (.of_responses rfl)
  refine noted.trans (.of_onItsWay rfl (fun _ => Or.imp_left (List.mem_append_left _)) (fun _ _ _ _ _ => .inl) fun x r k => ?_)
  by_cases same : o.val = x.val
  · obtain rfl := Fin.ext same
    exact .inr (.inl (List.mem_append_right _ (List.mem_singleton_self _)))
  · exact .inl (by simpa [holdBusy, Vector.getElem_set_ne _ _ same] using k)

theorem placeFrame_retains (p : Part) (f : Frame) : p.Retains (p.placeFrame f) := by
  unfold placeFrame
  split
  · exact .ite (setSlot_retains _ _ _ _ (by simp)) (.ite (setSlot_retains _ _ _ _ (by simp)) (.ite (holdBusy_retains ..) (.refl p)))
  · exact .refl p

theorem setAssembler_retains (p : Part) (a : Assembler) : p.Retains (p.setAssembler a) := .of_responses rfl

theorem takeFrame_retains (p : Part) (bytes : List Byte) : p.Retains (p.takeFrame bytes) := by
  unfold takeFrame
  split
  · exact (setAssembler_retains ..).trans (placeFrame_retains ..)
  · exact setAssembler_retains ..

theorem stampByte_retains (p : Part) (t : Time) : p.Retains (p.stampByte t) := .of_responses rfl

theorem receiveFrame_retains (p : Part) (bytes : List Byte) : p.Retains (p.receiveFrame bytes) :=
  (stampByte_retains ..).trans (takeFrame_retains ..)

theorem collect_retains (p : Part) (got : List Byte) (b : Byte) : p.Retains (p.collect got b) := by
  unfold collect
  exact .ite (setAssembler_retains ..) (.ite (takeFrame_retains ..) (setAssembler_retains ..))

theorem receiveChar_retains (p : Part) (b : Byte) (stopAtMark : Bool) (pause : Time) :
    p.Retains (p.receiveChar b stopAtMark pause) := by
  unfold receiveChar
  refine (stampByte_retains p (p.uplink.lastByte + pause + Config.uplinkCharTicks)).trans ?_
  dsimp only
  split
  · exact setAssembler_retains ..
  · exact .ite (setAssembler_retains ..) (.ite (setAssembler_retains ..) (collect_retains ..))

theorem decideUnknown_retains (p : Part) : p.Retains p.decideUnknown := by
  unfold decideUnknown
  split
  · exact .refl p
  · split
    · exact refuse_retains ..
    · exact .refl p

/-! ## Restarts -/

theorem blank_responsesKept (reset : Bool) (now : Time) (raw : FireInput) (cause : RestartCause) (flag : Bool) :
    (blank reset now raw cause flag).ResponsesKept where
  slots _ o i _ _ _ h := by simp [slot, blank, Uplink.blank] at h
  holders _ o _ h := by simp [blank, Uplink.blank] at h

theorem restart_responsesKept (reset : Bool) (now : Time) (raw : FireInput) (cause : RestartCause) (flag : Bool) :
    (restart reset now raw cause flag).ResponsesKept := by
  have announced : (blank reset now raw cause flag).announce.ResponsesKept := (raise_retains ..).kept (blank_responsesKept ..)
  unfold restart
  dsimp only
  split
  · exact (settle_retains ..).kept announced
  · exact announced

theorem powerUp_responsesKept (p : Part) : p.powerUp.ResponsesKept := restart_responsesKept ..

theorem assertReset_responsesKept (p : Part) : p.assertReset.ResponsesKept :=
  responsesKept_of_held (by simp [assertReset, working])

theorem losePower_responsesKept (p : Part) : p.losePower.ResponsesKept := responsesKept_of_held (Bool.false_and _)

theorem releaseReset_responsesKept (p : Part) : p.releaseReset.ResponsesKept := by
  unfold releaseReset
  split
  · exact restart_responsesKept ..
  · next off => exact responsesKept_of_held (by simp [working, off])

theorem restarted_responsesKept (p : Part) : p.restarted.ResponsesKept where
  slots _ o i _ _ _ h := by simp [slot, restarted, Uplink.restarted] at h
  holders _ o _ h := by simp [restarted, Uplink.restarted] at h

theorem requestedRestart_responsesKept (p : Part) : p.requestedRestart.ResponsesKept :=
  (((raise_retains ..).trans (returnToIdle_writes _).retains).trans (engineRun_writes _).retains).kept p.restarted_responsesKept

/-! ## The end of an outbound frame (R179) -/

/-- The part as an outbound frame ends at a time: the transmitter is free. -/
def sendingEnded (p : Part) (t : Time) : Part := { p.reach t with uplink := { p.uplink with sending := none } }

/-- The end of a notice ends the sending of no response. -/
theorem sendingEnded_retains {p : Part} {n : Notice} {mark : Bool} {b : Time} (h : p.uplink.sending = some (.notice n mark b))
    (t : Time) : p.Retains (p.sendingEnded t) :=
  .of_onItsWay rfl
    (fun x k => k.elim .inl fun ⟨_, _, sent⟩ => by cases h.symm.trans sent)
    (fun _ _ _ _ _ => .inl) fun _ _ => .inl

/-- A response that is not the one whose sending ends still waits. -/
theorem waits_of_ne {p : Part} {x y : ResponsePlace} {r : Response} {b : Time} (h : p.uplink.sending = some (.response x r b))
    (way : p.OnItsWay y) (ne : y ≠ x) : y ∈ p.uplink.waiting := by
  rcases way with waits | ⟨_, _, sent⟩
  · exact waits
  · cases h.symm.trans sent
    exact absurd rfl ne

theorem freePlace_waiting (p : Part) (x : ResponsePlace) : (p.freePlace x).uplink.waiting = p.uplink.waiting := by
  cases x <;> rfl

/-- The place of a response that has been sent is freed, and every other response still waits. -/
theorem freePlace_retains {p : Part} {x : ResponsePlace} {r : Response} {b : Time} (h : p.uplink.sending = some (.response x r b))
    (t : Time) : p.Retains ((p.sendingEnded t).freePlace x) where
  kept kept := by
    have waits {y : ResponsePlace} (way : p.OnItsWay y) (ne : y ≠ x) : y ∈ ((p.sendingEnded t).freePlace x).uplink.waiting :=
      freePlace_waiting (p.sendingEnded t) x ▸ (waits_of_ne h way ne : y ∈ p.uplink.waiting)
    cases x with
    | slot o i =>
      refine ⟨fun w o' i' f a r' k => ?_, fun w o' r' k => .inl (waits (kept.holders w o' r' k) nofun)⟩
      rw [show (p.sendingEnded t).freePlace (.slot o i) = (p.sendingEnded t).setSlot o i .empty from rfl, setSlot_slot] at k
      split at k
      · cases k
      · next other =>
        exact .inl (waits (kept.slots w o' i' f a r' k) fun same => other (by cases same; exact ⟨rfl, rfl⟩))
    | holder o =>
      refine ⟨fun w o' i' f a r' k => .inl (waits (kept.slots w o' i' f a r' k) nofun), fun w o' r' k => ?_⟩
      by_cases same : o.val = o'.val
      · simp [freePlace, same] at k
      · have held : p.uplink.refusals[o'] = some r' := by
          simpa [freePlace, sendingEnded, Vector.getElem_set_ne _ _ same] using k
        exact .inl (waits (kept.holders w o' r' held) fun e => same (by cases e; rfl))

theorem frameSent_retains (p : Part) : p.Retains p.frameSent := by
  unfold frameSent
  split
  · exact .refl p
  · next x sent =>
    dsimp only
    split
    · exact sendingEnded_retains sent _
    · exact .ite ⟨fun _ => requestedRestart_responsesKept _⟩ (freePlace_retains sent _)

end Part

/-! ## Every command and every step -/

/-- A command whose effect loses no response loses none with the choices that follow. -/
theorem act_retains {f : Part → Part} (h : ∀ p, Part.Retains p (f p)) {s t : State} (e : act f s = .next t) :
    s.part.Retains t.part := by
  cases e
  exact Part.after_retains h _

theorem actAlways_retains {f : Part → Part} (h : ∀ p, Part.Retains p (f p)) {s t : State} (e : actAlways f s = .next t) :
    s.part.Retains t.part := by
  cases e
  exact h _

/-- A decision whose owner's action loses no response loses none (R190). -/
theorem decision_retains {c : Code} {own : OriginatorNo → SlotNo → Frame → Part → Part} {s t : State}
    (h : ∀ o i f q, Part.Retains q (own o i f q)) (e : act (fun p => p.decide c own) s = .next t) : s.part.Retains t.part :=
  act_retains (Part.decide_retains h) e

open Sys2Proof.Machine.Part in
theorem exec_retains (c : Instr) {s t : State} (e : exec c s = .next t) : s.part.Retains t.part := by
  cases c with
  | powerUp => exact actAlways_retains (fun p => ⟨fun _ => p.powerUp_responsesKept⟩) e
  | resetInputAsserted => exact actAlways_retains (fun p => ⟨fun _ => p.assertReset_responsesKept⟩) e
  | resetInputReleased => exact actAlways_retains (fun p => ⟨fun _ => p.releaseReset_responsesKept⟩) e
  | powerFails => exact actAlways_retains (fun p => ⟨fun _ => p.losePower_responsesKept⟩) e
  | fireInputChange r => exact actAlways_retains (fireInput_retains r) e
  | frameAssembled bytes => exact act_retains (fun p => receiveFrame_retains p bytes) e
  | unknownRequest => exact act_retains decideUnknown_retains e
  | uplinkFrameSent => exact act_retains frameSent_retains e
  | uplinkCharacterReceived b m t => exact act_retains (fun p => receiveChar_retains p b m t) e
  | loadDoor => exact decision_retains loadDoor_retains e
  | withdrawDoor => exact decision_retains withdrawDoor_retains e
  | restoreDoor => exact decision_retains restoreDoor_retains e
  | loadPlanStep => exact decision_retains loadPlanStep_retains e
  | clearStagedPlan => exact decision_retains clearStagedPlan_retains e
  | commitPlans => exact decision_retains commitPlans_retains e
  | loadScheduleEntry => exact decision_retains loadScheduleEntry_retains e
  | setOriginator => exact decision_retains setOriginator_retains e
  | setClock => exact decision_retains setClock_retains e
  | startSweep => exact decision_retains startSweep_retains e
  | continueSweep => exact decision_retains continueRequest_retains e
  | abandonSweep => exact decision_retains abandonRequest_retains e
  | abortSweep => exact decision_retains abortRequest_retains e
  | createException => exact decision_retains createException_retains e
  | extendException => exact decision_retains extendException_retains e
  | endException => exact decision_retains endExceptionRequest_retains e
  | armWatch => exact decision_retains armWatch_retains e
  | disarmWatch => exact decision_retains disarmWatch_retains e
  | fireRestore => exact decision_retains fireRestoreRequest_retains e
  | clearLineFault => exact decision_retains clearLineFault_retains e
  | quietLine order => exact decision_retains (quietLine_retains order) e
  | resumeLine => exact decision_retains resumeLine_retains e
  | readDoor | readGroup | readLine | readSweepReport | readCatchUpList | readPlan | readSchedule | readStatus =>
    exact decision_retains (fun _ _ _ _ => answerOk_retains ..) e
  | readException => exact decision_retains readException_retains e
  | sense => exact decision_retains senseRequest_retains e
  | restartPart => exact decision_retains markRestart_retains e
  | throwBolt | retractBolt | pulse | holderEngage | holderRelease | pollNow =>
    exact decision_retains (fun _ _ _ _ => doorCommand_retains ..) e
  | lineFrameSent l r => exact act_retains (lineFrameSent_retains l r) e
  | lineReplyReceived l cs order => exact act_retains (replyReceived_retains l cs order) e
  | replyWindowClosed l order => exact act_retains (windowCloses_retains l order) e
  | receiverMark2ms l order => exact act_retains (markHolds_retains l order) e
  | fireBroadcastSent l r order => exact act_retains (broadcastSent_retains l r order) e
  | overloadReport l order => exact act_retains (overloads_retains l order) e
  | confirmPollDue l => exact act_retains (confirmFallsDue_retains l) e
  | motionDeadline d => exact act_retains (deadlinePasses_retains d) e
  | probeTimerExpiry l => exact act_retains (probeFallsDue_retains l) e
  | filteredInputChange order => exact act_retains (filterHolds_retains order) e
  | repeatTimerExpiry => exact act_retains repeatFires_retains e
  | incompleteTimerExpiry => exact act_retains incompleteFires_retains e
  | clockAdvance order => exact act_retains (clockAdvances_retains order) e
  | closeWaitDeadline d => exact act_retains (closeWaitPasses_retains d) e
  | suspendTimerExpiry => exact act_retains suspendTimesOut_retains e
  | timebaseSecond => exact act_retains secondPasses_retains e

/-- No step loses a built response. -/
theorem step_retains {s t : State} (e : step s = .next t) : s.part.Retains t.part := by
  unfold step at e
  split at e
  · cases e
    exact Part.tick_retains _
  · next c rest _ => exact exec_retains c (s := { s with pending := rest }) e

end Sys2Proof.Machine

open Sys2Proof.Machine

/-- Settles O60: a response is built only together with its place among those that wait, and it leaves them only to be sent, its place
being freed as its sending ends (`step_retains`). -/
theorem everyStepKeepsTheResponses : Obligations.EveryStepKeepsTheResponses := fun _ _ h e => (step_retains e).kept h
end

