-- ==== Sys2Proof/Proofs/Watches.lean ====
section
/-! CERTIFICATE. ARM WATCH, DISARM WATCH and the door changes that fire a watch (O35, O36): what each check of R170 and R174 reads, and
when a watch fires. -/
namespace Sys2Proof.Machine

/-! ## The watch of a frame (11.2) -/

theorem Frame.watchTarget_door {f : Frame} {d : DoorNo} (kind : f.param 0 = 1) (named : f.param 1 = d.val) :
    f.watchTarget = .door d := by
  simp [watchTarget, kind, named]

theorem Frame.watchTarget_group {f : Frame} {g : GroupNo} (kind : f.param 0 = 2) (named : f.param 1 = g.val) :
    f.watchTarget = .group g := by
  simp [watchTarget, kind, named]

theorem Frame.watchCondition_eq {f : Frame} {c : WatchCondition}
    (carried : f.param 2 = match c with | .change => 1 | .opens => 2 | .secures => 3) : f.watchCondition = c := by
  cases c with
  | change | opens | secures => simp [watchCondition, carried]

/-- The level OPERATE is held by an enabled originator above VIEW (R183). -/
theorem OriginatorRecord.holds_operate (r : OriginatorRecord) :
    r.holds .operate = true ↔ r.enabled = true ∧ r.authority ≠ .view := by
  obtain ⟨enabled, authority⟩ := r
  cases enabled <;> cases authority <;> decide

/-! ## When a watch fires (R171, R172) -/

theorem DoorImage.isSecure_iff (m : DoorImage) : m.isSecure = true ↔ m.bolt = .thrown ∧ m.position = .closed := by
  simp [isSecure]

/-- A door whose image enters SUSPECT matches CHANGE alone (R171). -/
theorem WatchCondition.matches_silent (c : WatchCondition) (new : DoorImage) : c.matches .silent new = true ↔ c = .change := by
  cases c <;> simp [WatchCondition.matches]

/-- What a STATE reply matches; a first reading is no change and no opening (R171). -/
theorem WatchCondition.matches_reply (c : WatchCondition) (old new : DoorImage) :
    c.matches (.reply old) new = true ↔
      (c = .change ∧ old.settled ≠ .absent ∧
          (old.bolt ≠ new.bolt ∨ old.position ≠ new.position ∨ old.holder ≠ new.holder)) ∨
        (c = .opens ∧ old.settled ≠ .absent ∧ old.position = .closed ∧ new.position = .opened) ∨
        (c = .secures ∧ (new.bolt = .thrown ∧ new.position = .closed) ∧ ¬(old.bolt = .thrown ∧ old.position = .closed)) := by
  cases c with
  | change => simp [WatchCondition.matches, or_assoc]
  | opens => simp [WatchCondition.matches, and_assoc]
  | secures => simp [WatchCondition.matches, ← DoorImage.isSecure_iff]

namespace Part

section
variable (p : Part) (d : DoorNo) (ev : DoorEvent) (shown : ShortImage) (k : Fin 8)

/-- A watch is on a door or on the group that the door's record names (R172). -/
theorem watches?_iff (w : Watch) :
    p.watches? w d = true ↔ w.target = .door d ∨ w.target = .group (p.config d).group := by
  unfold watches?
  split
  · next target => simp [target]
  · next target => simp [target]

theorem testWatch_empty (h : p.watches[k] = none) : p.testWatch d ev shown k = p := by simp only [testWatch, h]

variable {w : Watch} (armed : p.watches[k] = some w)
include armed

/-- A watch that a door change matches fires and its slot is emptied (R172). -/
theorem testWatch_fires (named : p.watches? w d = true) (matched : w.condition.matches ev (p.image d) = true) :
    p.testWatch d ev shown k =
      { p with
        watches := p.watches.set k none
        notices :=
          p.notices.raise
            (.watchFired w.owner k w.target w.condition (if ev = .silent then .silent else .condition) (some (d, shown))) } := by
  simp only [testWatch, armed, named, matched, Bool.and_self, if_true]
  cases ev with
  | reply old => rfl
  | silent => rfl

theorem testWatch_stays (other : ¬(p.watches? w d = true ∧ w.condition.matches ev (p.image d) = true)) :
    p.testWatch d ev shown k = p := by
  simp only [testWatch, armed, Bool.and_eq_true, if_neg other]

end

/-! ## ARM WATCH and DISARM WATCH, check by check (R170, R174) -/

/-- Only a door that is not configured is a missing target (R170). -/
theorem targetMissing_iff (p : Part) (target : WatchTarget) :
    p.targetMissing target = true ↔ ∃ d, target = .door d ∧ (p.config d).configured = false := by
  cases target with
  | door d => simp [targetMissing]
  | group g => simp [targetMissing]

theorem freeWatch_eq_none {p : Part} (armed : ∀ k : Fin 8, p.watches[k] ≠ none) : p.freeWatch = none := by
  simpa [freeWatch] using armed

theorem freeWatch_eq_some {p : Part} {k : Fin 8} (free : p.watches[k] = none) (before : ∀ j < k, p.watches[j] ≠ none) :
    p.freeWatch = some k := by
  unfold freeWatch
  rw [List.find?_eq_findSome?_guard]
  refine findSome?_of_ascending (List.pairwise_lt_finRange 8) (List.mem_finRange k) ?_ fun j _ below => ?_
  · simpa [Option.guard] using free
  · simpa [Option.guard] using before j below

section
variable (p : Part) (o : OriginatorNo) (i : SlotNo) (f : Frame)

theorem armWatch_missing (h : p.targetMissing f.watchTarget = true) : p.armWatch o i f = p.refuse o i .notConfigured := by
  simp only [armWatch, h, if_true]

theorem armWatch_noSlot (h : p.targetMissing f.watchTarget = false) (full : p.freeWatch = none) :
    p.armWatch o i f = p.refuse o i .noSlot := by
  simp [armWatch, h, full]

theorem armWatch_ok (h : p.targetMissing f.watchTarget = false) {k : Fin 8} (free : p.freeWatch = some k) :
    p.armWatch o i f =
      (p.setWatch k (some { owner := o, target := f.watchTarget, condition := f.watchCondition })).answerOk o i [byte k] := by
  simp [armWatch, h, free]

variable {k : Fin 8} (named : k.val = f.param 0)
include named

theorem disarmWatch_empty (h : p.watches[k] = none) : p.disarmWatch o i f = p.refuse o i .state := by
  simp [disarmWatch, ← named, h]

variable {w : Watch} (armed : p.watches[k] = some w)
include armed

theorem disarmWatch_forbidden (h : p.mayAct o w.owner = false) : p.disarmWatch o i f = p.refuse o i .authority := by
  simp [disarmWatch, ← named, armed, h]

theorem disarmWatch_ok (h : p.mayAct o w.owner = true) : p.disarmWatch o i f = (p.setWatch k none).answerOk o i [] := by
  simp [disarmWatch, ← named, armed, h]

end

end Part
end Sys2Proof.Machine

open Sys2Proof.Machine Sys2Proof.Machine.Part

/-- Settles O35: OPERATE is the level of DISARM WATCH, its range is that of the eight slots, and each check of `Part.disarmWatch` is read
by its own equation. -/
theorem disarmWatchEmptiesItsSlot : Obligations.DisarmWatchEmptiesItsSlot := by
  intro s o i f a h p operates
  have level : p.holds o Code.disarmWatch.authority = true ↔ operates := OriginatorRecord.holds_operate _
  have range : Code.disarmWatch.inRange f = true ↔ f.param 0 ≤ 7 := by simp [Code.inRange, Code.namesDoor]
  refine ⟨fun low => h.authority rfl (Bool.eq_false_iff.2 fun k => low (level.1 k)),
    fun high far => h.range rfl (level.2 high) (Bool.eq_false_iff.2 fun k => Nat.not_le_of_lt far (range.1 k)),
    fun k high named => ?_⟩
  have decides : Decides s .disarmWatch o i f a := ⟨h, level.2 high, range.2 (by omega)⟩
  refine ⟨fun empty => decides.completes rfl ?_, fun w armed => ?_⟩
  · rw [disarmWatch_empty _ _ _ _ named empty]
    exact decides.answer rfl ..
  have acts : p.mayAct o w.owner = true ↔ o = w.owner ∨ (p.originator o).authority = .administer := by
    obtain ⟨enabled, -⟩ := high
    rw [mayAct_iff, OriginatorRecord.mk.injEq, and_iff_right enabled]
  refine ⟨fun other lower => decides.completes rfl ?_, fun allowed => decides.completes rfl ?_⟩
  · rw [disarmWatch_forbidden _ _ _ _ named armed (Bool.eq_false_iff.2 fun k => (acts.1 k).elim other lower)]
    exact decides.answer rfl ..
  · rw [disarmWatch_ok _ _ _ _ named armed (acts.2 allowed)]
    exact decides.answer (q := p.setWatch k none) rfl ..

/-- Settles O36: each check of `Part.armWatch` is read by its own equation, and a watch fires just where it names the door and its
condition matches (`testWatch_fires`, `testWatch_stays`). -/
theorem watchesAreArmedAndFireOnce : Obligations.WatchesAreArmedAndFireOnce := by
  refine ⟨?_, fun _ _ _ _ => rfl, ?_⟩
  · intro s o i f a target condition h carriedTarget carriedCondition p missing
    have onTarget : f.watchTarget = target := by
      cases target with
      | door d => exact Frame.watchTarget_door carriedTarget.1 carriedTarget.2
      | group g => exact Frame.watchTarget_group carriedTarget.1 carriedTarget.2
    have onCondition : f.watchCondition = condition := Frame.watchCondition_eq carriedCondition
    have absent : p.targetMissing f.watchTarget = true ↔ missing := onTarget ▸ p.targetMissing_iff _
    refine ⟨fun unconfigured => h.completes rfl ?_, fun present => ?_⟩
    · rw [armWatch_missing _ _ _ _ (absent.2 unconfigured)]
      exact h.answer rfl ..
    have found : p.targetMissing f.watchTarget = false := Bool.eq_false_iff.2 fun k => present (absent.1 k)
    refine ⟨fun full => h.completes rfl ?_, fun k free lowest => h.completes rfl ?_⟩
    · rw [armWatch_noSlot _ _ _ _ found (freeWatch_eq_none full)]
      exact h.answer rfl ..
    · rw [armWatch_ok _ _ _ _ found (freeWatch_eq_some free lowest), onTarget, onCondition]
      exact h.answer (q := p.setWatch k _) rfl ..
  · intro p d ev shown k
    refine ⟨testWatch_empty _ _ _ _ _, fun w armed => ?_⟩
    intro new named matched
    have fires : p.watches? w d = true ∧ w.condition.matches ev (p.image d) = true ↔ named ∧ matched := by
      refine and_congr (p.watches?_iff d w) ?_
      cases ev with
      | silent => exact w.condition.matches_silent _
      | reply old => exact w.condition.matches_reply old _
    refine ⟨fun both => ?_, fun other => testWatch_stays _ _ _ _ _ armed fun k => other (fires.1 k)⟩
    obtain ⟨onDoor, meets⟩ := fires.2 both
    exact testWatch_fires _ _ _ _ _ armed onDoor meets
end

