-- ==== Sys2Proof/Proofs/Notices.lean ====
section
/-! CERTIFICATE. The notice queues and the transmit arbiter (O17), and the end of an outbound frame (O16). -/
namespace Sys2Proof.Machine

/-! ## A notice is raised (R176, R177) -/

namespace NoticeQueues

section
variable (q : NoticeQueues) {n : Notice}

theorem raise_urgent (level : n.level = .urgent) (room : q.urgent.length < 8) :
    q.raise n = { q with urgent := q.urgent ++ [n] } := by
  simp only [raise, level, if_pos room]

theorem raise_urgent_full (level : n.level = .urgent) (full : 8 ≤ q.urgent.length) :
    q.raise n = { q with urgentOverflow := true } := by
  simp only [raise, level, if_neg (Nat.not_lt_of_le full)]

theorem raise_fault (level : n.level = .fault) (room : q.fault.length < 8) :
    q.raise n = { q with fault := q.fault ++ [n] } := by
  simp only [raise, level, if_pos room]

theorem raise_fault_full (level : n.level = .fault) (full : 8 ≤ q.fault.length) :
    q.raise n = { q with faultOverflow := true } := by
  simp only [raise, level, if_neg (Nat.not_lt_of_le full)]

theorem raise_state (level : n.level = .state) (room : q.state.length < 32) :
    q.raise n = { q with state := q.state ++ [n] } := by
  simp only [raise, level, if_pos room]

theorem raise_state_full (level : n.level = .state) (full : 32 ≤ q.state.length) :
    q.raise n = { q with stateOverflow := true } := by
  simp only [raise, level, if_neg (Nat.not_lt_of_le full)]

end

end NoticeQueues

/-! ## The order of the responses built (R178) -/

namespace ResponsePlace

/-- A slot's response goes by its originator, then by its slot. -/
theorem slot_key_le {o o' : OriginatorNo} {i i' : SlotNo} (h : (slot o i).key ≤ (slot o' i').key) : o < o' ∨ o = o' ∧ i ≤ i' := by
  simp only [key] at h
  simp only [Fin.lt_def, Fin.le_def, Fin.ext_iff]
  omega

/-- A refusal holder's response goes last of its originator's. -/
theorem slot_holder_key_le {o o' : OriginatorNo} {i : SlotNo} (h : (slot o i).key ≤ (holder o').key) : o ≤ o' := by
  simp only [key] at h
  rw [Fin.le_def]
  omega

theorem holder_slot_key_le {o o' : OriginatorNo} {i : SlotNo} (h : (holder o).key ≤ (slot o' i).key) : o < o' := by
  simp only [key] at h
  rw [Fin.lt_def]
  omega

theorem holder_key_le {o o' : OriginatorNo} (h : (holder o).key ≤ (holder o').key) : o ≤ o' := by
  simp only [key] at h
  rw [Fin.le_def]
  omega

end ResponsePlace

/-- When the sending of a frame ends (10.1). -/
def Outbound.sendingEnds (x : Outbound) : Time := x.began + 50 * x.frame.length

/-! ## The transmit arbiter's choice (R178) -/

namespace Part

theorem waitingAt_slot {p : Part} {o : OriginatorNo} {i : SlotNo} {f : Frame} {a : Time} {r : Response}
    (h : p.slot o i = .answered f a r) : p.waitingAt (.slot o i) = some r := by
  simp only [waitingAt, h]

theorem sendResponse_empty {p : Part} (h : p.uplink.waiting = []) : p.sendResponse = none := by
  simp only [sendResponse, h]

/-- A frame being sent leaves the arbiter nothing to choose. -/
theorem uplinkChoice_busy {p : Part} {x : Outbound} (h : p.uplink.sending = some x) : p.uplinkChoice = p := by
  simp only [uplinkChoice, h]

section
variable {p : Part} (free : p.uplink.sending = none)
include free

theorem uplinkChoice_urgentNotice {n : Notice} {rest : List Notice} (h : p.notices.urgent = n :: rest) :
    p.uplinkChoice =
      { p with
        notices := { p.notices with urgent := rest, urgentOverflow := false }
        uplink := { p.uplink with sending := some (.notice n p.notices.urgentOverflow p.now) } } := by
  simp only [uplinkChoice, free, h, send]

variable (noUrgent : p.notices.urgent = [])
include noUrgent

/-- With no URGENT notice the oldest response goes first. -/
theorem uplinkChoice_response {x : ResponsePlace} {rest : List ResponsePlace} {r : Response} (waits : p.uplink.waiting = x :: rest)
    (built : p.waitingAt x = some r) :
    p.uplinkChoice = { p with uplink := { p.uplink with waiting := rest, sending := some (.response x r p.now) } } := by
  simp only [uplinkChoice, free, noUrgent, sendResponse, waits, built, Option.map_some, send]

variable (noResponse : p.uplink.waiting = [])
include noResponse

theorem uplinkChoice_faultNotice {n : Notice} {rest : List Notice} (h : p.notices.fault = n :: rest) :
    p.uplinkChoice =
      { p with
        notices := { p.notices with fault := rest, faultOverflow := false }
        uplink := { p.uplink with sending := some (.notice n p.notices.faultOverflow p.now) } } := by
  simp only [uplinkChoice, free, noUrgent, sendResponse_empty noResponse, h, send]

variable (noFault : p.notices.fault = [])
include noFault

theorem uplinkChoice_stateNotice {n : Notice} {rest : List Notice} (h : p.notices.state = n :: rest) :
    p.uplinkChoice =
      { p with
        notices := { p.notices with state := rest, stateOverflow := false }
        uplink := { p.uplink with sending := some (.notice n p.notices.stateOverflow p.now) } } := by
  simp only [uplinkChoice, free, noUrgent, sendResponse_empty noResponse, noFault, h, send]

theorem uplinkChoice_idle (h : p.notices.state = []) : p.uplinkChoice = p := by
  simp only [uplinkChoice, free, noUrgent, sendResponse_empty noResponse, noFault, h]

end

/-- After a command the lines choose in turn, the responses built are ordered, and the uplink chooses. -/
theorem settle_eq (p : Part) (n : Nat) :
    p.settle n =
      let q := (((p.lineChoice 0).lineChoice 1).lineChoice 2).lineChoice 3
      ({ q with uplink := { q.uplink with waiting := orderBuilt n q.uplink.waiting } } : Part).uplinkChoice := by
  have lines : List.finRange 4 = [0, 1, 2, 3] := rfl
  simp only [settle, lines, List.foldl]

/-! ## The end of an outbound frame (R179) -/

theorem frameSent_notice {p : Part} {n : Notice} {mark : Bool} {b : Time} (h : p.uplink.sending = some (.notice n mark b)) :
    p.frameSent = p.sendingEnded (Outbound.sendingEnds (.notice n mark b)) := by
  simp only [frameSent, h]
  rfl

/-- The place of a response that has been sent is freed, where no requested restart follows (R193). -/
theorem frameSent_response {p : Part} {x : ResponsePlace} {r : Response} {b : Time}
    (h : p.uplink.sending = some (.response x r b))
    (stays : p.uplink.restartPending = true → ¬(r.code = 0x3F#8 ∧ r.completion = .ok)) :
    p.frameSent = (p.sendingEnded (Outbound.sendingEnds (.response x r b))).freePlace x := by
  have restarts : r.restarts = true → r.code = 0x3F#8 ∧ r.completion = .ok := fun k =>
    (by simpa [Response.restarts] using k : r.code = Code.restartPart.value ∧ r.completion = .ok)
  have noRestart : ¬(r.restarts = true ∧ p.uplink.restartPending = true) := fun ⟨k, pending⟩ => stays pending (restarts k)
  simp only [frameSent, h, if_neg noRestart]
  rfl

end Part
end Sys2Proof.Machine

open Sys2Proof.Machine Sys2Proof.Machine.Part

/-- Settles O17: `NoticeQueues.raise` by level and room, `Part.uplinkChoice` by the first of its four sources that has a frame, and the
order of the keys in `orderBuilt_spec`. -/
theorem noticesAreQueuedAndSentInOrder : Obligations.NoticesAreQueuedAndSentInOrder := by
  refine ⟨fun q n => ⟨fun level => ⟨q.raise_urgent level, q.raise_urgent_full level⟩,
    fun level => ⟨q.raise_fault level, q.raise_fault_full level⟩, fun level => ⟨q.raise_state level, q.raise_state_full level⟩⟩,
    fun p free => ⟨fun n rest => uplinkChoice_urgentNotice free, fun noUrgent => ?_⟩, fun _ _ => uplinkChoice_busy, settle_eq,
    fun n xs => ?_⟩
  · refine ⟨fun o i f a r rest waits answered => uplinkChoice_response free noUrgent waits (waitingAt_slot answered),
      fun o r rest waits held => uplinkChoice_response free noUrgent waits held, fun noResponse => ?_⟩
    exact ⟨fun n rest => uplinkChoice_faultNotice free noUrgent noResponse, fun noFault =>
      ⟨fun n rest => uplinkChoice_stateNotice free noUrgent noResponse noFault, uplinkChoice_idle free noUrgent noResponse noFault⟩⟩
  · obtain ⟨built, order, perm, sorted⟩ := orderBuilt_spec n xs
    refine ⟨built, order, perm, sorted.imp fun {x y} le => ?_⟩
    cases x with
    | slot o i =>
      cases y with
      | slot o' i' => exact ResponsePlace.slot_key_le le
      | holder o' => exact ResponsePlace.slot_holder_key_le le
    | holder o =>
      cases y with
      | slot o' i' => exact ResponsePlace.holder_slot_key_le le
      | holder o' => exact ResponsePlace.holder_key_le le

/-- Settles O16: the transmitter is freed at the frame's end and a response's place with it (`frameSent_notice`,
`frameSent_response`). -/
theorem sentFramesFreeTheirPlace : Obligations.SentFramesFreeTheirPlace := by
  intro s x works sent stays ends q
  refine ⟨?_, ?_, ?_⟩
  · rintro n mark b rfl
    exact completes_of rfl works (frameSent_notice sent)
  · rintro o i r b rfl
    exact completes_of rfl works (frameSent_response sent fun pending => stays pending _ _ _ rfl)
  · rintro o r b rfl
    exact completes_of rfl works (frameSent_response sent fun pending => stays pending _ _ _ rfl)
end

section
/-! CERTIFICATE. Power, the reset input and the restarts they take (O3, O5, O6, O7): a part that is held is left alone, and a part that
restarts is the blank one with PART STARTED being sent. -/
namespace Sys2Proof.Machine

/-! ## The commands of a part that works (R195) -/

/-- Every command but power, the reset input and the raw fire input acts on a working part alone. -/
theorem exec_eq_act (c : Instr) (up : c ≠ .powerUp) (asserted : c ≠ .resetInputAsserted) (released : c ≠ .resetInputReleased)
    (down : c ≠ .powerFails) (input : ∀ r, c ≠ .fireInputChange r) : ∃ f : Part → Part, ∀ s, exec c s = act f s := by
  cases c with
  | powerUp => exact absurd rfl up
  | resetInputAsserted => exact absurd rfl asserted
  | resetInputReleased => exact absurd rfl released
  | powerFails => exact absurd rfl down
  | fireInputChange r => exact absurd rfl (input r)
  | _ => exact ⟨_, fun _ => rfl⟩

namespace Part

/-! ## The part that a power-up or reset restart leaves (R195) -/

/-- The blank part with PART STARTED, the first notice of every restart, being sent (R178, R180). -/
def started (now : Time) (raw : FireInput) (cause : RestartCause) (flag : Bool) : Part :=
  { blank false now raw cause flag with
    uplink := { Uplink.blank now cause flag with sending := some (.notice (.partStarted cause flag) false now) } }

/-- A free line with no request, motion or broadcast, and no door to poll, has nothing to choose (R39). -/
theorem lineChoice_blank {p : Part} {l : LineNo} (line : p.line l = Line.blank) (poll : p.pollable l = []) : p.lineChoice l = p := by
  have noConfirm : p.confirmDue l = none := by rw [confirmDue, line]; rfl
  have noRoutine : p.nextRoutine l = none := by rw [nextRoutine, poll]; rfl
  have noQueued : p.chooseQueued l = p := by
    unfold chooseQueued
    rw [line, noRoutine]
    rfl
  unfold lineChoice
  rw [line, noConfirm, noQueued]
  rfl

section
variable (reset : Bool) (now : Time) (raw : FireInput) (cause : RestartCause) (flag : Bool)

/-- No door of a blank part is configured, so that no line has a door to poll (R1, R41). -/
theorem blank_pollable (l : LineNo) : (blank reset now raw cause flag).announce.pollable l = [] := by
  refine List.filter_eq_nil_iff.2 fun d _ => ?_
  have config : (blank reset now raw cause flag).announce.config d = DoorRecord.blank.config :=
    congrArg DoorRecord.config (blank_door reset now raw cause flag d)
  simp [config, DoorRecord.blank]

theorem blank_announce_lineChoice (l : LineNo) :
    (blank reset now raw cause flag).announce.lineChoice l = (blank reset now raw cause flag).announce :=
  lineChoice_blank (blank_line reset now raw cause flag l) (blank_pollable ..)

/-- The restart of a part that is not held: no line has anything to send, and the uplink sends PART STARTED. -/
theorem restart_released : restart false now raw cause flag = started now raw cause flag := by
  have works : (blank false now raw cause flag).announce.working = true := rfl
  rw [restart, if_pos works, settle_eq]
  simp only [blank_announce_lineChoice]
  exact uplinkChoice_stateNotice rfl rfl rfl rfl rfl

theorem restart_originators : (restart reset now raw cause flag).uplink.originators = OriginatorRecord.table := by
  cases reset with
  | false => rw [restart_released]; rfl
  | true => rfl

end

/-- All that a restart leaves but its cause and flag is what the power-up of `State.reset` leaves. -/
theorem started_fresh (now : Time) (raw : FireInput) (cause : RestartCause) (flag : Bool) :
    (started now raw cause flag).Fresh cause flag where
  doors := reset_fresh.doors
  groups := reset_fresh.groups
  lines := reset_fresh.lines
  engine := reset_fresh.engine
  reports := reset_fresh.reports
  exceptions := reset_fresh.exceptions
  catchUp := rfl
  clock := rfl
  schedule := reset_fresh.schedule
  banks := reset_fresh.banks
  latch := ⟨rfl, rfl, rfl⟩
  releasePending := ⟨rfl, rfl, rfl⟩
  fireTimers := ⟨rfl, rfl⟩
  watches := reset_fresh.watches
  notices := rfl
  sending := rfl
  assembler := rfl
  originators := reset_fresh.originators
  slots := reset_fresh.slots
  holders := reset_fresh.holders
  senses := reset_fresh.senses
  waiting := rfl
  restart := ⟨rfl, rfl, rfl⟩

/-- The reset input's release restarts a part that has power (R194). -/
theorem releaseReset_powered {p : Part} (power : p.powered = true) :
    p.releaseReset = restart false p.now p.fire.raw .resetInput p.uplink.requestedFlag := if_pos power

/-! ## The originator table (R185) -/

/-- Originator 0 alone is enabled, with ADMINISTER, in a part that holds the table of power-up. -/
theorem originator_of_table {p : Part} (h : p.uplink.originators = OriginatorRecord.table) :
    p.originator 0 = { enabled := true, authority := .administer } ∧
      ∀ o, o ≠ 0 → p.originator o = { enabled := false, authority := .view } := by
  unfold originator
  rw [h]
  exact reset_originators

/-- The requested restart and the choices that follow write no originator's record (R185). -/
theorem requestedRestart_uplink {p t : Part} (c : p.requestedRestart.Chosen t) :
    t.uplink.originators = p.uplink.originators ∧ t.uplink.restartCause = .requested := by
  have m : p.restarted.announce.Moves p.requestedRestart := (returnToIdle_moves _).trans (engineRun_moves _)
  have uplink := m.uplink_of_chosen c
  exact ⟨(congrArg Uplink.originators uplink :), (congrArg Uplink.restartCause uplink :)⟩

end Part
end Sys2Proof.Machine

open Sys2Proof.Machine Sys2Proof.Machine.Part

/-- Settles O3: every other command acts through `act`, which leaves a held part alone (`act_held`). -/
theorem heldPartIgnoresCommands : Obligations.HeldPartIgnoresCommands := by
  intro c s held up asserted released down input
  obtain ⟨f, acts⟩ := exec_eq_act c up asserted released down input
  rw [acts]
  exact act_held f s held

/-- Settles O5: a restart of a part that is not held leaves the fresh part (`restart_released`, `started_fresh`). -/
theorem powerUpAndResetReleaseRestart : Obligations.PowerUpAndResetReleaseRestart := by
  refine ⟨fun s => ⟨{ s with part := s.part.powerUp }, rfl, rfl, ?_⟩, fun s power =>
    ⟨{ s with part := s.part.releaseReset }, rfl, rfl, ?_⟩⟩
  · dsimp only [powerUp]
    cases s.part.resetAsserted with
    | false =>
      rw [restart_released]
      exact ⟨rfl, fun _ => ⟨rfl, started_fresh ..⟩, nofun⟩
    | true => exact ⟨rfl, nofun, fun _ => rfl⟩
  · dsimp only
    rw [releaseReset_powered power, restart_released]
    exact ⟨rfl, rfl, started_fresh ..⟩

/-- Settles O6: what the reset input and the loss of power write is read off `Part.assertReset` and `Part.losePower`. -/
theorem resetInputAndPowerFailureStopThePart : Obligations.ResetInputAndPowerFailureStopThePart := fun s =>
  ⟨rfl, { s with part := s.part.losePower }, rfl, rfl, rfl, rfl, rfl, rfl, rfl⟩

/-- Settles O7: power-up and the reset input write the table of R185 (`restart_originators`), and the requested restart keeps what
stands (`requestedRestart_uplink`). -/
theorem restartsLeaveTheOriginatorTable : Obligations.RestartsLeaveTheOriginatorTable := by
  refine ⟨fun s => ⟨{ s with part := s.part.powerUp }, rfl, originator_of_table (restart_originators ..)⟩, fun s power =>
    ⟨{ s with part := s.part.releaseReset }, rfl, originator_of_table ?_⟩, fun s x r b working sending code ok pending => ?_⟩
  · dsimp only
    rw [releaseReset_powered power, restart_originators]
  · obtain ⟨t, e, reaches⟩ := act_reaches_of (f := Part.frameSent) working (frameSent_restarts sending code ok pending)
    obtain ⟨originators, cause⟩ := requestedRestart_uplink reaches.part
    have kept : t.part.uplink.originators = s.part.uplink.originators := originators.trans (by cases x <;> rfl)
    exact ⟨t, e, cause, fun o => congrArg (·[o]) kept⟩
end

section
/-! CERTIFICATE. The bytes of frames (O10, O12): the uplink's layout of 11.1 read back, and the frames that the part sends. -/
namespace Sys2Proof.Machine

/-! ## The uplink's frame (11.1) -/

/-- A frame's bytes: the start byte, the length, the bytes it counts, and the CRC over the length and those bytes. -/
theorem uplinkFrame_eq (kind originator tag code door : Byte) (params : List Byte) :
    uplinkFrame kind originator tag code door params =
      0xC3#8 :: byte (5 + params.length) :: (kind :: originator :: tag :: code :: door :: params ++
        be16 (crc16 (byte (5 + params.length) :: kind :: originator :: tag :: code :: door :: params)).toNat) := rfl

/-- Bytes whose length and CRC hold give the frame that their body spells (R181, R202). -/
theorem frameOfBytes_body {len kind originator tag code door : Byte} {params : List Byte} (low : 5 ≤ len.toNat) (high : len.toNat ≤ 240)
    (counted : (kind :: originator :: tag :: code :: door :: params).length = len.toNat) :
    frameOfBytes (0xC3#8 :: len :: (kind :: originator :: tag :: code :: door :: params ++
        be16 (crc16 (len :: kind :: originator :: tag :: code :: door :: params)).toNat)) =
      some ⟨kind, originator, tag, code, door, params⟩ := by
  simp only [frameOfBytes, List.take_left' counted, List.drop_left' counted, List.length_append, counted]
  exact if_pos ⟨trivial, low, high, rfl, trivial⟩

/-- A frame is taken only from bytes whose length and CRC hold. -/
theorem frameOfBytes_eq_some {bytes : List Byte} {f : Frame} (h : frameOfBytes bytes = some f) :
    ∃ len : Byte, len.toNat ≤ 240 ∧ (f.kind :: f.originator :: f.tag :: f.code :: f.door :: f.params).length = len.toNat ∧
      bytes = 0xC3#8 :: len :: (f.kind :: f.originator :: f.tag :: f.code :: f.door :: f.params ++
        be16 (crc16 (len :: f.kind :: f.originator :: f.tag :: f.code :: f.door :: f.params)).toNat) := by
  unfold frameOfBytes at h
  split at h
  · next start len rest =>
    dsimp only at h
    split at h
    · next checks =>
      obtain ⟨rfl, low, high, length, crc⟩ := checks
      split at h
      · next kind originator tag code door params body =>
        cases h
        rw [body] at crc
        refine ⟨len, high, ?_, ?_⟩
        · rw [← body, List.length_take]
          omega
        · rw [← crc, ← body, List.take_append_drop]
      · cases h
    · cases h
  · cases h

/-- The length byte of a frame counts its five header bytes and its parameters. -/
theorem eq_byte_of_toNat {b : Byte} {n : Nat} (h : n = b.toNat) : b = byte n := by
  rw [h, byte, BitVec.ofNat_toNat, BitVec.setWidth_eq]

/-! ## The frames of the door lines (11.7) -/

/-- Byte `k` of a map is its eight bits from bit `8 * (7 - k)` on. -/
theorem be64_getD {m : BitVec 64} : ∀ {k : Nat}, k < 8 → (be64 m).getD k 0#8 = (m >>> (8 * (7 - k))).setWidth 8
  | 0, _ | 1, _ | 2, _ | 3, _ | 4, _ | 5, _ | 6, _ | 7, _ => rfl
  | _ + 8, h => absurd h (by omega)

/-- Node `n`'s bit of a map stands at bit `(n - 1) % 8` of byte `(64 - n) / 8`. -/
theorem be64_bit (m : BitVec 64) {n : Nat} (low : 1 ≤ n) (high : n ≤ 64) :
    ((be64 m).getD ((64 - n) / 8) 0#8).getLsbD ((n - 1) % 8) = m.getLsbD (n - 1) := by
  have place : 8 * (7 - (64 - n) / 8) + (n - 1) % 8 = n - 1 := by omega
  have inByte : (n - 1) % 8 < 8 := by omega
  rw [be64_getD (by omega), BitVec.getLsbD_setWidth, BitVec.getLsbD_ushiftRight, place]
  simp [inByte]

namespace FireMaps

/-- A broadcast's frame: three bytes of header, the two maps, the CRC-8. -/
theorem frame_eq (m : FireMaps) :
    m.frame = [0#8, 0x0F#8, 16#8] ++ (be64 m.retract ++ (be64 m.holder ++
      [crc8 ([0#8, 0x0F#8, 16#8] ++ be64 m.retract ++ be64 m.holder)])) := rfl

theorem frame_retract (m : FireMaps) {k : Nat} (h : k < 8) : m.frame.getD (3 + k) 0#8 = (be64 m.retract).getD k 0#8 := by
  have header : [0#8, 0x0F#8, 16#8].length ≤ 3 + k := Nat.le_add_right 3 k
  have place : 3 + k - [0#8, 0x0F#8, 16#8].length = k := Nat.add_sub_cancel_left 3 k
  have inMap : k < (be64 m.retract).length := h
  rw [frame_eq, List.getD_eq_getElem?_getD, List.getD_eq_getElem?_getD, List.getElem?_append_right header, place,
    List.getElem?_append_left inMap]

theorem frame_holder (m : FireMaps) {k : Nat} (h : k < 8) : m.frame.getD (11 + k) 0#8 = (be64 m.holder).getD k 0#8 := by
  have header : ([0#8, 0x0F#8, 16#8] ++ be64 m.retract).length ≤ 11 + k := Nat.le_add_right 11 k
  have place : 11 + k - ([0#8, 0x0F#8, 16#8] ++ be64 m.retract).length = k := Nat.add_sub_cancel_left 11 k
  have inMap : k < (be64 m.holder).length := h
  rw [frame_eq, ← List.append_assoc, List.getD_eq_getElem?_getD, List.getD_eq_getElem?_getD, List.getElem?_append_right header, place,
    List.getElem?_append_left inMap]

end FireMaps

/-! ## The frames of notices (11.5, R176, R197) -/

/-- A level's number (R197). -/
def Level.number : Level → Nat
  | .urgent => 1
  | .fault => 2
  | .state => 3

/-- A notice's tag is its level's number, with 0x80 for the overflow mark (R197). -/
theorem Notice.tag_eq (n : Notice) (mark : Bool) : n.tag mark = byte (if mark then n.level.number + 128 else n.level.number) := by
  unfold tag
  cases n.level <;> cases mark <;> rfl

/-- The frame of a notice, its fields given one by one. -/
theorem Notice.frame_eq {n : Notice} {mark : Bool} {addressee : Byte} {door : Byte} {params : List Byte}
    (addressed : optByte (n.addressee.map (·.val)) = addressee) (about : n.doorByte = door) (carries : n.params = params) :
    n.frame mark =
      uplinkFrame 0x82#8 addressee (byte (if mark then n.level.number + 128 else n.level.number)) (byte n.code) door params := by
  rw [frame, tag_eq, addressed, about, carries]

/-! ## The parameters of the notices whose fields may be none (11.5, R199) -/

theorem vector_toList_four {α : Type} : ∀ v : Vector α 4, v.toList = [v[0], v[1], v[2], v[3]]
  | ⟨⟨[_, _, _, _]⟩, _⟩ => rfl

namespace Notice

theorem lineFault_params (l : LineNo) (r : FaultRecord) :
    (lineFault l r).params =
      [byte l, byte r.kind.code, match r.node with | none => 0xFF#8 | some k => byte k,
        match r.function with | none => 0xFF#8 | some x => byte x.code] ++
        (match r.minute with | none => [0xFF#8, 0xFF#8] | some m => [byte (m / 256), byte m]) ++ [if r.again then 1#8 else 0#8] := by
  obtain ⟨kind, node, function, minute, again⟩ := r
  cases node <;> cases function <;> cases minute <;> rfl

theorem doorChange_params (d : DoorNo) (l : LineNo) (bolt : Option (Bolt × Bolt)) (position : Option (Position × Position))
    (holder : Option (Holder × Holder)) (exit forced : Bool) (m : ShortImage) :
    (doorChange d l bolt position holder exit forced m).params =
      [byte l,
        byte (bolt.isSome.toNat + 2 * position.isSome.toNat + 4 * holder.isSome.toNat + 8 * exit.toNat + 16 * forced.toNat),
        match bolt with | none => 0xFF#8 | some x => byte x.1.code,
        match position with | none => 0xFF#8 | some x => byte x.1.code,
        match holder with | none => 0xFF#8 | some x => byte x.1.code] ++ m.bytes := by
  cases bolt <;> cases position <;> cases holder <;> rfl

theorem sweepStarted_params (number : Option Nat) (plan : Option PlanNo) (minute : Option Nat) :
    (sweepStarted number plan minute).params =
      [byte (number.getD 0 / 256), byte (number.getD 0)] ++ [match plan with | none => 0xFF#8 | some k => byte k] ++
        match minute with | none => [0xFF#8, 0xFF#8] | some m => [byte (m / 256), byte m] := by
  cases number <;> cases plan <;> cases minute <;> rfl

theorem sweepEnded_params (number : Option Nat) (plan : Option PlanNo) (status : FinalStatus) :
    (sweepEnded number plan status).params =
      [byte (number.getD 0 / 256), byte (number.getD 0)] ++ [match plan with | none => 0xFF#8 | some k => byte k] ++
        [byte status.code] := by
  cases number <;> cases plan <;> rfl

theorem watchFired_params (owner : OriginatorNo) (k : Fin 8) (target : WatchTarget) (condition : WatchCondition) (why : WatchReason)
    (matched : Option (DoorNo × ShortImage)) :
    (watchFired owner k target condition why matched).params =
      [byte k] ++ (match target with | .door d => [1#8, byte d] | .group g => [2#8, byte g]) ++ [byte condition.code, byte why.code] ++
        match matched with | none => [0xFF#8, 0xFF#8, 0xFF#8, 0xFF#8, 0xFF#8, 0xFF#8] | some x => x.2.bytes := by
  cases target <;> cases matched <;> rfl

theorem watchFired_doorByte (owner : OriginatorNo) (k : Fin 8) (target : WatchTarget) (condition : WatchCondition) (why : WatchReason)
    (matched : Option (DoorNo × ShortImage)) :
    (watchFired owner k target condition why matched).doorByte = match matched with | none => 0xFF#8 | some x => byte x.1 := by
  cases matched <;> rfl

end Notice

end Sys2Proof.Machine

open Sys2Proof.Machine

/-- Settles O10: what `frameOfBytes` checks is the layout of `uplinkFrame` (`frameOfBytes_body`, `frameOfBytes_eq_some`). -/
theorem framesAreReadFromTheirBytes : Obligations.FramesAreReadFromTheirBytes := by
  refine fun bytes f => ⟨fun h => ?_, ?_⟩
  · obtain ⟨len, high, counted, rfl⟩ := frameOfBytes_eq_some h
    simp only [List.length_cons] at counted
    obtain rfl : len = byte (5 + f.params.length) := eq_byte_of_toNat (by omega)
    exact ⟨by omega, rfl⟩
  · rintro ⟨short, rfl⟩
    have length : (byte (5 + f.params.length)).toNat = 5 + f.params.length := byte_toNat (by omega)
    rw [uplinkFrame_eq]
    exact frameOfBytes_body (by omega) (by omega) (by simp only [List.length_cons, length]; omega)

/-- Settles O12: a line's frame by its command, the bits of a broadcast's maps by their place (`be64_bit`), and each notice by its
fields (`Notice.frame_eq`). -/
theorem framesSentAreLaidOut : Obligations.FramesSentAreLaidOut := by
  refine ⟨fun t => ?_, fun m => ?_, fun r => rfl, fun mark n => ?_⟩
  · unfold Transaction.frame
    dsimp only
    cases t.cmd <;> rfl
  · refine ⟨rfl, fun n low high => ⟨?_, ?_⟩⟩
    · rw [m.frame_retract (by omega), be64_bit m.retract low high]
    · rw [m.frame_holder (by omega), be64_bit m.holder low high]
  · dsimp only
    cases n with
    | fireReleaseIncomplete count on => exact Notice.frame_eq rfl rfl (congrArg (byte count :: List.map byte ·) (vector_toList_four on))
    | lineFault l r => exact Notice.frame_eq rfl rfl (Notice.lineFault_params l r)
    | doorChange d l bolt position holder exit forced m => exact Notice.frame_eq rfl rfl (Notice.doorChange_params ..)
    | sweepStarted number plan minute => exact Notice.frame_eq rfl rfl (Notice.sweepStarted_params ..)
    | sweepEnded number plan status => exact Notice.frame_eq rfl rfl (Notice.sweepEnded_params ..)
    | watchFired owner k target condition why matched =>
      exact Notice.frame_eq rfl (Notice.watchFired_doorByte ..) (Notice.watchFired_params ..)
    | _ => exact Notice.frame_eq rfl rfl rfl
end

section
/-! CERTIFICATE. The receive assembler (O14, O15): what becomes of a character and of a frame's last byte, and where a good frame is
placed. -/
namespace Sys2Proof.Machine.Part

/-! ## The placing of a frame (R182, R186, R188) -/

/-- The refusal holder is given a BUSY response, which waits to be sent, and the sense record is written but for SENSE (R105, R188). -/
theorem holdBusy_eq (p : Part) (o : OriginatorNo) (f : Frame) :
    p.holdBusy o f =
      { p with
        uplink :=
          { p.uplink with
            refusals := p.uplink.refusals.set o (some (f.respond o .busy []))
            senses :=
              if f.isSense then p.uplink.senses
              else p.uplink.senses.set o (some { completion := .busy, request := f.code, door := f.namedDoor, detail := none })
            waiting := p.uplink.waiting ++ [.holder o] } } := by
  have notOk : ¬(Completion.busy = .ok ∨ Completion.busy = .commitPending ∨ f.isSense = true) ↔ ¬f.isSense = true := by simp
  unfold holdBusy noteSense
  by_cases sense : f.isSense = true
  · simp only [sense, or_true, if_true]
  · simp only [if_neg (notOk.2 sense), if_neg sense]
    rfl

/-- A frame of an originator above 3 is discarded (R182). -/
theorem placeFrame_foreign (p : Part) {f : Frame} (foreign : 4 ≤ f.originator.toNat) : p.placeFrame f = p :=
  dif_neg (Nat.not_lt_of_le foreign)

section
variable (p : Part) {f : Frame} {o : OriginatorNo} (named : o.val = f.originator.toNat)
include named

/-- The frame of an originator is placed by the state of its two slots and its refusal holder. -/
theorem placeFrame_own :
    p.placeFrame f =
      if p.slot o 0 = .empty then p.setSlot o 0 (.waiting f p.now)
      else if p.slot o 1 = .empty then p.setSlot o 1 (.waiting f p.now)
      else if p.uplink.refusals[o] = none then p.holdBusy o f
      else p := by
  have own : f.originator.toNat < 4 := named ▸ o.isLt
  obtain rfl : o = ⟨f.originator.toNat, own⟩ := Fin.ext named
  exact dif_pos own

theorem placeFrame_first (first : p.slot o 0 = .empty) : p.placeFrame f = p.setSlot o 0 (.waiting f p.now) := by
  rw [p.placeFrame_own named, if_pos first]

variable (taken : p.slot o 0 ≠ .empty)
include taken

theorem placeFrame_second (second : p.slot o 1 = .empty) : p.placeFrame f = p.setSlot o 1 (.waiting f p.now) := by
  rw [p.placeFrame_own named, if_neg taken, if_pos second]

variable (full : p.slot o 1 ≠ .empty)
include full

theorem placeFrame_busy (free : p.uplink.refusals[o] = none) : p.placeFrame f = p.holdBusy o f := by
  rw [p.placeFrame_own named, if_neg taken, if_neg full, if_pos free]

theorem placeFrame_lost (held : p.uplink.refusals[o] ≠ none) : p.placeFrame f = p := by
  rw [p.placeFrame_own named, if_neg taken, if_neg full, if_neg held]

end

/-- What holds of the part in which a frame has been placed holds of the part that its own place leaves. -/
theorem placeFrame_places {p : Part} {f : Frame} (C : Part → Prop) (placed : C (p.placeFrame f)) :
    (4 ≤ f.originator.toNat → C p) ∧
    ∀ o : OriginatorNo, o.val = f.originator.toNat →
      (p.slot o 0 = .empty → C (p.setSlot o 0 (.waiting f p.now))) ∧
      (p.slot o 0 ≠ .empty → p.slot o 1 = .empty → C (p.setSlot o 1 (.waiting f p.now))) ∧
      (p.slot o 0 ≠ .empty → p.slot o 1 ≠ .empty → p.uplink.refusals[o] = none → C (p.holdBusy o f)) ∧
      (p.slot o 0 ≠ .empty → p.slot o 1 ≠ .empty → p.uplink.refusals[o] ≠ none → C p) :=
  ⟨fun foreign => p.placeFrame_foreign foreign ▸ placed, fun _ named =>
    ⟨fun first => p.placeFrame_first named first ▸ placed, fun taken second => p.placeFrame_second named taken second ▸ placed,
      fun taken full free => p.placeFrame_busy named taken full free ▸ placed,
      fun taken full held => p.placeFrame_lost named taken full held ▸ placed⟩⟩

/-! ## The assembler (R181) -/

theorem takeFrame_bad (p : Part) {bytes : List Byte} (bad : frameOfBytes bytes = none) : p.takeFrame bytes = p.setAssembler .hunting := by
  simp only [takeFrame, bad]

theorem takeFrame_good (p : Part) {bytes : List Byte} {f : Frame} (good : frameOfBytes bytes = some f) :
    p.takeFrame bytes = (p.setAssembler .hunting).placeFrame f := by
  simp only [takeFrame, good]

section
variable (p : Part) (b : Byte)

theorem receiveChar_hunting (mark : Bool) (pause : Time) (h : p.uplink.assembler = .hunting) :
    p.receiveChar b mark pause = (p.stampByte (p.uplink.lastByte + pause + 50)).examine b := by
  simp only [receiveChar, h]
  rfl

variable {got : List Byte} (h : p.uplink.assembler = .assembling got)
include h

/-- A character after a pause of more than 5 ms is examined as HUNTING examines it (log 27). -/
theorem receiveChar_late (mark : Bool) {pause : Time} (late : 5 * 576 < pause) :
    p.receiveChar b mark pause = (p.stampByte (p.uplink.lastByte + pause + 50)).examine b := by
  have gap : Config.uplinkGap < pause := late
  simp only [receiveChar, h, if_pos gap]
  rfl

variable {pause : Time} (soon : pause ≤ 5 * 576)
include soon

theorem receiveChar_noStop :
    p.receiveChar b false pause = (p.stampByte (p.uplink.lastByte + pause + 50)).setAssembler .hunting := by
  have gap : ¬Config.uplinkGap < pause := Nat.not_lt_of_le soon
  simp only [receiveChar, h, if_neg gap]
  rfl

theorem receiveChar_collects :
    p.receiveChar b true pause = (p.stampByte (p.uplink.lastByte + pause + 50)).collect got b := by
  have gap : ¬Config.uplinkGap < pause := Nat.not_lt_of_le soon
  simp only [receiveChar, h, if_neg gap]
  rfl

end

section
variable (p : Part) (b : Byte)

/-- The first byte collected is the length byte, which lies from 5 to 240. -/
theorem collect_badLength (bad : b.toNat < 5 ∨ 240 < b.toNat) : p.collect [] b = p.setAssembler .hunting := if_pos bad

theorem collect_length (low : 5 ≤ b.toNat) (high : b.toNat ≤ 240) : p.collect [] b = p.setAssembler (.assembling [b]) := by
  have range : ¬(b.toNat < 5 ∨ 240 < b.toNat) := by omega
  have short : ¬[b].length = b.toNat + 3 := by simp
  exact (if_neg range).trans (if_neg short)

variable {len : Byte} (rest : List Byte) (low : 5 ≤ len.toNat) (high : len.toNat ≤ 240)
include low high

theorem collect_more (short : rest.length + 1 < len.toNat + 2) :
    p.collect (len :: rest) b = p.setAssembler (.assembling (len :: rest ++ [b])) := by
  have range : ¬(len.toNat < 5 ∨ 240 < len.toNat) := by omega
  have wanting : ¬(len :: rest ++ [b]).length = len.toNat + 3 := by simp; omega
  exact (if_neg range).trans (if_neg wanting)

/-- The last byte of a frame: its parameters and its CRC are there. -/
theorem collect_last (whole : rest.length + 1 = len.toNat + 2) :
    p.collect (len :: rest) b = p.takeFrame (0xC3#8 :: len :: rest ++ [b]) := by
  have range : ¬(len.toNat < 5 ∨ 240 < len.toNat) := by omega
  have all : (len :: rest ++ [b]).length = len.toNat + 3 := by simp; omega
  exact (if_neg range).trans (if_pos all)

end

end Sys2Proof.Machine.Part

open Sys2Proof.Machine Sys2Proof.Machine.Part

/-- Settles O14: a bad frame leaves the assembler HUNTING (`takeFrame_bad`), a good one is placed (`placeFrame_own`). -/
theorem assembledFramesArePlaced : Obligations.AssembledFramesArePlaced := by
  intro s bytes works ends q
  refine ⟨fun bad => completes_of rfl works (takeFrame_bad _ bad), fun f good => ?_⟩
  have placed : Completes (.frameAssembled bytes) s (q.placeFrame f) := completes_of rfl works (takeFrame_good _ good)
  have places := placeFrame_places (Completes (.frameAssembled bytes) s) placed
  simp only [holdBusy_eq] at places
  exact places

/-- Settles O15: the assembler by its state, the pause and the stop bit (`receiveChar_hunting` and those after it), and a frame's last
byte (`collect_last`) as O14 places a frame. -/
theorem uplinkCharactersMoveTheAssembler : Obligations.UplinkCharactersMoveTheAssembler := by
  intro s b mark pause works ends leaves examined
  refine ⟨fun hunting => completes_of rfl works (receiveChar_hunting _ b mark pause hunting), fun got assembling => ⟨fun late =>
    completes_of rfl works (receiveChar_late _ b assembling mark late), ?_, ?_, ?_, ?_⟩⟩
  · rintro soon rfl
    exact completes_of rfl works (receiveChar_noStop _ b assembling soon)
  · rintro soon rfl rfl bad
    exact completes_of rfl works ((receiveChar_collects _ b assembling soon).trans (collect_badLength _ b bad))
  · rintro soon rfl rfl low high
    exact completes_of rfl works ((receiveChar_collects _ b assembling soon).trans (collect_length _ b low high))
  · rintro len rest soon rfl rfl low high
    have collects {r : Part} (e : (s.part.stampByte (s.part.uplink.lastByte + pause + 50)).collect (len :: rest) b = r) :
        Completes (.uplinkCharacterReceived b true pause) s r :=
      completes_of rfl works ((receiveChar_collects _ b assembling soon).trans e)
    refine ⟨fun short => collects (collect_more _ b rest low high short), fun whole bad =>
      collects ((collect_last _ b rest low high whole).trans (takeFrame_bad _ bad)), fun f whole good => ?_⟩
    intro q
    have placed : Completes (.uplinkCharacterReceived b true pause) s (q.placeFrame f) :=
      collects ((collect_last _ b rest low high whole).trans (takeFrame_good _ good))
    have places := placeFrame_places (Completes (.uplinkCharacterReceived b true pause) s) placed
    simp only [holdBusy_eq] at places
    exact places
end

section
/-! CERTIFICATE. The request handler: the checks of R190 (O18), the oldest frame and the pending restart (O52), and SET ORIGINATOR
(O25). -/
namespace Sys2Proof.Machine

/-- Every code's command decides the frames of that code (R189). -/
theorem exec_command (c : Code) (order : List Block) :
    ∃ own : OriginatorNo → SlotNo → Frame → Part → Part, ∀ s, exec (c.command order) s = act (fun p => p.decide c own) s := by
  cases c <;> exact ⟨_, fun _ => rfl⟩

/-! ## The form of a frame (R190, check 1; R198) -/

theorem Code.formHolds_iff (c : Code) (f : Frame) :
    c.formHolds f = true ↔ c.paramLength f = some f.params.length ∧ (c = .loadDoor → f.param 5 < 8 ∧ f.param 6 < 16) := by
  rw [formHolds, Bool.and_eq_true, decide_eq_true_eq]
  refine and_congr_right fun _ => ?_
  cases c with
  | loadDoor => simp [reservedClear]
  | _ => exact ⟨fun _ => nofun, fun _ => rfl⟩

/-! ## The ranges of the parameters (R190, check 4) -/

theorem lt_240_iff (n : Nat) : n < 240 ↔ n ≤ 239 := Nat.lt_succ_iff

theorem lt_10080_iff (n : Nat) : n < 10080 ↔ n ≤ 10079 := Nat.lt_succ_iff

theorem Code.inRange_loadDoor (f : Frame) :
    Code.loadDoor.inRange f = true ↔
      f.door.toNat ≤ 239 ∧ f.param 0 ≤ 1 ∧ f.param 1 ≤ 3 ∧ (1 ≤ f.param 2 ∧ f.param 2 ≤ 60) ∧ f.param 3 ≤ 31 ∧ f.param 4 ≤ 2 ∧
        (2 ≤ f.param 7 ∧ f.param 7 ≤ 50) ∧ 5 ≤ f.param16 8 ∧ f.param16 8 ≤ 600 := by
  simp [Code.inRange, Code.namesDoor, lt_240_iff, and_assoc]

theorem Code.inRange_createException (f : Frame) :
    Code.createException.inRange f = true ↔
      f.param16 0 ≤ 10079 ∧ (f.param 2 = 1 → f.param 3 ≤ 31) ∧
        (f.param 2 ≠ 1 → (1 ≤ f.param 3 ∧ f.param 3 ≤ 12) ∧ ∀ b ∈ f.params.drop 4, b.toNat ≤ 239) := by
  by_cases group : f.param 2 = 1
  · simp [Code.inRange, Code.namesDoor, lt_10080_iff, group]
  · simp [Code.inRange, Code.namesDoor, lt_240_iff, lt_10080_iff, group]

/-! ## The header of a frame (R190, check 1; R198) -/

theorem doorCommandCode_isSome (b : Byte) :
    (doorCommandCode b).isSome = true ↔ b ∈ ([0x40#8, 0x41#8, 0x42#8, 0x43#8, 0x44#8, 0x45#8] : List Byte) := by
  simp only [doorCommandCode, List.find?_isSome, decide_eq_true_eq]
  simp [Code.value, eq_comm (a := b)]

/-- The requests that name a door are LOAD DOOR, WITHDRAW DOOR, RESTORE DOOR and READ DOOR (R198). -/
theorem requestCode_namesDoor (b : Byte) :
    (requestCode b).any (·.namesDoor) = true ↔ b ∈ ([0x10#8, 0x11#8, 0x12#8, 0x30#8] : List Byte) := by
  constructor
  · intro h
    obtain ⟨c, carried, names⟩ := (Option.any_eq_true ..).1 h
    have request : c ∈ _ := List.mem_of_find?_eq_some carried
    obtain rfl := requestCode_value carried
    revert names request
    cases c <;> decide
  · simp only [List.mem_cons, List.not_mem_nil, or_false]
    rintro (rfl | rfl | rfl | rfl) <;> rfl

/-- A frame names a door as a DOOR COMMAND or by its code (R198; log 21). -/
theorem Frame.namesDoor_iff (f : Frame) :
    f.namesDoor = true ↔
      f.kind = 0x02#8 ∨
        f.code ∈ ([0x10#8, 0x11#8, 0x12#8, 0x30#8, 0x40#8, 0x41#8, 0x42#8, 0x43#8, 0x44#8, 0x45#8] : List Byte) := by
  rw [show ([0x10#8, 0x11#8, 0x12#8, 0x30#8, 0x40#8, 0x41#8, 0x42#8, 0x43#8, 0x44#8, 0x45#8] : List Byte) =
    [0x10#8, 0x11#8, 0x12#8, 0x30#8] ++ [0x40#8, 0x41#8, 0x42#8, 0x43#8, 0x44#8, 0x45#8] from rfl, List.mem_append,
    ← requestCode_namesDoor, ← doorCommandCode_isSome, namesDoor, Bool.or_eq_true, Bool.or_eq_true, decide_eq_true_eq, or_assoc,
    or_comm (a := (doorCommandCode f.code).isSome = true)]
  rfl

theorem Frame.headerHolds_iff (f : Frame) :
    f.headerHolds = true ↔ (f.kind = 0x01#8 ∨ f.kind = 0x02#8) ∧ (f.namesDoor = true ∨ f.door = 0xFF#8) := by
  simp only [headerHolds, Bool.and_eq_true, Bool.or_eq_true, decide_eq_true_eq]
  rfl

/-- A known code stands in a REQUEST or in a DOOR COMMAND (11.2). -/
theorem Frame.kind_of_known {f : Frame} {c : Code} (h : f.known = some c) : f.kind = 0x01#8 ∨ f.kind = 0x02#8 := by
  unfold known at h
  split at h
  · next request => exact .inl request
  · split at h
    · next command => exact .inr command
    · cases h

namespace Frame
variable {f : Frame}

theorem verdict_badHeader (h : ¬f.headerHolds = true) : f.verdict = .error .malformed := if_neg h

theorem verdict_badForm {c : Code} (known : f.known = some c) (form : c.formHolds f = false) : f.verdict = .error .malformed := by
  by_cases header : f.headerHolds = true
  · simp [verdict, header, known, form]
  · exact verdict_badHeader header

theorem verdict_unknown (header : f.headerHolds = true) (known : f.known = none) : f.verdict = .error .unknownRequest := by
  simp [verdict, header, known]

theorem verdict_ok {c : Code} (header : f.headerHolds = true) (known : f.known = some c) (form : c.formHolds f = true) :
    f.verdict = .ok c := by
  simp [verdict, header, known, form]

end Frame

/-- The next frame is refused where it fails check 1 or 2 (R190). -/
theorem completes_unknownRequest {s : State} {o : OriginatorNo} {i : SlotNo} {f : Frame} {a : Time} {c : Completion}
    (works : s.part.working = true) (next : s.part.nextFrame = some (o, i, f)) (waits : s.part.slot o i = .waiting f a)
    (failed : f.verdict = .error c) : Completes .unknownRequest s (s.part.withAnswer o i f a c [] (some i.val)) := by
  refine completes_of (f := Part.decideUnknown) rfl works ?_
  simp only [Part.decideUnknown, next, failed]
  exact s.part.answer_eq o i c [] (some i.val) (.inl waits)

/-! ## Authority (R183) -/

theorem OriginatorRecord.holds_eq_false (r : OriginatorRecord) (level : Authority) :
    r.holds level = false ↔ r.enabled = false ∨ r.authority.code < level.code := by
  rw [holds, Bool.and_eq_false_iff, decide_eq_false_iff_not, Nat.not_le]

theorem OriginatorRecord.holds_iff (r : OriginatorRecord) (level : Authority) :
    r.holds level = true ↔ r.enabled = true ∧ level.code ≤ r.authority.code := by
  simp [holds]

/-! ## The oldest WAITING frame (R189) -/

/-- A WAITING frame with its place and its arrival. -/
abbrev WaitingFrame := OriginatorNo × SlotNo × Frame × Time

/-- What the handler's search holds after one more frame: that frame if it came earlier than the one held. -/
def earlier (best : Option WaitingFrame) (x : WaitingFrame) : Option WaitingFrame :=
  match best with
  | none => some x
  | some b => if x.2.2.2 < b.2.2.2 then some x else some b

/-- A search that holds a frame ends with one of the earliest. -/
theorem foldl_earlier_some (b : WaitingFrame) (xs : List WaitingFrame) :
    ∃ x, xs.foldl earlier (some b) = some x ∧ x ∈ b :: xs ∧ ∀ y ∈ b :: xs, x.2.2.2 ≤ y.2.2.2 := by
  induction xs generalizing b with
  | nil => exact ⟨b, rfl, List.mem_singleton_self b, fun y mem => List.mem_singleton.1 mem ▸ Nat.le_refl _⟩
  | cons x xs ih =>
    rw [List.foldl_cons, earlier]
    split
    · next before =>
      obtain ⟨z, found, mem, least⟩ := ih x
      refine ⟨z, found, List.mem_cons_of_mem b mem, List.forall_mem_cons.2 ⟨?_, least⟩⟩
      exact Nat.le_trans (least x List.mem_cons_self) (Nat.le_of_lt before)
    · next notBefore =>
      obtain ⟨z, found, mem, least⟩ := ih b
      obtain ⟨leastOld, leastRest⟩ := List.forall_mem_cons.1 least
      refine ⟨z, found, ?_, List.forall_mem_cons.2 ⟨leastOld, List.forall_mem_cons.2 ⟨?_, leastRest⟩⟩⟩
      · exact (List.mem_cons.1 mem).elim (fun old => old ▸ List.mem_cons_self) fun mem =>
          List.mem_cons_of_mem b (List.mem_cons_of_mem x mem)
      · exact Nat.le_trans leastOld (Nat.le_of_not_lt notBefore)

theorem foldl_earlier {xs : List WaitingFrame} (any : xs ≠ []) :
    ∃ x, xs.foldl earlier none = some x ∧ x ∈ xs ∧ ∀ y ∈ xs, x.2.2.2 ≤ y.2.2.2 := by
  cases xs with
  | nil => exact absurd rfl any
  | cons x xs => exact foldl_earlier_some x xs

namespace Part

theorem mem_allSlots (o : OriginatorNo) (i : SlotNo) : (o, i) ∈ allSlots := by simp [allSlots]

theorem mem_waitingFrames {p : Part} {o : OriginatorNo} {i : SlotNo} {f : Frame} {a : Time} :
    (o, i, f, a) ∈ p.waitingFrames ↔ p.slot o i = .waiting f a := by
  unfold waitingFrames
  rw [List.mem_filterMap]
  constructor
  · rintro ⟨⟨o', i'⟩, -, h⟩
    dsimp only at h
    split at h
    · next waits =>
      cases h
      exact waits
    · cases h
  · intro waits
    exact ⟨(o, i), mem_allSlots o i, by simp only [waits]⟩

theorem nextFrame_eq {p : Part} (stays : p.uplink.restartPending = false) :
    p.nextFrame = (p.waitingFrames.foldl earlier none).map fun x => (x.1, x.2.1, x.2.2.1) := by
  rw [nextFrame, if_neg (Bool.eq_false_iff.1 stays)]
  refine congrArg (Option.map _) (congrArg (List.foldl · none p.waitingFrames) (funext fun best => funext fun x => ?_))
  cases best <;> rfl

/-- With no restart pending and a frame that waits, the handler takes one whose arrival is the earliest (R189). -/
theorem nextFrame_earliest {p : Part} (stays : p.uplink.restartPending = false) (waiting : p.waitingFrames ≠ []) :
    ∃ o i f a, p.nextFrame = some (o, i, f) ∧ p.slot o i = .waiting f a ∧
      ∀ o' i' f' a', p.slot o' i' = .waiting f' a' → a ≤ a' := by
  obtain ⟨⟨o, i, f, a⟩, found, mem, least⟩ := foldl_earlier waiting
  refine ⟨o, i, f, a, ?_, mem_waitingFrames.1 mem, fun o' i' f' a' waits => least (o', i', f', a') (mem_waitingFrames.2 waits)⟩
  rw [nextFrame_eq stays, found]
  rfl

/-- With none that waits there is nothing to take. -/
theorem nextFrame_none {p : Part} (h : p.waitingFrames = []) : p.nextFrame = none := by
  rw [nextFrame, h]
  exact ite_self none

theorem nextFrame_oldest {p : Part} (stays : p.uplink.restartPending = false) {o : OriginatorNo} {i : SlotNo} {f : Frame}
    (h : p.nextFrame = some (o, i, f)) :
    ∃ a, p.slot o i = .waiting f a ∧ ∀ o' i' f' a', p.slot o' i' = .waiting f' a' → a ≤ a' := by
  have waiting : p.waitingFrames ≠ [] := fun idle => by rw [nextFrame_none idle] at h; cases h
  obtain ⟨_, _, _, a, found, waits, least⟩ := nextFrame_earliest stays waiting
  cases found.symm.trans h
  exact ⟨a, waits, least⟩

theorem nextFrame_of_waiting {p : Part} (stays : p.uplink.restartPending = false) {o : OriginatorNo} {i : SlotNo} {f : Frame} {a : Time}
    (waits : p.slot o i = .waiting f a) : ∃ x, p.nextFrame = some x := by
  obtain ⟨_, _, _, _, found, -⟩ := nextFrame_earliest stays (List.ne_nil_of_mem (mem_waitingFrames.2 waits))
  exact ⟨_, found⟩

theorem nextFrame_pending {p : Part} (h : p.uplink.restartPending = true) : p.nextFrame = none := if_pos h

/-- With no frame to take, no command of the handler has an occasion (log 1). -/
theorem decide_idle {p : Part} (h : p.nextFrame = none) (c : Code) (own : OriginatorNo → SlotNo → Frame → Part → Part) :
    p.decide c own = p := by
  simp only [decide, h]

theorem decideUnknown_idle {p : Part} (h : p.nextFrame = none) : p.decideUnknown = p := by
  simp only [decideUnknown, h]

/-- RESTART PART answers OK and marks the restart pending (R193). -/
theorem markRestart_eq {p : Part} {o : OriginatorNo} {i : SlotNo} {f : Frame} {a : Time} (waits : p.slot o i = .waiting f a) :
    markRestart o i f p = { p with uplink := { p.uplink with restartPending := true } }.withAnswer o i f a .ok [] none := by
  rw [markRestart, answerOk, p.answer_eq o i .ok [] none (.inl waits)]
  rfl

end Part

/-! ## SET ORIGINATOR (R184) -/

theorem authorityOf_code (x : Authority) : authorityOf x.code = x := by cases x <;> rfl

theorem Code.inRange_setOriginator (f : Frame) :
    Code.setOriginator.inRange f = true ↔ f.param 0 ≤ 3 ∧ f.param 1 ≤ 1 ∧ 1 ≤ f.param 2 ∧ f.param 2 ≤ 3 := by
  simp [Code.inRange, Code.namesDoor, and_assoc]

/-- Some originator of a table is enabled with ADMINISTER. -/
theorem any_administers_iff (table : Vector OriginatorRecord 4) :
    (table.toList.any fun r => r.enabled && r.authority = .administer) = true ↔
      ∃ k : OriginatorNo, table[k] = { enabled := true, authority := .administer } := by
  have record (r : OriginatorRecord) :
      (r.enabled && decide (r.authority = .administer)) = true ↔ r = { enabled := true, authority := .administer } := by
    cases r
    simp
  simp only [List.any_eq_true, record, exists_eq_right, Vector.mem_toList_iff, Vector.mem_iff_getElem]
  exact ⟨fun ⟨k, small, found⟩ => ⟨⟨k, small⟩, found⟩, fun ⟨k, found⟩ => ⟨k, k.isLt, found⟩⟩

namespace Part

section
variable (p : Part) (o : OriginatorNo) (i : SlotNo) {f : Frame} {table : Vector OriginatorRecord 4}
  (written : p.uplink.originators.set (Fin.ofNat 4 (f.param 0)) { enabled := f.param 1 = 1, authority := authorityOf (f.param 2) } = table)
include written

theorem setOriginator_refused (lost : ∀ k : OriginatorNo, table[k] ≠ { enabled := true, authority := .administer }) :
    p.setOriginator o i f = p.refuse o i .state := by
  have refuses : ¬(table.toList.any fun r => r.enabled && r.authority = .administer) = true := fun k =>
    ((any_administers_iff table).1 k).elim lost
  rw [setOriginator, written, if_neg refuses]

theorem setOriginator_ok (kept : ∃ k : OriginatorNo, table[k] = { enabled := true, authority := .administer }) :
    p.setOriginator o i f = { p with uplink := { p.uplink with originators := table } }.answerOk o i [] := by
  rw [setOriginator, written, if_pos ((any_administers_iff table).2 kept)]

end

end Part

end Sys2Proof.Machine

open Sys2Proof.Machine Sys2Proof.Machine.Part

/-- Settles O18: the form and the ranges by the code, then the verdict of checks 1 and 2 by the check that fails, and checks 3 and 4 as
`Asks.authority` and `Asks.range` refuse a frame. -/
theorem theFirstFourChecksNameTheRefusal : Obligations.TheFirstFourChecksNameTheRefusal := by
  refine ⟨Code.formHolds_iff, fun c f => ?_, fun s o i f a works next waits => ?_⟩
  · intro door upTo within minute
    cases c with
    | loadDoor => exact Code.inRange_loadDoor f
    | createException => exact Code.inRange_createException f
    | _ => simp [Code.inRange, Code.namesDoor, Frame.param16, door, upTo, within, minute, lt_240_iff, lt_10080_iff, and_assoc]
  · intro namesDoor
    have named : namesDoor ↔ f.namesDoor = true := f.namesDoor_iff.symm
    have refused {c : Completion} (failed : f.verdict = .error c) := completes_unknownRequest works next waits failed
    refine ⟨fun noRequest noCommand => refused (Frame.verdict_badHeader fun header => ?_), fun unnamed byte =>
      refused (Frame.verdict_badHeader fun header => ?_), fun c known form => refused (Frame.verdict_badForm known form),
      fun kind byte unknown => refused (Frame.verdict_unknown (f.headerHolds_iff.2 ⟨kind, byte.imp_left named.1⟩) unknown),
      fun c order known byte form => ?_⟩
    · exact (f.headerHolds_iff.1 header).1.elim noRequest noCommand
    · exact (f.headerHolds_iff.1 header).2.elim (fun k => unnamed (named.2 k)) byte
    · have header : f.headerHolds = true := f.headerHolds_iff.2 ⟨Frame.kind_of_known known, byte.imp_left named.1⟩
      have asks : Asks s c o i f a := ⟨works, next, waits, Frame.verdict_ok header known form⟩
      obtain ⟨own, decides⟩ := exec_command c order
      exact ⟨fun low => asks.authority (decides s) ((OriginatorRecord.holds_eq_false ..).2 low),
        fun on level out => asks.range (decides s) ((OriginatorRecord.holds_iff ..).2 ⟨on, level⟩) out⟩

/-- Settles O52: the handler's search finds the earliest arrival (`nextFrame_earliest`), and with a restart pending finds no frame. -/
theorem theOldestFrameIsDecidedUntilARestart : Obligations.TheOldestFrameIsDecidedUntilARestart := by
  refine ⟨fun p stays => ⟨fun o i f => nextFrame_oldest stays, fun o i f a => nextFrame_of_waiting stays⟩, fun s o i f a h =>
    h.completes rfl (markRestart_eq h.waits), fun s c order works pending => ?_⟩
  have idle := nextFrame_pending pending
  obtain ⟨own, decides⟩ := exec_command c order
  exact ⟨idle, completes_of (decides s) works (decide_idle idle c own), completes_of rfl works (decideUnknown_idle idle)⟩

/-- Settles O25: the level and the ranges by checks 3 and 4, then the table that SET ORIGINATOR would leave
(`setOriginator_refused`, `setOriginator_ok`). -/
theorem setOriginatorKeepsAnAdministrator : Obligations.SetOriginatorKeepsAnAdministrator := by
  intro s o i f a h p
  have level : p.holds o Code.setOriginator.authority = true ↔ p.originator o = { enabled := true, authority := .administer } :=
    OriginatorRecord.holds_administer _
  refine ⟨fun low => h.authority rfl (Bool.eq_false_iff.2 fun k => low (level.1 k)), fun high => ⟨fun out => ?_, ?_⟩⟩
  · refine h.range rfl (level.2 high) (Bool.eq_false_iff.2 fun k => ?_)
    obtain ⟨number, enabled, low, authority⟩ := (Code.inRange_setOriginator f).1 k
    omega
  · intro n e x number enabled authority table
    have authority : f.param 2 = x.code := authority.trans (by cases x <;> rfl)
    have decides : Decides s .setOriginator o i f a := ⟨h, level.2 high, (Code.inRange_setOriginator f).2 ?_⟩
    · have written : p.uplink.originators.set (Fin.ofNat 4 (f.param 0))
          { enabled := f.param 1 = 1, authority := authorityOf (f.param 2) } = table := by
        simp only [ofNat_eq_of_val number, authority, authorityOf_code, enabled]
        cases e <;> rfl
      refine ⟨fun lost => decides.completes rfl ?_, fun kept => decides.completes rfl ?_⟩
      · rw [setOriginator_refused p o i written lost]
        exact decides.answer rfl ..
      · rw [setOriginator_ok p o i written kept]
        exact decides.answer (q := { p with uplink := { p.uplink with originators := table } }) rfl ..
    · have enabled1 : f.param 1 ≤ 1 := by rw [enabled]; cases e <;> decide
      have authority3 : 1 ≤ x.code ∧ x.code ≤ 3 := by cases x <;> decide
      omega
end

section
/-! CERTIFICATE. The two CRCs (O9), and the codes of the frames and of their fields (O19). -/
namespace Sys2Proof.Machine

/-! ## The CRC-16 in a frame (11.1, R202) -/

/-- The two bytes in which a CRC-16 is sent, its high byte first (R199). -/
theorem be16_toNat (c : BitVec 16) : be16 c.toNat = [(c >>> 8).setWidth 8, c.setWidth 8] := by
  have high : byte (c.toNat / 256) = (c >>> 8).setWidth 8 := by
    apply BitVec.eq_of_toNat_eq
    rw [byte_toNat_mod, BitVec.toNat_setWidth, BitVec.toNat_ushiftRight, Nat.shiftRight_eq_div_pow]
  have low : byte c.toNat = c.setWidth 8 := BitVec.ofNat_toNat 8 c
  rw [be16, high, low]

/-- Bytes whose length holds give a frame just where their last two are the CRC-16 of those after the start byte (R202). -/
theorem frameOfBytes_eq_ite {len kind originator tag code door high low : Byte} {params : List Byte} (least : 5 ≤ len.toNat)
    (most : len.toNat ≤ 240) (counted : (kind :: originator :: tag :: code :: door :: params).length = len.toNat) :
    frameOfBytes (0xC3#8 :: len :: (kind :: originator :: tag :: code :: door :: params ++ [high, low])) =
      if [high, low] = be16 (crc16 (len :: kind :: originator :: tag :: code :: door :: params)).toNat then
        some ⟨kind, originator, tag, code, door, params⟩
      else none := by
  split
  · next crc => rw [crc, frameOfBytes_body least most counted]
  · next crc =>
    refine Option.eq_none_iff_forall_ne_some.2 fun f taken => crc ?_
    obtain ⟨len', -, -, bytes⟩ := frameOfBytes_eq_some taken
    obtain ⟨-, rfl, rest⟩ := List.cons_eq_cons.1 bytes |>.imp_right List.cons_eq_cons.1
    obtain ⟨body, last⟩ := List.append_inj' rest rfl
    rw [last, body]

/-! ## The codes of requests and of door commands (11.2) -/

theorem Frame.known_request {f : Frame} (kind : f.kind = 0x01#8) : f.known = requestCode f.code := if_pos kind

theorem Frame.known_doorCommand {f : Frame} (kind : f.kind = 0x02#8) : f.known = doorCommandCode f.code := by
  have other : ¬f.kind = requestKind := by rw [kind]; decide
  rw [known, if_neg other]
  exact if_pos kind

/-- The frame whose bytes are all zero, without parameters. -/
def Frame.blank : Frame := ⟨0#8, 0#8, 0#8, 0#8, 0#8, []⟩

/-- Only CREATE EXCEPTION has a length that its own bytes decide (11.2), so that every other code's is read off the blank frame. -/
theorem Code.paramLength_blank {c : Code} (fixed : c ≠ .createException) (f : Frame) : c.paramLength f = c.paramLength .blank := by
  cases c with
  | createException => exact absurd rfl fixed
  | _ => rfl

/-- A row of the table of 11.2, the code's length being fixed: the byte, the code it names, its level and the length. -/
abbrev Code.Row (names : Byte → Option Code) (x : Byte × Code × Authority × Nat) : Prop :=
  names x.1 = some x.2.1 ∧ x.2.1.authority = x.2.2.1 ∧ x.2.1 ≠ .createException ∧ x.2.1.paramLength .blank = some x.2.2.2

/-- What a table's rows say holds of every frame that carries their bytes, where `names` is how the frame's kind reads its code byte. -/
theorem Frame.carries_of_rows {names : Byte → Option Code} {table : List (Byte × Code × Authority × Nat)} {kind : Byte}
    (rows : ∀ x ∈ table, Code.Row names x) (reads : ∀ {f : Frame}, f.kind = kind → f.known = names f.code) :
    ∀ x ∈ table, ∀ f : Frame, f.kind = kind → f.code = x.1 →
      f.known = some x.2.1 ∧ x.2.1.authority = x.2.2.1 ∧ x.2.1.paramLength f = some x.2.2.2 := by
  intro x mem f ofKind code
  obtain ⟨named, level, fixed, length⟩ := rows x mem
  exact ⟨by rw [reads ofKind, code, named], level, (Code.paramLength_blank fixed f).trans length⟩

/-- The bytes of 11.2 that name a request stand in four runs. -/
theorem requestCode_range {b : Byte} {c : Code} (h : requestCode b = some c) :
    0x10 ≤ b.toNat ∧ b.toNat ≤ 0x18 ∨ 0x20 ≤ b.toNat ∧ b.toNat ≤ 0x2C ∨ 0x30 ≤ b.toNat ∧ b.toNat ≤ 0x39 ∨ b.toNat = 0x3F := by
  have request : c ∈ _ := List.mem_of_find?_eq_some h
  obtain rfl := requestCode_value h
  revert request
  cases c <;> decide

/-- The bytes of 11.2 that name a door command are one run. -/
theorem doorCommandCode_range {b : Byte} {c : Code} (h : doorCommandCode b = some c) : 0x40 ≤ b.toNat ∧ b.toNat ≤ 0x45 := by
  have run : ∀ b ∈ ([0x40#8, 0x41#8, 0x42#8, 0x43#8, 0x44#8, 0x45#8] : List Byte), 0x40 ≤ b.toNat ∧ b.toNat ≤ 0x45 := by decide
  exact run b ((doorCommandCode_isSome b).1 (Option.isSome_of_mem h))

end Sys2Proof.Machine

open Sys2Proof.Machine

/-- Settles O9: both CRCs take their bytes one by one (`List.foldl_append`), the uplink's stands high byte first (`be16_toNat`), and a
frame's bytes are taken just where it does (`frameOfBytes_eq_ite`). -/
theorem theTwoChecks : Obligations.TheTwoChecks := by
  refine ⟨rfl, fun bytes b => List.foldl_append, rfl, fun bytes b => List.foldl_append, fun k o t c d ps => ?_,
    fun len k o t c d ps high low least most counted => ?_, by decide +kernel, by decide +kernel⟩
  · intro covered
    rw [← be16_toNat]
    rfl
  · intro covered
    have matches_iff : [high, low] = be16 (crc16 covered).toNat ↔
        high = (crc16 covered >>> 8).setWidth 8 ∧ low = (crc16 covered).setWidth 8 := by
      simp [be16_toNat]
    simp only [← matches_iff]
    exact frameOfBytes_eq_ite least most counted

/-- Settles O19: the tables are read row by row (`Frame.carries_of_rows`), a known code's byte stands in the runs of its kind
(`requestCode_range`, `doorCommandCode_range`), and the codes of the values are those of the definitions. -/
theorem theCodesAreThoseOfTheTable : Obligations.TheCodesAreThoseOfTheTable := by
  refine ⟨Frame.carries_of_rows (by decide) Frame.known_request, Frame.carries_of_rows (by decide) Frame.known_doorCommand,
    fun f kind code => ?_, fun f known => ?_, by decide, by decide, by decide⟩
  · rw [Frame.known_request kind, code]
    exact ⟨rfl, rfl, rfl⟩
  · obtain ⟨c, carried⟩ := Option.ne_none_iff_exists'.1 known
    rcases Frame.kind_of_known carried with kind | kind
    · exact .inl ⟨kind, requestCode_range ((Frame.known_request kind).symm.trans carried)⟩
    · exact .inr ⟨kind, doorCommandCode_range ((Frame.known_doorCommand kind).symm.trans carried)⟩
end

section
/-! CERTIFICATE. What one step runs (O1). -/
namespace Sys2Proof.Machine

/-- An idle step moves the time alone, by one millisecond, and a held part's time stands (log 3). -/
theorem Part.tick_eq (p : Part) : p.tick = { p with now := if p.working then p.now + 576 else p.now } := by
  unfold Part.tick
  cases p.working with
  | true => rfl
  | false => rfl

/-- A step with commands waiting runs the front one, with the queue's rest still waiting. -/
theorem step_of_pending_cons {s : State} {c : Instr} {rest : List Instr} (h : s.pending = c :: rest) :
    step s = exec c { s with pending := rest } := by
  simp only [step, h]

/-- A step with no command waiting lets time pass and does nothing else. -/
theorem step_of_pending_nil {s : State} (h : s.pending = []) : step s = .next { s with part := s.part.tick } := by
  simp only [step, h]

end Sys2Proof.Machine

open Sys2Proof.Machine

/-- Settles O1: with a command waiting the step is its `exec` on the rest (`step_of_pending_cons`); with none it is a tick
(`step_of_pending_nil`), which adds 576 to a working part's time (`Part.tick_eq`). -/
theorem stepRunsTheFrontCommand : Obligations.StepRunsTheFrontCommand := by
  refine ⟨fun c rest p => step_of_pending_cons rfl, fun p => ?_⟩
  rw [step_of_pending_nil rfl, Part.tick_eq]
end
